-- ==== Sys2Proof/Word.lean ====
section
/-! DEFINITION. The word types of the Sorub: instruction words and registers are 32 bits (R130, Table 2.1),
memory is bytes (R5). -/

namespace Sys2Proof

/-- A 32-bit register or instruction word (R130, Table 2.1). -/
abbrev Word := BitVec 32

/-- The smallest addressable unit of every memory (R5). -/
abbrev Byte := BitVec 8

end Sys2Proof
end

