-- ==== Sys2Proof/Syntax.lean ====
section
/-! DEFINITION. The instruction words of Linroth 2 (spec/07, Tables 7.1 to 7.12) and the device steps of
spec/opcode_table.json, one constructor a row. Register numbers, types, modes and conditions are constructors here; the
machine never sees a raw encoding. -/

namespace Sys2Proof

/-- The header bits of an instruction word (Table 7.1): the encoding version (true = 1, false = 0), chain and sw. -/
structure Hdr where
  v1 : Bool
  chain : Bool
  sw : Bool
deriving DecidableEq, Repr

/-- A pattern read (R48): pattern `g` with parameter `p`. -/
structure Pat where
  g : Fin 4
  p : Fin 8
deriving DecidableEq, Repr

/-- A 7-bit operand code (Table 2.4). -/
inductive Opnd
  | v (n : Fin 64)
  | t (n : Fin 8)
  | k (n : Fin 16)
  | c (n : Fin 8)
  | pat (q : Pat)
deriving DecidableEq, Repr

/-- Type codes 0 to 14 (Table 7.3). -/
inductive Ty
  | b32 | s32 | z32 | b64 | s8 | s16 | z8 | z16 | f32 | f16 | bf16 | e4m3 | e5m2 | s4 | z4
deriving DecidableEq, Repr

/-- Rounding modes (Table 6.4). -/
inductive Rm
  | rne | rtz | rdn | rup | sr
deriving DecidableEq, Repr

/-- Conditions (Table 7.4). -/
inductive Cond
  | eq | ne | hs | lo | mi | pl | vs | vc | hi | ls | ge | lt | gt | le | ab | al
deriving DecidableEq, Repr

/-- Orders (Table 7.5). -/
inductive Ord
  | relaxed | acq | rel | acqrel
deriving DecidableEq, Repr

/-- Scopes (Table 7.5). -/
inductive Scope
  | wg | plot | dev | sys
deriving DecidableEq, Repr

/-- Memory access types (Table 7.5). -/
inductive MemTy
  | b8 | b16 | b32 | b64 | s8 | s16
deriving DecidableEq, Repr

/-- Atomic operations (Table 7.7). -/
inductive Aop
  | add | sub | min | max | maxi | and | or | xor | exch | cas
deriving DecidableEq, Repr

/-- Functions of RED and SCAN (Table 7.10). -/
inductive RedFn
  | add | min | max | maxi | and | or
deriving DecidableEq, Repr

/-- Types of RED and SCAN (Table 7.10). -/
inductive RedTy
  | s32 | z32 | f32 | b32
deriving DecidableEq, Repr

/-- Float formats of a conversion (Table 7.11). -/
inductive FFmt
  | f32 | f16 | bf16 | e4m3 | e5m2 | e3m2 | e2m3 | e2m1 | e8m0
deriving DecidableEq, Repr

/-- Integer formats of a conversion (Table 7.11). -/
inductive IFmt
  | s32 | z32 | s16 | z16 | s8 | z8 | s4 | z4
deriving DecidableEq, Repr

/-- Status codes of SREAD (Table 2.8). -/
inductive SCode
  | lane | width | tid | wgid | plot | stage | tag | core | cycle
deriving DecidableEq, Repr

/-- Fence kinds (R151). -/
inductive FenceKind
  | acq | rel | acqrel | sc
deriving DecidableEq, Repr

/-- Barrier kinds (R151). -/
inductive BarKind
  | sync | arrive | wait
deriving DecidableEq, Repr

/-- What a TRAIL field names (format FT): a register, CC, nothing, or one of the codes 64 to 125 that trap (R184). -/
inductive TrailName
  | v (n : Fin 64)
  | bad (n : Fin 62)
  | cc
  | none
deriving DecidableEq, Repr

/-- A MOD extension (Table 7.2). `c` is the third operand, used when `cuse` is true. `cond` is a condition or a sub-element
index; `ty` is a type or, for DOT4 and DOT8, a pair code (R148). -/
structure Mod where
  c : Opnd
  cuse : Bool
  rm : Rm
  cc : Bool
  sat : Bool
  cond : Fin 16
  ty : Ty
deriving DecidableEq, Repr

/-- A MEM extension (Table 7.2). -/
structure MemX where
  ord : Ord
  scope : Scope
  eoff : BitVec 22
deriving DecidableEq, Repr

/-- An ATM extension (Table 7.2). -/
structure Atm where
  aop : Aop
  ty : Ty
  ord : Ord
  scope : Scope
  eoff : BitVec 14
deriving DecidableEq, Repr

/-- The instructions: one constructor per row of spec/opcode_table.json. The first 113 are instruction words; the rest are steps
of the device or its surroundings, which have no encoding and fall due through the machine's agenda. -/
inductive Instr
  -- integer words (Table 8.1)
  | nop (h : Hdr) (bud : BitVec 9)
  | add (h : Hdr) (d a b : Opnd) (m : Option Mod)
  | sub (h : Hdr) (d a b : Opnd) (m : Option Mod)
  | addc (h : Hdr) (d a b : Opnd) (m : Option Mod)
  | subb (h : Hdr) (d a b : Opnd) (m : Option Mod)
  | mul (h : Hdr) (d a b : Opnd) (m : Option Mod)
  | mulhiS32 (h : Hdr) (d a b : Opnd) (m : Option Mod)
  | mulhiZ32 (h : Hdr) (d a b : Opnd) (m : Option Mod)
  | mad (h : Hdr) (d a b : Opnd) (m : Option Mod)
  | shl (h : Hdr) (d a b : Opnd) (m : Option Mod)
  | shr (h : Hdr) (d a b : Opnd) (m : Option Mod)
  | sar (h : Hdr) (d a b : Opnd) (m : Option Mod)
  | rot (h : Hdr) (d a b : Opnd) (m : Option Mod)
  | and (h : Hdr) (d a b : Opnd) (m : Option Mod)
  | or (h : Hdr) (d a b : Opnd) (m : Option Mod)
  | xor (h : Hdr) (d a b : Opnd) (m : Option Mod)
  | andn (h : Hdr) (d a b : Opnd) (m : Option Mod)
  | minS32 (h : Hdr) (d a b : Opnd) (m : Option Mod)
  | minZ32 (h : Hdr) (d a b : Opnd) (m : Option Mod)
  | maxS32 (h : Hdr) (d a b : Opnd) (m : Option Mod)
  | maxZ32 (h : Hdr) (d a b : Opnd) (m : Option Mod)
  | sel (h : Hdr) (d a b : Opnd) (m : Mod)
  | cmp (h : Hdr) (ty : Ty) (a b : Opnd)
  | tst (h : Hdr) (ty : Ty) (a b : Opnd)
  | clz (h : Hdr) (d a : Opnd) (b : Option Pat) (m : Option Mod)
  | popc (h : Hdr) (d a : Opnd) (b : Option Pat) (m : Option Mod)
  | brev (h : Hdr) (d a : Opnd) (b : Option Pat) (m : Option Mod)
  | bfx (h : Hdr) (d a b : Opnd) (m : Option Mod)
  | bfi (h : Hdr) (d a b : Opnd) (m : Option Mod)
  | abs (h : Hdr) (d a : Opnd) (b : Option Pat) (m : Option Mod)
  | neg (h : Hdr) (d a : Opnd) (b : Option Pat) (m : Option Mod)
  | mov (h : Hdr) (d a : Opnd) (b : Option Pat) (m : Option Mod)
  | movi (h : Hdr) (d : Opnd) (imm : BitVec 14)
  | moviImm (h : Hdr) (d : Opnd) (imm : BitVec 14) (hi : BitVec 18)
  | movhi (h : Hdr) (d : Fin 32) (imm : BitVec 16)
  | xset (h : Hdr) (j : Fin 4) (len : BitVec 9) (base : BitVec 8)
  | xld (h : Hdr) (d : Opnd) (j : Fin 4) (idx : Opnd)
  | xst (h : Hdr) (src : Opnd) (j : Fin 4) (idx : Opnd)
  | kset (h : Hdr) (d a : Opnd) (b : Option Pat)
  | sread (h : Hdr) (d : Opnd) (n : SCode)
  -- control words (Table 8.3)
  | bra (h : Hdr) (off : BitVec 21)
  | brc (h : Hdr) (cond : Cond) (off : BitVec 17)
  | call (h : Hdr) (off : BitVec 21)
  | calli (h : Hdr) (a : Opnd) (b : Option Pat)
  | ret (h : Hdr)
  | exit (h : Hdr)
  | trail (h : Hdr) (g0 g1 g2 : TrailName)
  | phase (h : Hdr) (n : BitVec 4)
  | requota (h : Hdr) (q : BitVec 9)
  | trap (h : Hdr) (code : BitVec 14)
  | bpt (h : Hdr) (code : BitVec 14)
  -- floating-point, packed and dot words (Table 9.1)
  | fadd (h : Hdr) (d a b : Opnd) (m : Option Mod)
  | fsub (h : Hdr) (d a b : Opnd) (m : Option Mod)
  | fmul (h : Hdr) (d a b : Opnd) (m : Option Mod)
  | fma (h : Hdr) (d a b : Opnd) (m : Option Mod)
  | fmin (h : Hdr) (d a b : Opnd) (m : Option Mod)
  | fmax (h : Hdr) (d a b : Opnd) (m : Option Mod)
  | fcmp (h : Hdr) (ty : Ty) (a b : Opnd)
  | fabs (h : Hdr) (d a : Opnd) (b : Option Pat) (m : Option Mod)
  | fneg (h : Hdr) (d a : Opnd) (b : Option Pat) (m : Option Mod)
  | frcp (h : Hdr) (d a : Opnd) (b : Option Pat) (m : Option Mod)
  | frsq (h : Hdr) (d a : Opnd) (b : Option Pat) (m : Option Mod)
  | fsqrt (h : Hdr) (d a : Opnd) (b : Option Pat) (m : Option Mod)
  | fexp2 (h : Hdr) (d a : Opnd) (b : Option Pat) (m : Option Mod)
  | flog2 (h : Hdr) (d a : Opnd) (b : Option Pat) (m : Option Mod)
  | fsin (h : Hdr) (d a : Opnd) (b : Option Pat) (m : Option Mod)
  | fcos (h : Hdr) (d a : Opnd) (b : Option Pat) (m : Option Mod)
  | fcvt (h : Hdr) (d a : Opnd) (df sf : FFmt) (m : Option Mod)
  | i2f (h : Hdr) (d a : Opnd) (df : FFmt) (sf : IFmt) (m : Option Mod)
  | f2i (h : Hdr) (d a : Opnd) (df : IFmt) (sf : FFmt) (m : Option Mod)
  | frnd (h : Hdr) (d a : Opnd) (b : Option Pat) (m : Option Mod)
  | hadd2 (h : Hdr) (d a b : Opnd) (m : Option Mod)
  | hmul2 (h : Hdr) (d a b : Opnd) (m : Option Mod)
  | hfma2 (h : Hdr) (d a b : Opnd) (m : Option Mod)
  | fdot2 (h : Hdr) (d a b : Opnd) (m : Option Mod)
  | padd4 (h : Hdr) (d a b : Opnd) (m : Option Mod)
  | pmul4 (h : Hdr) (d a b : Opnd) (m : Option Mod)
  | pmin4 (h : Hdr) (d a b : Opnd) (m : Option Mod)
  | pmax4 (h : Hdr) (d a b : Opnd) (m : Option Mod)
  | dot4 (h : Hdr) (d a b : Opnd) (m : Option Mod)
  | dot8 (h : Hdr) (d a b : Opnd) (m : Option Mod)
  -- cross-lane words (R208-R213)
  | red (h : Hdr) (d a : Opnd) (fn : RedFn) (ty : RedTy)
  | scan (h : Hdr) (d a : Opnd) (fn : RedFn) (excl : Bool) (ty : RedTy)
  | ballot (h : Hdr) (d : Opnd) (cond : Cond)
  | matchLanes (h : Hdr) (d a : Opnd)
  -- memory, synchronisation and engine words (spec/13)
  | ld (h : Hdr) (d : Opnd) (slot : Fin 16) (idx : Opnd) (mt : MemTy) (x : Option MemX)
  | st (h : Hdr) (data : Opnd) (slot : Fin 16) (idx : Opnd) (mt : MemTy) (x : Option MemX)
  | lds (h : Hdr) (d adr : Opnd) (mt : MemTy) (x : Option MemX)
  | sts (h : Hdr) (data adr : Opnd) (mt : MemTy) (x : Option MemX)
  | ldlod (h : Hdr) (d : Opnd) (slot : Fin 16) (idx : Opnd) (mt : MemTy) (x : Option MemX)
  | atom (h : Hdr) (d : Opnd) (slot : Fin 16) (idx : Opnd) (x : Atm)
  | atoms (h : Hdr) (d adr : Opnd) (x : Atm)
  | fence (h : Hdr) (kind : FenceKind) (scope : Scope)
  | fenceOob (h : Hdr) (d : Opnd)
  | resfence (h : Hdr) (a : Opnd)
  | bar (h : Hdr) (id : Fin 32) (plot : Bool) (kind : BarKind)
  | trinit (h : Hdr) (a b : Opnd) (imm : Option (BitVec 26))
  | trwait (h : Hdr) (a : Opnd)
  | kick (h : Hdr) (a b : Opnd)
  | wpwait (h : Hdr) (a b : Opnd) (imm : Option (BitVec 26))
  | tlwait (h : Hdr) (a b : Opnd) (imm : Option (BitVec 26))
  | tlread (h : Hdr) (d a : Opnd)
  | mtask (h : Hdr) (d a : Opnd)
  | trace (h : Hdr) (d a b : Opnd)
  | fork (h : Hdr) (d a : Opnd)
  | graft (h : Hdr) (d a b : Opnd)
  | prune (h : Hdr) (d a b : Opnd)
  | present (h : Hdr) (d a b : Opnd)
  | launch (h : Hdr) (d a b : Opnd)
  | relaunch (h : Hdr) (d a b : Opnd)
  -- Linroth 1 shadow words (R233-R235)
  | shbegin (h : Hdr) (a : Opnd)
  | shcommit (h : Hdr) (a : Opnd)
  | shdrop (h : Hdr) (a : Opnd)
  -- device steps: results, responses, write-back
  | resultLand (wg tid idx : Nat)
  | terminalResponse (wg tid idx sub : Nat)
  | rangeFmtWriteback (ctl win blk : Nat)
  -- front end
  | frontEndObserveWr (part ring : Nat)
  | launchAccept (part queue : Nat)
  | rasterPassAccept (part queue : Nat)
  | frameGraphAccept (part queue : Nat)
  -- dispatch and pre-emption
  | plotDispatch (col : Nat)
  | workgroupFree (wg : Nat)
  | preemptionRequest (part ltab : Nat)
  | workgroupSave (wg : Nat)
  | npRegionOverrun (wg : Nat)
  | thermalLimit (col : Nat)
  | thermalSaveTimeout (col : Nat)
  | supplyDroop (col : Nat)
  -- engines
  | copyRequestStart (core chan : Nat)
  | copyArrival (core chan n : Nat)
  | taskStart (col eng : Nat)
  | taskBlockComplete (col eng : Nat)
  | taskShadowSpill (col eng : Nat)
  | rasterBin (part pass bin : Nat)
  | traversalRay (col ray : Nat)
  | frameNodeReady (part graph node : Nat)
  | presentationEvent (disp : Nat)
  | dispEvtFire (disp : Nat)
  | feedbackFilterTimeout (core idx : Nat)
  | scrubTagClean (tag : Nat)
  | graftStart (set : Nat)
  | ticketRelease (part ltab : Nat)
  | backInvalidateResponse (idx : Nat)
  | backInvalidateTimeout (idx : Nat)
  | hostMemAccess (write : Bool) (addr : Nat) (data : List Byte)
  -- starts and watchdog
  | watchdogExpiry
  | coldStart
  | warmStart
  -- SPDM (R336)
  | getVersion
  | getCapabilities
  | negotiateAlgorithms
  | getDigests
  | getCertificate
  | challenge
  | getMeasurements
  | keyExchange
  -- privileged window
  | registerWrite (off : Nat) (value : Nat)
  | privErrRead
  | partCfgWrite (part : Nat) (value : BitVec 64)
  | partitionHalt (part : Nat)
  | partitionUnhalt (part : Nat)
  | partitionHalted (part : Nat)
  | rebind (value : BitVec 64)
  | rebindDone
  | pwrReq (value : BitVec 64)
  | voltageSettled (col : Nat)
  | wdogKick
  | coreEngineErrClear (core : Nat)
  | retireColumn (arg : BitVec 52)
  | enableSpare (arg : BitVec 52)
  | rowRepair (arg : BitVec 52)
  | laneRepair (arg : BitVec 52)
  | linkDegrade (arg : BitVec 52)
  | serviceOpDone
  | bindSlotWrite (col slot : Nat) (value : BitVec 64)
  | swapOut (part : Nat)
  | swapIn (part : Nat)
  | swapDone (part : Nat)
  | schedLogRead (part : Nat)
  | xlatInvalidate (value : BitVec 128)
  | xlatRevoke (value : BitVec 128)
  | xlatReinstate (value : BitVec 128)
  | xlatCtlDone
  | pageMove (value : BitVec 128)
  | pageMoveDone
  | faultRetry (value : BitVec 64)
  | faultFail (value : BitVec 64)
  | trapResumeAtPc (value : BitVec 64)
  | trapResumeNext (value : BitVec 64)
  | trapEndWorkgroup (value : BitVec 64)
  | errLogLowRead (hwin : Bool)
  | errLogHighRead (hwin : Bool)
  | eccLogRead
  -- mailbox
  | mboxLoadImage (arg : BitVec 64)
  | mboxPageDemand (arg : BitVec 64)
  | mboxEvacuate (arg : BitVec 64)
  | mboxRestore (arg : BitVec 64)
  | mboxService (arg : BitVec 64)
  -- columns, caches, link, power
  | columnReset (col : Nat)
  | storeGloballyPerformed (wg tid idx : Nat)
  | dirtyLineWriteBack (core tag line : Nat)
  | hostSnoop (line : Nat)
  | untranslatedPortAccess (write : Bool) (addr : Nat) (data : List Byte)
  | linkDown (port : Nat)
  | supplyRecovery (col : Nat)
  | columnCurrentLimit (col : Nat)
  | powerCapExceeded
  | temperatureBelowLimit (col : Nat)
deriving DecidableEq, Repr

end Sys2Proof
end

