-- ==== Sys2Proof/WellFormed.lean ====
section
/-! DEFINITION. What an instruction must meet to have an encoding: header rules (R132, R134, R142), the MOD field rules
(R156, R191, R192, R148), the legal function and type pairs (R150, R152) and the entry-NOP budgets (R141). A term that breaks
one of them is the meaning of no word. -/

namespace Sys2Proof

/-- Code of a type (Table 7.3). -/
def Ty.code : Ty → Nat
  | .b32 => 0 | .s32 => 1 | .z32 => 2 | .b64 => 3 | .s8 => 4 | .s16 => 5 | .z8 => 6 | .z16 => 7
  | .f32 => 8 | .f16 => 9 | .bf16 => 10 | .e4m3 => 11 | .e5m2 => 12 | .s4 => 13 | .z4 => 14

/-- The role of MOD.c for a floating-point word (R192). -/
inductive Third
  | addend    -- FMA, HFMA2, FDOT2
  | rounding  -- the other rounding words
  | none      -- every other word of Table 9.1
deriving DecidableEq, Repr

/-- A row of Table 9.1: accepted types, rounding modes, .sat, the role of c, and whether cond is a sub-element index. -/
structure FloatRow where
  types : List Ty
  rms : List Rm
  sat : Bool
  third : Third
  idx : Bool
deriving DecidableEq, Repr

/-- How a word reads its MOD fields. -/
inductive ModKind
  | int               -- R156: rm, cuse, c and cond zero
  | intC              -- R156: MAD and BFI, which may use c
  | sel               -- R156: SEL, whose cond is a condition
  | flt (r : FloatRow)
  | dot               -- R148, R207
deriving DecidableEq, Repr

def Rm.all : List Rm := [.rne, .rtz, .rdn, .rup, .sr]
def Ty.floats : List Ty := [.f32, .f16, .bf16]
def Ty.halves : List Ty := [.f16, .bf16]
def Ty.packed4 : List Ty := [.e4m3, .e5m2, .s8, .z8]

def FloatRow.arith : FloatRow := ⟨Ty.floats, Rm.all, true, .rounding, false⟩
def FloatRow.fma : FloatRow := ⟨Ty.floats, Rm.all, true, .addend, false⟩
def FloatRow.plain : FloatRow := ⟨Ty.floats, [.rne], false, .none, false⟩
def FloatRow.fsqrt : FloatRow := ⟨Ty.floats, [.rne, .rtz, .rdn, .rup], false, .none, false⟩
def FloatRow.cvt : FloatRow := ⟨[.f32], Rm.all, true, .rounding, true⟩
def FloatRow.half : FloatRow := ⟨Ty.halves, Rm.all, true, .rounding, false⟩
def FloatRow.halfAdd : FloatRow := ⟨Ty.halves, Rm.all, true, .addend, false⟩
def FloatRow.pack : FloatRow := ⟨Ty.packed4, Rm.all, true, .rounding, false⟩
def FloatRow.packMin : FloatRow := ⟨Ty.packed4, [.rne], false, .none, false⟩

/-- The rm of a float word is one its row accepts; .s8 and .z8 accept rm 0 only (Table 9.1). -/
def FloatRow.rmOk (r : FloatRow) (m : Mod) : Bool :=
  r.rms.contains m.rm && (m.rm == .rne || !(m.ty == .s8 || m.ty == .z8))

/-- The type and .sat of a float word are ones its row accepts; a breach is the illegal-operand trap (Table 9.2). -/
def FloatRow.tyOk (r : FloatRow) (m : Mod) : Bool :=
  r.types.contains m.ty && (r.sat || !m.sat)

/-- cuse, c and cond follow R192 and Table 9.2; a breach is a reserved encoding. -/
def FloatRow.cOk (r : FloatRow) (m : Mod) : Bool :=
  (match r.third with
    | .addend => if m.cuse then m.rm != .sr else (m.rm == .sr || m.c == .v 0)
    | .rounding => if m.cuse then m.rm == .sr else (m.rm != .sr && m.c == .v 0)
    | .none => !m.cuse && m.c == .v 0)
  && (r.idx || m.cond == 0)

/-- The MOD fields a word may carry. -/
def ModKind.ok : ModKind → Mod → Bool
  | .int, m => m.rm == .rne && !m.cuse && m.c == .v 0 && m.cond == 0
  | .intC, m => m.rm == .rne && (m.cuse || m.c == .v 0) && m.cond == 0
  | .sel, m => m.rm == .rne && !m.cuse && m.c == .v 0
  | .flt r, m => r.rmOk m && r.cOk m
  | .dot, m => m.rm == .rne && !m.cuse && m.c == .v 0 && m.cond == 0 && decide (m.ty.code < 4)

def ModKind.okOpt (k : ModKind) : Option Mod → Bool
  | none => true
  | some m => k.ok m

/-- A word of any pipe but C (Table 7.9): not an EXT, chain allowed. -/
def Hdr.ok (h : Hdr) : Bool := !(h.chain && h.sw)

/-- A word of pipe C carries no chain bit (R132). -/
def Hdr.okC (h : Hdr) : Bool := !h.chain

/-- A RED or SCAN function and type that Table 7.10 marks legal. -/
def RedFn.ok : RedFn → RedTy → Bool
  | .and, t => t == .b32
  | .or, t => t == .b32
  | _, t => t != .b32

/-- The budgets a NOP may declare (R141). -/
def budOk (b : BitVec 9) : Bool := b == 0 || (b.toNat % 8 == 0 && decide (16 ≤ b.toNat) && decide (b.toNat ≤ 256))

/-- The instruction is one that a word, or an EXT and its word, encodes. A device step has no encoding. -/
def WellFormed : Instr → Bool
  | .nop h bud => h.ok && budOk bud
  | .add h _ _ _ m | .sub h _ _ _ m | .addc h _ _ _ m | .subb h _ _ _ m | .mul h _ _ _ m
  | .mulhiS32 h _ _ _ m | .mulhiZ32 h _ _ _ m | .shl h _ _ _ m | .shr h _ _ _ m | .sar h _ _ _ m | .rot h _ _ _ m
  | .and h _ _ _ m | .or h _ _ _ m | .xor h _ _ _ m | .andn h _ _ _ m
  | .minS32 h _ _ _ m | .minZ32 h _ _ _ m | .maxS32 h _ _ _ m | .maxZ32 h _ _ _ m | .bfx h _ _ _ m =>
    h.ok && ModKind.int.okOpt m
  | .mad h _ _ _ m | .bfi h _ _ _ m => h.ok && ModKind.intC.okOpt m
  | .sel h _ _ _ m => h.ok && ModKind.sel.ok m
  | .cmp h _ _ _ | .tst h _ _ _ | .fcmp h _ _ _ => h.ok
  | .clz h _ _ _ m | .popc h _ _ _ m | .brev h _ _ _ m | .abs h _ _ _ m | .neg h _ _ _ m | .mov h _ _ _ m =>
    h.ok && ModKind.int.okOpt m
  | .movi h _ _ | .moviImm h _ _ _ | .movhi h _ _ | .xset h _ _ _ | .xld h _ _ _ | .xst h _ _ _ | .kset h _ _ _
  | .sread h _ _ => h.ok
  | .bra h _ | .brc h _ _ | .call h _ | .calli h _ _ | .ret h | .exit h | .trail h _ _ _ | .trap h _ | .bpt h _ => h.okC
  | .phase h _ | .requota h _ => h.okC && h.v1
  | .fadd h _ _ _ m | .fsub h _ _ _ m | .fmul h _ _ _ m => h.ok && (ModKind.flt .arith).okOpt m
  | .fma h _ _ _ m => h.ok && (ModKind.flt .fma).okOpt m
  | .fmin h _ _ _ m | .fmax h _ _ _ m => h.ok && (ModKind.flt .plain).okOpt m
  | .fabs h _ _ _ m | .fneg h _ _ _ m | .frcp h _ _ _ m | .frsq h _ _ _ m | .fexp2 h _ _ _ m | .flog2 h _ _ _ m
  | .fsin h _ _ _ m | .fcos h _ _ _ m => h.ok && (ModKind.flt .plain).okOpt m
  | .fsqrt h _ _ _ m | .frnd h _ _ _ m => h.ok && (ModKind.flt .fsqrt).okOpt m
  | .fcvt h _ _ _ sf m => h.ok && sf != .e8m0 && (ModKind.flt .cvt).okOpt m
  | .i2f h _ _ df _ m => h.ok && df != .e8m0 && (ModKind.flt .cvt).okOpt m
  | .f2i h _ _ _ sf m => h.ok && sf != .e8m0 && (ModKind.flt .cvt).okOpt m
  | .hadd2 h _ _ _ m | .hmul2 h _ _ _ m => h.ok && (ModKind.flt .half).okOpt m
  | .hfma2 h _ _ _ m | .fdot2 h _ _ _ m => h.ok && (ModKind.flt .halfAdd).okOpt m
  | .padd4 h _ _ _ m | .pmul4 h _ _ _ m => h.ok && h.v1 && (ModKind.flt .pack).okOpt m
  | .pmin4 h _ _ _ m | .pmax4 h _ _ _ m => h.ok && h.v1 && (ModKind.flt .packMin).okOpt m
  | .dot4 h _ _ _ m => h.ok && ModKind.dot.okOpt m
  | .dot8 h _ _ _ m => h.ok && h.v1 && ModKind.dot.okOpt m
  | .red h _ _ fn ty => h.ok && fn.ok ty
  | .scan h _ _ fn _ ty => h.ok && fn != .maxi && fn.ok ty
  | .ballot h _ _ | .matchLanes h _ _ => h.ok
  | .ld h _ _ _ _ _ | .st h _ _ _ _ _ | .lds h _ _ _ _ | .sts h _ _ _ _ | .atom h _ _ _ _ | .atoms h _ _ _
  | .fence h _ _ | .fenceOob h _ | .kick h _ _ | .tlread h _ _ | .mtask h _ _ | .launch h _ _ _ => h.ok
  | .ldlod h _ _ _ _ _ | .resfence h _ | .trace h _ _ _ | .fork h _ _ | .graft h _ _ _ | .prune h _ _ _
  | .present h _ _ _ | .relaunch h _ _ _ => h.ok && h.v1
  | .bar h _ _ _ | .trwait h _ => h.okC
  | .trinit h _ b imm => h.ok && (imm == none || b == .v 0)
  | .wpwait h _ b imm | .tlwait h _ b imm => h.okC && (imm == none || b == .v 0)
  | .shbegin h _ | .shcommit h _ | .shdrop h _ => h.ok && !h.v1
  | _ => false

end Sys2Proof
end

