-- ==== Sys2Proof/Decode.lean ====
section
/-! DEFINITION. The decoder and encoder of Linroth 2 instruction words (spec/07): total, rejecting by name with the
sub-causes of Table 7.12, in the order of R144. -/

namespace Sys2Proof

/-- Why a word has no meaning: the sub-causes of Table 7.12, and the illegal-operand trap where R191's order puts it first. -/
inductive Reject
  | undefined   -- sub-cause 1
  | reserved    -- sub-cause 2
  | version     -- sub-cause 3
  | ext         -- sub-cause 4
  | chain       -- sub-cause 5
  | operand     -- the illegal-operand trap (R191, Table 9.2)
deriving DecidableEq, Repr

/-! ## Codes of operands and sub-functions -/

/-- The operand a 7-bit code names (Table 2.4). -/
def Opnd.ofCode (n : Nat) : Opnd :=
  if n < 64 then .v (Fin.ofNat 64 n)
  else if n < 72 then .t (Fin.ofNat 8 (n - 64))
  else if n < 88 then .k (Fin.ofNat 16 (n - 72))
  else if n < 96 then .c (Fin.ofNat 8 (n - 88))
  else .pat ⟨Fin.ofNat 4 ((n - 96) / 8), Fin.ofNat 8 (n - 96)⟩

/-- The code of a pattern read (R48). -/
def Pat.code (q : Pat) : Nat := 96 + 8 * q.g.val + q.p.val

/-- The code of an operand (Table 2.4). -/
def Opnd.code : Opnd → Nat
  | .v n => n.val
  | .t n => 64 + n.val
  | .k n => 72 + n.val
  | .c n => 88 + n.val
  | .pat q => q.code

def Ty.ofCode : Nat → Option Ty
  | 0 => some .b32 | 1 => some .s32 | 2 => some .z32 | 3 => some .b64 | 4 => some .s8 | 5 => some .s16
  | 6 => some .z8 | 7 => some .z16 | 8 => some .f32 | 9 => some .f16 | 10 => some .bf16 | 11 => some .e4m3
  | 12 => some .e5m2 | 13 => some .s4 | 14 => some .z4 | _ => none

def Rm.code : Rm → Nat
  | .rne => 0 | .rtz => 1 | .rdn => 2 | .rup => 3 | .sr => 4

def Rm.ofCode : Nat → Option Rm
  | 0 => some .rne | 1 => some .rtz | 2 => some .rdn | 3 => some .rup | 4 => some .sr | _ => none

def Cond.code : Cond → Nat
  | .eq => 0 | .ne => 1 | .hs => 2 | .lo => 3 | .mi => 4 | .pl => 5 | .vs => 6 | .vc => 7
  | .hi => 8 | .ls => 9 | .ge => 10 | .lt => 11 | .gt => 12 | .le => 13 | .ab => 14 | .al => 15

/-- The condition of a 4-bit code (Table 7.4). -/
def Cond.ofCode : Nat → Cond
  | 0 => .eq | 1 => .ne | 2 => .hs | 3 => .lo | 4 => .mi | 5 => .pl | 6 => .vs | 7 => .vc
  | 8 => .hi | 9 => .ls | 10 => .ge | 11 => .lt | 12 => .gt | 13 => .le | 14 => .ab | _ => .al

def Ord.code : Ord → Nat
  | .relaxed => 0 | .acq => 1 | .rel => 2 | .acqrel => 3

def Ord.ofCode : Nat → Ord
  | 0 => .relaxed | 1 => .acq | 2 => .rel | _ => .acqrel

def Scope.code : Scope → Nat
  | .wg => 0 | .plot => 1 | .dev => 2 | .sys => 3

def Scope.ofCode : Nat → Scope
  | 0 => .wg | 1 => .plot | 2 => .dev | _ => .sys

def MemTy.code : MemTy → Nat
  | .b8 => 0 | .b16 => 1 | .b32 => 2 | .b64 => 3 | .s8 => 4 | .s16 => 5

def MemTy.ofCode : Nat → Option MemTy
  | 0 => some .b8 | 1 => some .b16 | 2 => some .b32 | 3 => some .b64 | 4 => some .s8 | 5 => some .s16 | _ => none

def Aop.code : Aop → Nat
  | .add => 0 | .sub => 1 | .min => 2 | .max => 3 | .maxi => 4 | .and => 5 | .or => 6 | .xor => 7 | .exch => 8 | .cas => 9

def Aop.ofCode : Nat → Option Aop
  | 0 => some .add | 1 => some .sub | 2 => some .min | 3 => some .max | 4 => some .maxi | 5 => some .and | 6 => some .or
  | 7 => some .xor | 8 => some .exch | 9 => some .cas | _ => none

def RedFn.code : RedFn → Nat
  | .add => 0 | .min => 1 | .max => 2 | .maxi => 3 | .and => 4 | .or => 5

def RedFn.ofCode : Nat → Option RedFn
  | 0 => some .add | 1 => some .min | 2 => some .max | 3 => some .maxi | 4 => some .and | 5 => some .or | _ => none

def RedTy.code : RedTy → Nat
  | .s32 => 0 | .z32 => 1 | .f32 => 2 | .b32 => 3

def RedTy.ofCode : Nat → Option RedTy
  | 0 => some .s32 | 1 => some .z32 | 2 => some .f32 | 3 => some .b32 | _ => none

def FFmt.code : FFmt → Nat
  | .f32 => 0 | .f16 => 1 | .bf16 => 2 | .e4m3 => 3 | .e5m2 => 4 | .e3m2 => 5 | .e2m3 => 6 | .e2m1 => 7 | .e8m0 => 8

def FFmt.ofCode : Nat → Option FFmt
  | 0 => some .f32 | 1 => some .f16 | 2 => some .bf16 | 3 => some .e4m3 | 4 => some .e5m2 | 5 => some .e3m2
  | 6 => some .e2m3 | 7 => some .e2m1 | 8 => some .e8m0 | _ => none

def IFmt.code : IFmt → Nat
  | .s32 => 0 | .z32 => 1 | .s16 => 2 | .z16 => 3 | .s8 => 4 | .z8 => 5 | .s4 => 6 | .z4 => 7

def IFmt.ofCode : Nat → Option IFmt
  | 0 => some .s32 | 1 => some .z32 | 2 => some .s16 | 3 => some .z16 | 4 => some .s8 | 5 => some .z8 | 6 => some .s4
  | 7 => some .z4 | _ => none

def SCode.code : SCode → Nat
  | .lane => 0 | .width => 1 | .tid => 2 | .wgid => 3 | .plot => 4 | .stage => 5 | .tag => 6 | .core => 7 | .cycle => 8

def SCode.ofCode : Nat → Option SCode
  | 0 => some .lane | 1 => some .width | 2 => some .tid | 3 => some .wgid | 4 => some .plot | 5 => some .stage
  | 6 => some .tag | 7 => some .core | 8 => some .cycle | _ => none

def FenceKind.code : FenceKind → Nat
  | .acq => 0 | .rel => 1 | .acqrel => 2 | .sc => 3

def FenceKind.ofCode : Nat → FenceKind
  | 0 => .acq | 1 => .rel | 2 => .acqrel | _ => .sc

def BarKind.code : BarKind → Nat
  | .sync => 0 | .arrive => 1 | .wait => 2

def BarKind.ofCode : Nat → Option BarKind
  | 0 => some .sync | 1 => some .arrive | 2 => some .wait | _ => none

def TrailName.code : TrailName → Nat
  | .v n => n.val | .bad n => 64 + n.val | .cc => 126 | .none => 127

def TrailName.ofCode (n : Nat) : TrailName :=
  if n < 64 then .v (Fin.ofNat 64 n) else if n < 126 then .bad (Fin.ofNat 62 (n - 64)) else if n = 126 then .cc else .none

/-! ## Fields of a word -/

/-- The encoding version of a word (Table 7.1). -/
def verOf (w : Nat) : Nat := w / 2 ^ 30 % 4

/-- A word whose chain and sw bits are both 1 is an EXT (R130). -/
def isExt (w : Nat) : Bool := w / 2 ^ 28 % 4 == 3

/-- The primary opcode. -/
def opOf (w : Nat) : Nat := w / 2 ^ 21 % 128

/-- The operand bits [20:0]. -/
def operandsOf (w : Nat) : Nat := w % 2 ^ 21

/-- The header bits of an instruction word of version 0 or 1. -/
def hdrOf (w : Nat) : Hdr := ⟨verOf w == 1, w / 2 ^ 29 % 2 == 1, w / 2 ^ 28 % 2 == 1⟩

/-- The kinds of EXT an opcode accepts (Table 7.9). -/
inductive ExtRule
  | none | mod | modReq | imm | mem | atmReq
deriving DecidableEq, Repr

/-- Whether an opcode accepts the EXT before it, or its absence (R134). Kinds: 0 MOD, 1 MEM, 2 IMM, 3 ATM. -/
def ExtRule.ok : ExtRule → Option Nat → Bool
  | .none, k => k == Option.none
  | .mod, k => k == Option.none || k == some 0
  | .modReq, k => k == some 0
  | .imm, k => k == Option.none || k == some 2
  | .mem, k => k == Option.none || k == some 1
  | .atmReq, k => k == some 3

/-- The EXT rule of an opcode (Table 7.9). -/
def extRule (op : Nat) : ExtRule :=
  if op = 0x15 then .modReq
  else if op = 0x00 ∨ op = 0x16 ∨ op = 0x17 ∨ op = 0x3E then .none
  else if op ≤ 0x1F then .mod
  else if op = 0x20 then .imm
  else if op < 0x38 then .none
  else if op ≤ 0x55 then .mod
  else if op < 0x60 then .none
  else if op ≤ 0x64 then .mem
  else if op ≤ 0x66 then .atmReq
  else if op = 0x6A ∨ op = 0x6D ∨ op = 0x6E then .imm
  else .none

/-- The words of pipe C (Table 7.9). -/
def pipeC (op : Nat) : Bool :=
  decide (0x28 ≤ op ∧ op ≤ 0x32) || op == 0x69 || op == 0x6B || op == 0x6D || op == 0x6E

/-- The opcode has no meaning under the version (R142, R144). -/
def undefinedOp (op : Nat) (v1 : Bool) : Bool :=
  op == 0x7F
  || (!v1 && (op == 0x2F || op == 0x30 || decide (0x50 ≤ op ∧ op ≤ 0x53) || op == 0x55 || op == 0x64 || op == 0x68
      || decide (0x71 ≤ op ∧ op ≤ 0x75) || op == 0x77))
  || (v1 && decide (0x78 ≤ op ∧ op ≤ 0x7A))

/-! ## Bodies by format (Table 7.8) -/

/-- A breach of a MOD rule: the reserved-encoding cause, but where the order of R191 puts the illegal-operand trap first. -/
def ModKind.reject (k : ModKind) (m : Mod) : Reject :=
  match k with
  | .flt r => if r.rmOk m && !r.tyOk m then .operand else .reserved
  | _ => .reserved

/-- The MOD of 26 payload bits (Table 7.2). -/
def modOf (k : ModKind) (p : Nat) : Except Reject Mod :=
  match Ty.ofCode (p / 2 ^ 5 % 16), Rm.ofCode (p / 2 ^ 15 % 8) with
  | some ty, some rm =>
    let m : Mod :=
      { c := .ofCode (p / 2 ^ 19 % 128), cuse := p / 2 ^ 18 % 2 == 1, rm := rm, cc := p / 2 ^ 14 % 2 == 1,
        sat := p / 2 ^ 13 % 2 == 1, cond := Fin.ofNat 16 (p / 2 ^ 9), ty := ty }
    if p % 32 ≠ 0 then .error .reserved else if k.ok m then .ok m else .error (k.reject m)
  | _, _ => .error .reserved

/-- The MOD of a word that may carry one. -/
def optMod (k : ModKind) : Option Nat → Except Reject (Option Mod)
  | none => .ok none
  | some p => (modOf k p).map some

/-- The MEM of a word that may carry one (Table 7.2). -/
def memOf : Option Nat → Option MemX
  | none => none
  | some p => some ⟨.ofCode (p / 2 ^ 24 % 4), .ofCode (p / 2 ^ 22 % 4), BitVec.ofNat 22 p⟩

/-- The ATM of 26 payload bits (Table 7.2). -/
def atmOf (p : Nat) : Except Reject Atm :=
  match Aop.ofCode (p / 2 ^ 22 % 16), Ty.ofCode (p / 2 ^ 18 % 16) with
  | some aop, some ty => .ok ⟨aop, ty, .ofCode (p / 2 ^ 16 % 4), .ofCode (p / 2 ^ 14 % 4), BitVec.ofNat 14 p⟩
  | _, _ => .error .reserved

/-- The operand fields every format places alike: d or data, a, b. -/
def fd (r : Nat) : Opnd := .ofCode (r / 2 ^ 14 % 128)
def fa (r : Nat) : Opnd := .ofCode (r / 2 ^ 7 % 128)
def fb (r : Nat) : Opnd := .ofCode (r % 128)

/-- `x` where `p` holds, else the given rejection. -/
def need {α : Type} (p : Bool) (x : Except Reject α) : Except Reject α := if p then x else .error .reserved

/-- Format F3. -/
def decF3 (k : ModKind) (mk : Opnd → Opnd → Opnd → Option Mod → Instr) (r : Nat) (x : Option Nat) : Except Reject Instr :=
  (optMod k x).map (mk (fd r) (fa r) (fb r))

/-- The b field of F1: zero, or a pattern code (R140). -/
def patOf (n : Nat) : Except Reject (Option Pat) :=
  if n = 0 then .ok none
  else if n < 96 then .error .reserved
  else .ok (some ⟨Fin.ofNat 4 ((n - 96) / 8), Fin.ofNat 8 (n - 96)⟩)

/-- Format F1. -/
def decF1 (k : ModKind) (mk : Opnd → Opnd → Option Pat → Option Mod → Instr) (r : Nat) (x : Option Nat) :
    Except Reject Instr :=
  match patOf (r % 128) with
  | .error e => .error e
  | .ok b => (optMod k x).map (mk (fd r) (fa r) b)

/-- Format FC. -/
def decFC (mk : Ty → Opnd → Opnd → Instr) (r : Nat) : Except Reject Instr :=
  match Ty.ofCode (r / 2 ^ 17 % 16) with
  | some ty => need (r / 2 ^ 14 % 8 == 0) (.ok (mk ty (fa r) (fb r)))
  | none => .error .reserved

/-- Format FM, a load or store. -/
def decFM (mk : Opnd → Fin 16 → Opnd → MemTy → Option MemX → Instr) (r : Nat) (x : Option Nat) : Except Reject Instr :=
  match MemTy.ofCode (r % 8) with
  | some mt => .ok (mk (fd r) (Fin.ofNat 16 (r / 2 ^ 10)) (.ofCode (r / 2 ^ 3 % 128)) mt (memOf x))
  | none => .error .reserved

/-- Format FL, a scratchpad load or store. -/
def decFL (mk : Opnd → Opnd → MemTy → Option MemX → Instr) (r : Nat) (x : Option Nat) : Except Reject Instr :=
  match MemTy.ofCode (r % 8) with
  | some mt => need (r / 2 ^ 3 % 16 == 0) (.ok (mk (fd r) (fa r) mt (memOf x)))
  | none => .error .reserved

/-- Format FE with every field used. -/
def decE3 (mk : Opnd → Opnd → Opnd → Instr) (r : Nat) : Except Reject Instr := .ok (mk (fd r) (fa r) (fb r))

/-- Format FE with b zero. -/
def decEda (mk : Opnd → Opnd → Instr) (r : Nat) : Except Reject Instr := need (r % 128 == 0) (.ok (mk (fd r) (fa r)))

/-- Format FE with d zero. -/
def decEab (mk : Opnd → Opnd → Instr) (r : Nat) : Except Reject Instr :=
  need (r / 2 ^ 14 % 128 == 0) (.ok (mk (fa r) (fb r)))

/-- Format FE with d and b zero. -/
def decEa (mk : Opnd → Instr) (r : Nat) : Except Reject Instr :=
  need (r / 2 ^ 14 % 128 == 0 && r % 128 == 0) (.ok (mk (fa r)))

/-- Format FE with d zero and a count or target in b or in IMM (R280). -/
def decEimm (mk : Opnd → Opnd → Option (BitVec 26) → Instr) (r : Nat) (x : Option Nat) : Except Reject Instr :=
  need (r / 2 ^ 14 % 128 == 0 && (x == none || r % 128 == 0)) (.ok (mk (fa r) (fb r) (x.map (BitVec.ofNat 26))))

/-- Format FV (Table 7.11). -/
def decFV {α β : Type} (mk : Opnd → Opnd → α → β → Option Mod → Instr) (df : Nat → Option α) (sf : Nat → Option β)
    (r : Nat) (x : Option Nat) : Except Reject Instr :=
  match df (r / 2 ^ 3 % 16), sf (r % 8) with
  | some d, some s => (optMod (.flt .cvt) x).map (mk (fd r) (fa r) d s)
  | _, _ => .error .reserved

/-- The RED and SCAN function and type, where Table 7.10 marks the pair legal. -/
def decFR (mk : RedFn → RedTy → Instr) (fn : Nat) (r : Nat) : Except Reject Instr :=
  match RedFn.ofCode fn, RedTy.ofCode (r % 8) with
  | some f, some t => need (f.ok t) (.ok (mk f t))
  | _, _ => .error .reserved

/-- The integer words and NOP (0x00 to 0x27). -/
def decInt (h : Hdr) (op r : Nat) (x : Option Nat) : Except Reject Instr :=
  match op with
  | 0x00 => need (r / 2 ^ 9 % 2 ^ 12 == 0 && budOk (BitVec.ofNat 9 r)) (.ok (.nop h (BitVec.ofNat 9 r)))
  | 0x01 => decF3 .int (.add h) r x
  | 0x02 => decF3 .int (.sub h) r x
  | 0x03 => decF3 .int (.addc h) r x
  | 0x04 => decF3 .int (.subb h) r x
  | 0x05 => decF3 .int (.mul h) r x
  | 0x06 => decF3 .int (.mulhiS32 h) r x
  | 0x07 => decF3 .int (.mulhiZ32 h) r x
  | 0x08 => decF3 .intC (.mad h) r x
  | 0x09 => decF3 .int (.shl h) r x
  | 0x0A => decF3 .int (.shr h) r x
  | 0x0B => decF3 .int (.sar h) r x
  | 0x0C => decF3 .int (.rot h) r x
  | 0x0D => decF3 .int (.and h) r x
  | 0x0E => decF3 .int (.or h) r x
  | 0x0F => decF3 .int (.xor h) r x
  | 0x10 => decF3 .int (.andn h) r x
  | 0x11 => decF3 .int (.minS32 h) r x
  | 0x12 => decF3 .int (.minZ32 h) r x
  | 0x13 => decF3 .int (.maxS32 h) r x
  | 0x14 => decF3 .int (.maxZ32 h) r x
  | 0x15 => (match x with
    | some p => (modOf .sel p).map (.sel h (fd r) (fa r) (fb r))
    | none => .error .ext)
  | 0x16 => decFC (.cmp h) r
  | 0x17 => decFC (.tst h) r
  | 0x18 => decF1 .int (.clz h) r x
  | 0x19 => decF1 .int (.popc h) r x
  | 0x1A => decF1 .int (.brev h) r x
  | 0x1B => decF3 .int (.bfx h) r x
  | 0x1C => decF3 .intC (.bfi h) r x
  | 0x1D => decF1 .int (.abs h) r x
  | 0x1E => decF1 .int (.neg h) r x
  | 0x1F => decF1 .int (.mov h) r x
  | 0x20 => (match x with
    | none => .ok (.movi h (fd r) (BitVec.ofNat 14 r))
    | some p => need (p / 2 ^ 18 % 2 ^ 8 == 0) (.ok (.moviImm h (fd r) (BitVec.ofNat 14 r) (BitVec.ofNat 18 p))))
  | 0x21 => .ok (.movhi h (Fin.ofNat 32 (r / 2 ^ 16)) (BitVec.ofNat 16 r))
  | 0x22 => need (r % 4 == 0) (.ok (.xset h (Fin.ofNat 4 (r / 2 ^ 19)) (BitVec.ofNat 9 (r / 2 ^ 10)) (BitVec.ofNat 8 (r / 4))))
  | 0x23 => need (r % 32 == 0) (.ok (.xld h (fd r) (Fin.ofNat 4 (r / 2 ^ 12)) (.ofCode (r / 2 ^ 5 % 128))))
  | 0x24 => need (r % 32 == 0) (.ok (.xst h (fd r) (Fin.ofNat 4 (r / 2 ^ 12)) (.ofCode (r / 2 ^ 5 % 128))))
  | 0x25 => (match patOf (r % 128) with
    | .error e => .error e
    | .ok b => .ok (.kset h (fd r) (fa r) b))
  | 0x26 => (match SCode.ofCode (r % 2 ^ 14) with
    | some n => .ok (.sread h (fd r) n)
    | none => .error .reserved)
  | _ => .error .reserved

/-- The control words (0x28 to 0x37). -/
def decCtl (h : Hdr) (op r : Nat) : Except Reject Instr :=
  match op with
  | 0x28 => .ok (.bra h (BitVec.ofNat 21 r))
  | 0x29 => .ok (.brc h (.ofCode (r / 2 ^ 17 % 16)) (BitVec.ofNat 17 r))
  | 0x2A => .ok (.call h (BitVec.ofNat 21 r))
  | 0x2B => (match patOf (r % 128) with
    | .error e => .error e
    | .ok b => need (r / 2 ^ 14 % 128 == 0) (.ok (.calli h (fa r) b)))
  | 0x2C => need (r == 0) (.ok (.ret h))
  | 0x2D => need (r == 0) (.ok (.exit h))
  | 0x2E => .ok (.trail h (.ofCode (r / 2 ^ 14 % 128)) (.ofCode (r / 2 ^ 7 % 128)) (.ofCode (r % 128)))
  | 0x2F => need (r / 2 ^ 4 == 0) (.ok (.phase h (BitVec.ofNat 4 r)))
  | 0x30 => need (r / 2 ^ 9 == 0) (.ok (.requota h (BitVec.ofNat 9 r)))
  | 0x31 => need (r / 2 ^ 14 == 0) (.ok (.trap h (BitVec.ofNat 14 r)))
  | 0x32 => need (r / 2 ^ 14 == 0) (.ok (.bpt h (BitVec.ofNat 14 r)))
  | _ => .error .reserved

/-- The floating-point, packed and dot words (0x38 to 0x57). -/
def decFloat (h : Hdr) (op r : Nat) (x : Option Nat) : Except Reject Instr :=
  match op with
  | 0x38 => decF3 (.flt .arith) (.fadd h) r x
  | 0x39 => decF3 (.flt .arith) (.fsub h) r x
  | 0x3A => decF3 (.flt .arith) (.fmul h) r x
  | 0x3B => decF3 (.flt .fma) (.fma h) r x
  | 0x3C => decF3 (.flt .plain) (.fmin h) r x
  | 0x3D => decF3 (.flt .plain) (.fmax h) r x
  | 0x3E => decFC (.fcmp h) r
  | 0x3F => decF1 (.flt .plain) (.fabs h) r x
  | 0x40 => decF1 (.flt .plain) (.fneg h) r x
  | 0x41 => decF1 (.flt .plain) (.frcp h) r x
  | 0x42 => decF1 (.flt .plain) (.frsq h) r x
  | 0x43 => decF1 (.flt .fsqrt) (.fsqrt h) r x
  | 0x44 => decF1 (.flt .plain) (.fexp2 h) r x
  | 0x45 => decF1 (.flt .plain) (.flog2 h) r x
  | 0x46 => decF1 (.flt .plain) (.fsin h) r x
  | 0x47 => decF1 (.flt .plain) (.fcos h) r x
  | 0x48 => decFV (.fcvt h) FFmt.ofCode FFmt.ofCode r x
  | 0x49 => decFV (.i2f h) (fun n => if n = 8 then none else FFmt.ofCode n) IFmt.ofCode r x
  | 0x4A => decFV (.f2i h) IFmt.ofCode FFmt.ofCode r x
  | 0x4B => decF1 (.flt .fsqrt) (.frnd h) r x
  | 0x4C => decF3 (.flt .half) (.hadd2 h) r x
  | 0x4D => decF3 (.flt .half) (.hmul2 h) r x
  | 0x4E => decF3 (.flt .halfAdd) (.hfma2 h) r x
  | 0x4F => decF3 (.flt .halfAdd) (.fdot2 h) r x
  | 0x50 => decF3 (.flt .pack) (.padd4 h) r x
  | 0x51 => decF3 (.flt .pack) (.pmul4 h) r x
  | 0x52 => decF3 (.flt .packMin) (.pmin4 h) r x
  | 0x53 => decF3 (.flt .packMin) (.pmax4 h) r x
  | 0x54 => decF3 .dot (.dot4 h) r x
  | 0x55 => decF3 .dot (.dot8 h) r x
  | _ => .error .reserved

/-- The cross-lane words (0x58 to 0x5F). -/
def decLane (h : Hdr) (op r : Nat) : Except Reject Instr :=
  match op with
  | 0x58 => decFR (fun f t => .red h (fd r) (fa r) f t) (r / 2 ^ 3 % 16) r
  | 0x59 =>
    let fn := r / 2 ^ 3 % 8
    need (fn != 3) (decFR (fun f t => .scan h (fd r) (fa r) f (r / 2 ^ 6 % 2 == 1) t) fn r)
  | 0x5A => need (r % 2 ^ 10 == 0) (.ok (.ballot h (fd r) (.ofCode (r / 2 ^ 10 % 16))))
  | 0x5B => need (r % 128 == 0) (.ok (.matchLanes h (fd r) (fa r)))
  | _ => .error .reserved

/-- The memory, synchronisation, engine, version, launch and shadow words (0x60 to 0x7E). -/
def decMem (h : Hdr) (op r : Nat) (x : Option Nat) : Except Reject Instr :=
  match op with
  | 0x60 => decFM (.ld h) r x
  | 0x61 => decFM (.st h) r x
  | 0x62 => decFL (.lds h) r x
  | 0x63 => decFL (.sts h) r x
  | 0x64 => decFM (.ldlod h) r x
  | 0x65 => (match x with
    | none => .error .ext
    | some p => need (r % 8 == 0)
        ((atmOf p).map (.atom h (fd r) (Fin.ofNat 16 (r / 2 ^ 10)) (.ofCode (r / 2 ^ 3 % 128)))))
  | 0x66 => (match x with
    | none => .error .ext
    | some p => need (r % 128 == 0) ((atmOf p).map (.atoms h (fd r) (fa r))))
  | 0x67 =>
    if r / 2 ^ 6 % 2 = 1 then need (r % 64 == 0 && r / 2 ^ 7 % 128 == 0) (.ok (.fenceOob h (fd r)))
    else need (r / 2 ^ 4 == 0) (.ok (.fence h (.ofCode (r / 4 % 4)) (.ofCode (r % 4))))
  | 0x68 => decEa (.resfence h) r
  | 0x69 => (match BarKind.ofCode (r / 2 ^ 13 % 4) with
    | some kd => need (r % 2 ^ 13 == 0) (.ok (.bar h (Fin.ofNat 32 (r / 2 ^ 16)) (r / 2 ^ 15 % 2 == 1) kd))
    | none => .error .reserved)
  | 0x6A => decEimm (.trinit h) r x
  | 0x6B => decEa (.trwait h) r
  | 0x6C => decEab (.kick h) r
  | 0x6D => decEimm (.wpwait h) r x
  | 0x6E => decEimm (.tlwait h) r x
  | 0x6F => decEda (.tlread h) r
  | 0x70 => decEda (.mtask h) r
  | 0x71 => decE3 (.trace h) r
  | 0x72 => decEda (.fork h) r
  | 0x73 => decE3 (.graft h) r
  | 0x74 => decE3 (.prune h) r
  | 0x75 => decE3 (.present h) r
  | 0x76 => decE3 (.launch h) r
  | 0x77 => decE3 (.relaunch h) r
  | 0x78 => decEa (.shbegin h) r
  | 0x79 => decEa (.shcommit h) r
  | 0x7A => decEa (.shdrop h) r
  | _ => .error .reserved

/-- A word's body by its opcode, with the payload of its EXT if it has one. -/
def decBody (h : Hdr) (op r : Nat) (x : Option Nat) : Except Reject Instr :=
  if op < 0x28 then decInt h op r x
  else if op < 0x38 then decCtl h op r
  else if op < 0x58 then decFloat h op r x
  else if op < 0x60 then decLane h op r
  else decMem h op r x

/-! ## The decoder -/

/-- The instruction of word `w` at position `pos` of its packet, after an EXT of kind and payload `x` if any. The checks come
in the order of R144: undefined, ext, chain, then the body's. -/
def decodeCore (pos : Nat) (w : Nat) (x : Option (Nat × Nat)) : Except Reject Instr :=
  let h := hdrOf w
  let op := opOf w
  if undefinedOp op h.v1 then .error .undefined
  else if !(extRule op).ok (x.map (·.1)) then .error .ext
  else if h.chain && (pos == 2 || pipeC op) then .error .chain
  else decBody h op (operandsOf w) (x.map (·.2))

/-- The instruction at word position `pos` (0 to 2) of a packet whose word 0 has version `ver0`: word `w`, followed by `nxt`
(R131, R134). An EXT at position 2 belongs to a word of the next packet; the pair is an ext breach, unless an earlier cause of
R144 holds for that word. -/
def decodeAt (pos ver0 : Nat) (w : Word) (nxt : Option Word) : Except Reject Instr :=
  let n := w.toNat
  if 2 ≤ verOf n ∨ verOf n ≠ ver0 then .error .version
  else if isExt n then
    match nxt with
    | none => .error .ext
    | some w2 =>
      let n2 := w2.toNat
      if 2 ≤ verOf n2 ∨ (pos < 2 ∧ verOf n2 ≠ ver0) then .error .version
      else if isExt n2 then .error .ext
      else if 2 ≤ pos then
        if undefinedOp (opOf n2) (verOf n2 == 1) then .error .undefined else .error .ext
      else decodeCore (pos + 1) n2 (some (n / 2 ^ 26 % 4, n % 2 ^ 26))
  else decodeCore pos n none

/-- The instruction at the start of a packet's words. -/
def decodeWords : List Word → Except Reject Instr
  | [] => .error .undefined
  | w :: ws => decodeAt 0 (verOf w.toNat) w ws.head?

/-- Decoding 32-bit words from bytes, each least significant byte first (R5). -/
def wordsOfBytes : List Byte → List Word
  | b0 :: b1 :: b2 :: b3 :: bs =>
    BitVec.ofNat 32 (b0.toNat + 256 * b1.toNat + 65536 * b2.toNat + 16777216 * b3.toNat) :: wordsOfBytes bs
  | _ => []

/-- The bytes of a word in memory (R5). -/
def bytesOfWord (w : Word) : List Byte :=
  [BitVec.ofNat 8 w.toNat, BitVec.ofNat 8 (w.toNat / 256), BitVec.ofNat 8 (w.toNat / 65536), BitVec.ofNat 8 (w.toNat / 16777216)]

/-- The instruction that bytes at the start of a packet hold; fewer than four bytes hold none. -/
def decodeBytes (bs : List Byte) : Except Reject Instr := decodeWords (wordsOfBytes bs)

/-- The two words an instruction of the opcode table occupies: its first word, and the bits above it (zero beyond `nbits`). -/
def tableWords (nbits w : Nat) : List Word :=
  [BitVec.ofNat 32 (w % 2 ^ nbits), BitVec.ofNat 32 (w % 2 ^ nbits / 2 ^ 32)]

/-- What the decoder reads from an instruction numbered as the opcode table numbers it. -/
def decodeTableWord (nbits w : Nat) : Option Instr :=
  match decodeBytes ((tableWords nbits w).flatMap bytesOfWord) with
  | .ok i => some i
  | .error _ => none

/-! ## The encoder -/

/-- A word of header `h`, opcode `op` and operand bits `r`. -/
def mkWord (h : Hdr) (op r : Nat) : Word :=
  BitVec.ofNat 32 (h.v1.toNat * 2 ^ 30 + h.chain.toNat * 2 ^ 29 + h.sw.toNat * 2 ^ 28 + op * 2 ^ 21 + r)

/-- An EXT of kind `k` and payload `p` before a word of header `h` (R134). -/
def mkExt (h : Hdr) (k p : Nat) : Word :=
  BitVec.ofNat 32 (h.v1.toNat * 2 ^ 30 + 3 * 2 ^ 28 + k * 2 ^ 26 + p)

/-- The payload of a MOD. -/
def Mod.pay (m : Mod) : Nat :=
  m.c.code * 2 ^ 19 + m.cuse.toNat * 2 ^ 18 + m.rm.code * 2 ^ 15 + m.cc.toNat * 2 ^ 14 + m.sat.toNat * 2 ^ 13
    + m.cond.val * 2 ^ 9 + m.ty.code * 2 ^ 5

/-- The payload of a MEM. -/
def MemX.pay (x : MemX) : Nat := x.ord.code * 2 ^ 24 + x.scope.code * 2 ^ 22 + x.eoff.toNat

/-- The payload of an ATM. -/
def Atm.pay (x : Atm) : Nat :=
  x.aop.code * 2 ^ 22 + x.ty.code * 2 ^ 18 + x.ord.code * 2 ^ 16 + x.scope.code * 2 ^ 14 + x.eoff.toNat

def patCode : Option Pat → Nat
  | none => 0
  | some q => q.code

/-- A word and, where `x` holds a payload, the EXT of kind `k` before it. -/
def withExt (h : Hdr) (k : Nat) (x : Option Nat) (w : Word) : List Word :=
  match x with
  | none => [w]
  | some p => [mkExt h k p, w]

def enc3 (h : Hdr) (op : Nat) (d a b : Opnd) : Word := mkWord h op (d.code * 2 ^ 14 + a.code * 2 ^ 7 + b.code)

def encF3 (h : Hdr) (op : Nat) (d a b : Opnd) (m : Option Mod) : List Word :=
  withExt h 0 (m.map Mod.pay) (enc3 h op d a b)

def encF1 (h : Hdr) (op : Nat) (d a : Opnd) (b : Option Pat) (m : Option Mod) : List Word :=
  withExt h 0 (m.map Mod.pay) (mkWord h op (d.code * 2 ^ 14 + a.code * 2 ^ 7 + patCode b))

def encFC (h : Hdr) (op : Nat) (ty : Ty) (a b : Opnd) : List Word :=
  [mkWord h op (ty.code * 2 ^ 17 + a.code * 2 ^ 7 + b.code)]

def encFV (h : Hdr) (op : Nat) (d a : Opnd) (df sf : Nat) (m : Option Mod) : List Word :=
  withExt h 0 (m.map Mod.pay) (mkWord h op (d.code * 2 ^ 14 + a.code * 2 ^ 7 + df * 2 ^ 3 + sf))

def encFM (h : Hdr) (op : Nat) (d : Opnd) (slot : Fin 16) (idx : Opnd) (mt : MemTy) (x : Option MemX) : List Word :=
  withExt h 1 (x.map MemX.pay) (mkWord h op (d.code * 2 ^ 14 + slot.val * 2 ^ 10 + idx.code * 2 ^ 3 + mt.code))

def encFL (h : Hdr) (op : Nat) (d a : Opnd) (mt : MemTy) (x : Option MemX) : List Word :=
  withExt h 1 (x.map MemX.pay) (mkWord h op (d.code * 2 ^ 14 + a.code * 2 ^ 7 + mt.code))

def encEda (h : Hdr) (op : Nat) (d a : Opnd) : List Word := [mkWord h op (d.code * 2 ^ 14 + a.code * 2 ^ 7)]

def encEa (h : Hdr) (op : Nat) (a : Opnd) : List Word := [mkWord h op (a.code * 2 ^ 7)]

def encEimm (h : Hdr) (op : Nat) (a b : Opnd) (imm : Option (BitVec 26)) : List Word :=
  withExt h 2 (imm.map BitVec.toNat) (mkWord h op (a.code * 2 ^ 7 + b.code))

/-- The words of an instruction. A device step has no encoding, and no words. -/
def encode : Instr → List Word
  | .nop h bud => [mkWord h 0x00 bud.toNat]
  | .add h d a b m => encF3 h 0x01 d a b m
  | .sub h d a b m => encF3 h 0x02 d a b m
  | .addc h d a b m => encF3 h 0x03 d a b m
  | .subb h d a b m => encF3 h 0x04 d a b m
  | .mul h d a b m => encF3 h 0x05 d a b m
  | .mulhiS32 h d a b m => encF3 h 0x06 d a b m
  | .mulhiZ32 h d a b m => encF3 h 0x07 d a b m
  | .mad h d a b m => encF3 h 0x08 d a b m
  | .shl h d a b m => encF3 h 0x09 d a b m
  | .shr h d a b m => encF3 h 0x0A d a b m
  | .sar h d a b m => encF3 h 0x0B d a b m
  | .rot h d a b m => encF3 h 0x0C d a b m
  | .and h d a b m => encF3 h 0x0D d a b m
  | .or h d a b m => encF3 h 0x0E d a b m
  | .xor h d a b m => encF3 h 0x0F d a b m
  | .andn h d a b m => encF3 h 0x10 d a b m
  | .minS32 h d a b m => encF3 h 0x11 d a b m
  | .minZ32 h d a b m => encF3 h 0x12 d a b m
  | .maxS32 h d a b m => encF3 h 0x13 d a b m
  | .maxZ32 h d a b m => encF3 h 0x14 d a b m
  | .sel h d a b m => encF3 h 0x15 d a b (some m)
  | .cmp h ty a b => encFC h 0x16 ty a b
  | .tst h ty a b => encFC h 0x17 ty a b
  | .clz h d a b m => encF1 h 0x18 d a b m
  | .popc h d a b m => encF1 h 0x19 d a b m
  | .brev h d a b m => encF1 h 0x1A d a b m
  | .bfx h d a b m => encF3 h 0x1B d a b m
  | .bfi h d a b m => encF3 h 0x1C d a b m
  | .abs h d a b m => encF1 h 0x1D d a b m
  | .neg h d a b m => encF1 h 0x1E d a b m
  | .mov h d a b m => encF1 h 0x1F d a b m
  | .movi h d imm => [mkWord h 0x20 (d.code * 2 ^ 14 + imm.toNat)]
  | .moviImm h d imm hi => withExt h 2 (some hi.toNat) (mkWord h 0x20 (d.code * 2 ^ 14 + imm.toNat))
  | .movhi h d imm => [mkWord h 0x21 (d.val * 2 ^ 16 + imm.toNat)]
  | .xset h j len base => [mkWord h 0x22 (j.val * 2 ^ 19 + len.toNat * 2 ^ 10 + base.toNat * 2 ^ 2)]
  | .xld h d j idx => [mkWord h 0x23 (d.code * 2 ^ 14 + j.val * 2 ^ 12 + idx.code * 2 ^ 5)]
  | .xst h src j idx => [mkWord h 0x24 (src.code * 2 ^ 14 + j.val * 2 ^ 12 + idx.code * 2 ^ 5)]
  | .kset h d a b => encF1 h 0x25 d a b none
  | .sread h d n => [mkWord h 0x26 (d.code * 2 ^ 14 + n.code)]
  | .bra h off => [mkWord h 0x28 off.toNat]
  | .brc h cond off => [mkWord h 0x29 (cond.code * 2 ^ 17 + off.toNat)]
  | .call h off => [mkWord h 0x2A off.toNat]
  | .calli h a b => [mkWord h 0x2B (a.code * 2 ^ 7 + patCode b)]
  | .ret h => [mkWord h 0x2C 0]
  | .exit h => [mkWord h 0x2D 0]
  | .trail h g0 g1 g2 => [mkWord h 0x2E (g0.code * 2 ^ 14 + g1.code * 2 ^ 7 + g2.code)]
  | .phase h n => [mkWord h 0x2F n.toNat]
  | .requota h q => [mkWord h 0x30 q.toNat]
  | .trap h code => [mkWord h 0x31 code.toNat]
  | .bpt h code => [mkWord h 0x32 code.toNat]
  | .fadd h d a b m => encF3 h 0x38 d a b m
  | .fsub h d a b m => encF3 h 0x39 d a b m
  | .fmul h d a b m => encF3 h 0x3A d a b m
  | .fma h d a b m => encF3 h 0x3B d a b m
  | .fmin h d a b m => encF3 h 0x3C d a b m
  | .fmax h d a b m => encF3 h 0x3D d a b m
  | .fcmp h ty a b => encFC h 0x3E ty a b
  | .fabs h d a b m => encF1 h 0x3F d a b m
  | .fneg h d a b m => encF1 h 0x40 d a b m
  | .frcp h d a b m => encF1 h 0x41 d a b m
  | .frsq h d a b m => encF1 h 0x42 d a b m
  | .fsqrt h d a b m => encF1 h 0x43 d a b m
  | .fexp2 h d a b m => encF1 h 0x44 d a b m
  | .flog2 h d a b m => encF1 h 0x45 d a b m
  | .fsin h d a b m => encF1 h 0x46 d a b m
  | .fcos h d a b m => encF1 h 0x47 d a b m
  | .fcvt h d a df sf m => encFV h 0x48 d a df.code sf.code m
  | .i2f h d a df sf m => encFV h 0x49 d a df.code sf.code m
  | .f2i h d a df sf m => encFV h 0x4A d a df.code sf.code m
  | .frnd h d a b m => encF1 h 0x4B d a b m
  | .hadd2 h d a b m => encF3 h 0x4C d a b m
  | .hmul2 h d a b m => encF3 h 0x4D d a b m
  | .hfma2 h d a b m => encF3 h 0x4E d a b m
  | .fdot2 h d a b m => encF3 h 0x4F d a b m
  | .padd4 h d a b m => encF3 h 0x50 d a b m
  | .pmul4 h d a b m => encF3 h 0x51 d a b m
  | .pmin4 h d a b m => encF3 h 0x52 d a b m
  | .pmax4 h d a b m => encF3 h 0x53 d a b m
  | .dot4 h d a b m => encF3 h 0x54 d a b m
  | .dot8 h d a b m => encF3 h 0x55 d a b m
  | .red h d a fn ty => [mkWord h 0x58 (d.code * 2 ^ 14 + a.code * 2 ^ 7 + fn.code * 2 ^ 3 + ty.code)]
  | .scan h d a fn excl ty =>
    [mkWord h 0x59 (d.code * 2 ^ 14 + a.code * 2 ^ 7 + excl.toNat * 2 ^ 6 + fn.code * 2 ^ 3 + ty.code)]
  | .ballot h d cond => [mkWord h 0x5A (d.code * 2 ^ 14 + cond.code * 2 ^ 10)]
  | .matchLanes h d a => [mkWord h 0x5B (d.code * 2 ^ 14 + a.code * 2 ^ 7)]
  | .ld h d slot idx mt x => encFM h 0x60 d slot idx mt x
  | .st h d slot idx mt x => encFM h 0x61 d slot idx mt x
  | .lds h d a mt x => encFL h 0x62 d a mt x
  | .sts h d a mt x => encFL h 0x63 d a mt x
  | .ldlod h d slot idx mt x => encFM h 0x64 d slot idx mt x
  | .atom h d slot idx x =>
    withExt h 3 (some x.pay) (mkWord h 0x65 (d.code * 2 ^ 14 + slot.val * 2 ^ 10 + idx.code * 2 ^ 3))
  | .atoms h d a x => withExt h 3 (some x.pay) (mkWord h 0x66 (d.code * 2 ^ 14 + a.code * 2 ^ 7))
  | .fence h kd sc => [mkWord h 0x67 (kd.code * 2 ^ 2 + sc.code)]
  | .fenceOob h d => [mkWord h 0x67 (d.code * 2 ^ 14 + 2 ^ 6)]
  | .resfence h a => encEa h 0x68 a
  | .bar h id pl kd => [mkWord h 0x69 (id.val * 2 ^ 16 + pl.toNat * 2 ^ 15 + kd.code * 2 ^ 13)]
  | .trinit h a b imm => encEimm h 0x6A a b imm
  | .trwait h a => encEa h 0x6B a
  | .kick h a b => [mkWord h 0x6C (a.code * 2 ^ 7 + b.code)]
  | .wpwait h a b imm => encEimm h 0x6D a b imm
  | .tlwait h a b imm => encEimm h 0x6E a b imm
  | .tlread h d a => encEda h 0x6F d a
  | .mtask h d a => encEda h 0x70 d a
  | .trace h d a b => [enc3 h 0x71 d a b]
  | .fork h d a => encEda h 0x72 d a
  | .graft h d a b => [enc3 h 0x73 d a b]
  | .prune h d a b => [enc3 h 0x74 d a b]
  | .present h d a b => [enc3 h 0x75 d a b]
  | .launch h d a b => [enc3 h 0x76 d a b]
  | .relaunch h d a b => [enc3 h 0x77 d a b]
  | .shbegin h a => encEa h 0x78 a
  | .shcommit h a => encEa h 0x79 a
  | .shdrop h a => encEa h 0x7A a
  | _ => []

end Sys2Proof
end

