-- ==== Sys2Proof/Machine/Bits.lean ====
section
/-! DEFINITION. Bit fields, two's complement and byte order (R5), used by the decoder, the record layouts and the meanings.
Records wider than a register are natural numbers, bit 0 least significant. -/

namespace Sys2Proof.Machine

/-- The field [hi:lo] of a record (R5: both ends included). -/
def bits (n hi lo : Nat) : Nat := n / 2 ^ lo % 2 ^ (hi + 1 - lo)

/-- Bit `i` of a record. -/
def bit (n i : Nat) : Bool := n.testBit i

/-- `n` with the field [hi:lo] replaced by the low bits of `v`. -/
def setBits (n hi lo v : Nat) : Nat :=
  n - bits n hi lo * 2 ^ lo + v % 2 ^ (hi + 1 - lo) * 2 ^ lo

/-- 1 for true, 0 for false. -/
def bnat (b : Bool) : Nat := if b then 1 else 0

/-- `x`, a `w`-bit value, read as two's complement. -/
def sInt (w x : Nat) : Int := if x < 2 ^ (w - 1) then (x : Int) else (x : Int) - (2 ^ w : Nat)

/-- An integer as the `w` bits of its two's complement. -/
def wrapInt (w : Nat) (i : Int) : Nat := (i % ((2 ^ w : Nat) : Int)).toNat

/-- The low `w` bits of `x` sign-extended to 32 bits. -/
def sext32 (w x : Nat) : Nat := wrapInt 32 (sInt w (x % 2 ^ w))

/-- The integer clamped to [lo, hi]. -/
def clampInt (lo hi i : Int) : Int := if i < lo then lo else if hi < i then hi else i

/-- The `n` bytes of `x`, least significant first (R5). -/
def leBytes : Nat → Nat → List Byte
  | 0, _ => []
  | n + 1, x => BitVec.ofNat 8 x :: leBytes n (x / 256)

/-- The number whose little-endian bytes are given (R5). -/
def ofLe : List Byte → Nat
  | [] => 0
  | b :: bs => b.toNat + 256 * ofLe bs

/-- `x` rounded up to a multiple of `m`. -/
def roundUp (x m : Nat) : Nat := (x + m - 1) / m * m

/-- Saturating increment at `2^w - 1`. -/
def satInc (w x : Nat) : Nat := if x + 1 < 2 ^ w then x + 1 else 2 ^ w - 1

/-- Saturating sum at `2^w - 1`. -/
def satAdd (w x y : Nat) : Nat := if x + y < 2 ^ w then x + y else 2 ^ w - 1

/-- The positions of the 1 bits of `n` below `w`, ascending. -/
def ones (w n : Nat) : List Nat := (List.range w).filter (fun i => bit n i)

/-- The number of 1 bits of `n` below `w`. -/
def popCount (w n : Nat) : Nat := (ones w n).length

/-- The mask whose 1 bits are the given positions. -/
def maskOf (l : List Nat) : Nat := l.foldl (fun m i => m ||| (1 <<< i)) 0

end Sys2Proof.Machine
end

