-- ==== Sys2Proof/Machine/Num.lean ====
section
/-! DEFINITION. Number formats and arithmetic (spec/06): exact values, the rounding function of R118, overflow (R120),
special operands (R121), conversions (R122), flags (R123), dot products (R125) and maxima with index (R129). -/

namespace Sys2Proof.Machine

/-- An exact extended real. A finite value is (−1)^neg × num / den; a zero keeps its sign. -/
inductive XR
  | nan
  | inf (neg : Bool)
  | fin (neg : Bool) (num den : Nat)
deriving DecidableEq, Repr

namespace XR

/-- Plus zero. -/
def zero : XR := .fin false 0 1

/-- The exact value of an integer. -/
def ofInt (i : Int) : XR := .fin (decide (i < 0)) i.natAbs 1

/-- `m × 2^e`, with a sign. -/
def ofDyadic (neg : Bool) (m : Nat) (e : Int) : XR :=
  if e < 0 then .fin neg m (2 ^ (-e).toNat) else .fin neg (m * 2 ^ e.toNat) 1

def isNan : XR → Bool
  | .nan => true
  | _ => false

def isInf : XR → Bool
  | .inf _ => true
  | _ => false

def isZero : XR → Bool
  | .fin _ n _ => n == 0
  | _ => false

/-- The sign bit; a NaN has none. -/
def neg? : XR → Bool
  | .nan => false
  | .inf s => s
  | .fin s _ _ => s

/-- The value with its sign inverted. -/
def negate : XR → XR
  | .nan => .nan
  | .inf s => .inf !s
  | .fin s n d => .fin (!s) n d

def abs : XR → XR
  | .nan => .nan
  | .inf _ => .inf false
  | .fin _ n d => .fin false n d

/-- Exact sum; an exact zero of opposite signs is +0, under RDN −0 (R121). -/
def add (rm : Rm) : XR → XR → XR
  | .nan, _ => .nan
  | _, .nan => .nan
  | .inf s, .inf t => if s = t then .inf s else .nan
  | .inf s, _ => .inf s
  | _, .inf t => .inf t
  | .fin s n d, .fin t m e =>
    let c := if d % e = 0 then d else if e % d = 0 then e else d * e
    let a := n * (c / d)
    let b := m * (c / e)
    if s = t then .fin s (a + b) c
    else if a = b then .fin (rm == .rdn) 0 1
    else if b < a then .fin s (a - b) c
    else .fin t (b - a) c

/-- Exact product; 0 × ∞ is invalid (R121). -/
def mul : XR → XR → XR
  | .nan, _ => .nan
  | _, .nan => .nan
  | .inf s, .inf t => .inf (xor s t)
  | .inf s, .fin t m _ => if m = 0 then .nan else .inf (xor s t)
  | .fin s n _, .inf t => if n = 0 then .nan else .inf (xor s t)
  | .fin s n d, .fin t m e => .fin (xor s t) (n * m) (d * e)

/-- Exact quotient of finite values by a nonzero finite value, as the quantiser forms it (R63). -/
def quo : XR → XR → XR
  | .fin s n d, .fin t m e => if m = 0 then .nan else .fin (xor s t) (n * e) (d * m)
  | .inf s, .fin t _ _ => .inf (xor s t)
  | _, _ => .nan

/-- Strict order of two values that are not NaN, zeros equal. -/
def lt : XR → XR → Bool
  | .nan, _ => false
  | _, .nan => false
  | .inf s, .inf t => s && !t
  | .inf s, .fin _ _ _ => s
  | .fin _ _ _, .inf t => !t
  | .fin s n d, .fin t m e =>
    let a : Int := if s then -(n * e : Nat) else (n * e : Nat)
    let b : Int := if t then -(m * d : Nat) else (m * d : Nat)
    decide (a < b)

/-- Equality of two values that are not NaN, zeros equal. -/
def eqv (a b : XR) : Bool := !a.isNan && !b.isNan && !lt a b && !lt b a

/-- The order of R129 and R196: −0 below +0. -/
def ltZ (a b : XR) : Bool := lt a b || (a.isZero && b.isZero && a.neg? && !b.neg?)

/-- The greatest integer not above a finite value, and whether the value is that integer. -/
def floor : XR → Int
  | .fin s n d => if s then -(((n + d - 1) / d : Nat) : Int) else ((n / d : Nat) : Int)
  | _ => 0

end XR

/-! ## Formats (Tables 6.1 and 6.2) -/

/-- Bits of an element. -/
def fmtWidth : FFmt → Nat
  | .f32 => 32 | .f16 => 16 | .bf16 => 16 | .e4m3 => 8 | .e5m2 => 8 | .e3m2 => 6 | .e2m3 => 6 | .e2m1 => 4 | .e8m0 => 8

/-- Bits of the mantissa field. -/
def fmtMant : FFmt → Nat
  | .f32 => 23 | .f16 => 10 | .bf16 => 7 | .e4m3 => 3 | .e5m2 => 2 | .e3m2 => 2 | .e2m3 => 3 | .e2m1 => 1 | .e8m0 => 0

def fmtBias : FFmt → Nat
  | .f32 => 127 | .f16 => 15 | .bf16 => 127 | .e4m3 => 7 | .e5m2 => 15 | .e3m2 => 3 | .e2m3 => 1 | .e2m1 => 1 | .e8m0 => 127

/-- The encoding of the largest finite value (Table 6.1). -/
def fmtMax : FFmt → Nat
  | .f32 => 0x7F7FFFFF | .f16 => 0x7BFF | .bf16 => 0x7F7F | .e4m3 => 0x7E | .e5m2 => 0x7B | .e3m2 => 0x1F | .e2m3 => 0x1F
  | .e2m1 => 7 | .e8m0 => 0xFE

/-- The encoding of +∞, in the formats that have one (Table 6.2). -/
def fmtInf : FFmt → Option Nat
  | .f32 => some 0x7F800000 | .f16 => some 0x7C00 | .bf16 => some 0x7F80 | .e5m2 => some 0x7C | _ => none

/-- The canonical NaN, in the formats that have one (Table 6.2). -/
def fmtNan : FFmt → Option Nat
  | .f32 => some 0x7FC00000 | .f16 => some 0x7E00 | .bf16 => some 0x7FC0 | .e5m2 => some 0x7E | .e4m3 => some 0x7F
  | .e8m0 => some 0xFF | _ => none

/-- The sign bit of a format's encoding. -/
def fmtSign (f : FFmt) (neg : Bool) : Nat := if neg then 2 ^ (fmtWidth f - 1) else 0

/-- The value of an encoding (R112, R113). -/
def fmtValue (f : FFmt) (x : Nat) : XR :=
  if f = .e8m0 then
    let e := x % 256
    if e = 255 then .nan else .ofDyadic false 1 ((e : Int) - 127)
  else
    let w := fmtWidth f
    let m := fmtMant f
    let neg := bit x (w - 1)
    let mag := x % 2 ^ (w - 1)
    let e := mag / 2 ^ m
    let fr := mag % 2 ^ m
    if fmtMax f < mag then (if fmtInf f = some mag then .inf neg else .nan)
    else if e = 0 then .ofDyadic neg fr (1 - (fmtBias f : Int) - m)
    else .ofDyadic neg (2 ^ m + fr) ((e : Int) - fmtBias f - m)

/-- The floor of log2 of a positive rational. -/
def ilog2 (n d : Nat) : Int :=
  let l : Int := (Nat.log2 n : Int) - (Nat.log2 d : Int)
  if l < 0 then (if n * 2 ^ (-l).toNat < d then l - 1 else l) else (if n < d * 2 ^ l.toNat then l - 1 else l)

/-- Whether `n / d`, with remainder `r`, rounds its magnitude up (R118). `rnd` holds `k` random bits. -/
def roundsUp (rm : Rm) (neg : Bool) (t r d rnd k : Nat) : Bool :=
  match rm with
  | .rne => decide (d < 2 * r) || (2 * r == d && t % 2 == 1)
  | .rtz => false
  | .rup => r != 0 && !neg
  | .rdn => r != 0 && neg
  | .sr => decide (2 ^ k ≤ r * 2 ^ k / d + rnd)

/-- The magnitude `n / d` rounded to the spacing of a format, as an encoding that may lie above the largest finite one. -/
def roundMag (f : FFmt) (rm : Rm) (neg : Bool) (n d rnd k : Nat) : Nat :=
  let emin : Int := 1 - fmtBias f
  let e := max (ilog2 n d) emin
  let qe := e - fmtMant f
  let a := if qe < 0 then n * 2 ^ (-qe).toNat else n
  let b := if qe < 0 then d else d * 2 ^ qe.toNat
  let t := a / b
  (e - emin).toNat * 2 ^ fmtMant f + t + bnat (roundsUp rm neg t (a % b) b rnd k)

/-- An encoding and whether it came of an overflow. -/
structure Rounded where
  enc : Nat
  ovf : Bool
deriving DecidableEq, Repr

/-- Table 6.5. -/
def overflowEnc (f : FFmt) (rm : Rm) (neg sat : Bool) : Nat :=
  let toMax := fmtSign f neg + fmtMax f
  let toInf := match fmtInf f with
    | some i => fmtSign f neg + i
    | none => (fmtNan f).getD toMax
  if sat then toMax
  else match rm with
    | .rtz => toMax
    | .rup => if neg then toMax else toInf
    | .rdn => if neg then toInf else toMax
    | _ => toInf

/-- A NaN put into a format (R121). -/
def nanInto (f : FFmt) (sat : Bool) : Nat := if f = .e4m3 ∧ sat then 0 else (fmtNan f).getD 0

/-- An infinity put into a format (R121). -/
def infInto (f : FFmt) (neg sat : Bool) : Nat :=
  match fmtInf f with
  | some i => fmtSign f neg + i
  | none => if f = .e4m3 ∧ !sat then 0x7F else fmtSign f neg + fmtMax f

/-- The function `round` of R118. -/
def roundTo (f : FFmt) (rm : Rm) (sat : Bool) (rnd k : Nat) : XR → Rounded
  | .nan => ⟨nanInto f sat, false⟩
  | .inf s => ⟨infInto f s sat, false⟩
  | .fin s n d =>
    if n = 0 then ⟨fmtSign f s, false⟩
    else
      let mag := roundMag f rm s n d rnd k
      if fmtMax f < mag then ⟨overflowEnc f rm s sat, true⟩ else ⟨fmtSign f s + mag, false⟩

/-- round_rne of R118. -/
def roundRne (f : FFmt) (x : XR) : Nat := (roundTo f .rne false 0 0 x).enc

/-- A finite value rounded to an integer by the mode. -/
def roundInt (rm : Rm) (rnd k : Nat) : XR → Int
  | .fin s n d =>
    let t := n / d
    let m := t + bnat (roundsUp rm s t (n % d) d rnd k)
    if s then -(m : Int) else m
  | _ => 0

/-! ## Integer formats -/

def intWidth : IFmt → Nat
  | .s32 => 32 | .z32 => 32 | .s16 => 16 | .z16 => 16 | .s8 => 8 | .z8 => 8 | .s4 => 4 | .z4 => 4

def intSigned : IFmt → Bool
  | .s32 => true | .s16 => true | .s8 => true | .s4 => true | _ => false

def intMin (f : IFmt) : Int := if intSigned f then -(2 ^ (intWidth f - 1) : Nat) else 0
def intMax (f : IFmt) : Int := if intSigned f then (2 ^ (intWidth f - 1) : Nat) - 1 else (2 ^ intWidth f : Nat) - 1

/-- The value of the low bits of `x` in an integer format. -/
def intValue (f : IFmt) (x : Nat) : Int :=
  let y := x % 2 ^ intWidth f
  if intSigned f then sInt (intWidth f) y else y

/-! ## Conversions (R122) -/

/-- A converted value: its encoding and V of the .cc form. -/
structure Converted where
  enc : Nat
  v : Bool
deriving DecidableEq, Repr

/-- Conversion of an exact value into a floating-point format other than e8m0, with V by R122. -/
def toFloat (f : FFmt) (rm : Rm) (sat : Bool) (rnd : Nat) (x : XR) : Converted :=
  let r := roundTo f rm sat rnd 16 x
  match x with
  | .nan => ⟨r.enc, !(fmtValue f r.enc).isNan⟩
  | .inf s => ⟨r.enc, decide (fmtValue f r.enc ≠ .inf s)⟩
  | .fin _ _ _ => ⟨r.enc, r.ovf⟩

/-- Conversion into e8m0 under .rtz or .rup. -/
def toE8m0 (up sat : Bool) : XR → Converted
  | .nan => ⟨0xFF, false⟩
  | .inf _ => ⟨0xFF, true⟩
  | .fin _ n d =>
    if n = 0 then ⟨0, false⟩
    else
      let l := ilog2 n d
      let exact := if l < 0 then n * 2 ^ (-l).toNat == d else n == d * 2 ^ l.toNat
      let e := (if up && !exact then l + 1 else l) + 127
      if e < 0 then ⟨0, false⟩
      else if 254 < e then ⟨if sat then 0xFE else 0xFF, true⟩
      else ⟨e.toNat, false⟩

/-- Conversion into an integer format: round, then clamp. -/
def toInteger (f : IFmt) (rm : Rm) (rnd : Nat) (x : XR) : Converted :=
  match x with
  | .nan => ⟨0, true⟩
  | .inf s => ⟨wrapInt (intWidth f) (if s then intMin f else intMax f), true⟩
  | .fin _ _ _ =>
    let i := roundInt rm rnd 16 x
    let c := clampInt (intMin f) (intMax f) i
    ⟨wrapInt (intWidth f) c, decide (c ≠ i)⟩

/-! ## Minimum, maximum and MAXI -/

/-- FMIN and FMAX on encodings (R196): a lone NaN yields to the other operand, bit for bit. -/
def fminmax (f : FFmt) (isMax : Bool) (a b : Nat) : Nat :=
  let x := fmtValue f a
  let y := fmtValue f b
  if x.isNan then (if y.isNan then (fmtNan f).getD 0 else b)
  else if y.isNan then a
  else if isMax then (if x.ltZ y then b else a) else (if y.ltZ x then b else a)

/-- The value types of a MAXI key (R129). -/
inductive KeyTy
  | f32 | s32 | z32
deriving DecidableEq, Repr

/-- Whether the value of key `a` is below that of key `b` (R129). -/
def keyLt (t : KeyTy) (a b : Nat) : Bool :=
  match t with
  | .z32 => decide (a < b)
  | .s32 => decide (sInt 32 a < sInt 32 b)
  | .f32 =>
    let x := fmtValue .f32 a
    let y := fmtValue .f32 b
    if x.isNan then !y.isNan else if y.isNan then false else x.ltZ y

/-- The winning key; a float NaN value leaves as the canonical NaN. Bits [31:0] hold the index, [63:32] the value. -/
def maxi (t : KeyTy) (a b : Nat) : Nat :=
  let va := a / 2 ^ 32 % 2 ^ 32
  let vb := b / 2 ^ 32 % 2 ^ 32
  let w :=
    if keyLt t va vb then b
    else if keyLt t vb va then a
    else if a % 2 ^ 32 ≤ b % 2 ^ 32 then a else b
  let wv := w / 2 ^ 32 % 2 ^ 32
  let cv := if t = .f32 ∧ (fmtValue .f32 wv).isNan then 0x7FC00000 else wv
  w % 2 ^ 32 + cv * 2 ^ 32

/-- The least key (R129). -/
def maxiLeast : KeyTy → Nat
  | .f32 => 0x7FC00000 * 2 ^ 32 + 0xFFFFFFFF
  | .s32 => 0x80000000 * 2 ^ 32 + 0xFFFFFFFF
  | .z32 => 0xFFFFFFFF

/-! ## Dot products (R125) -/

/-- dot_acc: the accumulator's bits and whether a step overflowed. -/
def dotAcc (sat : Bool) (acc : Nat) (prods : List Int) : Nat × Bool :=
  prods.foldl (fun (p : Nat × Bool) x =>
    let s := sInt 32 p.1 + x
    let c := clampInt (-(2 ^ 31)) (2 ^ 31 - 1) s
    (wrapInt 32 (if sat then c else s), p.2 || decide (c ≠ s))) (acc, false)

/-- The exact sum of a list of values (R127, R205): NaN where one is NaN or infinities differ, else an infinity, else the sum;
an exact zero of opposite signs follows R121. -/
def xsum (rm : Rm) (l : List XR) : XR :=
  match l with
  | [] => .zero
  | x :: xs => xs.foldl (XR.add rm) x

end Sys2Proof.Machine
end

