-- ==== Sys2Proof/Config.lean ====
section
/-! DEFINITION. What a Sorub module fixes, and the values the spec leaves open. A free value is a constant with no body, so
nothing can be proved of what it is; `State.fresh` numbers the occasions on which one is drawn. -/

namespace Sys2Proof.Config

/-- log2 of the lane width (Table 20.3, lwlog). -/
def lwlog : Nat := 6

/-- The lane width W (Table 0.1). -/
def laneWidth : Nat := 64

/-- Physical columns, spares included (R323). -/
def columns : Nat := 34

/-- Cores of a column (Table 0.1). -/
def coresPerColumn : Nat := 8

/-- Thread slots per lane of a core (Table 0.1). -/
def threadSlots : Nat := 32

/-- Registers per lane of a core (Table 0.1). -/
def regsPerLane : Nat := 2048

/-- Scratchpad of a core in KiB (Table 0.1). -/
def spadKiB : Nat := 256

/-- Named barriers of a core (Table 0.1). -/
def barriersPerCore : Nat := 32

/-- Workgroup context slots of a core (R19). -/
def ctxSlots : Nat := 32

/-- First device physical address not backed (Table 20.3, dtop). -/
def dtop : Nat := 0xC00000000

/-- Bytes of one tensor-store stack (Table 0.1, 48 GiB). -/
def stackBytes : Nat := 0xC00000000

/-- Memory controllers with RANGE_FMT registers: DESIGN CHOICE, the spec gives no number (log entry 5). -/
def controllers : Nat := 32

/-- L3 bytes a fork set holds before it spills (R108: at least 64 MiB): DESIGN CHOICE, exactly the least (log entry 5). -/
def forkSetShare : Nat := 64 * 1024 * 1024

/-- A free 32-bit value: a register gained by a REQUOTA raising (R22, R35). -/
opaque freeWord : Nat → Word

/-- A free bit: which of two allowed outcomes occurs (R7, R38). -/
opaque freeBit : Nat → Bool

/-- A free byte: bytes the spec lets be any mix (R181 to R368, as cited where drawn). -/
opaque freeByte : Nat → Byte

/-- A free natural number: timings and sizes the spec leaves open. -/
opaque freeNat : Nat → Nat

/-- Whether an event of the device goes before the next word at a clock (R7): the spec orders neither. -/
opaque freeTurn : Nat → Bool

/-- Where a leaf program of a number begins in the instruction store (R247 gives the store and no place). -/
opaque programEntry : Nat → Nat

/-- The fused root-key hash (R333): not given by the spec. -/
opaque rootKeyHash : Nat

/-- The bytes in which a certificate chain for an alias key of a digest is sent (R336): the keys' and the signatures' bits are not given. -/
opaque chainBytes : Nat → List Byte

/-- The digest and security version of the image put into slot A at manufacture (R333): not given by the spec. -/
opaque factoryDigest : Nat
opaque factorySvn : Nat

/-- The fused table of the highest clock of a supply (R382), MHz by mV: not given by the spec. -/
opaque fusedMhz : Nat → Nat

/-- The boot ROM's digest, measurement block 1 (R336): not given by the spec. -/
opaque bootRomDigest : Nat

/-- How the firmware lays an evacuation record out (R386): the byte it combines with byte `i` of the fields (log entry 20). -/
opaque evacuationMask : Nat → Byte

/-- What the repair scan of a cold start adds to the module's repair record (R384): row and lane repairs. -/
opaque scanRepairs : Nat → List Nat

/-- An expanded element whose exact product its format does not hold (R63 says exactly): of the window's register, the scale and the stored
element. -/
opaque freeExpand : Nat → Nat → Nat → Nat

/-- Whether a spare row is left for a row repair, given the module's repair record and the operation's argument (R384): the number of spare
rows is not in the spec. -/
opaque rowLeft : List Nat → Nat → Bool

/-- The entry offset of the image of manufacture (R334): not given by the spec. -/
opaque factoryEntry : Nat

end Sys2Proof.Config
end

