-- ==== Sys2Proof/Machine/FMap.lean ====
section
/-! DEFINITION. Sparse plain-data maps: lists of (key, value) with keys rising. Memory is such a list of (address, byte). -/

namespace Sys2Proof.Machine

/-- A finite map by natural keys, held as a list in rising key order. -/
abbrev FMap (α : Type) := List (Nat × α)

namespace FMap

variable {α : Type}

/-- The value listed at a key, if any. -/
def find? : FMap α → Nat → Option α
  | [], _ => none
  | (k, v) :: m, a => if a = k then some v else find? m a

/-- The value at a key, `d` where none is listed. -/
def get (d : α) (m : FMap α) (a : Nat) : α := (find? m a).getD d

/-- List `v` at key `a`, in order. -/
def put : FMap α → Nat → α → FMap α
  | [], a, v => [(a, v)]
  | (k, w) :: m, a, v =>
    if a = k then (a, v) :: m else if a < k then (a, v) :: (k, w) :: m else (k, w) :: put m a v

/-- The map without key `a`. -/
def erase (m : FMap α) (a : Nat) : FMap α := m.filter (fun p => p.1 != a)

/-- Write `v` at `a`; writing the default `d` removes the entry. -/
def set [DecidableEq α] (d : α) (m : FMap α) (a : Nat) (v : α) : FMap α :=
  if v = d then erase m a else put m a v

/-- Change the value listed at `a`, if one is. -/
def modify (m : FMap α) (a : Nat) (f : α → α) : FMap α :=
  m.map (fun p => if p.1 = a then (p.1, f p.2) else p)

/-- Every key of the map. -/
def keys (m : FMap α) : List Nat := m.map (·.1)

/-- Every value of the map, in key order. -/
def vals (m : FMap α) : List α := m.map (·.2)

/-- Keys strictly rising. -/
def sorted : FMap α → Bool
  | [] => true
  | [_] => true
  | (a, _) :: (b, w) :: m => decide (a < b) && sorted ((b, w) :: m)

/-- The canonical form: keys strictly rising, no entry equal to the default. -/
def wf [DecidableEq α] (d : α) (m : FMap α) : Bool := sorted m && m.all (fun p => decide (p.2 ≠ d))

/-- The least key at or above `start` that is not listed, looking at most `fuel` keys ahead. -/
def freshKey (m : FMap α) : Nat → Nat → Nat
  | 0, start => start
  | fuel + 1, start => if (find? m start).isSome then freshKey m fuel (start + 1) else start

end FMap
end Sys2Proof.Machine
end

