-- ==== Sys2Proof/Machine/State.lean ====
section
/-! DEFINITION. Everything the spec gives the machine, as plain data; the reset state; the reasons a step can stop. A map's
missing key reads as the default its comment names. Records the spec numbers bit by bit are naturals. -/

namespace Sys2Proof.Machine

/-! ## Threads (R10, spec/01, 02, 07, 18) -/

/-- The condition code (R42, Table 2.3). -/
structure CC where
  c : Bool
  z : Bool
  n : Bool
  v : Bool
  a : Bool
deriving DecidableEq, Repr

/-- Where a thread stands (Table 18.12, st = 0 to 8 in this order). -/
inductive Stand
  | ready | switch | wait | cross | requota | phase | exited | trapped | ended
deriving DecidableEq, Repr

/-- A call record (R180): the code object and byte offset of the return word. -/
structure CallRec where
  obj : Nat
  off : Nat
deriving DecidableEq, Repr

/-- What a word that ends its run does once every outstanding write has landed (R281, R22, R29, R183). -/
inductive EndOp
  | trellis (off : Nat)                 -- TRWAIT
  | wptr (chan target : Nat)            -- WPWAIT
  | counter (sel target : Nat)          -- TLWAIT
  | bar (id : Nat) (kind : BarKind)     -- BAR; 32 to 35 are the plot barriers
  | requota (q : Nat)
  | phase (n : Nat)
  | exit
  | again                               -- resumed from an image at a wait word, not yet looked at again (R358), or waiting for a fetch
deriving DecidableEq, Repr

/-- An outstanding long-latency write (R137, R139): one destination, which lands as a unit. `live` holds the registers no later
short write has superseded; `vals` the values once they are bound. -/
structure Pend where
  id : Nat
  mem : Bool
  names : List Nat
  live : List Nat
  ccDest : Bool               -- its destination includes CC
  ccF : Bool                  -- C, Z, N and V are still to be written
  ccA : Bool                  -- A is still to be written
  vals : Option (List (Nat × Word))
  ccVal : Option CC
deriving DecidableEq, Repr

/-- A memory word of the checkpoint (R84) with a piece that is not globally performed. `parked` counts its pieces that are not
performed at all: in the thread's queue, or staged. `lines` are the L1 lines of those that are performed and may still be read as
older by another observer (R83). `lanes` is the mask of the lanes of the thread's team that executed the word. -/
structure MemWord where
  id : Nat
  obj : Nat
  off : Nat
  len : Nat                   -- words of its instruction
  store : Bool
  scope : Nat
  lines : List Nat
  parked : Nat
  word : Nat := 0             -- numbers the word's execution, rising
  lanes : Nat := 0
deriving DecidableEq, Repr

/-- Every register of an outstanding write has its value. -/
def Pend.isBound (e : Pend) : Bool := e.vals.any (fun l => e.names.all (fun n => l.any (fun p => p.1 == n)))

/-- A piece of one lane's access of a memory word (R70). `kind`: 0 load, 1 store, 2 atomic. `typ` is the access type's code (Table 7.5) or
the atomic's type code. `id` names the word's checkpoint entry, and the outstanding write that takes a loaded or old value. -/
structure MemOp where
  wk : Nat
  idx : Nat
  id : Nat
  kind : Nat
  aop : Nat
  typ : Nat
  part : Nat
  tag : Nat
  va : Nat
  width : Nat
  data : Nat
  data2 : Nat
  ord : Nat
  scope : Nat
  dest : List Nat
  region : Nat
  word : Nat                  -- numbers the word's execution: one number for every lane of it (R55)
  spad : Nat := 0             -- 0 for global memory; else 1 plus the key of the workgroup whose scratchpad `va` is an offset of (R71)
  fixed : Bool := false       -- a word of a level-of-detail load: where it cannot be read any more, `data` is its value (R265)
deriving DecidableEq, Repr

/-- A terminal cause that waits for the thread's next switch (R86). -/
structure Terminal where
  cause : Nat
  sub : Nat
  addr : Nat
  obj : Nat
  off : Nat
  len : Nat                   -- words of its instruction
  va : Nat                    -- first byte of the access: a virtual address, or a place in a scratchpad (`MemOp.place`)
  width : Nat                 -- bytes of the access, 0 for one that has none
  load : Bool                 -- a load, or the read of an atomic
  all : Bool                  -- every later access is ordered after it
  stores : Bool               -- every later store is ordered after it
  word : Nat                  -- numbers the word's execution
deriving DecidableEq, Repr

/-- A value that a thread may still read from a k register another thread has written since (R40), until both have crossed a common BAR
or PHASE: `armed` are the barriers at which the writer has arrived since its write, `done` those of them whose phase has completed. -/
structure KOld where
  reader : Nat
  reg : Nat
  val : Word
  writer : Nat
  armed : List Nat
  done : List Nat
deriving DecidableEq, Repr

/-- The sources of a chained group as they stood before its first word (R132). -/
structure View where
  v : FMap Word
  t : FMap Word
  x : FMap Word
  cc : CC
  k : FMap Word
  kold : List KOld
deriving DecidableEq, Repr

/-- A resident thread. Registers missing from a map read as zero. -/
structure Thread where
  obj : Nat
  off : Nat
  cc : CC
  v : FMap Word
  t : FMap Word
  tw : List Nat               -- temporaries the current run has written (R38)
  x : FMap Word
  st : Stand
  parg : Nat
  op : Option EndOp
  wlen : Nat                  -- words of the instruction that ended the run
  partners : List Nat         -- while parked for a cross-lane read: the lanes it reads (R16)
  runEnded : Bool             -- the word at the PC has ended its run before a save (R358)
  runw : Nat
  oob : Bool
  calls : List CallRec
  sig : Word
  arrived : List Nat          -- barriers arrived at in the current phase (Table 18.12 bst)
  completed : List Nat        -- barriers with a completed phase not yet waited for
  pend : List Pend
  chk : List MemWord
  term : Option Terminal
  trail : Option (List TrailName)   -- the TRAIL words just executed (R138)
  await : Option (List Nat)   -- the outstanding writes a switch waits for
  view : Option View
  since : Nat                 -- the clock at which it became ready (R12)
  hold : List Nat             -- incomplete GRAFT and PRUNE words (R295)
  queue : List MemOp := []    -- pieces issued and not yet performed, in program order (R70, R75, R84)
  full : Option Nat := none   -- the checkpoint's oldest word when a seventeenth first waited (R84)
  seen : List Nat := []       -- lines whose written bytes it has read before they were at their home (R74)
  loaded : List Nat := []     -- registers of loads that have landed since a word last named one (R74)
  passed : List Nat := []     -- words whose parked reads a later store has passed (R85)
  waits : Bool := false       -- its word waits at issue: not selected again before an event (R12, log entry 39)
  trap : Nat                  -- identifier of its trap record while trapped
deriving DecidableEq, Repr

/-! ## Workgroups and launches -/

/-- A trace record in progress (R258, Table 12.4): `exact` holds its entries, `coarse` and `written` the ranges of tiles of a
slot. -/
structure TraceRec where
  gen : Nat
  epoch : Nat
  exact : List Nat
  coarse : FMap (Nat × Nat)
  written : FMap (Nat × Nat)
  other : Bool
deriving DecidableEq, Repr

/-- A staged effect of a deterministic workgroup (R300, Table 13.10). -/
inductive Staged
  | mem (op : MemOp) (seq : Option Nat)
  | push (idx id ring rcd : Nat)
  | flip (idx id disp surf : Nat)
deriving DecidableEq, Repr

/-- A resident or draining workgroup (R10, R19, R23). -/
structure Wg where
  part : Nat
  ltab : Nat
  launch : Nat
  plot : Nat
  wgid : Nat
  core : Nat                  -- physical core: 8 times the column plus the core in it
  slot : Nat                  -- workgroup context slot
  bslot : Nat                 -- the bind slot that placed it
  tag : Nat
  nthreads : Nat
  stages : List Nat           -- first thread index of stages 1 to 3
  quota : List Nat            -- registers per thread of each stage
  ceil : Nat
  pool : Nat
  k : FMap Word
  kold : List KOld := []      -- values of k registers that a thread may still read as old (R40)
  spadKiB : Nat
  spad : FMap Byte            -- default 0
  nbar : Nat
  phases : FMap Nat           -- phase counts of barriers 0 to 35, default 0
  bases : FMap Nat            -- write-pointer view bases, default 0
  flush : Bool
  np : Bool
  nptime : Nat                -- reference ticks left of its region (R355)
  det : Bool
  traced : Bool
  stopped : Option Nat        -- issues no further word: the completion status its launch takes
  draining : Bool
  born : Nat                  -- clock of dispatch, less the age kept by a resume
  threads : FMap Thread
  trace : TraceRec
  staging : List Staged
  saving : Bool               -- stopped for a save, a flush or a swap, which waits for its writes (R352, R353)
  flushing : Bool             -- it leaves by a flush
deriving DecidableEq, Repr

/-- What a launch's plots wait in: saved images or flushed indices (R353, R354). -/
inductive Returned
  | saved (plot : Nat) (imgs : List (List Byte))
  | flushed (plot : Nat)
deriving DecidableEq, Repr

/-- An entry of a partition's launch table (R342). `kind`: 0 launch, 1 raster pass, 2 frame graph. -/
structure Launch where
  num : Nat
  kind : Nat
  rcd : Nat
  queue : Nat
  q : FMap Nat                -- buffer records, default the null record
  variant : Option Nat
  vtab : List Nat             -- the variant entries (R298)
  ticket : Nat
  returned : List Returned
  avg : Option Nat            -- mean workgroup life (R349)
  plotsFree : Nat             -- plots whose every workgroup is free
  members : List (Nat × Nat)  -- (plot, members free so far)
  errs : Nat
  status : Option Nat         -- the status it ends with, when not done
  lease : List (Nat × Nat)    -- pages its lease covers: first page and count (R366)
  revoked : List Nat          -- revoked pages of its lease
  ready : Bool                -- its lease is held: workgroups may be dispatched
  donen : Nat                 -- its number on donectr
  select : Option (List Nat)  -- RELAUNCH: the workgroups to run
  shrunk : Nat
  sigchg : Nat
  rerun : Nat
  regions : List Nat          -- regions it has written: 4,096 times the partition plus the identifier (R256)
  relTicket : Nat             -- deterministic: lowest workgroup not fully released
  relDone : List Nat          -- deterministic: workgroups above it that are free
  seqs : FMap Nat             -- deterministic: next sequence number of an address
  ordered : List Nat          -- deterministic: lines in ordered mode (R301)
  stagings : FMap (List Staged)  -- deterministic: the staging of saved workgroups, by workgroup index (Table 18.11, det)
  node : Option (Nat × Nat)   -- the frame graph entry and node it runs for
  resumeOf : Option (Nat × Nat)  -- a resume launch: the launch-table entry whose plot it resumes, and the plot (R359)
  kblk : Nat                  -- k0-k15 at dispatch, 512 bits (R39)
  np : Bool                   -- its queue's np at acceptance (R355)
  wrapped : Bool              -- a relaunch that re-executes every workgroup because of an epoch (R260)
deriving DecidableEq, Repr

/-- A trap record and the threads it names (R373). -/
structure TrapRec where
  bits : Nat
  wk : Nat
  threads : List Nat
  len : Nat
  stored : Bool
deriving DecidableEq, Repr

/-- A matrix task (R216, R217): its record, its number on its stream, who issued it, where it stands. `recs` are the buffer
records or tensor entries of its A, B and destination as bound at its start (R221). `out` holds a shadowed task's result bytes by
place (R234). -/
structure Task where
  rcd : Nat
  num : Nat
  part : Nat
  tag : Nat
  wk : Nat
  core : Nat
  launch : Nat
  ltab : Nat
  status : Option Nat
  eng : Option Nat
  block : Nat                 -- output blocks done
  recs : List Nat
  parked : Bool
  since : Nat                 -- the clock at which it was accepted (R216)
  pruned : Bool
  shadowed : Bool
  out : List (Nat × Nat × Byte)
  was : List (Nat × Nat × Byte) := []   -- bytes of its operands that its own blocks have overwritten, as they were before (R222)
  ask : Nat := 0              -- the clock at which it parked (R230)
  plot : Nat := 0             -- its issuer's plot and index in it
  wgid : Nat := 0
  slots : Option (FMap Nat) := none     -- its launch's buffer records as last bound, once the launch has left the launch table (R221)
  todo : List (Nat × Nat × Byte) := []  -- bytes computed and not yet written (R80, R225)
deriving DecidableEq, Repr

/-- A matrix stream (R226) and its shadow region (R234): whether one is open, and the shadowed tasks that have run. -/
structure Stream where
  counter : Nat
  accepted : Nat
  done : List Nat             -- completed above the counter
  shadow : Bool
  ran : List Task
deriving DecidableEq, Repr

/-- A partition. -/
structure Part where
  cfg : Nat                   -- PART_CFG_n (Table 17.2), halted included
  vers : Nat                  -- VERS_PART_n
  exhaust : Nat               -- VERS_STAT_n.exhaust
  xroot : Nat                 -- XLAT_ROOT_n
  trapRing : Nat              -- TRAP_RING_n
  ringTable : Nat             -- RING_TABLE_n
  trk : Nat                   -- TRK_TABLE_n
  lod : Nat                   -- LOD_TABLE_n
  schedLog : Nat              -- SCHED_LOG_n
  swapCtl : Nat               -- SWAP_CTL_n
  swapRun : Nat := 0          -- the op of the swap in progress, which a later write of op does not change (R361)
  queues : FMap Nat           -- QUEUE_CFG_n_g, default 0
  ltab : FMap Launch
  nextNum : Nat
  streams : FMap Stream
  ectr : FMap Nat             -- engine-context counters, default 0
  ectrNum : FMap Nat          -- last number given on each, default 0
  ectrDone : FMap (List Nat)  -- numbers complete above the counter
  observed : FMap Nat         -- wr of rings as the front end has observed it (R339)
  merge : FMap Nat            -- merge unit of a queue: the ring its round visits next (R340), default 0
  served : FMap Nat           -- last queue served at each priority
  scrub : FMap Nat := []      -- spill-log lines that a retired tag still holds (R107)
  visiting : FMap Nat := []   -- the ring a queue's round stands at while the read of its entry waits (R340)
  nextTrap : Nat
  traps : FMap TrapRec
  quiet : FMap Bool           -- regions the host or a peer has stamped since their last advance (R256)
  tensors : FMap Nat          -- tensor-table entries, default 0 (invalid)
deriving DecidableEq, Repr

/-! ## Memory -/

/-- An L1 line (R61, R94): its scope, bytes present by offset, and the offsets that are dirty. -/
structure Line where
  scope : Nat
  data : FMap Byte
  dirty : List Nat
deriving DecidableEq, Repr

/-- A delta element (R97, R98). `row`: 0 integer add, 1 float add, 2 min, 3 max, 4 maxi, 5 and, 6 or, 7 xor. `cmp` is the compared
type's code; `val` the delta. -/
structure Delta where
  row : Nat
  width : Nat
  cmp : Nat
  val : Nat
deriving DecidableEq, Repr

/-- Who waits for a fault's answer (R369). -/
inductive Waiter
  | op (m : MemOp)
  | fetch (wk : Nat) (idxs : List Nat)
  | copy (core chan : Nat)
  | task (part stream num : Nat)
  | ray (col ray : Nat)
  | pass (part ltab : Nat)
  | lease (part ltab : Nat)
  | front (part queue : Nat)
  | phase (wk : Nat)
  | graph (part ltab : Nat)
  | graft (set : Nat)
  | free (wk : Nat)           -- a workgroup's trace record
  | done (part ltab : Nat)    -- a launch's completion
  | ticket (part ltab : Nat)  -- a staged push of a deterministic launch
deriving DecidableEq, Repr

/-- A parked access (R369). -/
structure Parked where
  part : Nat
  page : Nat                  -- VA [56:15]
  cause : Nat
  types : Nat
  src : Nat
  launch : Nat
  column : Nat
  who : Waiter
  born : Nat                  -- clock of the word that parked
  queued : Option Nat         -- the fault-queue entry it is attached to
  va : Nat                    -- first byte of the access
deriving DecidableEq, Repr

/-- A write waiting for a back-invalidate response (R371): who writes, and where; `late` once it is reported. -/
structure Snoop where
  who : Waiter
  part : Nat
  va : Nat
  pa : Nat
  late : Bool
deriving DecidableEq, Repr

/-- A version tag (R89). `state`: 0 free, 1 live, 2 retired. -/
structure Tag where
  state : Nat
  part : Nat
  set : Nat
deriving DecidableEq, Repr

/-- A fork-set slot in use (R89, R102): its tags, whether pruned by exhaustion, the bytes the base has written since the fork. -/
structure ForkSet where
  part : Nat
  tags : List Nat
  exhausted : Bool
  post : List Nat
deriving DecidableEq, Repr

/-- A held push or flip of a tag (R99). -/
structure Held where
  tag : Nat
  flip : Bool
  part : Nat
  dst : Nat                   -- ring or display
  val : Nat                   -- record or surface
deriving DecidableEq, Repr

/-- A GRAFT or PRUNE that waits to start (R103). -/
structure Grafting where
  wk : Nat
  idx : Nat
  id : Nat
  set : Nat
  winner : Nat
  report : Nat
  prune : Bool
deriving DecidableEq, Repr

/-! ## Engines -/

/-- A copy request taken by a channel (R286): its 256 bits, who kicked it, and how far it is. `recs` are the buffer records or
tensor entries of its source and destination as bound at its start (R287). -/
structure Copy where
  rcd : Nat
  wk : Nat
  idx : Nat
  tag : Nat
  part : Nat
  launch : Nat
  ltab : Nat
  gen : Nat                   -- captured generation of its trellis
  det : Bool
  recs : List Nat
  started : Bool
  done : Nat                  -- bytes delivered in a contiguous prefix
  parked : Bool
  pruned : Bool
  got : List Nat := []        -- elements delivered above the prefix, by their first byte (R81)
deriving DecidableEq, Repr

/-- A copy channel (R65): its write pointer and the requests in kick order. -/
structure Chan where
  wptr : Nat
  reqs : List Copy
deriving DecidableEq, Repr

/-- A ray in flight (R245). -/
structure Ray where
  wk : Nat
  idx : Nat
  id : Nat
  part : Nat
  tag : Nat
  rcd : Nat                   -- the buffer record
  block : List Word           -- origin, direction, tmin, tmax
  budget : Nat
  parked : Bool
  obj : Nat                   -- the PC of its TRACE, and the execution of that word
  off : Nat
  word : Nat
deriving DecidableEq, Repr

/-- A triangle that a pass has binned (R243): its draw record, its index in the draw, its three vertices and the bins it is in. -/
structure Binned where
  draw : Nat
  prim : Nat
  verts : List Nat
  bins : List Nat
deriving DecidableEq, Repr

/-- A raster pass in progress (R239). -/
structure Pass where
  part : Nat
  ltab : Nat
  num : Nat
  bins : List Nat             -- bins left
  stats : List Nat
  parked : Bool
  started : Bool := false     -- its triangles are binned
  hz : FMap Nat := []         -- hierarchical-depth entries as last read, by tile (R241)
  tris : List Binned := []    -- the triangles of every bin list, in draw order
  held : Option Nat := none   -- the bin whose access waits, or has been answered and not yet gone on
deriving DecidableEq, Repr

/-- A frame graph in progress (R250): each node's state (0 waiting, 2 complete, 4 plus the status it will take while it runs). -/
structure Graph where
  part : Nat
  ltab : Nat
  nodes : List Nat
  readyAt : FMap Nat := []    -- the clock at which a node became ready (R251)
  deps : List Nat := []       -- each node's dependences as checked: four node indices (R250)
  held : Option Nat := none   -- the node whose access waits
deriving DecidableEq, Repr

/-- A physical column (R323). -/
structure Col where
  enabled : Bool
  retired : Bool
  num : Nat                   -- its cores are S_CORE 8·num to 8·num + 7 (R315)
  base : Nat                  -- clock at which it was reset (R32)
  slots : FMap Nat            -- SLOT_c_s, default 0
  fresh : List Nat            -- slots written since the management core last ran (R332)
  cfg : Nat                   -- COL_CFG_c, without the computed empty bit
  tasks : List Task
  weight : FMap Byte          -- weight buffer, default 0
  istore : FMap Byte          -- instruction store, default 0
  rays : FMap Ray
  cache : FMap (Nat × Nat)    -- residency cache: a map byte's value and the clock of its fill, by physical address (R264)
  mv : Nat                    -- supply, mV
  mhz : Nat                   -- clock, MHz
  want : Option (Nat × Nat)   -- pending supply and clock (R382)
  stretch : List Nat          -- reasons the clock is stretched: 0 droop, 1 current, 2 power cap, 3 temperature
  hot : Bool                  -- above its limit for 10 ms (R356)
  kept : List (Nat × Nat × Nat)  -- slots of victims that claim nothing here: slot, and the launch it is kept for (R351)
  ousted : List (Nat × Nat × Nat) := []  -- plots saved from here by thermal control: partition, launch number and plot (R356)
deriving DecidableEq, Repr

/-- A pending entry of a level-of-detail filter (R268): its key, the first requester's fields, the requests merged, the clock at
which it was made, and the ring it goes to. -/
structure Feedback where
  part : Nat
  res : Nat
  page : Nat
  ring : Nat
  va : Nat
  want : Nat
  got : Nat
  none : Bool
  xl : Bool
  tag : Nat
  count : Nat
  born : Nat
deriving DecidableEq, Repr

/-- A core's own units: copy channels, engine error log, level-of-detail filter, oldest entry first (R65, R329, R268). -/
structure Core where
  chans : FMap Chan
  err : Nat
  filter : List Feedback
  errAt : Nat := 0            -- the clock of the event that CORE_ENGINE_ERR holds (R329)
deriving DecidableEq, Repr

/-- A display (R252, R327, R328). -/
structure Disp where
  cfg : Nat
  time : Nat
  stat : Nat                  -- DISP_STAT_y
  queue : List (Nat × Nat)    -- released flips: surface and its table entry as read at the release
  current : Nat               -- table entry of the current surface
  events : FMap Nat           -- clock of each presentation event, by count
deriving DecidableEq, Repr

/-- A firmware image slot (R333): nothing, the image put there at manufacture (log entry 6), or an image the mailbox wrote. -/
inductive ImageSlot
  | empty
  | factory
  | image (bytes : List Byte)
deriving DecidableEq, Repr

/-- A key of the module (R335), by what it is derived from: its bits are not in the spec. Alias keys of distinct digests are distinct. -/
inductive Key
  | root
  | identity
  | ofImage (digest : Nat)
deriving DecidableEq, Repr

/-- A certificate: a key, and the key that certifies it (R335, R336). -/
structure Cert where
  subject : Key
  issuer : Key
deriving DecidableEq, Repr

/-- A signature (R336): the key that made it, and the numbers of the request and of the response that it covers. -/
structure Signature where
  key : Key
  covers : List Nat
deriving DecidableEq, Repr

/-- An SPDM response (R336): its code, its fields as a number, the chain it sends or gives the digest of, and its signature. -/
structure Reply where
  code : Nat
  value : Nat
  chain : List Cert := []
  signature : Option Signature := none
deriving DecidableEq, Repr

/-- Start-up and identity (R333 to R336, R388). -/
structure Boot where
  svn : Nat
  slotA : ImageSlot
  slotB : ImageSlot
  accepted : ImageSlot        -- the image the last start accepted
  keysFor : ImageSlot         -- the image the held keys were derived for
  captab : Nat                -- capability table, 1,024 bits
  repairs : List Nat          -- non-volatile repair record (R384): op times 2^52 plus arg
  locked : Bool := true       -- the keys are derived, and the secret is out of reach until the next reset (R335)
deriving DecidableEq, Repr

/-- A workgroup in shadow storage (R361): the rank of its column among the partition's on its die, the die, its core in the column,
its slots and its image. -/
structure SwapImg where
  die : Nat
  rank : Nat
  core : Nat
  slot : Nat
  bslot : Nat
  img : List Byte
deriving DecidableEq, Repr

/-- Management core, host link and service registers. -/
structure Sys where
  privErr : Nat
  rebindAddr : Nat
  rebindCtl : Nat
  pwrReq : Nat
  wdog : Nat
  svc : Nat
  rangeFmt : FMap Nat         -- key 16·controller + n, default 0
  xlatCtl : Nat
  pageMove : Nat
  fltHead : Nat
  fltTail : Nat
  fltResp : Nat
  trapCtl : Nat
  errLog : Nat
  errSnap : Nat
  hwinLog : Nat
  hwinSnap : Nat
  eccLog : Nat
  hostWin : FMap Nat          -- HOST_WIN_n, default 0
  hostPcap : Nat
  mboxCmd : Nat
  mboxArg : Nat
  sram : FMap Byte            -- default 0
  lastRead : Nat              -- value of the management core's last read
  hostRead : Nat              -- value of the host's or a peer's last read
  rebindPend : Option (Nat × Nat × Nat × Nat)  -- partition, launch number, slot and record of a rebind not yet acknowledged
  launchQ : List (Nat × Nat)  -- launches posted: partition and launch-table entry (R342)
  msix : List Nat             -- MSI-X vectors raised
  mirq : List Nat             -- management-core interrupts: 0 fault, 1 trap
  portUp : List Bool
  kicked : Bool               -- WDOG written in this period
  spdm : List Reply           -- SPDM responses sent
  spdmVer : Nat               -- version negotiated; 0 none
  images : FMap (List SwapImg)       -- swapped-out workgroups by partition
  savedCols : FMap (List (Nat × Col))   -- column state of a swapped-out partition, by physical column
  fltOpen : List (Nat × Nat × Nat) := []  -- fault-queue entries not yet answered: partition, page and number (R369)
  svcRun : Nat := 0           -- the service operation in progress: op times 2^52 plus arg (R384)
  restored : FMap (List (List Byte)) := []  -- images that a restoration has put into shadow storage, by partition (R387)
  hostWaits : List (Bool × Nat × List Byte) := []  -- accesses from outside that wait for a port to retrain (R384)
  portCxl : List Bool := [true, true]   -- ports whose link runs CXL (R378)
  mgmtPc : Nat := 0           -- the address at which the management core last started (R334)
deriving DecidableEq, Repr

/-- The whole machine. `clock` counts steps; `fresh` numbers the free values drawn; `agenda` lists the device and host events
due, first first; `group` is the issue group of the word being executed; `turn` the core that issues next. These, `fresh` and `wordNext`
are the model's own fields (assumption log, entries 1 and 2). -/
structure State where
  clock : Nat
  fresh : Nat
  agenda : List Instr
  group : List (Nat × Nat)
  turn : Nat
  mem : List Host.Cell        -- committed physical memory; an unlisted byte reads as zero
  l1 : FMap Line
  vers : FMap Byte            -- line versions: key 2^52·tag + address
  versVa : FMap Nat           -- virtual line of each line version: key 2^44·tag + line
  deltas : FMap Delta         -- delta elements: key 2^52·tag + address
  expanded : FMap Byte        -- range-format bytes written and not yet quantised (R63)
  poison : FMap (List Nat)    -- failing 64-byte granules: offsets not rewritten since (R376)
  tstore : FMap Byte          -- tensor store: key 2^40·die + byte, default 0
  tags : FMap Tag
  sets : FMap ForkSet
  held : List Held
  grafts : List Grafting
  cores : FMap Core
  cols : FMap Col
  wgs : FMap Wg               -- key 32·core + context slot
  parts : FMap Part
  disps : FMap Disp
  passes : FMap Pass
  graphs : FMap Graph
  parked : FMap Parked
  snoops : FMap Snoop
  shared : List Nat           -- device lines the host may hold (R371)
  boot : Boot
  sys : Sys
  cells : FMap (List Word) := []   -- values that a partition's threads have written to the free register cells of a core's lane (R35)
  written : FMap (List Word) := []   -- values written to each cell that a resident thread has (R35)
  wordNext : Bool := false    -- the next step issues a word before any internal event
deriving DecidableEq, Repr

/-- Why a step stops with a fault. No instruction of the spec stops the machine: a machine-level trap is a next state. -/
inductive Fault
  /-- Raised by no meaning of this model: kept so that the type has a name. Safe: nothing raises it. -/
  | none
deriving DecidableEq, Repr

/-- Why a step is refused. -/
inductive Refusal
  /-- Raised by an arm of `exec` whose instruction has no meaning yet. Safe: the machine stops where the hardware goes on. -/
  | notModelled (mnemonic : String)
deriving DecidableEq, Repr

/-! ## Reset: the end of a cold start (R388, Table 20.8) -/

def CC.zero : CC := ⟨false, false, false, false, false⟩

/-- A thread at dispatch (R35, R36, R38, R180). -/
def Thread.start (obj off clock : Nat) : Thread :=
  { obj := obj, off := off, cc := CC.zero, v := [], t := [], tw := [], x := [], st := .ready, parg := 0, op := none,
    wlen := 1, partners := [], runEnded := false, runw := 0, oob := false, calls := [], sig := 0, arrived := [],
    completed := [], pend := [], chk := [], term := none, trail := none, await := none, view := none, since := clock,
    hold := [], trap := 0 }

def Stream.zero : Stream := ⟨0, 0, [], false, []⟩
def Chan.zero : Chan := ⟨0, []⟩
def Core.zero : Core := ⟨[], 0, [], 0⟩
def Disp.zero : Disp := ⟨0, 0, 0, [], 0, []⟩
def Tag.free : Tag := ⟨0, 0, 0⟩
def TraceRec.zero : TraceRec := ⟨0, 0, [], [], [], false⟩

/-- A partition that is disabled (R388 step 8); done bits read 1 (Table 18.13). -/
def Part.zero : Part :=
  { cfg := 0, vers := 0, exhaust := 0, xroot := 0, trapRing := 0, ringTable := 0, trk := 0, lod := 0, schedLog := 0,
    swapCtl := 2 ^ 62, queues := [], ltab := [], nextNum := 1, streams := [], ectr := [], ectrNum := [], ectrDone := [],
    observed := [], merge := [], served := [], nextTrap := 1, traps := [], quiet := [], tensors := [] }

/-- A column as a cold start leaves it: enabled unless a spare, 500 mV (Table 20.8), 1,200 MHz (Table 20.5), thresh 256. -/
def Col.start (c : Nat) : Col :=
  { enabled := c != 16 && c != 33 && decide (c < 34), retired := false, num := if c < 17 then c else c - 1, base := 0,
    slots := [], fresh := [], cfg := 256, tasks := [], weight := [], istore := [], rays := [], cache := [], mv := 500,
    mhz := 1200, want := none, stretch := [], hot := false, kept := [] }

/-- The capability table of a Sorub whose slot A image was accepted (Table 20.3; fwst: log entry 6). -/
def captabStart : Nat :=
  3 * 2 ^ 396 + 3 * 2 ^ 392 + 3 * 2 ^ 388 + 3 * 2 ^ 384 + Config.dtop * 2 ^ 320 + 0x3FF * 2 ^ 288 + 0xFFFFFFF * 2 ^ 256
    + 100 * 2 ^ 240 + 256 * 2 ^ 224 + 48 * 2 ^ 216 + 48 * 2 ^ 208 + 0x200010000 * 2 ^ 134 + 0x1FFFEFFFF * 2 ^ 100
    + 1 * 2 ^ 60 + 6 * 2 ^ 56 + 3 * 2 ^ 52 + 1 * 2 ^ 40 + 1 * 2 ^ 32 + 0x53424354

def Boot.start : Boot :=
  { svn := 0, slotA := .factory, slotB := .empty, accepted := .factory, keysFor := .factory, captab := captabStart, repairs := [] }

def Sys.start : Sys :=
  { privErr := 0, rebindAddr := 0, rebindCtl := 2 ^ 62, pwrReq := 1200 * 2 ^ 16 + 25 * 2 ^ 8, wdog := 0, svc := 2 ^ 62,
    rangeFmt := [], xlatCtl := 2 ^ 126, pageMove := 2 ^ 126, fltHead := 0, fltTail := 0, fltResp := 2 ^ 62,
    trapCtl := 2 ^ 62, errLog := 0, errSnap := 0, hwinLog := 0, hwinSnap := 0, eccLog := 0, hostWin := [], hostPcap := 0,
    mboxCmd := 2 ^ 62, mboxArg := 0, sram := [], lastRead := 0, hostRead := 0, rebindPend := none, launchQ := [], msix := [], mirq := [],
    portUp := [true, true], kicked := false, spdm := [], spdmVer := 0, images := [], savedCols := [], mgmtPc := Config.factoryEntry }

/-- The machine right after reset. -/
def State.reset : State :=
  { clock := 0, fresh := 0, agenda := [], group := [], turn := 0, mem := [], l1 := [], vers := [], versVa := [], deltas := [],
    expanded := [], poison := [], tstore := [], tags := [], sets := [], held := [], grafts := [],
    cores := [], cols := [], wgs := [], parts := [], disps := [], passes := [], graphs := [], parked := [], snoops := [],
    shared := [], boot := Boot.start, sys := Sys.start }

end Sys2Proof.Machine
end

