-- ==== Sys2Proof/Machine/Flags.lean ====
section
/-! DEFINITION. Conditions (Table 7.4) and the flag computations of the .cc forms (R158, R123, R124). -/

namespace Sys2Proof.Machine

/-- A condition on a thread's own CC (R146, Table 7.4). -/
def condHolds (c : Cond) (f : CC) : Bool :=
  match c with
  | .eq => f.z
  | .ne => !f.z
  | .hs => f.c
  | .lo => !f.c
  | .mi => f.n
  | .pl => !f.n
  | .vs => f.v
  | .vc => !f.v
  | .hi => f.c && !f.z
  | .ls => !f.c || f.z
  | .ge => f.n == f.v
  | .lt => f.n != f.v
  | .gt => !f.z && f.n == f.v
  | .le => f.z || f.n != f.v
  | .ab => f.a
  | .al => true

/-- The four flags a .cc form writes together (R158). -/
structure Flags4 where
  c : Bool
  z : Bool
  n : Bool
  v : Bool
deriving DecidableEq, Repr

/-- Z and N from a result of `w` bits, with C and V as the word gives them (R158). -/
def flagsOf (w res : Nat) (c v : Bool) : Flags4 := ⟨c, res % 2 ^ w == 0, bit res (w - 1), v⟩

/-- The OR of each flag over sub-elements (R124). -/
def flagsOr (l : List Flags4) : Flags4 := ⟨l.any (·.c), l.any (·.z), l.any (·.n), l.any (·.v)⟩

/-- The flags of a floating-point result (R123): `v` is given by the operation. -/
def flagsFloat (f : FFmt) (enc : Nat) (v : Bool) : Flags4 :=
  let x := fmtValue f enc
  ⟨x.isNan, x.isZero, !x.isNan && !x.isZero && x.neg?, v⟩

/-- V of an arithmetic operation on exact operands (R123): overflow, an invalid case, or an exact NaN or infinity that the
format turned into another kind. `ops` are the operands, `exact` the exact result, `res` the value written. An operand that is
an infinity and gives another exact result by the operation itself sets no V (DEDUCED: log entry 10). -/
def arithV (ovf : Bool) (ops : List XR) (exact res : XR) : Bool :=
  ovf || (exact.isNan && (!ops.any XR.isNan || !res.isNan)) || (exact.isInf && decide (res ≠ exact))

/-- CC with its four arithmetic flags replaced. -/
def CC.setF (f : CC) (x : Flags4) : CC := { f with c := x.c, z := x.z, n := x.n, v := x.v }

/-- CC with A replaced. -/
def CC.setA (f : CC) (a : Bool) : CC := { f with a := a }

/-- The CC image (Table 2.3). -/
def CC.image (f : CC) : Nat := bnat f.c + 2 * bnat f.z + 4 * bnat f.n + 8 * bnat f.v + 16 * bnat f.a

/-- The CC of an image. -/
def CC.ofImage (x : Nat) : CC := ⟨bit x 0, bit x 1, bit x 2, bit x 3, bit x 4⟩

/-- Flags of CMP in the order of its type (R167); `w` is 32 or 64. -/
def cmpFlags (w : Nat) (signed : Bool) (a b : Nat) : Flags4 :=
  ⟨decide (b ≤ a), a == b, if signed then decide (sInt w a < sInt w b) else decide (a < b), false⟩

/-- Flags of FCMP (Table 9.3). -/
def fcmpFlags (a b : XR) : Flags4 :=
  if a.isNan || b.isNan then ⟨true, false, false, true⟩
  else if XR.lt a b then ⟨false, false, true, false⟩
  else if XR.lt b a then ⟨true, false, false, false⟩
  else ⟨true, true, false, false⟩

end Sys2Proof.Machine
end

