-- ==== Sys2Proof/Machine/Mem.lean ====
section
/-! DEFINITION. Physical memory at its home: committed bytes, range-format windows (R62 to R64), line versions and delta elements
(R94 to R98), L1 lines (R61), translation (R363 to R367) and the violation logs (R375). -/

namespace Sys2Proof.Machine

/-! ## Records of the state, with the value a missing key reads as -/

def State.part (s : State) (n : Nat) : Part := s.parts.get Part.zero n
def State.setPart (s : State) (n : Nat) (p : Part) : State := { s with parts := s.parts.put n p }
def State.modPart (s : State) (n : Nat) (f : Part → Part) : State := s.setPart n (f (s.part n))

def State.col (s : State) (c : Nat) : Col := s.cols.get (Col.start c) c
def State.setCol (s : State) (c : Nat) (x : Col) : State := { s with cols := s.cols.put c x }
def State.modCol (s : State) (c : Nat) (f : Col → Col) : State := s.setCol c (f (s.col c))

def State.core (s : State) (c : Nat) : Core := s.cores.get Core.zero c
def State.setCore (s : State) (c : Nat) (x : Core) : State := { s with cores := s.cores.put c x }
def State.modCore (s : State) (c : Nat) (f : Core → Core) : State := s.setCore c (f (s.core c))

def State.disp (s : State) (y : Nat) : Disp := s.disps.get Disp.zero y
def State.setDisp (s : State) (y : Nat) (x : Disp) : State := { s with disps := s.disps.put y x }

def State.tag (s : State) (t : Nat) : Tag := s.tags.get Tag.free t
def State.setTag (s : State) (t : Nat) (x : Tag) : State := { s with tags := s.tags.put t x }

def Part.launch? (p : Part) (e : Nat) : Option Launch := p.ltab.find? e
def State.launch? (s : State) (n e : Nat) : Option Launch := (s.part n).launch? e
def State.modLaunch (s : State) (n e : Nat) (f : Launch → Launch) : State :=
  s.modPart n (fun p => { p with ltab := p.ltab.modify e f })

def State.modWg (s : State) (k : Nat) (f : Wg → Wg) : State := { s with wgs := s.wgs.modify k f }
def State.modThread (s : State) (k i : Nat) (f : Thread → Thread) : State :=
  s.modWg k (fun w => { w with threads := w.threads.modify i f })
def State.thread? (s : State) (k i : Nat) : Option Thread :=
  match s.wgs.find? k with
  | some w => w.threads.find? i
  | none => none

def State.modSys (s : State) (f : Sys → Sys) : State := { s with sys := f s.sys }

/-- The S_CORE number of a physical core (R315). -/
def State.coreNum (s : State) (c : Nat) : Nat := 8 * (s.col (c / 8)).num + c % 8

/-! ## Committed memory -/

/-- The canonical form of memory: addresses strictly rising, no entry equal to what an unlisted byte reads as. -/
def Memory.wf (m : List Host.Cell) : Bool := FMap.wf (0 : Byte) m

/-- A byte of committed memory as stored. -/
def State.rd (s : State) (pa : Nat) : Byte := FMap.get 0 s.mem pa

/-- Store a byte, keeping the canonical form. -/
def State.wr (s : State) (pa : Nat) (b : Byte) : State := { s with mem := FMap.set 0 s.mem pa b }

/-- `n` stored bytes as a number, least significant first (R5). -/
def State.rdNat (s : State) (pa n : Nat) : Nat := ofLe ((List.range n).map (fun i => s.rd (pa + i)))

/-- Store the bytes of a list from `pa` upward. -/
def State.wrList (s : State) (pa : Nat) : List Byte → State
  | [] => s
  | b :: bs => State.wrList (s.wr pa b) (pa + 1) bs

/-- Store the low `n` bytes of a number (R5). -/
def State.wrNat (s : State) (pa n x : Nat) : State := s.wrList pa (leBytes n x)

/-! ## Range-format windows (R62 to R64) -/

/-- Formats that Table 3.6 can store: a float format or an integer width. -/
inductive StFmt
  | flt (f : FFmt)
  | int (f : IFmt)
deriving DecidableEq, Repr

def rfEnabled (r : Nat) : Bool := bit r 31
def rfStFmt (r : Nat) : StFmt :=
  match bits r 111 108 with
  | 0 => .flt .e4m3 | 1 => .flt .e5m2 | 2 => .flt .e3m2 | 3 => .flt .e2m3 | 4 => .flt .e2m1 | 5 => .int .s8 | _ => .int .s4
def rfExp (r : Nat) : FFmt := match bits r 113 112 with
  | 0 => .f32 | 1 => .f16 | _ => .bf16
def rfScFmt (r : Nat) : FFmt := if bit r 115 then .e4m3 else .e8m0
def rfBlock (r : Nat) : Nat := if bit r 114 then 16 else 32
def rfStBase (r : Nat) : Nat := bits r 107 64 * 256
def rfScBase (r : Nat) : Nat := bits r 171 128 * 256
def rfOutBase (r : Nat) : Nat := bits r 235 192 * 256
def rfOutCap (r : Nat) : Nat := bits r 191 172
def rfBase (r : Nat) : Nat := bits r 30 0 * 2 ^ 21
def rfLimit (r : Nat) : Nat := (bits r 62 32 + 1) * 2 ^ 21
def rfExpBytes (r : Nat) : Nat := fmtWidth (rfExp r) / 8

def stWidth : StFmt → Nat
  | .flt f => fmtWidth f
  | .int f => intWidth f

def stValue (f : StFmt) (x : Nat) : XR :=
  match f with
  | .flt g => fmtValue g x
  | .int g => .ofInt (intValue g x)

/-- The controller that homes a line (log entry 5). -/
def ctlOf (pa : Nat) : Nat := pa / 256 % Config.controllers

/-- The range-format register that applies to an address: the lowest-numbered enabled one (R62). -/
def State.window? (s : State) (pa : Nat) : Option (Nat × Nat) :=
  if s.sys.rangeFmt = [] then none
  else
    ((List.range 16).map (fun n => (n, FMap.get 0 s.sys.rangeFmt (16 * ctlOf pa + n)))).find?
      (fun p => rfEnabled p.2 && decide (rfBase p.2 ≤ pa ∧ pa < rfLimit p.2))

/-- Stored element `i`, packed densely (R114). -/
def State.storedElem (s : State) (r i : Nat) : Nat :=
  let w := stWidth (rfStFmt r)
  let b := i * w
  s.rdNat (rfStBase r + b / 8) 2 / 2 ^ (b % 8) % 2 ^ w

/-- Write stored element `i`. -/
def State.putStored (s : State) (r i v : Nat) : State :=
  let w := stWidth (rfStFmt r)
  let b := i * w
  let a := rfStBase r + b / 8
  let old := s.rdNat a 2
  s.wrNat a 2 (setBits old (b % 8 + w - 1) (b % 8) v)

/-- The entries of block `b`'s probe window (R64). -/
def probeWindow (r b : Nat) : List Nat :=
  let cap := rfOutCap r
  if cap < 16 then (List.range cap).map (fun k => (b % (max cap 1) + k) % max cap 1)
  else (List.range 16).map (fun k => (b % cap + k) % cap)

def State.outlier (s : State) (r k : Nat) : Nat := s.rdNat (rfOutBase r + 16 * k) 16

/-- The live outlier entry that names element `i` of block `b`. -/
def State.outlierOf (s : State) (r b i : Nat) : Option Nat :=
  (probeWindow r b).find? (fun k => let e := s.outlier r k; bit e 127 && bits e 111 64 == i)

/-- scale × element; an infinite element keeps its value under a scale that is not NaN (R115). -/
def scaled (sc v : XR) : XR :=
  if sc.isNan || v.isNan then .nan
  else match v with
    | .inf n => .inf n
    | _ => XR.mul sc v

/-- The value of a block's scale. A block of 32 s8 elements with e8m0 scales is the MX-compatible format, whose elements are the integers
times 2^−6 (R115): the factor is taken into the scale, so that a fill and the quantiser of R63 use one value (log entry 45). -/
def rfScale (r sc : Nat) : XR :=
  let x := fmtValue (rfScFmt r) sc
  if rfStFmt r = .int .s8 ∧ rfScFmt r = .e8m0 ∧ rfBlock r = 32 then XR.mul x (.fin false 1 64) else x

/-- A product in the expanded format, exactly (R63). Where the format does not hold it the spec states no value: a free one (log entry
45). -/
def expandTo (r sc el : Nat) (x : XR) : Nat :=
  let e := roundRne (rfExp r) x
  match x with
  | .fin _ _ _ => if XR.eqv (fmtValue (rfExp r) e) x then e else Config.freeExpand r sc el % 2 ^ fmtWidth (rfExp r)
  | _ => e

/-- Element `i` of a window as a fill expands it: an outlier where one is live, else stored value × scale. -/
def State.expandElem (s : State) (r i : Nat) : Nat :=
  let b := i / rfBlock r
  let d := s.rdNat (rfScBase r + 2 * b) 2
  let out := if bit d 8 then s.outlierOf r b i else none
  match out with
  | some k => roundRne (rfExp r) (fmtValue .f32 (bits (s.outlier r k) 31 0))
  | none => expandTo r (d % 256) (s.storedElem r i) (scaled (rfScale r (d % 256)) (stValue (rfStFmt r) (s.storedElem r i)))

/-- A byte of tag-0 memory as an agent reads it: inside an enabled window, in expanded form. Bytes written through a window and not yet
quantised are not to be seen while its register is disabled or names another range, and are again once it names that one: the spec says
nothing of them (DESIGN CHOICE, log entry 45). -/
def State.base (s : State) (pa : Nat) : Byte :=
  match s.window? pa with
  | none => s.rd pa
  | some (_, r) =>
    match s.expanded.find? pa with
    | some b => b
    | none =>
      let o := pa - rfBase r
      BitVec.ofNat 8 (s.expandElem r (o / rfExpBytes r) / 256 ^ (o % rfExpBytes r))

/-- The key of a granule: of memory, or of a tag's versions (R376). -/
def granuleKey (tag g : Nat) : Nat := 2 ^ 46 * tag + g

/-- A granule rewritten in full, at the tag that holds it, stops failing (R376). -/
def State.unpoison (s : State) (tag pa : Nat) : State :=
  let k := granuleKey tag (pa / 64)
  match s.poison.find? k with
  | none => s
  | some l =>
    let l' := l.filter (· != pa % 64)
    { s with poison := if l' = [] then s.poison.erase k else s.poison.put k l' }

/-- Record a tag-0 write for every fork set in use: the byte is post-fork (R102). -/
def State.markPost (s : State) (pa : Nat) : State :=
  { s with sets := s.sets.map (fun p => (p.1, { p.2 with post := if p.2.post.contains pa then p.2.post else p.2.post ++ [pa] })) }

/-- Store a tag-0 byte, in expanded form inside an enabled window. -/
def State.commitRaw (s : State) (pa : Nat) (b : Byte) : State :=
  let s := s.unpoison 0 pa
  match s.window? pa with
  | none => s.wr pa b
  | some _ => { s with expanded := s.expanded.put pa b }

/-- Tag-0 bytes as a number. -/
def State.baseNat (s : State) (pa n : Nat) : Nat := ofLe ((List.range n).map (fun i => s.base (pa + i)))

/-! ## Versions and deltas (R94 to R98) -/

def verKey (tag pa : Nat) : Nat := 2 ^ 52 * tag + pa

/-- The identity that a delta element starts with (Table 5.4). -/
def deltaInit (row width cmp : Nat) : Nat :=
  match row with
  | 2 => if cmp = 1 then 0x7FFFFFFF else if cmp = 8 then 0x7FC00000 else 2 ^ (8 * width) - 1
  | 3 => if cmp = 1 then 0x80000000 else if cmp = 8 then 0x7FC00000 else 0
  | 4 => maxiLeast (if cmp = 1 then .s32 else if cmp = 8 then .f32 else .z32)
  | 5 => 2 ^ (8 * width) - 1
  | _ => 0

/-- The float format of a type code (Table 7.3). -/
def cmpFmt (cmp : Nat) : FFmt := if cmp = 9 then .f16 else if cmp = 10 then .bf16 else .f32

/-- The key type of a compared type code. -/
def cmpKey (cmp : Nat) : KeyTy := if cmp = 1 then .s32 else if cmp = 8 then .f32 else .z32

/-- The operation of a row of Table 5.4 on values of a width: update and combine alike. -/
def deltaOp (row width cmp x y : Nat) : Nat :=
  match row with
  | 0 => (x + y) % 2 ^ (8 * width)
  | 1 => let f := cmpFmt cmp; roundRne f (XR.add .rne (fmtValue f x) (fmtValue f y))
  | 2 => if cmp = 8 then fminmax .f32 false x y
         else if cmp = 1 then (if sInt 32 y < sInt 32 x then y else x) else min x y
  | 3 => if cmp = 8 then fminmax .f32 true x y
         else if cmp = 1 then (if sInt 32 x < sInt 32 y then y else x) else max x y
  | 4 => maxi (cmpKey cmp) x y
  | 5 => x &&& y
  | 6 => x ||| y
  | _ => x ^^^ y

/-- combine(b, d) for the element at `pa`. -/
def State.combined (s : State) (pa : Nat) (d : Delta) : Nat := deltaOp d.row d.width d.cmp (s.baseNat pa d.width) d.val

/-- The delta element of a tag that covers a byte, with its start. -/
def State.deltaAt (s : State) (tag pa : Nat) : Option (Nat × Delta) :=
  if s.deltas = [] then none
  else
    ([2, 4, 8].map (fun w => pa / w * w)).findSome? (fun a =>
      match s.deltas.find? (verKey tag a) with
      | some d => if pa < a + d.width then some (a, d) else none
      | none => none)

/-- A byte as a tag reads it at the home (R96). -/
def State.readHome (s : State) (tag pa : Nat) : Byte :=
  if tag = 0 then s.base pa
  else match s.vers.find? (verKey tag pa) with
    | some b => b
    | none =>
      match s.deltaAt tag pa with
      | some (a, d) => BitVec.ofNat 8 (s.combined a d / 256 ^ (pa - a))
      | none => s.base pa

def State.readHomeNat (s : State) (tag pa n : Nat) : Nat := ofLe ((List.range n).map (fun i => s.readHome tag (pa + i)))

/-- Convert a delta element to a plain version (R98). -/
def State.toVersion (s : State) (tag a : Nat) (d : Delta) : State :=
  let bs := leBytes d.width (s.combined a d)
  { s with
    vers := (List.zip (List.range d.width) bs).foldl (fun m p => m.put (verKey tag (a + p.1)) p.2) s.vers
    deltas := s.deltas.erase (verKey tag a) }

/-- Convert every delta element of a tag that overlaps `n` bytes at `pa`. -/
def State.convertOver (s : State) (tag pa n : Nat) : State :=
  (List.range n).foldl (fun s i =>
    match s.deltaAt tag (pa + i) with
    | some (a, d) => s.toVersion tag a d
    | none => s) s

/-! ## Translation (R363 to R367) -/

/-- A translated access: a physical address and the page's dup bit, a replayable fault by cause (Table 19.8), or a terminal
response by sub-cause (R372). -/
inductive Xlat
  | ok (pa : Nat) (dup : Bool)
  | fault (cause : Nat)
  | term (sub : Nat)
deriving DecidableEq, Repr

/-- One level of Table 19.1: the shift of its VA bits, the number of bits, and whether a leaf may stand there. -/
structure Level where
  shift : Nat
  bits : Nat
  leaf : Bool
  table : Bool
deriving DecidableEq, Repr

def levels : List Level :=
  [⟨46, 11, false, true⟩, ⟨36, 10, false, true⟩, ⟨26, 10, true, true⟩, ⟨21, 5, true, true⟩, ⟨15, 6, true, false⟩]

/-- A leaf found by a walk. -/
structure Leaf where
  pa : Nat
  shift : Nat
  r : Bool
  w : Bool
  x : Bool
  dup : Bool
deriving DecidableEq, Repr

/-- Alignment of the table or page an entry names. -/
def entryAlign (l : Level) (next : List Level) (leaf : Bool) : Nat :=
  if leaf then 2 ^ l.shift
  else match next with
    | n :: _ => 8 * 2 ^ n.bits
    | [] => 1

/-- The port whose link a service operation retrains (R384). -/
def State.retraining (s : State) : Option Nat :=
  if !bit s.sys.svc 62 && s.sys.svcRun / 2 ^ 52 == 4 then some (s.sys.svcRun % 2) else none

/-- A port whose link is up and runs CXL (R378). -/
def State.portCxl (s : State) (p : Nat) : Bool := s.sys.portUp.getD p false && s.sys.portCxl.getD p false

/-- A port that CXL traffic may take now: one whose link does not retrain (R384). -/
def State.portRuns (s : State) (p : Nat) : Bool := s.portCxl p && s.retraining != some p

/-- The port through which a host address is accessed: bit 12 selects it, and the other is used where it does not run (R378, R384). -/
def State.hostPort (s : State) (pa : Nat) : Option Nat :=
  let p := pa / 4096 % 2
  if s.portRuns p then some p else if s.portRuns (1 - p) then some (1 - p) else none

/-- A device access to host memory waits: no port runs (R384; log entry 30). -/
def State.linkHeld (s : State) (pa : Nat) : Bool := bit pa 51 && (s.hostPort pa).isNone

/-- Whether a window covers a host access (R331). -/
def State.hostAllowed (s : State) (pa : Nat) (needR needW : Bool) : Bool :=
  let page := pa % 2 ^ 51 / 4096
  s.sys.hostWin.any (fun p =>
    let w := p.2
    bit w 0 && decide (bits w 63 12 ≤ page ∧ page ≤ bits w 115 64) && (!needR || bit w 1) && (!needW || bit w 2))

/-- Whether any window covers a host access, whatever its rights. -/
def State.hostCovered (s : State) (pa : Nat) : Bool :=
  let page := pa % 2 ^ 51 / 4096
  s.sys.hostWin.any (fun p => bit p.2 0 && decide (bits p.2 63 12 ≤ page ∧ page ≤ bits p.2 115 64))

/-- The walk from a table (R364): the leaf, or cause 1 (invalid) or 3 (malformed). An uncorrectable error makes the entry
malformed (R376). -/
def State.walk (s : State) (va : Nat) : List Level → Nat → Except Nat Leaf
  | [], _ => .error 3
  | l :: ls, table =>
    let a := table + 8 * (va / 2 ^ l.shift % 2 ^ l.bits)
    let e := s.baseNat a 8
    let pa := bits e 51 8 * 256
    if (s.poison.find? (a / 64)).isSome || (if bit a 51 then !s.hostAllowed a true false else decide (Config.dtop ≤ a)) then .error 3
    else if !bit e 0 then .error 1
    else if bits e 63 52 != 0 || bits e 6 5 != 0 then .error 3
    else if bit e 1 && !l.leaf || !bit e 1 && !l.table then .error 3
    else if pa % entryAlign l ls (bit e 1) != 0 then .error 3
    else if bit e 7 && bit e 51 then .error 3
    else if bit e 1 then .ok ⟨pa, l.shift, bit e 2, bit e 3, bit e 4, bit e 7⟩
    else State.walk s va ls pa

/-- Physical checks on an access: beyond dtop, sub-cause 3 (R381); outside the host windows, sub-cause 4 (R331). -/
def State.physical (s : State) (pa : Nat) (needR needW : Bool) (dup : Bool) : Xlat :=
  if bit pa 51 then (if s.hostAllowed pa needR needW then .ok pa dup else .term 4)
  else if Config.dtop ≤ pa then .term 3
  else .ok pa dup

/-- The leaf of a virtual address in a partition. -/
def State.leaf (s : State) (part va : Nat) : Except Nat Leaf :=
  let x := (s.part part).xroot
  if !bit x 0 then .error 1 else s.walk va levels (bits x 51 14 * 2 ^ 14)

/-- Translation of one access of a partition: rights needed are read, write and fetch. -/
def State.xlate (s : State) (part va : Nat) (needR needW needX : Bool) : Xlat :=
  match s.leaf part (va % 2 ^ 57) with
  | .error c => .fault c
  | .ok l =>
    if (needR && !l.r) || (needW && !l.w) || (needX && !l.x) then .fault 2
    else s.physical (l.pa + va % 2 ^ l.shift) needR needW l.dup

/-- The entries of a launch's lease list (Table 19.5), as (first page, pages). -/
def State.leaseEntries (s : State) (part : Nat) (l : Launch) : List (Nat × Nat) :=
  let n := bits l.rcd 911 896
  let a := bits l.rcd 888 832
  (List.range n).map (fun i =>
    match s.xlate part (a + 16 * i) true false false with
    | .ok pa _ => let e := s.baseNat pa 16; (bits e 56 15, bits e 95 64)
    | _ => (0, 0))

/-- The check of a leased launch's access (R367): none where it may go on. -/
def leaseCheck (l : Launch) (va : Nat) : Option Xlat :=
  if bits l.rcd 911 896 = 0 then none
  else
    let page := va / 2 ^ 15
    if l.revoked.contains page then some (.fault 4)
    else if l.lease.any (fun p => decide (p.1 ≤ page ∧ page < p.1 + p.2)) then none
    else some (.term 2)

/-- Translation of an access that a launch's threads or their engine requests make. -/
def State.xlateFor (s : State) (part ltab va : Nat) (needR needW : Bool) : Xlat :=
  match s.launch? part ltab with
  | some l =>
    match leaseCheck l va with
    | some x => x
    | none => s.xlate part va needR needW false
  | none => s.xlate part va needR needW false

/-- A read meets a failing granule (R376). -/
def State.poisoned (s : State) (pa n : Nat) : Bool :=
  s.poison != [] && (List.range n).any (fun i => (s.poison.find? ((pa + i) / 64)).isSome)

/-! ## Violation logs (R375) -/

/-- A log register after an event: the first since the clear stands, later ones only count (Table 19.13). -/
def logEvent (log part cause source core : Nat) (va : Bool) (addr : Nat) : Nat :=
  let count := bits log 127 96
  if count = 0 then
    2 ^ 96 + part % 8 * 2 ^ 93 + cause % 16 * 2 ^ 84 + source % 16 * 2 ^ 80 + core % 256 * 2 ^ 72 + bnat va * 2 ^ 63 + addr % 2 ^ 57
  else setBits log 127 96 (satInc 32 count)

def State.logErr (s : State) (part cause source core : Nat) (va : Bool) (addr : Nat) : State :=
  s.modSys (fun y => { y with errLog := logEvent y.errLog part cause source core va addr })

def State.logHwin (s : State) (part cause source core : Nat) (addr : Nat) : State :=
  s.modSys (fun y => { y with hwinLog := logEvent y.hwinLog part cause source core false addr })

/-! ## Tracked regions and stamps (R253 to R256, R110) -/

/-- A valid tracked region (Table 12.2). -/
structure Region where
  part : Nat
  id : Nat
  addr : Nat                  -- physical address of its entry
  base : Nat
  tlog : Nat
  tiles : Nat
  stamps : Nat                -- physical address of its stamp array
  gen : Nat
  epoch : Nat
deriving DecidableEq, Repr

/-- A unit's access to a table in physical memory: in host memory it needs a window with the rights of what it does, and beyond the end of
device memory there is none (R331, R381). -/
def State.tableOpen (s : State) (pa : Nat) (rd wr : Bool) : Bool := match s.physical pa rd wr false with
  | .ok _ _ => true
  | _ => false

/-- Where the entry of a region stands. -/
def State.regionPa (s : State) (part id : Nat) : Nat := bits (s.part part).trk 51 12 * 4096 + 32 * (id - 1)

/-- Region `id` of a partition; none where it has no valid entry (R253, R254), or none that may be read. -/
def State.region? (s : State) (part id : Nat) : Option Region :=
  if id = 0 ∨ bits (s.part part).trk 11 0 < id then none
  else
    let a := s.regionPa part id
    let e := s.baseNat a 32
    let r : Region := ⟨part, id, a, bits e 56 0, bits e 61 57, bits e 93 64, bits e 139 96 * 256, bits e 246 231, bits e 254 247⟩
    if !s.tableOpen a true false || !bit e 255 || r.tlog < 12 || 21 < r.tlog || r.tiles = 0 || r.base % 2 ^ r.tlog ≠ 0 then none else some r

/-- The valid regions of a partition. -/
def State.regionsOf (s : State) (part : Nat) : List Region :=
  (List.range (bits (s.part part).trk 11 0)).filterMap (fun i => s.region? part (i + 1))

/-- The tiles of a region that hold a byte of a virtual range (R254). -/
def Region.tilesOf (r : Region) (va n : Nat) : List Nat :=
  ((List.range n).filterMap (fun i =>
    if r.base ≤ va + i ∧ va + i < r.base + r.tiles * 2 ^ r.tlog then some ((va + i - r.base) / 2 ^ r.tlog) else none)).dedup

/-- The tiles of a region that a physical byte backs: its pages are translated one by one (R255). -/
def State.tilesBacked (s : State) (r : Region) (pa : Nat) : List Nat :=
  let first := r.base / 2 ^ 15
  let last := (r.base + r.tiles * 2 ^ r.tlog - 1) / 2 ^ 15
  (List.range (last + 1 - first)).flatMap (fun j =>
    let page := (first + j) * 2 ^ 15
    match s.leaf r.part page with
    | .ok l =>
      let frame := l.pa + page % 2 ^ l.shift
      if frame ≤ pa ∧ pa < frame + 2 ^ 15 then r.tilesOf (page + (pa - frame)) 1 else []
    | .error _ => [])

/-- Every tile, of every partition's regions, that a physical byte backs. -/
def State.tilesAt (s : State) (pa : Nat) : List (Region × Nat) :=
  if s.parts.all (fun p => bits p.2.trk 11 0 == 0) then []
  else (s.parts.flatMap (fun p => s.regionsOf p.1)).flatMap (fun r => (s.tilesBacked r pa).map (fun t => (r, t)))

/-- A byte of a line version of a tag. -/
def State.putVersion (s : State) (tag pa : Nat) (b : Byte) : State := { s with vers := s.vers.put (verKey tag pa) b }

/-- The virtual line of a line version, kept from the version's first write (R102). -/
def State.nameLine (s : State) (tag va pa : Nat) : State :=
  let k := 2 ^ 44 * tag + pa / 256
  { s with versVa := if (s.versVa.find? k).isSome then s.versVa else s.versVa.put k (va / 256) }

/-- A unit's access to host memory that no window lets through, or beyond the end of device memory, is not sent, and is logged (R331, R381):
`source` is its code, and it has no core. -/
def State.logClosed (s : State) (part source pa : Nat) (rd wr : Bool) : State :=
  match s.physical pa rd wr false with
  | .term 4 => s.logHwin part (if s.hostCovered pa then 2 else 1) source 255 (pa % 2 ^ 51)
  | .term _ => s.logErr part 3 source 255 false pa
  | _ => s

/-- The regions of a partition whose entries stand in host memory that no window lets the device read: looking for the tiles of a write is a
refused read of the first of them (R331). -/
def State.noteRegionTables (s : State) : State :=
  s.parts.foldl (fun s p =>
    match ((List.range (bits p.2.trk 11 0)).map (fun i => s.regionPa p.1 (i + 1))).find? (fun a => !s.tableOpen a true false) with
    | some a => s.logClosed p.1 7 a true false
    | none => s) s

/-- The stamp G + 1 of a tile in committed memory. One that no window lets through to the host is not sent, and is logged as a write-back's
(R331, log entry 26). -/
def State.putStamp (s : State) (r : Region) (tile : Nat) : State :=
  let a := r.stamps + 2 * tile
  let x := r.gen + 1
  if !s.tableOpen a false true then s.logClosed r.part 7 a false true
  else (s.commitRaw a (BitVec.ofNat 8 x)).commitRaw (a + 1) (BitVec.ofNat 8 (x / 256))

/-- Stamp the tiles that a written byte backs with G + 1, at the writer's tag (R255, R110). -/
def State.stamp (s : State) (tag pa : Nat) : State :=
  (s.tilesAt pa).foldl (fun s p =>
    let a := p.1.stamps + 2 * p.2
    let x := p.1.gen + 1
    if tag = 0 then s.putStamp p.1 p.2
    else (s.putVersion tag a (BitVec.ofNat 8 x)).putVersion tag (a + 1) (BitVec.ofNat 8 (x / 256))) s.noteRegionTables

/-- A byte of some region's stamp array. -/
def State.isStamp (s : State) (pa : Nat) : Bool :=
  (s.parts.flatMap (fun p => s.regionsOf p.1)).any (fun r => decide (r.stamps ≤ pa ∧ pa < r.stamps + 2 * r.tiles))

/-- G of a region advances by one; from 0xFFFE it wraps and the epoch counts (R256). -/
def State.advanceRegion (s : State) (part id : Nat) : State :=
  match s.region? part id with
  | none => s
  | some r =>
    if !s.tableOpen r.addr false true then s.logClosed part 7 r.addr false true
    else
    let e := s.baseNat r.addr 32
    let e := if r.gen < 0xFFFE then setBits e 246 231 (r.gen + 1) else setBits (setBits e 246 231 0) 254 247 (r.epoch + 1)
    let s := ((List.range 32).zip (leBytes 32 e)).foldl (fun s p => s.commitRaw (r.addr + p.1) p.2) s
    s.modPart part (fun q => { q with quiet := q.quiet.erase id })

/-! ## Writes at the home -/

/-- A tag-0 write of one byte that stamps no tile: a grafted byte, whose stamp R110 gives. -/
def State.commitPlain (s : State) (pa : Nat) (b : Byte) : State := (s.commitRaw pa b).markPost pa

/-- A tag-0 write of one byte at its home, which stamps its tile (R255). -/
def State.commit (s : State) (pa : Nat) (b : Byte) : State := (s.commitPlain pa b).stamp 0 pa

def State.commitList (s : State) (pa : Nat) : List Byte → State
  | [] => s
  | b :: bs => State.commitList (s.commit pa b) (pa + 1) bs

/-- A write of one byte under a tag at the home, of virtual address `va` (R94). -/
def State.writeHome (s : State) (tag va pa : Nat) (b : Byte) : State :=
  if tag = 0 then s.commit pa b
  else ((((s.unpoison tag pa).convertOver tag pa 1).putVersion tag pa b).nameLine tag va pa).stamp tag pa

def State.writeHomeList (s : State) (tag va pa : Nat) : List Byte → State
  | [] => s
  | b :: bs => State.writeHomeList (s.writeHome tag va pa b) tag (va + 1) (pa + 1) bs

/-! ## L1 lines, and what a plot's L2 holds of them (R61)

The caches change no outcome beyond those that the consistency rules allow (R61), and a scope ends at a workgroup or a plot, wherever it runs
(R69, R316). So the lines of an L1 are kept for each workgroup apart: `Wg.unit` numbers them, and `bufOf` the dirty bytes that the
workgroups of a plot have released at plot scope, which stand in the column's L2, where every workgroup of the plot finds them, and are
not yet at their home (log entry 21). -/

def lineKey (u tag pa : Nat) : Nat := (64 * u + tag) * 2 ^ 46 + pa / 64
def lineTag (k : Nat) : Nat := k / 2 ^ 46 % 64
def lineUnit (k : Nat) : Nat := k / 2 ^ 46 / 64
def lineAddr (k : Nat) : Nat := k % 2 ^ 46 * 64

/-- The number under which a workgroup's L1 lines are kept. -/
def Wg.unit (w : Wg) : Nat := ((w.part * 2 ^ 16 + w.ltab) * 2 ^ 32 + w.plot) * 2 ^ 14 + 32 * w.core + w.slot

/-- The number under which the lines of a workgroup's plot are kept. -/
def bufOf (u : Nat) : Nat := u / 2 ^ 14 * 2 ^ 14 + 0x3FFF

/-- A number of a plot's lines. -/
def isBuf (u : Nat) : Bool := u % 2 ^ 14 == 0x3FFF

/-- The physical core of a workgroup's lines. -/
def unitCore (u : Nat) : Nat := u % 2 ^ 14 / 32

/-- A byte beyond a workgroup's L1: as its plot's lines hold it for a tag, else at the home. -/
def State.readL2 (s : State) (u tag pa : Nat) : Byte :=
  match s.l1.find? (lineKey (bufOf u) tag pa) with
  | some l => (l.data.find? (pa % 64)).getD (s.readHome tag pa)
  | none => s.readHome tag pa

/-- A byte as a workgroup's L1 holds it for a tag, else beyond. -/
def State.readL1 (s : State) (u tag pa : Nat) : Byte :=
  match s.l1.find? (lineKey u tag pa) with
  | some l => (l.data.find? (pa % 64)).getD (s.readL2 u tag pa)
  | none => s.readL2 u tag pa

/-- A plain fill of the line of an address, at scope wg; bytes that the line holds stand. -/
def State.fillL1 (s : State) (u tag pa : Nat) : State :=
  let k := lineKey u tag pa
  let old := s.l1.get ⟨0, [], []⟩ k
  let b := pa / 64 * 64
  let data := (List.range 64).foldl (fun (m : FMap Byte) i =>
    if (m.find? i).isSome then m else m.put i (s.readL2 u tag (b + i))) old.data
  { s with l1 := s.l1.put k { old with data := data } }

/-- A line with one byte written into it as dirty at a scope. -/
def Line.write (l : Line) (scope o : Nat) (b : Byte) : Line :=
  { scope := scope, data := l.data.put o b, dirty := if l.dirty.contains o then l.dirty else l.dirty ++ [o] }

/-- Write one byte into a line as dirty. -/
def State.writeL1 (s : State) (u tag pa scope : Nat) (b : Byte) : State :=
  let k := lineKey u tag pa
  { s with l1 := s.l1.put k ((s.l1.get ⟨scope, [], []⟩ k).write scope (pa % 64) b) }

/-- The line without the clean bytes, none where no byte is dirty. -/
def Line.dirtyOnly (l : Line) : Option Line :=
  if l.dirty = [] then none else some { l with data := l.data.filter (fun p => l.dirty.contains p.1) }

/-- A line without some of its bytes, none where no byte stays dirty: a newer write of them has passed it. -/
def Line.without (l : Line) (os : List Nat) : Option Line :=
  Line.dirtyOnly { l with data := l.data.filter (fun p => !os.contains p.1), dirty := l.dirty.filter (fun o => !os.contains o) }

/-- Put a line back, or take it out. -/
def State.setLine (s : State) (k : Nat) (l : Option Line) : State :=
  { s with l1 := match l with
      | some x => s.l1.put k x
      | none => s.l1.erase k }

/-- Write a line's dirty bytes back to the home (R61). A workgroup's line stays, clean, and its bytes supersede those of its plot's; a
plot's line holds nothing clean, so it goes. The version keeps the virtual line of its first write, or the physical one. -/
def State.writeBackLine (s : State) (k : Nat) : State :=
  match s.l1.find? k with
  | none => s
  | some l =>
    let tag := lineTag k
    let a := lineAddr k
    let s := l.dirty.foldl (fun s o => s.writeHome tag (a + o) (a + o) (FMap.get 0 l.data o)) s
    if isBuf (lineUnit k) then s.setLine k none
    else
      let s := s.setLine k (some { l with dirty := [] })
      let kc := lineKey (bufOf (lineUnit k)) tag a
      match s.l1.find? kc with
      | some x => s.setLine kc (x.without l.dirty)
      | none => s

/-- Write a workgroup's line back as far as its plot's lines (R61): a release at plot scope. -/
def State.pushLine (s : State) (k : Nat) : State :=
  match s.l1.find? k with
  | none => s
  | some l =>
    let kc := lineKey (bufOf (lineUnit k)) (lineTag k) (lineAddr k)
    let x := l.dirty.foldl (fun x o => x.write l.scope o (FMap.get 0 l.data o)) (s.l1.get ⟨l.scope, [], []⟩ kc)
    (s.setLine kc x.dirtyOnly).setLine k (some { l with dirty := [] })

/-- The keys of a unit's lines that satisfy a test. -/
def State.linesOf (s : State) (u : Nat) (p : Line → Bool) : List Nat :=
  (s.l1.filter (fun e => lineUnit e.1 == u && p e.2)).map (·.1)

/-- A release fence at a scope: dirty lines recorded narrower are written back (R61): at plot scope to the plot's lines, beyond it to
their home, with what the plot's lines have taken over. -/
def State.releaseL1 (s : State) (u scope : Nat) : State :=
  let narrower (l : Line) : Bool := decide (l.scope < scope) && l.dirty != []
  if scope ≤ 1 then (s.linesOf u narrower).foldl State.pushLine s
  else
    let s := (s.linesOf u narrower).foldl State.writeBackLine s
    (s.linesOf (bufOf u) narrower).foldl State.writeBackLine s

/-- An acquire at a scope wider than wg, the scope of a plain fill: clean bytes are invalidated (R61). -/
def State.acquireL1 (s : State) (u scope : Nat) : State :=
  if scope = 0 then s
  else
    { s with l1 := s.l1.filterMap (fun e =>
        if lineUnit e.1 = u then e.2.dirtyOnly.map (fun l => (e.1, l)) else some e) }

/-- Write a line back through its plot's lines and drop it. -/
def State.flushLine (s : State) (u tag pa : Nat) : State :=
  let k := lineKey u tag pa
  let s := (s.writeBackLine k).setLine k none
  s.writeBackLine (lineKey (bufOf u) tag pa)

/-- No L1 keeps a clean copy of a line that a write at a tag has passed: the base's write passes every tag's (R83). -/
def State.dropStale (s : State) (tag pa : Nat) : State :=
  { s with l1 := s.l1.filterMap (fun e =>
      if lineAddr e.1 / 64 = pa / 64 ∧ (tag = 0 ∨ lineTag e.1 = tag) then e.2.dirtyOnly.map (fun l => (e.1, l)) else some e) }

/-- A line that holds written bytes goes home through its plot's lines. -/
def State.sendLine (s : State) (k : Nat) : State :=
  (s.writeBackLine k).writeBackLine (lineKey (bufOf (lineUnit k)) (lineTag k) (lineAddr k))

/-- A line goes home, and no L1 keeps an older copy of it (R83). -/
def State.homeLine (s : State) (k : Nat) : State := (s.sendLine k).dropStale (lineTag k) (lineAddr k)

/-- The L1 lines that satisfy a test go home through their plots' lines, and no copy of them stays. -/
def State.cleanLines (s : State) (p : Nat → Bool) : State :=
  ((s.l1.filter (fun e => p e.1)).map (·.1)).foldl (fun s k => (s.sendLine k).setLine k none) s

/-- Bytes `a` to `a + n` as a function gives them. -/
def readBy (f : Nat → Byte) (a n : Nat) : Nat := ofLe ((List.range n).map (fun i => f (a + i)))

/-- Bytes read by a workgroup at a tag: through L1, or where the read is ordered beyond the plot at the home, what the workgroup and its plot
hold dirty gone there first. -/
def State.readAt (s : State) (u tag pa n : Nat) (bypass : Bool) : State × Nat :=
  let s := if bypass then s.flushLine u tag pa else s.fillL1 u tag pa
  (s, readBy (s.readL1 u tag) pa n)

/-- The memory accesses a workgroup has staged. -/
def Wg.stagedOps (w : Wg) : List MemOp :=
  w.staging.filterMap (fun x => match x with
    | .mem m _ => some m
    | _ => none)

/-- The stores that a workgroup has staged: its threads read them (R88). -/
def Wg.stagedStores (w : Wg) : List MemOp := w.stagedOps.filter (fun m => m.kind == 1)

/-- Memory, by virtual address, with a store applied over it (R87, R88). -/
def applyOver (f : Nat → Byte) (m : MemOp) : Nat → Byte :=
  fun a => if m.va ≤ a ∧ a < m.va + m.width then BitVec.ofNat 8 (m.data / 256 ^ (a - m.va)) else f a

/-- A word of a selector, read as an acquire load at dev scope (R28, R29): the workgroup's staged stores over memory (R88). -/
def State.readDev (s : State) (w : Wg) (va pa : Nat) : State × Nat :=
  let s := ((s.acquireL1 w.unit 2).readAt w.unit w.tag pa 4 true).1
  (s, readBy (w.stagedStores.foldl applyOver (fun a => s.readL1 w.unit w.tag (pa + (a - va)))) va 4)

/-- A byte stands dirty in a line of a unit. -/
def State.dirtyByte (s : State) (u tag pa : Nat) : Bool := (s.l1.find? (lineKey u tag pa)).any (fun l => l.dirty.contains (pa % 64))

/-- A byte that a shoot's own version holds, at the home or dirty in a workgroup's L1 or its plot's lines; a requester without an L1 gives
`none`. -/
def State.ownByte (s : State) (u : Option Nat) (tag pa : Nat) : Bool :=
  tag != 0 && ((s.vers.find? (verKey tag pa)).isSome || u.any (fun c => s.dirtyByte c tag pa || s.dirtyByte (bufOf c) tag pa))

/-- A read of `n` bytes meets a failing granule (R376): of the version that holds a byte for the reader, else of memory (R96). -/
def State.poisonedFor (s : State) (u : Option Nat) (tag pa n : Nat) : Bool :=
  s.poison != [] && (List.range n).any (fun i =>
    (s.poison.find? (granuleKey (if s.ownByte u tag (pa + i) then tag else 0) ((pa + i) / 64))).isSome)

/-- The physical address a virtual one names, whatever its rights. -/
def State.rawPa (s : State) (part va : Nat) : Nat :=
  match s.leaf part (va % 2 ^ 57) with
  | .ok l => l.pa + va % 2 ^ l.shift
  | .error _ => 0

/-- The first byte of an access and, of one whose host window refuses it, the offset that HWIN_LOG gives (R375). -/
def State.failAddr (s : State) (part sub va : Nat) : Nat := if sub = 4 then s.rawPa part va % 2 ^ 51 else va % 2 ^ 57

/-- A shoot's access to host memory, after its translation `x`: its writes stay in its versions and reach the host at a graft only,
so they need no window (R111, R331); its reads need the read right where its own version does not hold every byte. -/
def State.shootHost (s : State) (u : Option Nat) (part tag va n : Nat) (needR : Bool) (x : Xlat) : Xlat :=
  match x with
  | .term 4 =>
    let pa := s.rawPa part va
    if tag = 0 then x
    else if needR && !s.hostAllowed pa true false && !(List.range n).all (fun i => s.ownByte u tag (pa + i)) then x
    else .ok pa false
  | x => x

/-- Translation of an access of `n` bytes by a thread of a workgroup, or by an engine for it (R363 to R367, R111). -/
def State.xlateAt (s : State) (w : Wg) (va n : Nat) (needR needW : Bool) : Xlat :=
  s.shootHost (some w.unit) w.part w.tag va n needR (s.xlateFor w.part w.ltab va needR needW)

/-- Remove a tag's lines from every L1. -/
def State.dropL1Tag (s : State) (tag : Nat) : State :=
  { s with l1 := s.l1.filter (fun e => lineTag e.1 != tag) }

/-! ## Errors (R372, R375, R376, R329) -/

/-- An uncorrectable error of a memory: ECC_LOG counts it and keeps its unit, ERR_LOG logs it (R376). -/
def State.logEcc (s : State) (unit : Nat) : State :=
  s.modSys (fun y =>
    { y with eccLog := setBits (setBits y.eccLog 31 16 (satInc 16 (bits y.eccLog 31 16))) 3 0 unit })

/-- Log a terminal response by its sub-cause (R372): 1 uncorrectable, 2 outside lease, 3 refused or beyond dtop, 4 host window, 5
privileged space. -/
def State.logTerm (s : State) (sub part source core va : Nat) (hostPa : Option Nat) : State :=
  match sub with
  | 1 => (s.logEcc 2).logErr part 1 source core true va
  | 2 => s.logErr part 2 source core true va
  | 4 =>
    let pa := hostPa.getD 0
    s.logHwin part (if s.hostCovered pa then 2 else 1) source core (pa % 2 ^ 51)
  | 5 => s.logErr part 4 source core true va
  | _ => s.logErr part 3 source core true va

/-- Log an access by physical address that no translation made: 1 uncorrectable, 4 host window, else refused (R375, R376). -/
def State.logPhys (s : State) (sub part source core pa : Nat) : State :=
  match sub with
  | 1 => (s.logEcc 2).logErr part 1 source core false pa
  | 4 => s.logHwin part (if s.hostCovered pa then 2 else 1) source core (pa % 2 ^ 51)
  | _ => s.logErr part 3 source core false pa

/-- The entry at which a walk meets an uncorrectable error, a closed host window or the end of device memory, with its sub-cause (R331,
R376, R381). -/
def State.walkStop (s : State) (va : Nat) : List Level → Nat → Option (Nat × Nat)
  | [], _ => none
  | l :: ls, table =>
    let a := table + 8 * (va / 2 ^ l.shift % 2 ^ l.bits)
    let e := s.baseNat a 8
    if (s.poison.find? (a / 64)).isSome then some (1, a)
    else if bit a 51 && !s.hostAllowed a true false then some (4, a)
    else if !bit a 51 && decide (Config.dtop ≤ a) then some (3, a)
    else if bit e 0 && !bit e 1 && l.table then State.walkStop s va ls (bits e 51 8 * 256)
    else none

/-- A walk that stops so is logged for the agent whose access needed it. -/
def State.logWalk (s : State) (part source core va : Nat) : State :=
  match s.walkStop (va % 2 ^ 57) levels (bits (s.part part).xroot 51 14 * 2 ^ 14) with
  | some (sub, a) => s.logPhys sub part source core a
  | none => s

/-- CORE_ENGINE_ERR after an event: the first stands and a later one sets ovf; of several in one clock the lowest cause stands
(R329). -/
def State.logEngine (s : State) (core cause addr coord : Nat) : State :=
  s.modCore core (fun c =>
    let new := coord % 2 ^ 64 * 2 ^ 64 + cause * 2 ^ 60 + addr % 2 ^ 57
    if bits c.err 63 60 = 0 then { c with err := new, errAt := s.clock }
    else { c with err := setBits (if c.errAt = s.clock ∧ cause < bits c.err 63 60 then new else c.err) 57 57 1 })

end Sys2Proof.Machine
end

