-- ==== Sys2Proof/Machine/Ops.lean ====
section
/-! DEFINITION. The named operations over threads and workgroups: writing results, taking a trap and resuming from one, ending a
run at a switch or a wait word, barriers, REQUOTA and PHASE, and running a word for its issue group. -/

namespace Sys2Proof.Machine

/-! ## Workgroup geometry (R10, R14, R21, R297) -/

def laneOf (i : Nat) : Nat := i % Config.laneWidth
def teamOf (i : Nat) : Nat := i / Config.laneWidth

/-- The stage of a thread's team: the boundaries at most the team's first index (R297). -/
def Wg.stageOf (w : Wg) (i : Nat) : Nat := (w.stages.filter (fun b => decide (b ≤ teamOf i * Config.laneWidth))).length

/-- A thread's register budget (R21). -/
def Wg.budget (w : Wg) (i : Nat) : Nat := w.quota.getD (w.stageOf i) 0

/-- Whether a thread takes part in collectives: present and not exited. -/
def Wg.alive (w : Wg) (i : Nat) : Bool :=
  match w.threads.find? i with
  | some t => t.st != .exited
  | none => false

/-- The indices of the threads that have not exited. -/
def Wg.live (w : Wg) : List Nat := (w.threads.filter (fun p => p.2.st != .exited)).map (·.1)

/-- Bytes of the workgroup's scratchpad as a number. -/
def Wg.spadNat (w : Wg) (off n : Nat) : Nat := ofLe ((List.range n).map (fun i => FMap.get 0 w.spad (off + i)))

/-- Write bytes of a scratchpad; a zero byte is not listed. -/
def spadWrite (m : FMap Byte) (off : Nat) : List Byte → FMap Byte
  | [] => m
  | b :: bs => spadWrite (FMap.set 0 m off b) (off + 1) bs

/-- Bytes of a workgroup's scratchpad; none of one that has left read as zero. -/
def State.spadGet (s : State) (k off n : Nat) : Nat :=
  match s.wgs.find? k with
  | some w => w.spadNat off n
  | none => 0

def State.spadPut (s : State) (k off n x : Nat) : State :=
  s.modWg k (fun w => { w with spad := spadWrite w.spad off (leBytes n x) })

/-! ## Results of short words (R137, R139) -/

/-- Take registers out of the outstanding writes: a later write prevails over theirs (R139). -/
def supersede (regs : List Nat) (p : List Pend) : List Pend :=
  p.map (fun e => { e with live := e.live.filter (fun r => !regs.contains r) })

/-- A short write of a v register. -/
def Thread.putV (t : Thread) (n : Nat) (x : Word) : Thread :=
  { t with v := FMap.set 0 t.v n x, pend := supersede [n] t.pend }

/-- A short write of a temporary (R38). -/
def Thread.putT (t : Thread) (n : Nat) (x : Word) : Thread :=
  { t with t := FMap.set 0 t.t n x, tw := if t.tw.contains n then t.tw else t.tw ++ [n] }

/-- A short write of C, Z, N and V (R42). -/
def Thread.putF (t : Thread) (f : Flags4) : Thread :=
  { t with cc := t.cc.setF f, pend := t.pend.map (fun e => { e with ccF := false }) }

/-- A short write of A (R43). -/
def Thread.putA (t : Thread) (a : Bool) : Thread :=
  { t with cc := t.cc.setA a, pend := t.pend.map (fun e => { e with ccA := false }) }

/-! ## Traps (R159, R372 to R374) -/

/-- A trap one thread takes: the fields of its record. -/
structure TrapReq where
  wk : Nat
  idx : Nat
  cause : Nat
  sub : Nat
  info : Nat
  addr : Nat
  obj : Nat
  off : Nat
  len : Nat
deriving DecidableEq, Repr

/-- Two threads of one team that take one trap at one word share a record (R373). -/
def TrapReq.sameRecord (a b : TrapReq) : Bool :=
  a.wk == b.wk && teamOf a.idx == teamOf b.idx && a.cause == b.cause && a.sub == b.sub && a.info == b.info
    && a.obj == b.obj && a.off == b.off

/-- The trap record of Table 19.11. -/
def trapBits (s : State) (w : Wg) (id : Nat) (r : TrapReq) (lanes : Nat) : Nat :=
  lanes * 2 ^ 384 + r.addr % 2 ^ 57 * 2 ^ 320 + r.obj % 2 ^ 57 * 2 ^ 256 + r.info * 2 ^ 224 + r.off % 2 ^ 32 * 2 ^ 192
    + s.coreNum w.core * 2 ^ 160 + w.plot % 2 ^ 32 * 2 ^ 128 + teamOf r.idx * 2 ^ 112 + w.tag * 2 ^ 102 + w.wgid * 2 ^ 99
    + w.part * 2 ^ 96 + w.launch % 2 ^ 32 * 2 ^ 64 + id % 2 ^ 32 * 2 ^ 32 + r.sub * 2 ^ 8 + r.cause

/-- The state with one trap record written at a trap ring's head and the head moved, which raises the trap interrupt. -/
def State.putTrap (s : State) (part base cap hd : Nat) (p : Nat × TrapRec) : State :=
  (((s.commitList (base + 64 + 64 * (hd % 2 ^ cap)) (leBytes 64 p.2.bits)).commitList base (leBytes 4 ((hd + 1) % 2 ^ 32))).modPart part
    (fun q => { q with traps := q.traps.modify p.1 (fun t => { t with stored := true }) })).modSys (fun y => { y with mirq := y.mirq ++ [1] })

/-- A trap ring may be written: its header is read and written, and so must a window let it be where it stands in host memory (R331,
R363). -/
def State.ringOpen (s : State) (base hd cap : Nat) : Bool :=
  s.tableOpen base true true && s.tableOpen (base + 64 + 64 * (hd % 2 ^ cap)) false true

/-- A held trap record goes to the ring where it has room. -/
def State.storeTrap (part base cap : Nat) (s : State) (p : Nat × TrapRec) : State :=
  if s.ringOpen base (s.baseNat base 4) cap = false then s
  else if (s.baseNat base 4 + 2 ^ 32 - s.baseNat (base + 4) 4) % 2 ^ 32 < 2 ^ cap then s.putTrap part base cap (s.baseNat base 4) p else s

/-- Move held trap records to the partition's trap ring while it has room, raising the trap interrupt (R373). -/
def State.flushTraps (s : State) (part : Nat) : State :=
  let ring := (s.part part).trapRing
  let cap := bits ring 4 0
  if cap < 4 ∨ 16 < cap then s
  else ((s.part part).traps.filter (fun p => !p.2.stored)).foldl (State.storeTrap part (bits ring 51 12 * 4096) cap) s

/-- A trap ring in host memory that no window lets the device write holds every record at its core, and the breach is logged (R331, R373). -/
def State.noteTrapRing (s : State) (part : Nat) : State :=
  let ring := (s.part part).trapRing
  let base := bits ring 51 12 * 4096
  let cap := bits ring 4 0
  if cap < 4 ∨ 16 < cap ∨ s.ringOpen base (s.baseNat base 4) cap = true then s
  else if !s.tableOpen base true true then s.logClosed part 0 base true true
  else s.logClosed part 0 (base + 64 + 64 * (s.baseNat base 4 % 2 ^ cap)) false true

/-- TAKING A TRAP: the threads of one record stop at the word, with no effect of it; the record names them, its PC, cause and
codes, and goes to the partition's trap ring (R159, R372, R373). A trailing sequence in progress stays (R138). The sources of a chained
group do not: a word of the group that is resumed reads its registers as they stand, where the spec does not say which it reads
(log entry 22). -/
def State.takeTrap (s : State) (r : TrapReq) (idxs : List Nat) : State :=
  match s.wgs.find? r.wk with
  | none => s
  | some w =>
    let id := (s.part w.part).nextTrap
    let rec1 : TrapRec := ⟨trapBits s w id r (maskOf (idxs.map laneOf)), r.wk, idxs, r.len, false⟩
    let s := s.modPart w.part (fun p => { p with nextTrap := (id + 1) % 2 ^ 32, traps := p.traps.put id rec1 })
    let s := s.modWg r.wk (fun w => { w with threads := w.threads.map (fun p =>
      if idxs.contains p.1 then
        (p.1, { p.2 with st := .trapped, trap := id, obj := r.obj, off := r.off, view := none, await := none, op := none })
      else p) })
    (s.noteTrapRing w.part).flushTraps w.part

/-- Take a list of traps, one record for each team and word. The fuel is the length of the list. -/
def State.takeTraps (s : State) : Nat → List TrapReq → State
  | _, [] => s
  | 0, _ => s
  | n + 1, r :: rs =>
    let same := r :: rs.filter (fun x => x.sameRecord r)
    State.takeTraps (s.takeTrap r (same.map (·.idx))) n (rs.filter (fun x => !x.sameRecord r))

/-- RETURN FROM A TRAP: each thread the record names goes on at the record's PC, or at the word after the instruction there (R374). An
instruction that is skipped so is no word of its run and ends none, and it ends a trailing sequence in progress (log entry 22). -/
def State.resumeTrap (s : State) (part id : Nat) (next : Bool) : State :=
  match (s.part part).traps.find? id with
  | none => s
  | some r =>
    let o := bits r.bits 312 256
    let f := bits r.bits 223 192
    let s := s.modWg r.wk (fun w => { w with threads := w.threads.map (fun p =>
      if r.threads.contains p.1 ∧ p.2.st = .trapped ∧ p.2.trap = id then
        (p.1, { p.2 with st := .ready, obj := o, off := if next then (f + 4 * r.len) % 2 ^ 32 else f, trap := 0, since := s.clock,
                         trail := if next then none else p.2.trail })
      else p) })
    s.modPart part (fun q => { q with traps := q.traps.erase id })

/-! ## Ending a run (R136 to R138) -/

/-- Whether a TRAIL list names any part of an outstanding write's destination (R138). -/
def Pend.named (e : Pend) (l : List TrailName) : Bool :=
  l.any (fun n => match n with
    | .v r => e.names.contains r.val
    | .cc => e.ccDest
    | _ => false)

/-- The outstanding writes a switch awaits: those a trailing sequence names, or all of them (R138). -/
def Thread.awaited (t : Thread) (trail : Option (List TrailName)) : List Nat :=
  match trail with
  | some l => (t.pend.filter (fun e => e.named l)).map (·.id)
  | none => t.pend.map (·.id)

/-- The trap of a pending terminal cause, at the checkpoint PC (R86). -/
def Terminal.req (k i : Nat) (c : Terminal) : TrapReq := ⟨k, i, c.cause, c.sub, 0, c.addr, c.obj, c.off, c.len⟩

/-- A pending terminal cause as the trap's record gives it: at the checkpoint PC, which is that of an older memory word of the thread while
one is still not globally performed (R84, R86). -/
def Thread.trapReq (t : Thread) (k i : Nat) (c : Terminal) : TrapReq :=
  match t.chk.find? (fun x => decide (x.word < c.word)) with
  | some x => Terminal.req k i { c with obj := x.obj, off := x.off, len := x.len }
  | none => c.req k i

/-- A run ends: the word count and the temporaries go (R38, R136). -/
def Thread.endRun (t : Thread) : Thread := { t with runw := 0, tw := [], view := none, trail := none }

/-- The thread stops at a switch until what it awaits has landed; with nothing to await it is ready at once (R138). -/
def Thread.park (t : Thread) (clock : Nat) (trail : Option (List TrailName)) : Thread :=
  let aw := t.awaited trail
  if aw = [] then { t.endRun with st := .ready, since := clock, await := none }
  else { t.endRun with st := .switch, await := some aw }

/-! ## Wait conditions (R281, R285, R290, R292) -/

/-- A workgroup's view of a write pointer (R65). -/
def State.view (s : State) (w : Wg) (n : Nat) : Nat :=
  (((s.core w.core).chans.get Chan.zero n).wptr + 2 ^ 64 - FMap.get 0 w.bases n) % 2 ^ 64

/-- The counter of a selector (Table 13.5). -/
def State.counter (s : State) (w : Wg) (sel : Nat) : Nat :=
  match bits sel 31 30 with
  | 0 => ((s.part w.part).streams.get Stream.zero (bits sel 5 0)).counter
  | 1 => s.view w (bits sel 1 0)
  | _ => FMap.get 0 (s.part w.part).ectr (bits sel 7 0)

def State.waitHolds (s : State) (w : Wg) : EndOp → Bool
  | .trellis off => w.spadNat off 4 == 0
  | .wptr ch target => decide (target ≤ s.view w ch)
  | .counter sel target => decide (target ≤ s.counter w sel)
  | _ => false

/-- A thread goes on at the word after the one that ended its run. -/
def Thread.proceed (t : Thread) (clock : Nat) : Thread :=
  { t with st := .ready, off := (t.off + 4 * t.wlen) % 2 ^ 32, op := none, parg := 0, since := clock, await := none,
           runEnded := false, wlen := 1 }

/-! ## Barriers (R283, R284) -/

/-- The workgroups that share a barrier: the plot's for 32 to 35, else the one. -/
def State.barrierGroups (s : State) (k id : Nat) : List Nat :=
  match s.wgs.find? k with
  | none => []
  | some w =>
    if id < 32 then [k]
    else (s.wgs.filter (fun p => p.2.part == w.part && p.2.launch == w.launch && p.2.plot == w.plot)).map (·.1)

/-! ## Old values of k registers (R40) -/

/-- A barrier's phase completes: what its writers have arrived with is crossed once the reader passes. -/
def KOld.complete (id : Nat) (e : KOld) : KOld :=
  if e.armed.contains id then { e with armed := e.armed.filter (· != id), done := id :: e.done } else e

/-- A writer arrives at a barrier. -/
def Wg.armK (w : Wg) (i id : Nat) : Wg :=
  { w with kold := w.kold.map (fun e => if e.writer = i then { e with armed := id :: e.armed.filter (· != id) } else e) }

/-- A reader passes a barrier: it now reads what the threads that crossed with it had written. -/
def Wg.passK (w : Wg) (i id : Nat) : Wg := { w with kold := w.kold.filter (fun e => !(e.reader == i && e.done.contains id)) }

/-- Thread `i` of a workgroup writes `x` to k register `n`, which held `old` before the word; `mates` are the workgroup's threads of the
issue group. The value of the highest lane stands; a mate of a lower lane may still read its own, every other thread the old one. -/
def Wg.setK (w : Wg) (mates : List Nat) (i n : Nat) (old x : Word) : Wg :=
  let below (j : Nat) : Bool := mates.contains j && decide (j % 64 < i % 64)
  let kept := w.kold.filter (fun e => !(e.reg == n &&
    (e.reader == i || (!mates.contains e.reader && below e.writer && e.val == old && e.armed == [] && e.done == []))))
  { w with
    k := FMap.set 0 w.k n x
    kold := kept.map (fun e => if e.reg = n ∧ below e.reader = true then { e with writer := i, armed := [], done := [] } else e)
      ++ (if mates.any (fun j => decide (i % 64 < j % 64)) then [⟨i, n, x, i, [], []⟩] else [])
      ++ ((w.threads.filter (fun p => !mates.contains p.1)).map (fun p => (⟨p.1, n, old, i, [], []⟩ : KOld))) }

/-- Every participant has arrived in the current phase. -/
def State.barrierFull (s : State) (ks : List Nat) (id : Nat) : Bool :=
  let all := ks.flatMap (fun k => match s.wgs.find? k with
    | some w => w.threads.vals.filter (fun t => t.st != .exited)
    | none => [])
  all != [] && all.all (fun t => t.arrived.contains id)

/-- A phase completes: the count rises, waiters go on (acquiring at the barrier's scope), the others hold a completed phase. -/
def State.barrierDone (s : State) (ks : List Nat) (id : Nat) : State :=
  ks.foldl (fun s k =>
    let s := match s.wgs.find? k with
      | some w => if id < 32 then s else s.acquireL1 w.unit 1
      | none => s
    s.modWg k (fun w =>
      { w with
        phases := FMap.set 0 w.phases id ((FMap.get 0 w.phases id + 1) % 2 ^ 16)
        kold := (w.kold.map (KOld.complete id)).filter (fun e => !(e.done.contains id && (w.threads.find? e.reader).any (fun t =>
          t.arrived.contains id && decide (t.st = .wait ∧ t.op = some (.bar id .wait)))))
        threads := w.threads.map (fun p =>
          let t := p.2
          if t.arrived.contains id then
            let t := { t with arrived := t.arrived.filter (· != id) }
            if t.st = .wait ∧ t.op = some (.bar id .wait) then (p.1, t.proceed s.clock)
            else (p.1, { t with completed := id :: t.completed.filter (· != id) })
          else p) })) s

/-- Complete the barrier's phase if every participant has arrived. -/
def State.barrierCheck (s : State) (k id : Nat) : State :=
  let ks := s.barrierGroups k id
  if s.barrierFull ks id then s.barrierDone ks id else s

/-! ## REQUOTA and PHASE (R22, R29) -/

/-- The key under which the values are kept that a partition's threads have written to the cells of a core's lane that are free (R35). -/
def cellKey (core lane part : Nat) : Nat := (core * 64 + lane) * 8 + part

/-- The value of a register gained by raising a quota (R22, R35): zero, or one of the values written to a cell that was free. Which of the
free cells of its lane it takes, the spec does not say (log entry 37). -/
def gained (held : List Word) (fresh k i r : Nat) : Word :=
  (0 :: held).getD (Config.freeNat (((fresh * 2 ^ 14 + k) * 2 ^ 10 + i) * 256 + r) % (held.length + 1)) 0

/-- The registers of a thread whose budget changes from `q` to `q'`. -/
def Thread.requota (t : Thread) (held : List Word) (fresh k i q q' : Nat) : Thread :=
  if q' ≤ q then { t with v := t.v.filter (fun p => decide (p.1 < q')) }
  else { t with v := (List.range (q' - q)).foldl (fun m j => FMap.set 0 m (q + j) (gained held fresh k i (q + j))) t.v }

/-- The key of the cell that a resident thread's register occupies. -/
def cellOf (wk i r part : Nat) : Nat := ((wk * 2 ^ 10 + i) * 256 + r) * 8 + part

/-- A register that a resident thread still has. -/
def State.holdsCell (s : State) (key : Nat) : Bool :=
  let i := key / 2048 % 2 ^ 10
  (s.wgs.find? (key / 2 ^ 21)).any (fun w => w.part == key % 8 && (w.threads.find? i).isSome && decide (key / 8 % 256 < w.budget i))

/-- What has been written to a cell that its thread has no longer joins what the free cells of its core and lane have held (R22, R35). -/
def releaseCell (m : FMap (List Word)) (e : Nat × List Word) : FMap (List Word) :=
  let key := cellKey (e.1 / 2 ^ 26) (laneOf (e.1 / 2048 % 2 ^ 10)) (e.1 % 8)
  m.put key (m.get [] key ++ e.2).dedup

/-- Cells that are given up are free, and the values that registers now hold join those written to their cells (R35). -/
def State.noteCells (s : State) : State :=
  { s with
    cells := (s.written.filter (fun e => !s.holdsCell e.1)).foldl releaseCell s.cells
    written := s.wgs.foldl (fun m w => w.2.threads.foldl (fun m t => t.2.v.foldl (fun m r =>
      let key := cellOf w.1 t.1 r.1 w.2.part
      if (m.get [] key).contains r.2 then m else m.put key (m.get [] key ++ [r.2])) m) m) (s.written.filter (fun e => s.holdsCell e.1)) }

/-- The number of teams in a stage. -/
def Wg.teamsIn (w : Wg) (st : Nat) : Nat :=
  ((List.range ((w.nthreads + 63) / 64)).filter (fun j => w.stageOf (64 * j) == st)).length

/-- Registers per lane that every stage uses. -/
def Wg.used (w : Wg) : Nat := ((List.range 4).map (fun st => w.teamsIn st * w.quota.getD st 0)).foldl (· + ·) 0

/-- REQUOTA as a collective of a stage: applied once every live thread of the stage is parked with one quota, and a raising once
the free pool holds what it needs (R22). -/
def State.requotaCheck (s : State) (k st : Nat) : State :=
  match s.wgs.find? k with
  | none => s
  | some w =>
    let ids := w.live.filter (fun i => w.stageOf i == st)
    let ths := ids.filterMap (fun i => w.threads.find? i)
    match ths with
    | [] => s
    | t0 :: _ =>
      if !ths.all (fun t => t.st == .requota) then s
      else if !ths.all (fun t => t.parg == t0.parg) then
        s.takeTraps ids.length ((List.zip ids ths).map (fun p => ⟨k, p.1, 2, 0, 0, 0, p.2.obj, p.2.off, p.2.wlen⟩))
      else
        let q := w.quota.getD st 0
        let q' := t0.parg
        if q < q' ∧ w.pool < w.used + (q' - q) * w.teamsIn st then s
        else
          s.modWg k (fun w =>
            { w with
              quota := w.quota.set st q'
              threads := w.threads.map (fun p =>
                if w.stageOf p.1 == st && p.2.st != .exited then
                  (p.1, (p.2.requota (s.cells.get [] (cellKey w.core (laneOf p.1) w.part)) s.fresh k p.1 q q').proceed s.clock)
                else if w.stageOf p.1 == st then (p.1, { p.2 with v := p.2.v.filter (fun r => decide (r.1 < q')) })
                else p) })

/-- The lowest variant whose bound holds a size (R28). -/
def pickVariant (vtab : List Nat) (size : Nat) : Option Nat :=
  ((List.range vtab.length).filter (fun v => decide (size ≤ bits (vtab.getD v 0) 31 0))).head?

/-- The source code of ERR_LOG for a source bit of Table 19.8 (Table 19.13). -/
def srcCode (src : Nat) : Nat := if src = 2 then 1 else if src = 4 then 2 else if src = 8 then 3 else if src = 16 then 4 else if src = 32 then 5 else 0

/-- The S_CORE number of a waiter's core, 0xFF where it has none. -/
def State.waiterCore (s : State) (who : Waiter) : Nat :=
  let ofWg (k : Nat) : Nat := match s.wgs.find? k with
    | some w => s.coreNum w.core
    | none => 255
  match who with
  | .op m => ofWg m.wk
  | .fetch k _ => ofWg k
  | .phase k => ofWg k
  | .free k => ofWg k
  | .copy core _ => s.coreNum core
  | _ => 255

/-- Add a parked access unless the waiter has one. A walk that an error or a closed window stopped is logged besides. -/
def State.parkFor (s : State) (who : Waiter) (part va cause types src launch column : Nat) : State :=
  if s.parked.any (fun p => decide (p.2.who = who)) then s
  else
    let s := if cause = 3 then s.logWalk part (srcCode src) (s.waiterCore who) va else s
    let k := s.parked.freshKey (s.parked.length + 1) 0
    { s with parked := s.parked.put k ⟨part, va % 2 ^ 57 / 2 ^ 15, cause, types, src, launch, column, who, s.clock, none, va % 2 ^ 57⟩ }

/-- PHASE: once every live thread is parked at one, the size word is read, as a load of the workgroup is (R88, R376), and a variant chosen
(R29). -/
def State.phaseCheck (s : State) (k : Nat) : State :=
  match s.wgs.find? k with
  | none => s
  | some w =>
    let ids := w.live
    let ths := ids.filterMap (fun i => w.threads.find? i)
    match ths, s.launch? w.part w.ltab with
    | t0 :: _, some l =>
      if !ths.all (fun t => t.st == .phase) then s
      else
        let trapAll (s : State) (cause : Nat) : State :=
          s.takeTraps ids.length ((List.zip ids ths).map (fun p => ⟨k, p.1, cause, 0, 0, 0, p.2.obj, p.2.off, p.2.wlen⟩))
        if !ths.all (fun t => t.parg == t0.parg) then trapAll s 2
        else
          let va := bits l.rcd 504 448
          let refuse (sub : Nat) : State :=
            (s.logTerm sub w.part 0 (s.coreNum w.core) va (some (s.rawPa w.part va))).takeTraps ids.length
              ((List.zip ids ths).map (fun p => ⟨k, p.1, 16, sub, 0, s.failAddr w.part sub va, p.2.obj, p.2.off, p.2.wlen⟩))
          match s.xlateAt w va 4 true false with
          | .fault c => s.parkFor (.phase k) w.part va c 1 1 w.launch (w.core / 8)
          | .term sub => refuse sub
          | .ok pa _ =>
            if s.poisonedFor (some w.unit) w.tag pa 4 then refuse 1
            else if w.stagedOps.any (fun m => m.kind == 2 && decide (m.va < va + 4 ∧ va < m.va + m.width)) then s
            else
            let r := s.readDev w va pa
            let s := r.1
            match pickVariant l.vtab r.2 with
            | none => trapAll s 11
            | some v =>
              let e := bits (l.vtab.getD v 0) (64 + 16 * (t0.parg - 1) + 15) (64 + 16 * (t0.parg - 1))
              if e = 0xFFFF then trapAll s 2
              else
                s.modWg k (fun w => { w with kold := w.kold.filter (fun e => !w.live.contains e.writer), threads := w.threads.map (fun p =>
                  if p.2.st == .phase then
                    (p.1, { p.2.proceed s.clock with off := 4 * e, obj := bits l.rcd 56 0 })
                  else p) })
    | _, _ => s

/-! ## Words that end a run (R281, R183) -/

/-- A thread leaves for good (R24, R183); barriers, REQUOTA and PHASE no longer count it. The workgroup drains once every thread
has exited (R23). -/
def State.exitThread (s : State) (k i : Nat) : State :=
  let st := match s.wgs.find? k with
    | some w => w.stageOf i
    | none => 0
  let s := s.modThread k i (fun t => { t with st := .exited, op := none, calls := [], off := (t.off + 4 * t.wlen) % 2 ^ 32, await := none })
  let s := (List.range 36).foldl (fun s id => s.barrierCheck k id) s
  let s := (s.requotaCheck k st).phaseCheck k
  s.modWg k (fun w => if w.live = [] then { w with draining := true } else w)

/-- What a word that ended its run does once the awaited writes have landed. -/
def State.arrive (s : State) (k i : Nat) : State :=
  match s.wgs.find? k with
  | none => s
  | some w =>
    match w.threads.find? i with
    | none => s
    | some t =>
      match t.op with
      | none => s
      | some .exit => s.exitThread k i
      | some .again => s
      | some (.requota q) =>
        (s.modThread k i (fun t => { t with st := .requota, parg := q })).requotaCheck k (w.stageOf i)
      | some (.phase n) => (s.modThread k i (fun t => { t with st := .phase, parg := n })).phaseCheck k
      | some (.bar id .wait) =>
        if t.arrived.contains id then s.modThread k i (fun t => { t with st := .wait })
        else (s.modThread k i (fun t => { t with completed := t.completed.filter (· != id) }.proceed s.clock)).modWg k (fun w => w.passK i id)
      | some (.bar id kd) =>
        if t.arrived.contains id then s
        else
          let s := if id < 32 then s else s.releaseL1 w.unit 1
          let s := s.modThread k i (fun t =>
            let t := { t with arrived := id :: t.arrived, completed := t.completed.filter (· != id) }
            if kd = .arrive then t.proceed s.clock else { t with st := .wait, op := some (.bar id .wait) })
          (s.modWg k (fun w => w.armK i id)).barrierCheck k id
      | some op =>
        if s.waitHolds w op then (s.acquireL1 w.unit 2).modThread k i (fun t => t.proceed s.clock)
        else s.modThread k i (fun t => { t with st := .wait })

/-- The accesses of threads that wait for the host (R371). -/
def State.snoopOps (s : State) : List MemOp :=
  s.snoops.vals.filterMap (fun x => match x.who with
    | .op m => some m
    | _ => none)

/-- Nothing of the thread is outstanding that the word it stands at waits for: every register write has landed, before a barrier or a PHASE
every access is performed, and before TRWAIT, which reads its scratchpad, every access to one (R281, R78). -/
def State.canArrive (s : State) (k i : Nat) : Bool :=
  match s.thread? k i with
  | none => false
  | some t =>
    let orders (m : MemOp) : Bool := match t.op with
      | some (.bar _ .wait) => false
      | some (.bar _ _) => true
      | some (.phase _) => true
      | some (.trellis _) => m.spad != 0
      | _ => false
    t.pend == [] && !t.queue.any orders

/-- A word ends its run (R281): the thread waits for every outstanding write, then arrives. A pending terminal cause is taken
here instead (R86). -/
def State.endAt (s : State) (k i len : Nat) (op : EndOp) : State × List TrapReq :=
  match s.thread? k i with
  | none => (s, [])
  | some t =>
    match t.term with
    | some c => (s.modThread k i (fun t => { t.endRun with term := none }), [t.trapReq k i c])
    | none =>
      let s := s.modThread k i (fun t => { t.endRun with st := .ended, op := some op, wlen := len, await := some (t.pend.map (·.id)) })
      (if s.canArrive k i then s.arrive k i else s, [])

/-! ## Running a word for its issue group (R13, R132, R136) -/

/-- What a word sees of one thread: the state before the word, and the thread in it. -/
structure Ctx where
  pre : State
  wk : Nat
  idx : Nat
  wg : Wg
  th : Thread
  len : Nat

/-- The outcome of a word for one thread. `next` carries the state with the word's effect, and `goto` also the target of
a taken branch, call or return, which enters the signature (R259); a trap has none, and a stalled word waits at issue; `ends` is a word that ends its run whatever its sw bit. `trapAt` is a trap with an address, over a state whose logs it has
changed; `held` leaves the thread at the word, parked in the state it carries. -/
inductive Out
  | next (s : State)
  | goto (s : State) (obj off : Nat)
  | ends (s : State) (op : EndOp)
  | trap (cause sub info : Nat)
  | trapAt (s : State) (cause sub addr : Nat)
  | held (s : State)
  | stall

/-- The sources a thread's word reads: its own, or those of its chained group (R132). -/
def Ctx.view (c : Ctx) : View := c.th.view.getD ⟨c.th.v, c.th.t, c.th.x, c.th.cc, c.wg.k, c.wg.kold⟩

/-- The thread after a word that did not trap: count, PC, chained sources, and the switch where sw is set (R132, R136, R138). -/
def State.finish (s : State) (h : Hdr) (c : Ctx) (trail : Option (List TrailName)) (obj off : Nat) : State × List TrapReq :=
  let view := if h.chain then some c.view else none
  let tr := match trail with
    | some l => some (c.th.trail.getD [] ++ l)
    | none => none
  let s := s.modThread c.wk c.idx (fun t =>
    { t with obj := obj, off := off % 2 ^ 32, runw := c.th.runw + c.len, view := view, trail := tr, runEnded := false, full := none })
  if h.sw then
    match (s.thread? c.wk c.idx).bind (fun t => t.term.map (t.trapReq c.wk c.idx)) with
    | some x => (s.modThread c.wk c.idx (fun t => { t.endRun with term := none }), [x])
    | none => (s.modThread c.wk c.idx (fun t => t.park s.clock tr), [])
  else (s, [])

/-- The memory words outstanding or not globally performed (R84, R137). -/
def Thread.memCount (t : Thread) : Nat :=
  (t.chk.map (·.id) ++ (t.pend.filter (·.mem)).map (·.id)).dedup.length

/-- A thread's word waits at issue: the thread stays ready and keeps its age (R10, R12), is not selected again before an event, and
holds the checkpoint's oldest word where the checkpoint is full (R84). -/
def Thread.stalled (t : Thread) : Thread :=
  { t with waits := true
           full := if t.full.isNone && decide (16 ≤ t.memCount) then (t.chk.map (·.id) ++ (t.pend.filter (·.mem)).map (·.id)).min? else t.full }

/-- One thread of the group executes the word, over the state the group has made so far. -/
def runThread (h : Hdr) (len : Nat) (trail : Option (List TrailName)) (f : Ctx → State → Out) (pre : State)
    (acc : State × List TrapReq × List (Nat × Nat)) (id : Nat × Nat) : State × List TrapReq × List (Nat × Nat) :=
  match pre.wgs.find? id.1 with
  | none => acc
  | some w =>
    match w.threads.find? id.2 with
    | none => acc
    | some t =>
      let c : Ctx := ⟨pre, id.1, id.2, w, t, len⟩
      let req (cause sub info : Nat) : TrapReq := ⟨id.1, id.2, cause, sub, info, 0, t.obj, t.off, len⟩
      if 24 < t.runw + len then (acc.1, acc.2.1 ++ [req 6 0 0], acc.2.2)
      else
        match f c acc.1 with
        | .next s =>
          let r := s.finish h c trail t.obj (t.off + 4 * len)
          (r.1, acc.2.1 ++ r.2, acc.2.2 ++ [id])
        | .goto s o p =>
          let s := s.modThread id.1 id.2 (fun t => { t with sig := t.sig.rotateLeft 1 ^^^ BitVec.ofNat 32 p })
          let r := s.finish h c trail o p
          (r.1, acc.2.1 ++ r.2, acc.2.2 ++ [id])
        | .ends s op =>
          let r := s.endAt id.1 id.2 len op
          (r.1, acc.2.1 ++ r.2, acc.2.2)
        | .trap cause sub info => (acc.1, acc.2.1 ++ [req cause sub info], acc.2.2)
        | .trapAt s cause sub addr =>
          (s, acc.2.1 ++ [(⟨id.1, id.2, cause, sub, 0, addr, t.obj, t.off, len⟩ : TrapReq)], acc.2.2)
        | .held s => (s, acc.2.1, acc.2.2)
        | .stall => (acc.1.modThread id.1 id.2 Thread.stalled, acc.2.1, acc.2.2)

/-- A word for every thread of the issue group, in ascending lane order (R13, R55); then the traps, one record a team. A chained
word keeps its group for the next word. -/
def runTrail (h : Hdr) (len : Nat) (trail : Option (List TrailName)) (f : Ctx → State → Out) (s : State) : State :=
  let r := s.group.foldl (runThread h len trail f s) (s, [], [])
  let t := r.1.takeTraps r.2.1.length r.2.1
  { t with group := if h.chain then r.2.2 else [], fresh := s.fresh + 1 }

def runWord (h : Hdr) (len : Nat) (f : Ctx → State → Out) (s : State) : State := runTrail h len none f s

/-- The words of an instruction that may carry an EXT. -/
def lenOf {α : Type} (x : Option α) : Nat := if x.isSome then 2 else 1

end Sys2Proof.Machine
end

