-- ==== Sys2Proof/Machine/Operands.lean ====
section
/-! DEFINITION. Every operand form (spec/02): registers, pairs, temporaries, uniform registers, inline constants, pattern reads,
destinations of short and of long words. A trap is its cause code (Table 19.10); 2 is illegal-operand. -/

namespace Sys2Proof.Machine

/-- The element kind an inline constant takes its value for (R46). -/
inductive Elem
  | int (w : Nat)           -- an integer or raw type of w bits in one register, or 64 in a pair
  | flt (f : FFmt)          -- a scalar float
  | packInt (w : Nat)       -- integers of w bits in every sub-element
  | packFlt (f : FFmt)      -- floats in every sub-element
deriving DecidableEq, Repr

/-- The integer column of Table 2.5. -/
def constInt (n : Fin 8) : Int := ([0, 1, 2, 4, -1, 8, 16, 32] : List Int).getD n.val 0

/-- The float column of Table 2.5. -/
def constFloat (n : Fin 8) : XR :=
  ([.fin false 0 1, .fin false 1 1, .fin false 2 1, .fin false 1 2, .fin true 1 1, .fin false 4 1, .fin true 0 1, .fin false 3 2]
    : List XR).getD n.val .zero

/-- One value in each sub-element of `w` bits of a register. -/
def replicate32 (w x : Nat) : Nat := ((List.range (32 / w)).map (fun j => x * 2 ^ (w * j))).foldl (· + ·) 0

/-- The slot a format's element takes in a register: a 6-bit element fills a byte (R114). -/
def slotWidth (f : FFmt) : Nat := if fmtWidth f = 6 then 8 else fmtWidth f

/-- The value of an inline constant (R46). -/
def constOf (e : Elem) (n : Fin 8) : Nat :=
  match e with
  | .int w => wrapInt w (constInt n)
  | .flt f => if f = .e8m0 then wrapInt 8 (constInt n) else roundRne f (constFloat n)
  | .packInt w => replicate32 w (wrapInt w (constInt n))
  | .packFlt f => replicate32 (slotWidth f) (if f = .e8m0 then wrapInt 8 (constInt n) else roundRne f (constFloat n))

/-! ## Reading -/

/-- The index of the free bit a stale temporary draws (R38). -/
def staleIndex (c : Ctx) (n : Nat) : Nat := ((c.pre.fresh * 2 ^ 14 + c.wk) * 2 ^ 10 + c.idx) * 8 + n

/-- A temporary: its value when the run has written it, else the value last written or zero (R38). -/
def Ctx.readT (c : Ctx) (n : Nat) : Word :=
  if c.th.tw.contains n then FMap.get 0 c.view.t n
  else if Config.freeBit (staleIndex c n) then FMap.get 0 c.view.t n else 0

/-- A k register: its value, or one that another thread's write has replaced and that may still be read (R40). -/
def Ctx.readK (c : Ctx) (n : Nat) : Word :=
  match (c.view.kold.filter (fun e => e.reader == c.idx && e.reg == n)).map (·.val) with
  | [] => FMap.get 0 c.view.k n
  | l => (FMap.get 0 c.view.k n :: l).getD (Config.freeNat (((c.pre.fresh * 2 ^ 14 + c.wk) * 2 ^ 10 + c.idx) * 16 + n) % (l.length + 1)) 0

/-- A register of the thread, within its budget (R33). -/
def Ctx.readV (c : Ctx) (n : Nat) : Except Nat Word :=
  if n < c.wg.budget c.idx then .ok (FMap.get 0 c.view.v n) else .error 2

/-- A 32-bit source of operand codes 0 to 95. -/
def Ctx.src (c : Ctx) (e : Elem) (o : Opnd) : Except Nat Nat :=
  match o with
  | .v n => (c.readV n.val).map BitVec.toNat
  | .t n => .ok (c.readT n.val).toNat
  | .k n => .ok (c.readK n.val).toNat
  | .c n => .ok (constOf e n)
  | .pat _ => .error 2

/-- A 64-bit source: a pair named by its even code, or a constant (R34). -/
def Ctx.src64 (c : Ctx) (o : Opnd) : Except Nat Nat :=
  match o with
  | .v n =>
    if n.val % 2 = 1 then .error 2
    else do
      let lo ← c.readV n.val
      let hi ← c.readV (n.val + 1)
      pure (lo.toNat + hi.toNat * 2 ^ 32)
  | .t n => if n.val % 2 = 1 then .error 2 else .ok ((c.readT n.val).toNat + (c.readT (n.val + 1)).toNat * 2 ^ 32)
  | .k n =>
    if n.val % 2 = 1 then .error 2
    else .ok ((c.readK n.val).toNat + (c.readK (n.val + 1)).toNat * 2 ^ 32)
  | .c n => .ok (constOf (.int 64) n)
  | .pat _ => .error 2

/-- The source lane of a pattern read in lane `l` (Table 2.6), none where the pattern is illegal at this width (R49). -/
def patLane (q : Pat) (l : Nat) : Option Nat :=
  let w := Config.laneWidth
  let p := q.p.val
  match q.g.val with
  | 0 => if w / 2 ^ (p + 1) = 0 then none else some (l ^^^ (w / 2 ^ (p + 1)))
  | 1 => some (l / 8 * 8 + (l + p) % 8)
  | 2 => if w < 2 ^ (p + 1) then none else some (l ^^^ (2 ^ (p + 1) - 1))
  | _ => some (p * w / 8)

/-- The team partner in a lane, as it stood before the word; none where it has exited or is missing (R14, R15). -/
def Ctx.partner (c : Ctx) (lane : Nat) : Option Thread :=
  match c.wg.threads.find? (teamOf c.idx * Config.laneWidth + lane) with
  | some t => if t.st = .exited then none else some t
  | none => none

/-- A partner's register, before any result of the word or of its chained group (R15). -/
def partnerV (t : Thread) (n : Nat) : Word :=
  match t.view with
  | some x => FMap.get 0 x.v n
  | none => FMap.get 0 t.v n

/-- A pattern read: the value, and whether the partner had exited (R47 to R49). `a` shall name a v register within the budget. -/
def Ctx.pattern (c : Ctx) (a : Opnd) (q : Pat) (wide : Bool) : Except Nat (Nat × Bool) :=
  match a with
  | .v n =>
    if c.wg.budget c.idx ≤ n.val then .error 2
    else if wide ∧ (n.val % 2 = 1 ∨ c.wg.budget c.idx ≤ n.val + 1) then .error 2
    else match patLane q (laneOf c.idx) with
      | none => .error 2
      | some l =>
        match c.partner l with
        | none => .ok (0, true)
        | some t =>
          .ok ((partnerV t n.val).toNat + (if wide then (partnerV t (n.val + 1)).toNat * 2 ^ 32 else 0), false)
  | _ => .error 2

/-- What a word has read: a value, and A where a pattern was read (R43). -/
structure Read where
  x : Nat
  a : Option Bool
deriving DecidableEq, Repr

/-- A source of 32 or 64 bits. -/
def Ctx.srcW (c : Ctx) (e : Elem) (wide : Bool) (o : Opnd) : Except Nat Nat := if wide then c.src64 o else c.src e o

/-- Operands a and b of an F3 or FC word (R157). -/
def Ctx.read2 (c : Ctx) (e : Elem) (wide : Bool) (a b : Opnd) : Except Nat (Nat × Nat × Option Bool) :=
  match b with
  | .pat q => do
    let y ← c.pattern a q wide
    let x ← c.srcW e wide a
    pure (x, y.1, some y.2)
  | _ => do
    let x ← c.srcW e wide a
    let y ← c.srcW e wide b
    pure (x, y, none)

/-- The single source of an F1 word: operand a, or the partner's register (R47, R140). -/
def Ctx.read1 (c : Ctx) (e : Elem) (wide : Bool) (a : Opnd) (b : Option Pat) : Except Nat Read :=
  match b with
  | some q => (c.pattern a q wide).map (fun p => ⟨p.1, some p.2⟩)
  | none => (c.srcW e wide a).map (fun x => ⟨x, none⟩)

/-! ## Destinations -/

/-- The registers a short word may write: v or t, one or a pair, within the budget (R33, R34, R45). -/
def Ctx.destOk (c : Ctx) (wide : Bool) (d : Opnd) : Bool :=
  match d with
  | .v n => decide (n.val + bnat wide < c.wg.budget c.idx) && (!wide || n.val % 2 == 0)
  | .t n => !wide || n.val % 2 == 0
  | _ => false

/-- The result of a short word. -/
structure Result where
  val : Option Nat          -- the value written to d, 32 or 64 bits
  flags : Option Flags4
  a : Option Bool

/-- Write a 32-bit value to a short destination. -/
def Thread.putD (t : Thread) (d : Opnd) (x : Nat) : Thread :=
  match d with
  | .v n => t.putV n.val (BitVec.ofNat 32 x)
  | .t n => t.putT n.val (BitVec.ofNat 32 x)
  | _ => t

/-- Write a pair. -/
def Thread.putD64 (t : Thread) (d : Opnd) (x : Nat) : Thread :=
  match d with
  | .v n => (t.putV n.val (BitVec.ofNat 32 x)).putV (n.val + 1) (BitVec.ofNat 32 (x / 2 ^ 32))
  | .t n => (t.putT n.val (BitVec.ofNat 32 x)).putT (n.val + 1) (BitVec.ofNat 32 (x / 2 ^ 32))
  | _ => t

/-- A thread with a short word's result written. -/
def Thread.putResult (t : Thread) (d : Option Opnd) (wide : Bool) (r : Result) : Thread :=
  let t := match d, r.val with
    | some o, some x => if wide then t.putD64 o x else t.putD o x
    | _, _ => t
  let t := match r.flags with
    | some f => t.putF f
    | none => t
  match r.a with
  | some a => t.putA a
  | none => t

/-- A short word with destination `d`: check the destination, compute, write. -/
def shortWord (d : Option Opnd) (wide : Bool) (f : Ctx → Except Nat Result) (c : Ctx) (s : State) : Out :=
  if (match d with
      | some o => !c.destOk wide o
      | none => false) then .trap 2 0 0
  else
    match f c with
    | .error e => .trap e 0 0
    | .ok r => .next (s.modThread c.wk c.idx (fun t => t.putResult d wide r))

/-! ## Long destinations (R137, R38) -/

/-- The v registers of a long destination: `n` of them from an aligned v register, within the budget and below v64. -/
def Ctx.longDest (c : Ctx) (d : Opnd) (n align : Nat) : Except Nat (List Nat) :=
  match d with
  | .v r =>
    if r.val % align ≠ 0 ∨ 64 < r.val + n ∨ c.wg.budget c.idx < r.val + n then .error 2
    else .ok ((List.range n).map (fun j => r.val + j))
  | _ => .error 2

/-- The outstanding words that are not memory words. -/
def Thread.longCount (t : Thread) : Nat := (t.pend.filter (fun e => !e.mem)).length

/-- A number no outstanding word of the thread has. -/
def Thread.freshId (t : Thread) : Nat := ((t.chk.map (·.id)) ++ (t.pend.map (·.id))).foldl max 0 + 1

/-- Add an outstanding write (R137, R139). -/
def Thread.addPend (t : Thread) (e : Pend) : Thread := { t with pend := t.pend ++ [e] }

/-- An outstanding write of registers whose values are bound. -/
def pendOf (id : Nat) (mem : Bool) (regs : List Nat) (vals : List Nat) : Pend :=
  { id := id, mem := mem, names := regs, live := regs, ccDest := false, ccF := false, ccA := false,
    vals := some (List.zip regs (vals.map (BitVec.ofNat 32))), ccVal := none }

end Sys2Proof.Machine
end

