-- ==== Sys2Proof/Machine/IntWords.lean ====
section
/-! DEFINITION. The integer, address, move, index, uniform and status words of pipe I (spec/08, Table 8.1). -/

namespace Sys2Proof.Machine

/-- What every meaning answers. -/
abbrev Step1 := Host.Outcome State Fault Refusal

def tyOf (m : Option Mod) (dflt : Ty) : Ty :=
  match m with
  | some x => x.ty
  | none => dflt
def ccOf (m : Option Mod) : Bool := (m.map (·.cc)).getD false
def satOf (m : Option Mod) : Bool := (m.map (·.sat)).getD false

/-- The width of an integer type's result. -/
def tyBits (t : Ty) : Nat := if t = .b64 then 64 else 32

/-- A type and .sat the word accepts, else the illegal-operand trap (R156). -/
def modCheck (types sats : List Ty) (t : Ty) (sat : Bool) : Except Nat Unit :=
  if types.contains t && (!sat || sats.contains t) then .ok () else .error 2

/-- A result value with C and V, of `w` bits. -/
structure Alu where
  res : Nat
  c : Bool
  v : Bool
deriving DecidableEq, Repr

/-- The result of a word, with the flags where it is a .cc form (R158). -/
def Alu.result (x : Alu) (w : Nat) (cc : Bool) (a : Option Bool) : Result :=
  ⟨some x.res, if cc then some (flagsOf w x.res x.c x.v) else none, a⟩

def tyRaw : List Ty := [.b32, .s32, .z32, .b64]
def ty32 : List Ty := [.b32, .s32, .z32]
def tyBit : List Ty := [.b32, .b64]
def tySat : List Ty := [.s32, .z32]

/-- A two-source word of format F3 whose result has the width of its operands. -/
def int3 (types sats : List Ty) (dflt : Ty) (f : Bool → Ty → Bool → Nat → Nat → Nat → Alu) (h : Hdr) (d a b : Opnd)
    (m : Option Mod) (s : State) : State :=
  let t := tyOf m dflt
  let w := tyBits t
  runWord h (lenOf m) (shortWord (some d) (t == .b64) (fun c => do
    modCheck types sats t (satOf m)
    let r ← c.read2 (.int w) (t == .b64) a b
    pure ((f c.view.cc.c t (satOf m) w r.1 r.2.1).result w (ccOf m) r.2.2))) s

/-! ## Add and subtract (R160) -/

/-- add_family: `b` already inverted for a subtract. -/
def addFamily (sub carry cin : Bool) (t : Ty) (sat : Bool) (w a b : Nat) : Alu :=
  let bb := if sub then 2 ^ w - 1 - b else b
  let ci := bnat (if carry then cin else sub)
  let full := a + bb + ci
  let res := full % 2 ^ w
  let c := decide (2 ^ w ≤ full)
  let e := sInt w a + sInt w bb + ci
  let sov := decide (e < -(2 ^ (w - 1)) ∨ 2 ^ (w - 1) - 1 < e)
  let v := if t = .z32 then (if sub then !c else c) else sov
  let res := if sat && v then
      (if t = .z32 then (if sub then 0 else 2 ^ 32 - 1) else (if sInt w a < 0 then 2 ^ 31 else 2 ^ 31 - 1))
    else res
  ⟨res, c, v⟩

def execAdd (h : Hdr) (d a b : Opnd) (m : Option Mod) (s : State) : Step1 :=
  .next (int3 tyRaw tySat .b32 (fun c t sat w x y => addFamily false false c t sat w x y) h d a b m s)

def execSub (h : Hdr) (d a b : Opnd) (m : Option Mod) (s : State) : Step1 :=
  .next (int3 tyRaw tySat .b32 (fun c t sat w x y => addFamily true false c t sat w x y) h d a b m s)

def execAddc (h : Hdr) (d a b : Opnd) (m : Option Mod) (s : State) : Step1 :=
  .next (int3 tyRaw [] .b32 (fun c t sat w x y => addFamily false true c t sat w x y) h d a b m s)

def execSubb (h : Hdr) (d a b : Opnd) (m : Option Mod) (s : State) : Step1 :=
  .next (int3 tyRaw [] .b32 (fun c t sat w x y => addFamily true true c t sat w x y) h d a b m s)

/-! ## Multiply (R161, R162) -/

/-- A 32-bit operand as an integer of its type: unsigned for .z32, signed otherwise. -/
def asInt (t : Ty) (x : Nat) : Int := if t = .z32 then x else sInt 32 x

/-- The bounds of a 32-bit type. -/
def loOf (t : Ty) : Int := if t = .z32 then 0 else -(2 ^ 31)
def hiOf (t : Ty) : Int := if t = .z32 then 2 ^ 32 - 1 else 2 ^ 31 - 1

/-- An exact integer as a 32-bit result: V when outside the type; clamped under .sat (R161). -/
def fitInt (t : Ty) (sat : Bool) (e : Int) : Alu :=
  let c := clampInt (loOf t) (hiOf t) e
  ⟨wrapInt 32 (if sat then c else e), false, decide (c ≠ e)⟩

def execMul (h : Hdr) (d a b : Opnd) (m : Option Mod) (s : State) : Step1 :=
  .next (int3 ty32 tySat .b32 (fun _ t sat _ x y => fitInt t sat (asInt t x * asInt t y)) h d a b m s)

def execMulhiS32 (h : Hdr) (d a b : Opnd) (m : Option Mod) (s : State) : Step1 :=
  .next (int3 [.b32] [] .b32 (fun _ _ _ _ x y => ⟨wrapInt 64 (sInt 32 x * sInt 32 y) / 2 ^ 32, false, false⟩) h d a b m s)

def execMulhiZ32 (h : Hdr) (d a b : Opnd) (m : Option Mod) (s : State) : Step1 :=
  .next (int3 [.b32] [] .b32 (fun _ _ _ _ x y => ⟨x * y / 2 ^ 32, false, false⟩) h d a b m s)

/-- The third source of MAD and BFI: c where cuse is set, else the destination's own value (R161, R171). -/
def Ctx.third (c : Ctx) (e : Elem) (d : Opnd) (m : Option Mod) : Except Nat Nat :=
  match m with
  | some x => if x.cuse then c.src e x.c else c.src e d
  | none => c.src e d

/-- A three-source 32-bit word. -/
def int4 (types sats : List Ty) (f : Ty → Bool → Nat → Nat → Nat → Alu) (h : Hdr) (d a b : Opnd) (m : Option Mod) (s : State) :
    State :=
  let t := tyOf m .b32
  runWord h (lenOf m) (shortWord (some d) false (fun c => do
    modCheck types sats t (satOf m)
    let r ← c.read2 (.int 32) false a b
    let z ← c.third (.int 32) d m
    pure ((f t (satOf m) r.1 r.2.1 z).result 32 (ccOf m) r.2.2))) s

def execMad (h : Hdr) (d a b : Opnd) (m : Option Mod) (s : State) : Step1 :=
  .next (int4 ty32 tySat (fun t sat x y z => fitInt t sat (asInt t x * asInt t y + asInt t z)) h d a b m s)

/-! ## Shifts and rotate (R163) -/

def shlAlu (w a b : Nat) : Alu :=
  let n := b % 256
  ⟨a * 2 ^ n % 2 ^ w, decide (1 ≤ n ∧ n ≤ w) && bit a (w - n), false⟩

def shrAlu (w a b : Nat) : Alu :=
  let n := b % 256
  ⟨a / 2 ^ n, decide (1 ≤ n ∧ n ≤ w) && bit a (n - 1), false⟩

def sarAlu (w a b : Nat) : Alu :=
  let n := b % 256
  ⟨wrapInt w (sInt w a / 2 ^ min n (w - 1)),
    if n = 0 then false else if n ≤ w then bit a (n - 1) else bit a (w - 1), false⟩

def rotAlu (w a b : Nat) : Alu :=
  let k := b % 256 % w
  let r := a * 2 ^ k % 2 ^ w + a / 2 ^ (w - k)
  ⟨r, k != 0 && bit r 0, false⟩

/-- A shift: the amount is one 32-bit register even under .b64. -/
def shiftWord (f : Nat → Nat → Nat → Alu) (h : Hdr) (d a b : Opnd) (m : Option Mod) (s : State) : State :=
  let t := tyOf m .b32
  let w := tyBits t
  runWord h (lenOf m) (shortWord (some d) (t == .b64) (fun c => do
    modCheck tyBit [] t (satOf m)
    let x ← c.srcW (.int w) (t == .b64) a
    let y ← c.read2 (.int 32) false (match b with
      | .pat _ => a
      | _ => b) b
    pure ((f w x y.2.1).result w (ccOf m) y.2.2))) s

def execShl (h : Hdr) (d a b : Opnd) (m : Option Mod) (s : State) : Step1 := .next (shiftWord shlAlu h d a b m s)
def execShr (h : Hdr) (d a b : Opnd) (m : Option Mod) (s : State) : Step1 := .next (shiftWord shrAlu h d a b m s)
def execSar (h : Hdr) (d a b : Opnd) (m : Option Mod) (s : State) : Step1 := .next (shiftWord sarAlu h d a b m s)
def execRot (h : Hdr) (d a b : Opnd) (m : Option Mod) (s : State) : Step1 := .next (shiftWord rotAlu h d a b m s)

/-! ## Logic, minimum, maximum, absolute value, negation (R164 to R166) -/

def execAnd (h : Hdr) (d a b : Opnd) (m : Option Mod) (s : State) : Step1 :=
  .next (int3 tyRaw [] .b32 (fun _ _ _ _ x y => ⟨x &&& y, false, false⟩) h d a b m s)

def execOr (h : Hdr) (d a b : Opnd) (m : Option Mod) (s : State) : Step1 :=
  .next (int3 tyRaw [] .b32 (fun _ _ _ _ x y => ⟨x ||| y, false, false⟩) h d a b m s)

def execXor (h : Hdr) (d a b : Opnd) (m : Option Mod) (s : State) : Step1 :=
  .next (int3 tyRaw [] .b32 (fun _ _ _ _ x y => ⟨x ^^^ y, false, false⟩) h d a b m s)

def execAndn (h : Hdr) (d a b : Opnd) (m : Option Mod) (s : State) : Step1 :=
  .next (int3 tyRaw [] .b32 (fun _ _ _ w x y => ⟨x &&& (2 ^ w - 1 - y), false, false⟩) h d a b m s)

/-- b where it is strictly preferred, with C = 1; else a (R165). -/
def pickAlu (b? : Bool) (x y : Nat) : Alu := ⟨if b? then y else x, b?, false⟩

def execMinS32 (h : Hdr) (d a b : Opnd) (m : Option Mod) (s : State) : Step1 :=
  .next (int3 [.b32] [] .b32 (fun _ _ _ _ x y => pickAlu (decide (sInt 32 y < sInt 32 x)) x y) h d a b m s)

def execMinZ32 (h : Hdr) (d a b : Opnd) (m : Option Mod) (s : State) : Step1 :=
  .next (int3 [.b32] [] .b32 (fun _ _ _ _ x y => pickAlu (decide (y < x)) x y) h d a b m s)

def execMaxS32 (h : Hdr) (d a b : Opnd) (m : Option Mod) (s : State) : Step1 :=
  .next (int3 [.b32] [] .b32 (fun _ _ _ _ x y => pickAlu (decide (sInt 32 x < sInt 32 y)) x y) h d a b m s)

def execMaxZ32 (h : Hdr) (d a b : Opnd) (m : Option Mod) (s : State) : Step1 :=
  .next (int3 [.b32] [] .b32 (fun _ _ _ _ x y => pickAlu (decide (x < y)) x y) h d a b m s)

/-- A word of format F1 (R47): one source, of the width of the type; `res` says whether the result is a pair too. -/
def int1 (types sats : List Ty) (dflt : Ty) (pair : Bool) (f : Bool → Nat → Nat → Alu) (h : Hdr) (d a : Opnd) (b : Option Pat)
    (m : Option Mod) (s : State) : State :=
  let t := tyOf m dflt
  let w := tyBits t
  let wide := pair && t == .b64
  runWord h (lenOf m) (shortWord (some d) wide (fun c => do
    modCheck types sats t (satOf m)
    let r ← c.read1 (.int w) (t == .b64) a b
    pure ((f (satOf m) w r.x).result (if wide then 64 else 32) (ccOf m) r.a))) s

/-- −2^31 has no absolute value or negation: V, and 2^31 − 1 under .sat (R166). -/
def negAlu (neg sat : Bool) (x : Nat) : Alu :=
  if x = 2 ^ 31 then ⟨if sat then 2 ^ 31 - 1 else 2 ^ 31, false, true⟩
  else ⟨if neg then (2 ^ 32 - x) % 2 ^ 32 else x, false, false⟩

def execAbs (h : Hdr) (d a : Opnd) (b : Option Pat) (m : Option Mod) (s : State) : Step1 :=
  .next (int1 [.s32] [.s32] .s32 false (fun sat _ x => negAlu (decide (2 ^ 31 ≤ x)) sat x) h d a b m s)

def execNeg (h : Hdr) (d a : Opnd) (b : Option Pat) (m : Option Mod) (s : State) : Step1 :=
  .next (int1 [.s32] [.s32] .s32 false (fun sat _ x => negAlu true sat x) h d a b m s)

/-! ## Compare, test, select (R167 to R169) -/

/-- A word that writes only flags, of type FC.ty. -/
def flagWord (f : Ty → Nat → Nat → Nat → Flags4) (h : Hdr) (ty : Ty) (a b : Opnd) (s : State) : State :=
  runWord h 1 (shortWord none false (fun c => do
    modCheck tyRaw [] ty false
    let r ← c.read2 (.int (tyBits ty)) (ty == .b64) a b
    pure ⟨none, some (f ty (tyBits ty) r.1 r.2.1), r.2.2⟩)) s

def execCmp (h : Hdr) (ty : Ty) (a b : Opnd) (s : State) : Step1 :=
  .next (flagWord (fun t w x y => cmpFlags w (t != .z32) x y) h ty a b s)

def execTst (h : Hdr) (ty : Ty) (a b : Opnd) (s : State) : Step1 :=
  .next (flagWord (fun _ w x y => flagsOf w (x &&& y) false false) h ty a b s)

def execSel (h : Hdr) (d a b : Opnd) (m : Mod) (s : State) : Step1 :=
  let w := tyBits m.ty
  .next (runWord h 2 (shortWord (some d) (m.ty == .b64) (fun c => do
    modCheck tyBit [] m.ty m.sat
    let r ← c.read2 (.int w) (m.ty == .b64) a b
    let x := if condHolds (Cond.ofCode m.cond.val) c.view.cc then r.1 else r.2.1
    pure ((Alu.mk x false false).result w m.cc r.2.2))) s)

/-! ## Bit counts and bit fields (R170, R171) -/

/-- Zero bits above the most significant 1. -/
def clz (w x : Nat) : Nat := if x = 0 then w else w - 1 - Nat.log2 x

/-- Bit i moved to bit w − 1 − i. -/
def brev (w x : Nat) : Nat := maskOf ((ones w x).map (fun i => w - 1 - i))

def execClz (h : Hdr) (d a : Opnd) (b : Option Pat) (m : Option Mod) (s : State) : Step1 :=
  .next (int1 tyBit [] .b32 false (fun _ w x => ⟨clz w x, false, false⟩) h d a b m s)

def execPopc (h : Hdr) (d a : Opnd) (b : Option Pat) (m : Option Mod) (s : State) : Step1 :=
  .next (int1 tyBit [] .b32 false (fun _ w x => ⟨popCount w x, false, false⟩) h d a b m s)

def execBrev (h : Hdr) (d a : Opnd) (b : Option Pat) (m : Option Mod) (s : State) : Step1 :=
  .next (int1 tyBit [] .b32 true (fun _ w x => ⟨brev w x, false, false⟩) h d a b m s)

/-- The position and effective length of a field from operand b (R171). -/
def fieldPos (b : Nat) : Nat := b % 32
def fieldLen (b : Nat) : Nat := min (min (b / 2 ^ 8 % 2 ^ 6) 32) (32 - fieldPos b)

def bfx (signed : Bool) (a b : Nat) : Nat :=
  let n := fieldLen b
  let f := a / 2 ^ fieldPos b % 2 ^ n
  if n = 0 then 0 else if signed then wrapInt 32 (sInt n f) else f

def bfi (a b base : Nat) : Nat :=
  let m := (2 ^ fieldLen b - 1) * 2 ^ fieldPos b
  (base &&& (2 ^ 32 - 1 - m)) ||| (a * 2 ^ fieldPos b &&& m)

def execBfx (h : Hdr) (d a b : Opnd) (m : Option Mod) (s : State) : Step1 :=
  .next (int3 [.z32, .s32] [] .z32 (fun _ t _ _ x y => ⟨bfx (t == .s32) x y, false, false⟩) h d a b m s)

def execBfi (h : Hdr) (d a b : Opnd) (m : Option Mod) (s : State) : Step1 :=
  .next (int4 [.b32] [] (fun _ _ x y z => ⟨bfi x y z, false, false⟩) h d a b m s)

/-! ## Moves and immediates (R172 to R174) -/

def execMov (h : Hdr) (d a : Opnd) (b : Option Pat) (m : Option Mod) (s : State) : Step1 :=
  .next (int1 tyRaw [] .b32 true (fun _ _ x => ⟨x, false, false⟩) h d a b m s)

/-- A word with no source that writes a 32-bit value. -/
def setWord (h : Hdr) (len : Nat) (d : Opnd) (f : Ctx → Nat) (s : State) : State :=
  runWord h len (shortWord (some d) false (fun c => .ok ⟨some (f c), none, none⟩)) s

def execMovi (h : Hdr) (d : Opnd) (imm : BitVec 14) (s : State) : Step1 :=
  .next (setWord h 1 d (fun _ => sext32 14 imm.toNat) s)

def execMoviImm (h : Hdr) (d : Opnd) (imm : BitVec 14) (hi : BitVec 18) (s : State) : Step1 :=
  .next (setWord h 2 d (fun _ => hi.toNat * 2 ^ 14 + imm.toNat) s)

def execMovhi (h : Hdr) (d : Fin 32) (imm : BitVec 16) (s : State) : Step1 :=
  let r : Opnd := .v ⟨d.val, by omega⟩
  .next (runWord h 1 (shortWord (some r) false (fun c => do
    let old ← c.src (.int 32) r
    pure ⟨some (imm.toNat * 2 ^ 16 + old % 2 ^ 16), none, none⟩)) s)

/-! ## Index registers (R36, R37, R175, R176) -/

def xLen (x : Word) : Nat := bits x.toNat 16 8
def xBase (x : Word) : Nat := bits x.toNat 7 0

def execXset (h : Hdr) (j : Fin 4) (len : BitVec 9) (base : BitVec 8) (s : State) : Step1 :=
  .next (runWord h 1 (fun c s =>
    if 256 < base.toNat + len.toNat then .trap 2 0 0
    else .next (s.modThread c.wk c.idx (fun t =>
      { t with x := FMap.set 0 t.x j.val (BitVec.ofNat 32 (len.toNat * 2 ^ 8 + base.toNat)) }))) s)

/-- The register an index register and an element reach, or the index trap (R37). -/
def Ctx.element (c : Ctx) (j i : Nat) : Except Nat Nat :=
  let x := FMap.get 0 c.view.x j
  if xLen x ≤ i ∨ c.wg.budget c.idx ≤ xBase x + i then .error 3 else .ok (xBase x + i)

def execXld (h : Hdr) (d : Opnd) (j : Fin 4) (idx : Opnd) (s : State) : Step1 :=
  .next (runWord h 1 (shortWord (some d) false (fun c => do
    let i ← c.src (.int 32) idx
    let r ← c.element j.val i
    pure ⟨some (FMap.get 0 c.view.v r).toNat, none, none⟩)) s)

def execXst (h : Hdr) (src : Opnd) (j : Fin 4) (idx : Opnd) (s : State) : Step1 :=
  .next (runWord h 1 (fun c s =>
    match (do
      let y ← (match src with
        | .v _ | .t _ => c.src (.int 32) src
        | _ => .error 2)
      let i ← c.src (.int 32) idx
      let r ← c.element j.val i
      pure (r, y) : Except Nat (Nat × Nat)) with
    | .error e => .trap e 0 0
    | .ok p => .next (s.modThread c.wk c.idx (fun t => t.putV p.1 (BitVec.ofNat 32 p.2)))) s)

/-! ## Uniform registers and status (R40, R177, R178, R350) -/

def execNop (h : Hdr) (_ : BitVec 9) (s : State) : Step1 := .next (runWord h 1 (fun _ s => .next s) s)

def execKset (h : Hdr) (d a : Opnd) (b : Option Pat) (s : State) : Step1 :=
  .next (runWord h 1 (fun c s =>
    match d with
    | .k n =>
      (match c.read1 (.int 32) false a b with
      | .error e => .trap e 0 0
      | .ok r =>
        let mates := (c.pre.group.filter (fun g => g.1 == c.wk)).map (·.2)
        let s := s.modWg c.wk (fun w =>
          { w.setK mates c.idx n.val (FMap.get 0 c.wg.k n.val) (BitVec.ofNat 32 r.x) with flush := false })
        .next (s.modThread c.wk c.idx (fun t => t.putResult none false ⟨none, none, r.a⟩)))
    | _ => .trap 2 0 0) s)

/-- The status values of Table 1.2. -/
def statusOf (c : Ctx) (n : SCode) : Nat :=
  match n with
  | .lane => laneOf c.idx
  | .width => Config.laneWidth
  | .tid => c.idx
  | .wgid => c.wg.wgid
  | .plot => c.wg.plot
  | .stage => c.wg.stageOf c.idx
  | .tag => c.wg.tag
  | .core => c.pre.coreNum c.wg.core
  | .cycle => (c.pre.clock - (c.pre.col (c.wg.core / 8)).base) % 2 ^ 32

def execSread (h : Hdr) (d : Opnd) (n : SCode) (s : State) : Step1 := .next (setWord h 1 d (fun c => statusOf c n) s)

end Sys2Proof.Machine
end

