-- ==== Sys2Proof/Machine/Rings.lean ====
section
/-! DEFINITION. Ring descriptors (Tables 18.2 and 18.3, R337, R338): what they hold, and the counters that hardware writes. -/

namespace Sys2Proof.Machine

/-- A ring that exists: its partition, the physical address of its descriptor and the descriptor. -/
structure Ring where
  part : Nat
  num : Nat
  addr : Nat
  d : Nat
deriving DecidableEq, Repr

/-- Ring `n` of a partition; none at or above RING_TABLE_n.count, or where its entry may not be reached (R331). -/
def State.ring? (s : State) (part n : Nat) : Option Ring :=
  let t := (s.part part).ringTable
  if bits t 11 0 ≤ n then none
  else
    let a := bits t 51 12 * 4096 + 32 * n
    if s.tableOpen a true true then some ⟨part, n, a, s.baseNat a 32⟩ else none

/-- A push to a ring whose entry lies outside the host windows is logged (R331). -/
def State.noteRing (s : State) (part n : Nat) : State :=
  let t := (s.part part).ringTable
  let a := bits t 51 12 * 4096 + 32 * n
  if bits t 11 0 ≤ n then s
  else match s.physical a true true false with
    | .term sub => s.logPhys sub part 5 255 a
    | _ => s

def Ring.base (r : Ring) : Nat := bits r.d 56 0
def Ring.cap (r : Ring) : Nat := 2 ^ bits r.d 68 64
def Ring.kind (r : Ring) : Nat := bits r.d 70 69
def Ring.dev (r : Ring) : Bool := bit r.d 71
def Ring.queue (r : Ring) : Nat := bits r.d 77 72
def Ring.wr (r : Ring) : Nat := bits r.d 159 128
def Ring.rd (r : Ring) : Nat := bits r.d 191 160
def Ring.resv (r : Ring) : Nat := bits r.d 207 192

/-- A ring in use whose kind and logcap are legal. -/
def Ring.valid (r : Ring) : Bool :=
  bit r.d 78 && r.kind != 3 && decide (4 ≤ bits r.d 68 64) && decide (bits r.d 68 64 ≤ 16)

/-- A ring is full when wr − rd + resv = 2^logcap (R338). -/
def Ring.full (r : Ring) : Bool := decide (r.cap ≤ (r.wr + 2 ^ 32 - r.rd) % 2 ^ 32 + r.resv)

/-- The virtual address of entry `i`. -/
def Ring.entry (r : Ring) (i : Nat) : Nat := r.base + 128 * (i % r.cap)

/-- A device push moves wr, which the front end sees at once (R338). -/
def State.setWr (s : State) (r : Ring) (x : Nat) : State :=
  (s.commitList (r.addr + 16) (leBytes 4 (x % 2 ^ 32))).modPart r.part (fun p =>
    { p with observed := p.observed.put r.num (x % 2 ^ 32) })
def State.setRd (s : State) (r : Ring) (x : Nat) : State := s.commitList (r.addr + 20) (leBytes 4 (x % 2 ^ 32))
def State.setResv (s : State) (r : Ring) (x : Nat) : State := s.commitList (r.addr + 24) (leBytes 2 (x % 2 ^ 16))

/-- A prune lowers the reservations of a tag's held pushes (R338). -/
def State.unreserve (s : State) (tag : Nat) : State :=
  (s.held.filter (fun x => x.tag == tag && !x.flip)).foldl (fun s x =>
    match s.ring? x.part (x.dst) with
    | some r => s.setResv r (r.resv - 1)
    | none => s) s

end Sys2Proof.Machine
end

