-- ==== Sys2Proof/Machine/Version.lean ====
section
/-! DEFINITION. Versioned memory (spec/05): atomics on plain versions and delta elements (R97, R98, R277), the capacity of a fork
set (R106, R108), pruning (R105), the steps of a graft (R101, R102) and the ordered lines of deterministic windows (R301). -/

namespace Sys2Proof.Machine

/-! ## Atomics (R277, Table 13.2) -/

/-- The float format of an atomic's type, if it is one. -/
def atomFloat (ty : Nat) : Option FFmt :=
  match ty with
  | 8 => some .f32
  | 9 => some .f16
  | 10 => some .bf16
  | _ => none

/-- The access width of a legal pair of operation and type (Table 13.2). Codes of operations: Table 7.7; of types: Table 7.3. -/
def atomWidth (aop ty : Nat) : Option Nat :=
  let bits32 := ty == 0 || ty == 1 || ty == 2
  if aop = 0 then (if bits32 || ty = 8 then some 4 else if ty = 3 then some 8 else if ty = 9 || ty = 10 then some 2 else none)
  else if aop = 1 then (if bits32 then some 4 else if ty = 3 then some 8 else none)
  else if aop = 2 ∨ aop = 3 then (if ty = 1 || ty = 2 || ty = 8 then some 4 else if ty = 3 then some 8 else none)
  else if aop = 4 then (if ty = 1 || ty = 2 || ty = 8 then some 8 else none)
  else if ty = 0 then some 4
  else if ty = 3 then some 8
  else none

/-- The row of Table 5.4 of an operation; none for an exchange or a compare-exchange. Table 5.4 gives min and max one row: the model takes
them as two kinds, so that a max that reaches a min element converts it (DESIGN CHOICE, log entry 48). -/
def atomRow (aop ty : Nat) : Option Nat :=
  match aop with
  | 0 => some (if (atomFloat ty).isSome then 1 else 0)
  | 1 => some 0
  | 2 => some 2
  | 3 => some 3
  | 4 => some 4
  | 5 => some 5
  | 6 => some 6
  | 7 => some 7
  | _ => none

/-- The compared type of a kind (R98): that of the type code for min, max, MAXI and float add; none in the other rows. -/
def atomCmp (row ty : Nat) : Nat := if row = 1 ∨ row = 2 ∨ row = 3 ∨ row = 4 then ty else 0

/-- The operand as its row updates with it: a subtract adds the negation. -/
def atomOperand (aop width o : Nat) : Nat := if aop = 1 then (2 ^ (8 * width) - o) % 2 ^ (8 * width) else o

/-- The new value of an atomic; none where a compare-exchange fails. -/
def atomNew (aop ty width old o o2 : Nat) : Option Nat :=
  match atomRow aop ty with
  | some row => some (deltaOp row width (atomCmp row ty) old (atomOperand aop width o))
  | none => if aop = 8 then some o else if old = o then some o2 else none

/-- Whether a tag holds a plain version of any of `n` bytes. -/
def State.versioned (s : State) (tag pa n : Nat) : Bool := (List.range n).any (fun i => (s.vers.find? (verKey tag (pa + i))).isSome)

/-- Whether a delta element of a tag overlaps any of `n` bytes. -/
def State.deltaOver (s : State) (tag pa n : Nat) : Bool := (List.range n).any (fun i => (s.deltaAt tag (pa + i)).isSome)

/-- Stamp the tiles of `n` bytes. -/
def State.stampAll (s : State) (tag pa n : Nat) : State := (List.range n).foldl (fun s i => s.stamp tag (pa + i)) s

/-- A read-modify-write at the home under a tag: the old value and the state after it (R97, R98, R277). An element of which the tag holds a
plain version of some bytes counts as one of which it holds a plain version (DESIGN CHOICE, log entry 48). -/
def State.rmwHome (s : State) (tag va pa aop ty width o o2 : Nat) : Nat × State :=
  let old := s.readHomeNat tag pa width
  let plain (s : State) : State :=
    match atomNew aop ty width old o o2 with
    | some x => s.writeHomeList tag va pa (leBytes width x)
    | none => s
  if tag = 0 then (old, plain s)
  else
    match atomRow aop ty with
    | none =>
      if old = o ∨ aop = 8 then (old, plain (s.convertOver tag pa width)) else (old, s)
    | some row =>
      let kind : Delta := ⟨row, width, atomCmp row ty, 0⟩
      let upd (d : Delta) : Delta := { d with val := deltaOp row width d.cmp d.val (atomOperand aop width o) }
      if s.versioned tag pa width then (old, plain (s.convertOver tag pa width))
      else
        match s.deltas.find? (verKey tag pa) with
        | some d =>
          if { d with val := 0 } = kind then
            (old, (({ s with deltas := s.deltas.put (verKey tag pa) (upd d) } : State).nameLine tag va pa).stampAll tag pa width)
          else (old, plain (s.convertOver tag pa width))
        | none =>
          if s.deltaOver tag pa width then (old, plain (s.convertOver tag pa width))
          else
            let d0 : Delta := { kind with val := deltaInit row width kind.cmp }
            let d := upd d0
            (s.combined pa d0, (({ s with deltas := s.deltas.put (verKey tag pa) d } : State).nameLine tag va pa).stampAll tag pa width)

/-! ## Ordered lines (R301, R109) -/

/-- A float atomic that a sequence number would order (Table 13.10). -/
def atomOrdered (aop ty : Nat) : Bool := (atomFloat ty).isSome && (aop == 0 || aop == 2 || aop == 3)

/-- The tag of a launch's record. -/
def Launch.tag (l : Launch) : Nat := bits l.rcd 62 57

/-- Whether a deterministic window of the tag holds the line of an address in ordered mode. -/
def State.inOrderedMode (s : State) (tag pa : Nat) : Bool :=
  s.parts.any (fun p => p.2.ltab.any (fun e => e.2.tag == tag && e.2.ordered.contains (pa / 256)))

/-! ## The lines of a tag (R94, R108) -/

/-- The 256-byte lines of the stamps that a write of a byte writes (R110, R255). -/
def State.stampLines (s : State) (pa : Nat) : List Nat := (s.tilesAt pa).map (fun p => (p.1.stamps + 2 * p.2) / 256)

/-- The 256-byte lines of a tag that stand dirty in some L1 and, for all that, already have their version, with those of the stamps that go
with them (R94, R106, R110). -/
def State.dirtyLines (s : State) (tag : Nat) : List Nat :=
  (s.l1.filter (fun e => lineTag e.1 == tag && e.2.dirty != [])).flatMap (fun e =>
    lineAddr e.1 / 256 :: e.2.dirty.flatMap (fun o => s.stampLines (lineAddr e.1 + o)))

/-- The 256-byte lines that a tag's versions and deltas occupy. -/
def State.linesOfTag (s : State) (tag : Nat) : Nat :=
  let f (ks : List Nat) : List Nat := (ks.filter (fun k => k / 2 ^ 52 == tag)).map (fun k => k % 2 ^ 52 / 256)
  (f s.vers.keys ++ f s.deltas.keys ++ s.dirtyLines tag).dedup.length

/-- Lines of a fork set. -/
def State.linesOfSet (s : State) (f : ForkSet) : Nat := (f.tags.map s.linesOfTag).foldl (· + ·) 0

/-- The fork set that holds a live tag. -/
def State.setOf (s : State) (tag : Nat) : Option (Nat × ForkSet) := List.find? (fun p => p.2.tags.contains tag && !p.2.exhausted) s.sets

/-! ## Pruning (R105) -/

/-- A tag's line versions, deltas, held effects and L1 lines go. -/
def State.dropTag (s : State) (tag : Nat) : State :=
  let s := s.dropL1Tag tag
  { s with
    vers := s.vers.filter (fun p => p.1 / 2 ^ 52 != tag)
    versVa := s.versVa.filter (fun p => p.1 / 2 ^ 44 != tag)
    deltas := s.deltas.filter (fun p => p.1 / 2 ^ 52 != tag)
    poison := s.poison.filter (fun p => tag == 0 || p.1 / 2 ^ 46 != tag)
    held := s.held.filter (fun x => x.tag != tag) }

/-- A workgroup issues no further word, and its outstanding operations are acknowledged without effect. -/
def State.stopWg (s : State) (k status : Nat) : State :=
  let s := s.modWg k (fun w =>
    { w with
      stopped := some status, draining := true, staging := [], saving := false
      threads := w.threads.map (fun p =>
        (p.1, { p.2 with pend := [], chk := [], queue := [], term := none, hold := [],
                         st := if p.2.st = .trapped then .trapped else if p.2.st = .exited then .exited else .ready })) })
  let mine (x : Waiter) : Bool := match x with
    | .op m => m.wk == k
    | .fetch wk _ => wk == k
    | .phase wk => wk == k
    | .ray _ _ => false
    | _ => false
  { s with
    parked := s.parked.filter (fun p => !mine p.2.who)
    snoops := s.snoops.filter (fun p => !mine p.2.who)
    grafts := s.grafts.filter (fun g => g.wk != k) }

/-- The spill-log lines that a set would give back without one of its tags. -/
def State.spillOf (s : State) (tag : Nat) : Nat :=
  match s.setOf tag with
  | none => 0
  | some (_, f) =>
    let share := Config.forkSetShare / 256
    (s.linesOfSet f - share) - (s.linesOfSet f - s.linesOfTag tag - share)

/-- A tag becomes retired: what it held goes, but for the spill-log space, which the scrub gives back (R105, R107). -/
def State.retireTag (s : State) (tag : Nat) : State :=
  let n := s.spillOf tag
  let s := s.dropTag tag
  let s := s.setTag tag { s.tag tag with state := 2 }
  if n = 0 then s else s.modPart (s.tag tag).part (fun p => { p with scrub := p.scrub.put tag n })

/-- Prune one tag: its launches take status 4, its workgroups stop, its tasks stop at their next block, and those that have run in a shadow
region end without their results (R105). -/
def State.pruneTag (s : State) (tag : Nat) : State :=
  let s := (s.unreserve tag).retireTag tag
  let s := (s.wgs.filter (fun p => p.2.tag == tag)).foldl (fun s p => s.stopWg p.1 4) s
  { s with
    cores := s.cores.map (fun c => (c.1, { c.2 with chans := c.2.chans.map (fun n => (n.1,
      { n.2 with reqs := n.2.reqs.map (fun r => if r.tag = tag then { r with pruned := true } else r) })) }))
    cols := s.cols.map (fun c => (c.1,
      { c.2 with tasks := c.2.tasks.map (fun t => if t.tag = tag ∧ t.status.isNone then { t with pruned := true } else t)
                 rays := c.2.rays.filter (fun r => r.2.tag != tag) }))
    parts := s.parts.map (fun p => (p.1,
      { p.2 with
        ltab := p.2.ltab.map (fun e => if e.2.tag = tag then (e.1, { e.2 with status := some 4, returned := [] }) else e)
        streams := p.2.streams.map (fun x => (x.1, { x.2 with ran := x.2.ran.map (fun t =>
          if t.tag = tag then { t with status := some 3, out := [], block := 0 } else t) })) })) }

/-! ## Capacity (R106, R108) -/

/-- Lines of a partition in its spill log: what its live sets hold beyond their share, and what the scrub has not yet given back (R107,
R108). -/
def State.spilled (s : State) (part : Nat) : Nat :=
  ((s.sets.filter (fun p => p.2.part == part && !p.2.exhausted)).map (fun p => s.linesOfSet p.2 - Config.forkSetShare / 256)).foldl (· + ·)
    (((s.part part).scrub.map (·.2)).foldl (· + ·) 0)

/-- Spill-log lines of a partition (Table 5.7). -/
def Part.spillLines (p : Part) : Nat := min (bits p.vers 31 21) 1024 * 4096

/-- A tag holds a version of a 256-byte line. -/
def State.holdsLine (s : State) (tag line : Nat) : Bool :=
  s.vers.any (fun p => p.1 / 256 == verKey tag (256 * line) / 256) || s.deltas.any (fun p => p.1 / 256 == verKey tag (256 * line) / 256)
    || (s.dirtyLines tag).contains line

/-- The lines that a write of a byte under a tag needs and the tag does not hold: the byte's own, and those of the stamps that it writes
(R94, R110). -/
def State.newLines (s : State) (tag pa : Nat) : List Nat :=
  ((pa / 256 :: s.stampLines pa).dedup).filter (fun l => !s.holdsLine tag l)

/-- A write under a tag finds no versioned space (R106). The first test only spares the count where no share can be used up. -/
def State.noSpace (s : State) (tag pa : Nat) : Bool :=
  if tag = 0 ∨ (s.parts.all (fun p => bits p.2.trk 11 0 == 0) ∧
      s.vers.length + s.deltas.length + s.l1.length + 16 < Config.forkSetShare / 256) then false
  else
    match s.setOf tag with
    | none => false
    | some (_, f) =>
      decide ((Config.forkSetShare / 256 - s.linesOfSet f) + ((s.part f.part).spillLines - s.spilled f.part) < (s.newLines tag pa).length)

/-- Exhaustion: the whole set is pruned, its slot held and marked, and counted (R106). -/
def State.exhaust (s : State) (tag : Nat) : State :=
  match s.setOf tag with
  | none => s
  | some (n, f) =>
    let s := f.tags.foldl State.pruneTag s
    let s := { s with sets := s.sets.put n { f with exhausted := true } }
    s.modPart f.part (fun p => { p with exhaust := satInc 16 p.exhaust })

/-! ## Step 1 of a graft (R101, R102, R110) -/

/-- What step 1 has counted: bytes overlapped and the first one's virtual address. -/
structure Overlap where
  count : Nat
  first : Nat
deriving DecidableEq, Repr

/-- A byte of the winner's versions becomes a tag-0 write, globally performed: no L1 keeps an older copy (R83, R101); a host byte only where a
window lets it be sent (R111). -/
def graftByte (f : ForkSet) (tag : Nat) (acc : State × Overlap) (e : Nat × Byte) : State × Overlap :=
  let s := acc.1
  let pa := e.1 % 2 ^ 52
  if bit pa 51 && !s.hostAllowed pa false true then acc
  else if s.isStamp pa then
    ((s.commitRaw pa e.2).dropStale 0 pa, acc.2)
  else
    let va := (FMap.get 0 s.versVa (2 ^ 44 * tag + pa / 256)) * 256 + pa % 256
    let o := if f.post.contains pa then
        ⟨satInc 32 acc.2.count, if acc.2.count = 0 then va else acc.2.first⟩
      else acc.2
    ((s.commitPlain pa e.2).dropStale 0 pa, o)

/-- The winner's stamps, each the greater of its own and the tag-0 one (R110). -/
def State.maxStamps (s : State) (tag : Nat) : State :=
  let pas := (s.vers.filter (fun p => p.1 / 2 ^ 52 == tag)).map (fun p => p.1 % 2 ^ 52)
  (pas.filter (fun pa => pa % 2 == 0 && s.isStamp pa)).foldl (fun s pa =>
    let x := max (s.baseNat pa 2) (s.readHomeNat tag pa 2)
    (s.putVersion tag pa (BitVec.ofNat 8 x)).putVersion tag (pa + 1) (BitVec.ofNat 8 (x / 256))) s

/-- A delta element applied as one read-modify-write (R101). -/
def graftDelta (s : State) (e : Nat × Delta) : State :=
  let pa := e.1 % 2 ^ 52
  if bit pa 51 && !s.hostAllowed pa true true then s
  else
    ((List.range e.2.width).zip (leBytes e.2.width (s.combined pa e.2))).foldl (fun s p => (s.commitPlain (pa + p.1) p.2).dropStale 0 (pa + p.1)) s

/-- The granules of a tag's versions that fail: what a graft writes from them fails as memory (R376). -/
def State.graftPoison (s : State) (tag : Nat) : State :=
  { s with poison := (s.poison.filter (fun p => p.1 / 2 ^ 46 == tag)).foldl (fun m p => m.put (p.1 % 2 ^ 46) (List.range 64)) s.poison }

/-- The host bytes of a winner that step 1 does not send, the first of each 64-byte line: no window grants their write (R102, R331). -/
def State.graftBreaches (s : State) (tag : Nat) : List Nat :=
  let of (ks : List Nat) (needR : Bool) : List Nat :=
    ((ks.filter (fun k => k / 2 ^ 52 == tag)).map (· % 2 ^ 52)).filter (fun pa => bit pa 51 && !s.hostAllowed pa needR true)
  (of s.vers.keys false ++ of s.deltas.keys true).foldl (fun l pa => if l.any (fun x => x / 64 == pa / 64) then l else l ++ [pa]) []

/-- Step 1 of a graft: the winner's versions, then its deltas, become tag 0. -/
def State.graftMemory (s : State) (f : ForkSet) (tag : Nat) : State × Overlap :=
  let keys := (s.l1.filter (fun p => lineTag p.1 == tag)).map (·.1)
  let s := (keys.foldl State.writeBackLine s).maxStamps tag
  let vs := s.vers.filter (fun p => p.1 / 2 ^ 52 == tag)
  let ds := s.deltas.filter (fun p => p.1 / 2 ^ 52 == tag)
  let r := vs.foldl (graftByte f tag) (s, ⟨0, 0⟩)
  ((ds.foldl graftDelta r.1).graftPoison tag, r.2)

end Sys2Proof.Machine
end

