-- ==== Sys2Proof/Machine/Access.lean ====
section
/-! DEFINITION. One thread's access to memory: the lane checks (R52, R53, R57), what waits or is discarded (R84 to R87, Table 4.2),
performing at L1 or at the home (R61, R70), staging (R88, R300), parking (R369), terminal responses (R86) and the trace record
(R258). -/

namespace Sys2Proof.Machine

/-! ## Buffer records (Table 3.1, R52, R53) -/

/-- The buffer record in a slot of a workgroup's launch; the null record where nothing is bound. -/
def State.slot (s : State) (w : Wg) (n : Nat) : Nat :=
  match s.launch? w.part w.ltab with
  | some l => FMap.get 0 l.q n
  | none => 0

def recBase (r : Nat) : Nat := bits r 56 0
def recCountx (r : Nat) : Nat := bits r 95 64
def recCounty (r : Nat) : Nat := bits r 127 96
def recStride (r : Nat) : Nat := bits r 159 128
def recEsize (r : Nat) : Nat := 2 ^ bits r 162 160
def recSwz (r : Nat) : Nat := bits r 164 163
def recRights (r : Nat) : Nat := bits r 166 165
def recTraps (r : Nat) : Bool := bit r 167
def recLod (r : Nat) : Bool := bit r 168

/-- The tile of a swizzle mode: rows and bytes. -/
def swzTile (swz : Nat) : Nat × Nat :=
  match swz with
  | 1 => (16, 16)
  | 2 => (8, 32)
  | _ => (4, 64)

/-- The address of byte `xb` in row `y` (Table 3.2). -/
def swzAddr (swz base stride y xb : Nat) : Nat :=
  if swz = 0 then base + y * stride + xb
  else
    let t := swzTile swz
    base + y / t.1 * stride * t.1 + xb / t.2 * 256 + y % t.1 * t.2 + xb % t.2

def recInBounds (r e a : Nat) : Bool :=
  decide (e < recCountx r * recCounty r) && decide (e % recCountx r * recEsize r + a ≤ recCountx r * recEsize r)

def recAddr (r e : Nat) : Nat :=
  swzAddr (recSwz r) (recBase r) (recStride r) (e / recCountx r) (e % recCountx r * recEsize r)

/-- A lane's outcome: a precise trap by cause, a silent skip, or an address. -/
inductive Lane
  | trap (cause : Nat)
  | skip
  | at (va : Nat)
deriving DecidableEq, Repr

/-- check_lane of R53. -/
def checkLane (r e a : Nat) (needR needW : Bool) : Lane :=
  if (needR && !bit (recRights r) 0) || (needW && !bit (recRights r) 1) then .trap 7
  else if !recInBounds r e a then (if recTraps r then .trap 8 else .skip)
  else if recAddr r e % a ≠ 0 then .trap 9
  else .at (recAddr r e)

/-! ## Scratchpad windows (R56, R57) -/

/-- The workgroup and offset that a scratchpad address reaches; none takes the scratchpad-range trap. The address is the 32-bit value of
the sum, whose bits [31:22] are zero (R273). -/
def State.scratch (s : State) (k : Nat) (w : Wg) (sum a : Nat) : Option (Nat × Nat) :=
  let adr := sum % 2 ^ 32
  let win := adr / 2 ^ 18 % 16
  let off := adr % 2 ^ 18
  let owner : Option (Nat × Wg) :=
    if win = 0 then some (k, w)
    else List.find? (fun p => p.2.part == w.part && p.2.launch == w.launch && p.2.plot == w.plot && p.2.wgid + 1 == win) s.wgs
  if 2 ^ 22 ≤ adr ∨ 9 ≤ win then none
  else
    match owner with
    | some (n, o) => if o.spadKiB * 1024 < off + a ∨ adr % a ≠ 0 then none else some (n, off)
    | none => none

/-! ## Trace records (R258) -/

/-- Widen a slot's range to a tile. -/
def widen (m : FMap (Nat × Nat)) (slot t : Nat) : FMap (Nat × Nat) :=
  match m.find? slot with
  | some (a, b) => m.put slot (min a t, max b t)
  | none => m.put slot (t, t)

/-- The region identifiers of a launch's trace slots (Table 13.7). -/
def traceSlots (rcd : Nat) : List Nat := (List.range 4).map (fun j => bits rcd (576 + 12 * j + 11) (576 + 12 * j))

/-- The trace slot of a region, if it has one. -/
def slotOfRegion (rcd id : Nat) : Option Nat := (List.range 4).find? (fun j => (traceSlots rcd).getD j 0 == id)

def TraceRec.read (t : TraceRec) (slot tile : Nat) : TraceRec :=
  let e := slot * 2 ^ 30 + tile
  if t.exact.contains e then t
  else if t.exact.length < 30 then { t with exact := t.exact ++ [e] }
  else { t with coarse := widen t.coarse slot tile }

/-- Record the tiles of `n` bytes read or written by a workgroup of a traced launch. -/
def State.traceNote (s : State) (k va n : Nat) (write : Bool) : State :=
  match s.wgs.find? k with
  | none => s
  | some w =>
    if !w.traced then s
    else
      match s.launch? w.part w.ltab with
      | none => s
      | some l =>
        let tr := (s.regionsOf w.part).foldl (fun (t : TraceRec) r =>
          (r.tilesOf va n).foldl (fun t tile =>
            match slotOfRegion l.rcd r.id with
            | some j => if write then { t with written := widen t.written j tile } else t.read j tile
            | none => if write then t else { t with other := true }) t) w.trace
        s.modWg k (fun w => { w with trace := tr })

/-- A launch has written a physical byte: the regions it has written (R256); one that has left the launch table is credited with nothing. -/
def State.noteRegions (s : State) (part ltab num pa : Nat) : State :=
  match s.tilesAt pa with
  | [] => s
  | l =>
    let ids := l.map (fun p => 4096 * p.1.part + p.1.id)
    s.modLaunch part ltab (fun x => if x.num = num then { x with regions := (x.regions ++ ids).dedup } else x)

/-! ## Performing (R61, R70, R83) -/

/-- What trying an access gives. `line` is the L1 line that another observer may still read as older. -/
inductive Perf
  | done (s : State) (val : Nat) (line : Option Nat)
  | fault (cause : Nat)
  | term (sub : Nat)
  | ordered
  | snooped (s : State) (pa : Nat)

/-- An access that passes L1: ordered at dev or sys scope, or an atomic (R61). -/
def MemOp.bypass (m : MemOp) : Bool := m.kind == 2 || (m.ord != 0 && decide (2 ≤ m.scope))

def MemOp.acquires (m : MemOp) : Bool := m.kind != 1 && (m.ord == 1 || m.ord == 3)
def MemOp.releases (m : MemOp) : Bool := m.kind != 0 && (m.ord == 2 || m.ord == 3)
def MemOp.reads (m : MemOp) : Bool := m.kind != 1
def MemOp.writes (m : MemOp) : Bool := m.kind != 0

/-- Bytes of staged data (R300). -/
def Wg.stagedBytes (w : Wg) : Nat :=
  (w.staging.map (fun x => match x with
    | .mem m _ => m.width
    | .push _ _ _ _ => 128
    | .flip _ _ _ _ => 0)).foldl (· + ·) 0

/-- A write waits for the host's response to a back-invalidate snoop (R371). -/
def State.addSnoop (s : State) (who : Waiter) (part va pa : Nat) : State :=
  { s with snoops := s.snoops.put (s.snoops.freshKey (s.snoops.length + 1) 0) ⟨who, part, va, pa, false⟩ }

/-- The thread's own stores that wait for the host (R87). -/
def State.ownSnooped (s : State) (m : MemOp) : List MemOp :=
  s.snoopOps.filter (fun x => x.wk == m.wk && x.idx == m.idx && x.kind == 1)

/-- The lines from which a read of `n` bytes takes a written byte that is not yet at its home: the workgroup's own and its plot's. -/
def State.dirtySource (s : State) (u tag pa n : Nat) : List Nat :=
  ([u, bufOf u].filter (fun c => (List.range n).any (fun i => s.dirtyByte c tag (pa + i)))).map (fun c => lineKey c tag pa)

/-- A thread has read written bytes of lines that are not yet at their home. -/
def Thread.sees (t : Thread) (ls : List Nat) : Thread := if ls = [] then t else { t with seen := (t.seen ++ ls).dedup }

/-- What a thread has read goes as far as a scope before it orders anything after the read (R74, R75: every edge is cumulative): at plot
scope to its plot's lines, beyond it to its home. -/
def State.sendSeen (s : State) (k i scope : Nat) : State :=
  match s.thread? k i with
  | none => s
  | some t =>
    if t.seen = [] then s
    else if scope ≤ 1 then (t.seen.filter (fun l => !isBuf (lineUnit l))).foldl State.pushLine s
    else (t.seen.foldl State.sendLine s).modThread k i (fun t => { t with seen := [] })

/-- An acquire fence of a thread at a scope wider than wg: what it has read goes out to the scope, and clean bytes are invalidated (R61,
R75). -/
def State.acquireFence (s : State) (k i u scope : Nat) : State :=
  if scope = 0 then s else (s.sendSeen k i scope).acquireL1 u scope

/-- A thread uses a loaded value: whatever it does then is ordered after the load at every scope (R75), so what the thread has read goes home
and its unit's clean bytes are invalidated (log entry 21). -/
def State.depend (s : State) (k i : Nat) : State :=
  match s.wgs.find? k with
  | none => s
  | some w => ((s.sendSeen k i 3).acquireL1 w.unit 3).modThread k i (fun t => { t with loaded := [] })

/-- A load: through L1, or at the home where it passes L1. One that acquires at plot scope takes no byte that its plot does not see. -/
def State.performLoad (s : State) (w : Wg) (m : MemOp) (pa : Nat) : State × Nat :=
  let s := if m.acquires then s.acquireL1 w.unit m.scope else s
  let s := if m.acquires && m.scope == 1 then s.pushLine (lineKey w.unit m.tag pa) else s
  let s := s.modThread m.wk m.idx (fun t => t.sees (if m.bypass then [] else s.dirtySource w.unit m.tag pa m.width))
  let s := (s.readAt w.unit m.tag pa m.width m.bypass).1
  (s, readBy ((w.stagedStores ++ s.ownSnooped m).foldl applyOver (fun a => s.readL1 w.unit m.tag (pa + (a - m.va)))) m.va m.width)

/-- A store, into L1 or at the home. A release store at wg scope stays in L1, and one at plot scope goes to its plot's lines at once. -/
def State.performStore (s : State) (w : Wg) (m : MemOp) (pa : Nat) (direct : Bool) : State × Nat :=
  let s := if m.releases then s.releaseL1 w.unit m.scope else s
  let line := lineKey w.unit m.tag pa
  if m.bypass || direct then
    let s := s.flushLine w.unit m.tag pa
    (s.writeHomeList m.tag m.va pa (leBytes m.width m.data), line)
  else
    let s := if m.tag = 0 then s else s.nameLine m.tag m.va pa
    let scope := if m.releases then m.scope else 0
    let s := ((List.range m.width).zip (leBytes m.width m.data)).foldl (fun s p => s.writeL1 w.unit m.tag (pa + p.1) scope p.2) s
    (if scope = 1 then s.pushLine line else s, line)

/-- An atomic at the home. -/
def State.performAtomic (s : State) (w : Wg) (m : MemOp) (pa : Nat) : State × Nat :=
  let s := if m.releases then s.releaseL1 w.unit m.scope else s
  let s := if m.acquires then s.acquireL1 w.unit m.scope else s
  let s := s.flushLine w.unit m.tag pa
  let r := s.rmwHome m.tag m.va pa m.aop m.typ m.width m.data m.data2
  (r.2, r.1)

/-- A scratchpad access (R71, R273): its order counts for the thread's global accesses, a release before it and an acquire after it. -/
def State.performSpad (s : State) (w : Wg) (m : MemOp) : State × Nat :=
  let s := if m.releases then s.releaseL1 w.unit m.scope else s
  let old := s.spadGet (m.spad - 1) m.va m.width
  let new := match m.kind with
    | 0 => none
    | 1 => some m.data
    | _ => atomNew m.aop m.typ m.width old m.data m.data2
  let s := match new with
    | some x => s.spadPut (m.spad - 1) m.va m.width x
    | none => s
  (if m.acquires then s.acquireL1 w.unit m.scope else s, old)

/-- The physical line of a page that the host may hold read-duplicated (R371). -/
def State.hostHolds (s : State) (dup : Bool) (pa : Nat) : Bool := dup && s.shared.contains (pa / 64)

/-- An effect of Table 18.9 that clears a workgroup's flush bit for good (R350). -/
def State.clearFlush (s : State) (k : Nat) : State := s.modWg k (fun w => { w with flush := false })

/-- Whether an access writes memory, given the value it finds there: a compare-exchange that fails does not (R277). -/
def MemOp.writesOver (m : MemOp) (old : Nat) : Bool :=
  m.kind == 1 || (m.kind == 2 && (atomNew m.aop m.typ m.width old m.data m.data2).isSome)

/-- What a write enters besides memory: the trace record, the regions its launch has written, and the flush bit, which a tag-0 write and a
release of deterministic staging clear (R258, R256, R350). -/
def State.noteWrite (s : State) (w : Wg) (m : MemOp) (pa : Nat) : State :=
  let s := (s.traceNote m.wk m.va m.width true).noteRegions w.part w.ltab w.launch pa
  if m.tag = 0 ∨ w.det then s.clearFlush m.wk else s

/-- Perform an access whose translation is known. `direct` sends a store to its home: one that has had the host's answer, and one that
the ticket unit releases, which is globally performed then (R87, R88). A write that finds no versioned space exhausts its set and is
discarded (R106). An atomic clears the flush bit whether or not it writes (R350, Table 18.9). -/
def State.performAt (s : State) (w : Wg) (m : MemOp) (pa : Nat) (direct : Bool) : Perf :=
  let line := lineKey w.unit m.tag pa
  let s := if m.reads then s.traceNote m.wk m.va m.width false else s
  match m.kind with
  | 0 => let r := s.performLoad w m pa; .done r.1 r.2 none
  | 1 =>
    if s.noSpace m.tag pa then .done (s.exhaust m.tag) 0 none
    else let r := (s.noteWrite w m pa).performStore w m pa direct; .done r.1 0 (some r.2)
  | _ =>
    let s := s.clearFlush m.wk
    if m.writesOver ((s.flushLine w.unit m.tag pa).readHomeNat m.tag pa m.width) then
      if s.noSpace m.tag pa then .done (s.exhaust m.tag) 0 none
      else let r := (s.noteWrite w m pa).performAtomic w m pa; .done r.1 r.2 (some line)
    else
      let r := s.performAtomic w m pa
      .done r.1 r.2 none

/-- An access of a shoot needs no host memory: a write stays in its versions, and a read finds every byte there (R94, R111). -/
def State.ownAccess (s : State) (w : Wg) (m : MemOp) (pa : Nat) : Bool :=
  m.tag != 0 && (!m.reads || (List.range m.width).all (fun i => s.ownByte (some w.unit) m.tag (pa + i)))

/-- Try a global access: translate, check, then perform, or wait for the host: for a line that it holds, or for a port to its memory that runs
(R371, R384). `release` is a staged access that the ticket unit releases, or one
whose host response has come. -/
def State.tryGlobal (s : State) (w : Wg) (m : MemOp) (release : Bool) : Perf :=
  match s.xlateAt w m.va m.width m.reads m.writes with
  | .fault c => .fault c
  | .term sub => .term sub
  | .ok pa dup =>
    if m.reads && s.poisonedFor (some w.unit) w.tag pa m.width then .term 1
    else if s.linkHeld pa && !s.ownAccess w m pa then .snooped s pa
    else if m.kind = 2 && atomOrdered m.aop m.typ && !w.det && s.inOrderedMode m.tag pa then .ordered
    else if m.writes && m.tag = 0 && s.hostHolds dup pa && !release then .snooped s pa
    else s.performAt w m pa (dup || release)

/-- Try a piece: of a scratchpad, or of global memory; a word of a level-of-detail load that cannot be read any more has the value that its
lookup found, and is never reported (R265). -/
def State.tryOp (s : State) (m : MemOp) (release : Bool) : Perf :=
  match s.wgs.find? m.wk with
  | none => .done s 0 none
  | some w =>
    if m.spad ≠ 0 then let r := s.performSpad w m; .done r.1 r.2 none
    else match s.tryGlobal w m release with
      | .done s val line => .done s val line
      | x => if m.fixed then .done s m.data none else x

/-! ## Results -/

/-- The register words of an access's value: zero- or sign-extended by the access type, or an atomic's old value (R272, R277). -/
def MemOp.words (m : MemOp) (val : Nat) : List Nat :=
  if m.kind = 0 then
    (match m.typ with
      | 4 => [sext32 8 val]
      | 5 => [sext32 16 val]
      | 3 => [val % 2 ^ 32, val / 2 ^ 32]
      | _ => [val])
  else if m.width = 8 then [val % 2 ^ 32, val / 2 ^ 32]
  else [val]

/-- The registers that a piece gives values to, in order. -/
def MemOp.bound (m : MemOp) (val : Nat) : List (Nat × Word) := List.zip m.dest ((m.words val).map (BitVec.ofNat 32))

/-- Bind the value of a piece of an outstanding write, which lands later (R83, R272). -/
def State.bindValue (s : State) (m : MemOp) (val : Nat) : State :=
  s.modThread m.wk m.idx (fun t => { t with pend := t.pend.map (fun e =>
    if e.id = m.id then { e with vals := some (e.vals.getD [] ++ m.bound val) } else e) })

/-- An access waits for a fault's answer or for the host. -/
def State.heldOp (s : State) (m : MemOp) : Bool :=
  s.parked.any (fun p => decide (p.2.who = .op m)) || s.snoops.any (fun p => decide (p.2.who = .op m))

/-- The pieces of a thread's queue that come after one in program order; every piece where it is not in the queue. -/
def Thread.after (t : Thread) (m : MemOp) : List MemOp := (t.queue.dropWhile (fun x => decide (x ≠ m))).drop 1

/-- The pieces of a thread's queue before one. -/
def Thread.before (t : Thread) (m : MemOp) : List MemOp := t.queue.takeWhile (fun x => decide (x ≠ m))

/-- A write that is performed has passed the earlier reads of its thread that wait (R85). -/
def State.notePassed (s : State) (m : MemOp) : State :=
  if m.writes then
    s.modThread m.wk m.idx (fun t =>
      { t with passed := (t.passed ++ ((t.before m).filter (fun x => x.reads && s.heldOp x)).map (·.id)).dedup })
  else s

/-- A piece is performed: it leaves the thread's queue, and the checkpoint's word keeps the line that others may still read as older; a
word of which nothing is left goes (R84). -/
def State.settlePiece (s : State) (m : MemOp) (line : Option Nat) : State :=
  s.modThread m.wk m.idx (fun t =>
    let l := t.chk.map (fun c =>
      if c.id = m.id then { c with parked := c.parked - 1, lines := c.lines ++ line.toList } else c)
    let q := t.queue.erase m
    { t with chk := l.filter (fun c => c.id != m.id || c.parked != 0 || c.lines != []), queue := q,
             passed := t.passed.filter (fun id => q.any (fun x => x.id == id)) })

/-- What performing a piece leaves of it: its value bound, and the piece settled. -/
def State.complete (s : State) (m : MemOp) (val : Nat) (line : Option Nat) : State :=
  ((s.notePassed m).bindValue m val).settlePiece m line

/-- The lanes of a checkpoint word whose pieces are all performed (R84): of those that executed it, the ones whose threads have none left
to perform. -/
def Wg.performedLanes (w : Wg) (i : Nat) (c : MemWord) : List Nat :=
  (ones Config.laneWidth c.lanes).filter (fun n =>
    !(w.threads.find? (teamOf i * Config.laneWidth + n)).any (fun t => t.chk.any (fun x => x.word == c.word && x.parked != 0)))

/-- A thread's memory checkpoint (R84): its oldest memory word with a piece that is not globally performed, and the lanes of it whose
pieces are performed. -/
def Wg.checkpoint (w : Wg) (i : Nat) : Option (MemWord × List Nat) :=
  ((w.threads.find? i).bind (fun t => t.chk.head?)).map (fun c => (c, w.performedLanes i c))

/-! ## Order between pieces of one thread (Table 4.2) -/

def overlaps (a n b m : Nat) : Bool := decide (a < b + m) && decide (b < a + n)

/-- Two accesses touch a common byte: of one scratchpad, or of memory by their virtual or by their physical addresses. -/
def State.common (s : State) (a b : MemOp) : Bool :=
  if a.spad ≠ b.spad then false
  else if a.spad ≠ 0 then overlaps a.va a.width b.va b.width
  else
    let pa := s.rawPa a.part a.va
    let pb := s.rawPa b.part b.va
    (a.part == b.part && overlaps a.va a.width b.va b.width) || (pa != 0 && pb != 0 && overlaps pa a.width pb b.width)

/-- A row of Table 4.2 orders a later piece of a thread after an earlier one. The rows of the fences need no test here: a fence waits at
issue for what it orders (R279). -/
def State.ordered (s : State) (a b : MemOp) : Bool := a.acquires || b.releases || s.common a b

/-- A later piece waits for an earlier one: it is ordered after it, or it writes and the earlier one reads, so that no value is written
before the reads that may lead to it (R74, item 2), unless that read waits for a fault or the host (R85; log entry 21). -/
def State.waitsFor (s : State) (a b : MemOp) : Bool := s.ordered a b || (a.reads && b.writes && !s.heldOp a)

/-- A store of one word by a lower lane to the same byte at the same tag that is still to be performed (R55). -/
def State.lowerLane (s : State) (m : MemOp) : Bool :=
  m.kind == 1 && s.wgs.any (fun w => w.2.tag == m.tag && w.2.threads.any (fun t =>
    decide (t.1 % 64 < m.idx % 64) && t.2.queue.any (fun x => x.word == m.word && s.common x m)))

/-- A staged access that an access is ordered after: an acquire of its own thread, or an atomic of its workgroup on a byte that it reads,
whose value is not known before its release (R88, R300). -/
def State.afterStaged (s : State) (m : MemOp) : Bool :=
  (s.wgs.find? m.wk).any (fun w => w.stagedOps.any (fun x =>
    (x.idx == m.idx && x.acquires) || (m.reads && x.kind == 2 && s.common x m)))

/-- A write of a byte that a waiting read of another thread touches, which a later write of that thread has passed: it comes after the read,
or the two threads would read from each other's future (R74, item 2; log entry 21). -/
def State.beforePassed (s : State) (m : MemOp) : Bool :=
  m.writes && s.wgs.any (fun w => w.2.threads.any (fun t => t.2.passed != [] &&
    t.2.queue.any (fun x => decide (x ≠ m) && x.reads && t.2.passed.contains x.id && s.common x m)))

/-- A piece may not be performed yet. -/
def State.blocked (s : State) (m : MemOp) : Bool :=
  match s.thread? m.wk m.idx with
  | none => false
  | some t => (t.before m).any (fun x => s.waitsFor x m) || s.lowerLane m || s.beforePassed m

/-! ## Terminal responses (R86, R372, R375) -/

/-- A thread parked where a terminal response that arrives is taken at once: at a switch, or at a word that ended its run; a thread whose
fetch or call waits stands at neither (R86, R372). -/
def Thread.takesTerm (t : Thread) : Bool :=
  [Stand.switch, .wait, .ended, .requota, .phase].contains t.st && t.op != some .again

/-- The threads of a workgroup that take their pending terminal cause now; none while it is being saved (R86, R352). -/
def Wg.termReady (w : Wg) : List (Nat × Terminal) :=
  if w.saving then [] else w.threads.filterMap (fun p => if p.2.takesTerm then p.2.term.map (fun c => (p.1, c)) else none)

/-- A workgroup's pending terminal causes are taken, one record for the threads of one team whose words and causes are the same (R86,
R373). -/
def State.deliverWg (s : State) (k : Nat) : State :=
  match s.wgs.find? k with
  | none => s
  | some w =>
    let l := w.termReady
    (l.foldl (fun s p => s.modThread k p.1 (fun t => { t.endRun with term := none })) s).takeTraps l.length
      (l.map (fun p => ((w.threads.find? p.1).map (fun t => t.trapReq k p.1 p.2)).getD (p.2.req k p.1)))

/-- Every pending terminal cause that a parked thread takes at once. -/
def State.deliverTerms (s : State) : State :=
  (s.wgs.filter (fun p => p.2.termReady != [])).foldl (fun s p => s.deliverWg p.1) s

/-- A thread receives a terminal response; one that has exited counts it for its launch (R183). -/
def State.setTerm (s : State) (k i : Nat) (x : Terminal) : State :=
  match s.wgs.find? k with
  | none => s
  | some w =>
    match w.threads.find? i with
    | none => s
    | some t =>
      if t.st = .exited then s.modLaunch w.part w.ltab (fun l => { l with errs := satInc 16 l.errs })
      else s.modThread k i (fun t => { t with term := some (t.term.getD x) })

/-- The PC and length of an access's word in its thread's checkpoint; the thread's own PC where none is kept. -/
def State.wordPc (s : State) (m : MemOp) : Nat × Nat × Nat :=
  match s.thread? m.wk m.idx with
  | none => (0, 0, 1)
  | some t =>
    match t.chk.find? (fun c => c.id == m.id) with
    | some c => (c.obj, c.off, c.len)
    | none => (t.obj, t.off, 1)

/-- The words of a thread that have something staged after an access and ordered after it; a push or a flip is a release. -/
def State.stagedAfter (s : State) (m : MemOp) : List Nat :=
  match s.wgs.find? m.wk with
  | none => []
  | some w => w.staging.filterMap (fun x => match x with
      | .mem y _ => if y.idx = m.idx ∧ m.id < y.id ∧ s.ordered m y = true then some y.id else none
      | .push i id _ _ => if i = m.idx ∧ m.id < id then some id else none
      | .flip i id _ _ => if i = m.idx ∧ m.id < id then some id else none)

/-- A staged effect is one of a word of a thread. -/
def Staged.isOf (i id : Nat) : Staged → Bool
  | .mem y _ => y.idx == i && y.id == id
  | .push j n _ _ => j == i && n == id
  | .flip j n _ _ => j == i && n == id

/-- The access receives no value: its outstanding write, its checkpoint entry and its pieces go, and so does everything of the thread that
is issued and ordered after it, without effect (R86). -/
def State.dropPiece (s : State) (m : MemOp) : State :=
  let out := ((s.thread? m.wk m.idx).map (fun t => ((t.after m).filter (fun x => s.ordered m x)).map (·.id))).getD []
  let gone := m.id :: (out ++ s.stagedAfter m)
  (s.modThread m.wk m.idx (fun t =>
    { t with pend := t.pend.filter (fun e => !gone.contains e.id), chk := t.chk.filter (fun c => !gone.contains c.id),
             queue := t.queue.filter (fun x => !gone.contains x.id) })).modWg m.wk (fun w =>
      { w with staging := w.staging.filter (fun x => !gone.any (fun id => x.isOf m.idx id)) })

/-- Where an access's bytes lie: a virtual address, or above those an offset in a scratchpad. -/
def MemOp.place (m : MemOp) : Nat := 2 ^ 64 * m.spad + m.va

/-- What the logs show of an access that ends in a terminal response; an error of a scratchpad has address 0 (R376). -/
def State.logOp (s : State) (w : Wg) (m : MemOp) (cause sub : Nat) : State :=
  let core := s.coreNum w.core
  if m.spad ≠ 0 then (s.logEcc 7).logErr w.part 1 0 core true 0
  else if cause = 14 then s.logErr w.part 5 0 core true m.va
  else s.logTerm sub w.part 0 core m.va (some (s.rawPa w.part m.va))

/-- An access ends in a terminal response: logged, no value, the trap left for the thread's next switch. -/
def State.failOp (s : State) (m : MemOp) (cause sub : Nat) : State :=
  match s.wgs.find? m.wk with
  | none => s
  | some w =>
    let p := s.wordPc m
    let addr := if m.spad = 0 then s.failAddr w.part sub m.va else 0
    ((s.logOp w m cause sub).dropPiece m).setTerm m.wk m.idx
      ⟨cause, sub, addr, p.1, p.2.1, p.2.2, m.place, m.width, m.reads, m.acquires, false, m.word⟩

/-! ## Waiting and discarding (R84 to R87, Table 4.2) -/

/-- Accesses of a thread that are parked at a fault. -/
def State.parkedOps (s : State) (k i : Nat) : List MemOp :=
  s.parked.vals.filterMap (fun p => match p.who with
    | .op m => if m.wk = k ∧ m.idx = i then some m else none
    | _ => none)

/-- Accesses of a thread that wait for the host's response. -/
def State.snoopedOps (s : State) (k i : Nat) : List MemOp :=
  s.snoopOps.filter (fun x => x.wk == k && x.idx == i)

/-- What becomes of a memory word before it acts. -/
inductive Gate
  | go
  | wait
  | discard
deriving DecidableEq, Repr

/-- The thread may hold no further memory word: a graft or a prune holds them (R295), the checkpoint is full, or it was full when the
word first waited and its oldest word is still not globally performed (R84). -/
def Thread.memFull (t : Thread) : Bool :=
  t.hold != [] || decide (16 ≤ t.memCount) || t.full.any (fun id => t.chk.any (fun c => c.id == id) || t.pend.any (fun e => e.mem && e.id == id))

/-- After a terminal response a word is discarded where it is ordered after the access that received it (R86): every word, a write, a
release, or one of a common byte. -/
def Terminal.discards (x : Terminal) (wr rel : Bool) (va : Option Nat) (n : Nat) : Bool :=
  x.all || (x.stores && wr) || rel || va.any (fun a => overlaps x.va x.width a n)

/-- The gate of a word that joins the queue: `wr` and `rel` say whether it writes and releases; `va` and `n` its bytes. -/
def Ctx.issueGate (c : Ctx) (wr rel : Bool) (va : Option Nat) (n : Nat) : Gate :=
  if c.th.memFull then .wait
  else if c.th.term.any (fun x => x.discards wr rel va n) then .discard
  else .go

/-- An access that does not join the queue waits for the pieces there that it is ordered after, or that it may not pass. -/
def Ctx.queueWaits (c : Ctx) (x : MemOp) : Bool :=
  c.th.queue.any (fun m => c.pre.ordered m x || (m.reads && x.writes) || (m.writes && x.reads))

/-- The gate of a word that acts at once, `x` its access. -/
def Ctx.gate (c : Ctx) (x : MemOp) (va : Option Nat) : Gate :=
  if c.queueWaits x || c.pre.afterStaged x then .wait else c.issueGate x.writes x.releases va x.width

/-- The gate of a word that hands a read to an engine: it waits for the acquires before it. -/
def Ctx.engineGate (c : Ctx) : Gate :=
  if c.th.queue.any MemOp.acquires || c.wg.stagedOps.any (fun x => x.idx == c.idx && x.acquires) then .wait
  else c.issueGate false false none 0

/-- The types field of a fault report (Table 19.8). -/
def MemOp.faultTypes (m : MemOp) : Nat :=
  match m.kind with
  | 0 => 1
  | 1 => 2
  | _ => 8

/-- Park an access at a fault (R369). -/
def State.parkOp (s : State) (m : MemOp) (cause : Nat) : State :=
  match s.wgs.find? m.wk with
  | none => s
  | some w => s.parkFor (.op m) w.part m.va cause m.faultTypes 1 w.launch (w.core / 8)

/-- An outstanding write of an access, bound or not. -/
def pendMem (m : MemOp) (val : Option Nat) : Pend :=
  { id := m.id, mem := true, names := m.dest, live := m.dest, ccDest := false, ccF := false, ccA := false,
    vals := val.map m.bound, ccVal := none }

/-- The pieces of an access: a plain one of 64 bits is one piece for each 32-bit word, and any other is one (R70). -/
def MemOp.pieces (m : MemOp) : List MemOp :=
  if m.kind ≠ 2 ∧ m.width = 8 then
    [{ m with width := 4, typ := 2, data := m.data % 2 ^ 32, dest := m.dest.take 1 },
     { m with width := 4, typ := 2, va := m.va + 4, data := m.data / 2 ^ 32, dest := m.dest.drop 1 }]
  else [m]

/-- The lanes of the thread's team that execute the word. -/
def Ctx.teamLanes (c : Ctx) : Nat :=
  maskOf ((c.pre.group.filter (fun x => x.1 == c.wk && teamOf x.2 == teamOf c.idx)).map (fun x => laneOf x.2))

/-- A thread's record with an access issued: its outstanding write where it has a destination, its place in the checkpoint, and
`queued` pieces in the queue (R84). -/
def Thread.issued (t : Thread) (c : Ctx) (m : MemOp) (queued : List MemOp) : Thread :=
  { t with
    pend := if m.dest = [] then t.pend else t.pend ++ [pendMem m none]
    chk := t.chk ++ [⟨m.id, c.th.obj, c.th.off, c.len, m.writes, m.scope, [], m.pieces.length, m.word, c.teamLanes⟩]
    queue := t.queue ++ queued }

/-- A thread issues an access (R271, R276): it joins the thread's queue, or, as a global write of a deterministic launch, the workgroup's
staging in program order (R300); none where the word waits at issue, as it does for a staged access that it is ordered after. -/
def State.access (s : State) (c : Ctx) (m : MemOp) : Option State :=
  let staged := c.wg.det && m.writes && m.spad == 0
  match (if (if staged then c.queueWaits m else c.pre.afterStaged m) then Gate.wait else .go), c.issueGate m.writes m.releases (some m.place) m.width with
  | .wait, _ => none
  | _, .wait => none
  | _, .discard => some s
  | _, .go =>
    if !staged then some (s.modThread c.wk c.idx (fun t => t.issued c m m.pieces))
    else
      match s.wgs.find? c.wk with
      | none => none
      | some w =>
        if 65536 < w.stagedBytes + m.width then none
        else some ((s.modThread c.wk c.idx (fun t => t.issued c m [])).modWg c.wk (fun w =>
          { w with staging := w.staging ++ m.pieces.map (fun x => .mem x none) }))

/-- Try a piece of a thread's queue, or again one that waited (R85, R371); `release` as in `tryOp`. One that faults parks, and one whose
line the host holds waits for it; both stay in the queue. -/
def State.retryOp (s : State) (m : MemOp) (release : Bool) : State :=
  match s.tryOp m release with
  | .done s val line => s.complete m val line
  | .fault cause => s.parkOp m cause
  | .term sub => s.failOp m 16 sub
  | .ordered => s.failOp m 14 0
  | .snooped s pa => s.addSnoop (.op m) m.part m.va pa

/-- The pieces of a thread's queue that may be performed now. -/
def State.readyOps (s : State) (k i : Nat) : List MemOp :=
  ((s.thread? k i).map (fun t => t.queue.filter (fun m => !s.heldOp m && !s.blocked m))).getD []

/-- One of a thread's pieces that may be performed now and satisfy a test is performed: a free number says which (R70, R75). -/
def State.performOne (s : State) (k i : Nat) (p : MemOp → Bool) : State :=
  let l := (s.readyOps k i).filter p
  match l[Config.freeNat s.fresh % max l.length 1]? with
  | none => s
  | some m => { s.retryOp m false with fresh := s.fresh + 1 }

/-! ## Globally performed (R83) -/

/-- A word of a thread's checkpoint becomes globally performed: the lines that hold its bytes are written back, no L1 keeps an older
copy of them, and its entry is free (R83). One with a piece not performed does not. -/
def State.globally (s : State) (k i id : Nat) : State :=
  match (s.thread? k i).bind (fun t => t.chk.find? (fun c => c.id == id)) with
  | none => s
  | some c =>
    if c.parked ≠ 0 then s
    else (c.lines.foldl State.homeLine s).modThread k i (fun t => { t with chk := t.chk.filter (fun x => x.id != id) })

/-- Every memory word of a thread's checkpoint becomes globally performed. -/
def State.globallyAll (s : State) (k i : Nat) : State :=
  (((s.thread? k i).map (fun t => t.chk.map (·.id))).getD []).foldl (fun s id => s.globally k i id) s

/-! ## Reads and writes by units at the home -/

/-- `n` bytes of a virtual range at a tag, none where a byte does not translate. -/
def State.vRead (s : State) (part tag va n : Nat) : Option Nat :=
  ((List.range n).mapM (fun i =>
    match s.xlate part (va + i) true false false with
    | .ok pa _ => some (s.readHome tag pa)
    | _ => none)).map ofLe

/-- Write bytes to a virtual range at a tag; none where a byte does not translate. -/
def State.vWrite (s : State) (part tag va : Nat) : List Byte → Option State
  | [] => some s
  | b :: bs =>
    match s.xlate part va false true false with
    | .ok pa _ => State.vWrite (s.writeHome tag va pa b) part tag (va + 1) bs
    | _ => none

end Sys2Proof.Machine
end

