-- ==== Sys2Proof/Machine/Lod.lean ====
section
/-! DEFINITION. Level-of-detail resources (R262 to R266), the residency cache (R264) and the feedback filters and rings (R267,
R268). -/

namespace Sys2Proof.Machine

/-! ## Feedback (R267, R268) -/

/-- Drop an entry at a ring: ovcount counts it and ovf is set. -/
def dropHeader (h : Nat) : Nat := setBits (setBits h 127 96 (satInc 32 (bits h 127 96))) 31 31 1

/-- The feedback-ring entry of Table 12.8. -/
def Feedback.entry (f : Feedback) (core : Nat) : Nat :=
  f.va % 2 ^ 57 * 2 ^ 64 + f.page % 2 ^ 16 * 2 ^ 48 + f.want * 2 ^ 44 + f.got * 2 ^ 40 + bnat f.none * 2 ^ 39 + bnat f.xl * 2 ^ 38
    + f.tag * 2 ^ 32 + core % 256 * 2 ^ 24 + f.res % 4096 * 2 ^ 12 + min f.count 4095

/-- Append a filter entry to its ring, or drop it where the ring is full, its logcap is reserved or it has no memory. -/
def State.appendFeedback (s : State) (core : Nat) (f : Feedback) : State :=
  match s.vRead f.part 0 f.ring 16 with
  | none => s
  | some h =>
    let cap := bits h 4 0
    let head := bits h 63 32
    let tail := bits h 95 64
    if cap < 4 ∨ 20 < cap ∨ (head + 2 ^ 32 - tail) % 2 ^ 32 = 2 ^ cap then
      (s.vWrite f.part 0 f.ring (leBytes 16 (dropHeader h))).getD s
    else
      match s.vWrite f.part 0 (f.ring + 64 + 16 * (head % 2 ^ cap)) (leBytes 16 (f.entry (s.coreNum core))) with
      | none => s
      | some s => (s.vWrite f.part 0 (f.ring + 4) (leBytes 4 ((head + 1) % 2 ^ 32))).getD s

/-- A request enters its core's filter: it merges with a pending entry of its key, or takes a slot, the oldest entry leaving
first where all 32 are in use. -/
def State.requestFeedback (s : State) (core : Nat) (f : Feedback) : State :=
  let l := (s.core core).filter
  let same (g : Feedback) : Bool := g.part == f.part && g.res == f.res && g.page == f.page
  if l.any same then
    s.modCore core (fun c => { c with filter := l.map (fun g => if same g then { g with count := min (g.count + 1) 4095 } else g) })
  else if l.length < 32 then s.modCore core (fun c => { c with filter := l ++ [f] })
  else
    match l with
    | [] => s
    | g :: gs => (s.appendFeedback core g).modCore core (fun c => { c with filter := gs ++ [f] })

/-! ## Resources (R262, R263) -/

/-- Where the entry of a resource stands. -/
def State.lodEntryPa (s : State) (part res : Nat) : Nat := bits (s.part part).lod 51 12 * 4096 + 64 * res

/-- A resource entry (Table 12.5), none where it is invalid, not in the table or not to be read. -/
def State.lodEntry (s : State) (part res : Nat) : Option Nat :=
  if bits (s.part part).lod 11 0 ≤ res then none
  else
    let a := s.lodEntryPa part res
    let e := s.baseNat a 64
    if !s.tableOpen a true false || !bit e 0 || bits e 198 142 % 256 ≠ 0 || bits e 255 199 % 64 ≠ 0 then none else some e

def entLevels (e : Nat) : Nat := bits e 4 1
def entPages (e : Nat) : Nat := bits e 141 126
def entMap (e : Nat) : Nat := bits e 198 142
def entRing (e : Nat) : Nat := bits e 255 199
def entOff (e l : Nat) : Nat := bits e (256 + 16 * l + 15) (256 + 16 * l)

/-- The first byte of level `l`. -/
def levelStart (r e l : Nat) : Nat := if l = 0 then recBase r else recBase r + entOff e l * 2 ^ 15

/-- The address of element (x, y) of level `l` and its page (R263). -/
def levelAddr (r e l x y : Nat) : Nat × Nat :=
  let start := levelStart r e l
  let rule := if recSwz r = 0 then recEsize r else (swzTile (recSwz r)).2
  let cx := max 1 (recCountx r / 2 ^ l)
  let stride := if l = 0 then recStride r else roundUp (cx * recEsize r) rule
  let a := swzAddr (recSwz r) start stride y (x * recEsize r)
  (a, entOff e l + (a - start) / 2 ^ 15)

/-- A byte of a residency map through the column's cache: an entry held for 65,536 clocks is read again (R264). A map byte with
no translation reads as not resident. -/
def State.mapByte (s : State) (col part va : Nat) : State × Nat :=
  match s.xlate part va true false false with
  | .ok pa _ =>
    let fill : State × Nat :=
      let b := (s.base pa).toNat
      (s.modCol col (fun c => { c with cache := c.cache.put pa (b, s.clock) }), b)
    match (s.col col).cache.find? pa with
    | some (b, t) => if s.clock < t + 65536 then (s, b) else fill
    | none => fill
  | .term sub => (s.logTerm sub part 0 255 va (some (s.rawPa part va)), 0)
  | .fault _ => (s, 0)

/-- Whether a page is resident. -/
def State.resident (s : State) (col part e page : Nat) : State × Bool :=
  if entPages e ≤ page then (s, false)
  else
    let r := s.mapByte col part (entMap e + page / 8)
    (r.1, bit r.2 (page % 8))

/-- The result of a lookup: data, none, xl, the level delivered and its address. -/
structure Looked where
  data : Nat
  none : Bool
  xl : Bool
  got : Nat
  va : Nat
deriving DecidableEq, Repr

/-- The parts of a virtual range that lie in one 64-byte line each: an element of at most 8 bytes has at most two. -/
def lineParts (va n : Nat) : List (Nat × Nat) :=
  let a := min n (64 - va % 64)
  (va, a) :: (if a < n then [(va + a, n - a)] else [])

/-- A lookup's read of the parts of an element, each translated and checked; none where one fails. A violation among the failures is logged
(R375, R331), as is an uncorrectable error of a walk; nothing else comes of a failure here (R265; log entry 41). -/
def State.lodRead (s : State) (w : Wg) (m : MemOp) : List (Nat × Nat) → State × Option Nat
  | [] => (s, some 0)
  | (va, n) :: l =>
    match s.xlateAt w va n true false with
    | .ok pa _ =>
      if s.poisonedFor (some w.unit) w.tag pa n then (s.logTerm 1 w.part 0 (s.coreNum w.core) va none, none)
      else
        let v := (s.flushLine w.unit m.tag pa).performLoad w { m with va := va, width := n } pa
        let r := State.lodRead v.1 w m l
        (r.1, r.2.map (fun x => v.2 + 256 ^ n * x))
    | .term sub => (s.logTerm sub w.part 0 (s.coreNum w.core) va (some (s.rawPa w.part va)), none)
    | .fault _ => (s.logWalk w.part 0 (s.coreNum w.core) va, none)

/-- Levels `l` upward, `n` of them (R265). `m` is the access with its width, tag and thread. -/
def State.lodLevels (s : State) (w : Wg) (m : MemOp) (r e x y : Nat) : Nat → Nat → Bool → State × Looked
  | 0, _, xl => (s, ⟨0, true, xl, 0, 0⟩)
  | n + 1, l, xl =>
    let p := levelAddr r e l (x / 2 ^ l) (y / 2 ^ l)
    let q := s.resident (w.core / 8) w.part e p.2
    if !q.2 then State.lodLevels q.1 w m r e x y n (l + 1) xl
    else
      match q.1.lodRead w { m with va := p.1 } (lineParts p.1 m.width) with
      | (t, some v) => (t, ⟨v, false, xl, l, p.1⟩)
      | (t, none) => State.lodLevels t w m r e x y n (l + 1) true

/-- The status word of Table 12.6. -/
def lodStatus (none fb xl : Bool) (got want : Nat) : Nat :=
  bnat none * 2 ^ 31 + bnat fb * 2 ^ 30 + bnat xl * 2 ^ 29 + got * 16 + want

/-- A resource entry outside the host windows or beyond the end of memory is logged (R331, R375). -/
def State.noteLodEntry (s : State) (w : Wg) (res : Nat) : State :=
  if bits (s.part w.part).lod 11 0 ≤ res then s
  else match s.physical (s.lodEntryPa w.part res) true false false with
    | .term sub => s.logPhys sub w.part 0 (s.coreNum w.core) (s.lodEntryPa w.part res)
    | _ => s

/-- A whole lookup at a requested level: what it delivers and its status word (R265, R266), the wanted page logged where another level or
none is delivered, and the two tiles of R258 recorded. -/
def State.lodLookup (s : State) (w : Wg) (m : MemOp) (r x y req : Nat) : State × Looked × Nat :=
  let res := bits r 223 192
  match s.lodEntry w.part res with
  | none => (s.noteLodEntry w res, ⟨0, true, false, 0, 0⟩, lodStatus true true false 0 req)
  | some e =>
    let want := min req (entLevels e)
    let p := levelAddr r e want (x / 2 ^ want) (y / 2 ^ want)
    let q := s.lodLevels w m r e x y (entLevels e + 1 - want) want false
    let k := q.2
    let fb := k.none || k.got != want
    let s := q.1.traceNote m.wk p.1 m.width false
    let s := if k.none then s else s.traceNote m.wk k.va m.width false
    let start := levelStart r e want
    let s := if fb then s.requestFeedback w.core
        ⟨w.part, res, p.2, entRing e, start + (p.1 - start) / 2 ^ 15 * 2 ^ 15, want, k.got, k.none, k.xl, w.tag, 1, s.clock⟩
      else s
    (s, k, lodStatus k.none fb k.xl k.got want)

end Sys2Proof.Machine
end

