-- ==== Sys2Proof/Machine/MemWords.lean ====
section
/-! DEFINITION. Loads and stores: LD, ST, LDS, STS and LDLOD (spec/13, R271 to R275). -/

namespace Sys2Proof.Machine

/-- The access width of a memory type (Table 7.5). -/
def mtWidth (t : MemTy) : Nat :=
  match t with
  | .b8 | .s8 => 1
  | .b16 | .s16 => 2
  | .b32 => 4
  | .b64 => 8

/-- Registers a memory type takes. -/
def mtRegs (t : MemTy) : Nat := if t = .b64 then 2 else 1

/-- Order, scope and element offset of a word with or without a MEM extension (R135). -/
def ordOf (x : Option MemX) : Nat := (x.map (fun e => e.ord.code)).getD 0
def scopeOf (x : Option MemX) : Nat := (x.map (fun e => e.scope.code)).getD 0
def eoffOf (x : Option MemX) : Nat := (x.map (fun e => e.eoff.toNat)).getD 0

/-- A memory word's access before its address is known. -/
def memOp (c : Ctx) (kind aop typ width data data2 ord scope : Nat) (dest : List Nat) (region va : Nat) : MemOp :=
  { wk := c.wk, idx := c.idx, id := c.th.freshId, kind := kind, aop := aop, typ := typ, part := c.wg.part, tag := c.wg.tag,
    va := va, width := width, data := data, data2 := data2, ord := ord, scope := scope, dest := dest, region := region,
    word := c.pre.fresh }

/-- A silent out-of-bounds lane: the sticky status, and zero to a destination as a long write (R53, R272). -/
def skipLane (c : Ctx) (s : State) (rs : List Nat) : Out :=
  if c.th.memFull ∧ rs ≠ [] then .stall
  else
    .next (s.modThread c.wk c.idx (fun t =>
      let t := { t with oob := true }
      if rs = [] then t else t.addPend (pendOf c.th.freshId true rs (rs.map (fun _ => 0)))))

/-- A lane's global access after its checks. -/
def laneAccess (c : Ctx) (s : State) (m : MemOp) : Out :=
  match s.access c m with
  | some s => .next s
  | none => .stall

/-- The data of a store: codes 0 to 95; an inline constant is legal except with .b64 (R271). -/
def storeData (c : Ctx) (mt : MemTy) (o : Opnd) : Except Nat Nat :=
  match o, mt with
  | .c _, .b64 => .error 2
  | _, .b64 => c.src64 o
  | _, .s8 => .error 2
  | _, .s16 => .error 2
  | _, _ => c.src (.int 32) o

def execLd (h : Hdr) (d : Opnd) (slot : Fin 16) (idx : Opnd) (mt : MemTy) (x : Option MemX) (s : State) : Step1 :=
  .next (runWord h (lenOf x) (fun c s =>
    match (do
      if ordOf x = 2 then .error 2
      let rs ← c.longDest d (mtRegs mt) (mtRegs mt)
      let i ← c.src (.int 32) idx
      pure (rs, i) : Except Nat (List Nat × Nat)) with
    | .error e => .trap e 0 0
    | .ok p =>
      let r := s.slot c.wg slot.val
      match checkLane r (p.2 + eoffOf x) (mtWidth mt) true false with
      | .trap k => .trap k 0 0
      | .skip => skipLane c s p.1
      | .at va => laneAccess c s (memOp c 0 0 mt.code (mtWidth mt) 0 0 (ordOf x) (scopeOf x) p.1 (bits r 191 176) va)) s)

def execSt (h : Hdr) (data : Opnd) (slot : Fin 16) (idx : Opnd) (mt : MemTy) (x : Option MemX) (s : State) : Step1 :=
  .next (runWord h (lenOf x) (fun c s =>
    match (do
      if ordOf x = 1 ∨ ordOf x = 3 then .error 2
      let y ← storeData c mt data
      let i ← c.src (.int 32) idx
      pure (y, i) : Except Nat (Nat × Nat)) with
    | .error e => .trap e 0 0
    | .ok p =>
      let r := s.slot c.wg slot.val
      match checkLane r (p.2 + eoffOf x) (mtWidth mt) false true with
      | .trap k => .trap k 0 0
      | .skip => skipLane c s []
      | .at va =>
        laneAccess c s
          (memOp c 1 0 mt.code (mtWidth mt) (p.1 % 256 ^ mtWidth mt) 0 (ordOf x) (scopeOf x) [] (bits r 191 176) va)) s)

/-! ## Scratchpad (R273, R57) -/

/-- A scratchpad access after its operands: the window, then the thread's queue (R71). `m` is the access without its place. -/
def spadAccess (c : Ctx) (s : State) (adr : Nat) (m : MemOp) : Out :=
  match s.scratch c.wk c.wg adr m.width with
  | none => .trap 10 0 0
  | some (k, off) => laneAccess c s { m with va := off, spad := k + 1 }

def execLds (h : Hdr) (d adr : Opnd) (mt : MemTy) (x : Option MemX) (s : State) : Step1 :=
  .next (runWord h (lenOf x) (fun c s =>
    match (do
      if ordOf x = 2 ∨ (ordOf x ≠ 0 ∧ 2 ≤ scopeOf x) then .error 2
      let rs ← c.longDest d (mtRegs mt) (mtRegs mt)
      let a ← c.src (.int 32) adr
      pure (rs, a) : Except Nat (List Nat × Nat)) with
    | .error e => .trap e 0 0
    | .ok p =>
      spadAccess c s (p.2 + eoffOf x * mtWidth mt) (memOp c 0 0 mt.code (mtWidth mt) 0 0 (ordOf x) (scopeOf x) p.1 0 0)) s)

def execSts (h : Hdr) (data adr : Opnd) (mt : MemTy) (x : Option MemX) (s : State) : Step1 :=
  .next (runWord h (lenOf x) (fun c s =>
    match (do
      if ordOf x = 1 ∨ ordOf x = 3 ∨ (ordOf x ≠ 0 ∧ 2 ≤ scopeOf x) then .error 2
      let y ← storeData c mt data
      let a ← c.src (.int 32) adr
      pure (y, a) : Except Nat (Nat × Nat)) with
    | .error e => .trap e 0 0
    | .ok p =>
      spadAccess c s (p.2 + eoffOf x * mtWidth mt)
        (memOp c 1 0 mt.code (mtWidth mt) (p.1 % 256 ^ mtWidth mt) 0 (ordOf x) (scopeOf x) [] 0 0)) s)

/-! ## Level-of-detail loads (R274, R275) -/

/-- The long write of an LDLOD: data, status and CC as one unit. `data` are the data registers whose values are known. -/
def lodPend (c : Ctx) (rs : List Nat) (data : List (Nat × Word)) (status : Nat) : Pend :=
  { id := c.th.freshId, mem := true, names := rs, live := rs, ccDest := true, ccF := true, ccA := false,
    vals := some (data ++ (rs.getLast?.toList.map (fun r => (r, BitVec.ofNat 32 status)))),
    ccVal := some ⟨bit status 30, bit status 31, false, bit status 29, false⟩ }

/-- An LDLOD that reads no element: zero data. -/
def lodNone (c : Ctx) (rs : List Nat) (status : Nat) : Pend := lodPend c rs (rs.dropLast.map (fun r => (r, 0))) status

/-- The thread after an LDLOD that delivers a level: a 64-bit element is two pieces, and the second word of it joins the queue (R70). -/
def lodDeliver (c : Ctx) (m : MemOp) (rs : List Nat) (k : Looked) (status : Nat) (t : Thread) : Thread :=
  let m := { m with va := k.va, dest := rs.dropLast, data := k.data, fixed := true }
  match m.pieces with
  | [lo, hi] => { t.addPend (lodPend c rs (lo.bound lo.data) status) with
      chk := t.chk ++ [⟨m.id, c.th.obj, c.th.off, c.len, false, 0, [], 1, m.word, c.teamLanes⟩], queue := t.queue ++ [hi] }
  | _ => t.addPend (lodPend c rs (m.bound k.data) status)

/-- The registers of an LDLOD's destination: the data and the next one for the status. -/
def lodDest (c : Ctx) (d : Opnd) (mt : MemTy) : Except Nat (List Nat) := c.longDest d (mtRegs mt + 1) (mtRegs mt)

/-- The index pair of an LDLOD: an even v register. -/
def lodIndex (c : Ctx) (idx : Opnd) : Except Nat Nat :=
  match idx with
  | .v _ => c.src64 idx
  | _ => .error 2

def execLdlod (h : Hdr) (d : Opnd) (slot : Fin 16) (idx : Opnd) (mt : MemTy) (x : Option MemX) (s : State) : Step1 :=
  .next (runWord h (lenOf x) (fun c s =>
    let r := s.slot c.wg slot.val
    match (do
      if ordOf x ≠ 0 ∨ !recLod r then .error 2
      let rs ← lodDest c d mt
      let i ← lodIndex c idx
      pure (rs, i) : Except Nat (List Nat × Nat)) with
    | .error e => .trap e 0 0
    | .ok p =>
      let e := p.2 % 2 ^ 32 + eoffOf x
      match checkLane r e (mtWidth mt) true false with
      | .trap k => .trap k 0 0
      | .skip => match c.issueGate false false none 0 with
        | .wait => .stall
        | .discard => .next s
        | .go => .next (s.modThread c.wk c.idx (fun t => { t with oob := true }.addPend (lodNone c p.1 (2 ^ 31))))
      | .at _ =>
        let m := memOp c 0 0 mt.code (mtWidth mt) 0 0 0 0 [] 0 0
        let q := s.lodLookup c.wg m r (e % recCountx r) (e / recCountx r) (bits p.2 35 32)
        match c.gate { m with va := q.2.1.va } (if q.2.1.none then none else some q.2.1.va) with
        | .wait => .stall
        | .discard => .next s
        | .go => .next (q.1.modThread c.wk c.idx (fun t =>
            if q.2.1.none then t.addPend (lodNone c p.1 q.2.2) else lodDeliver c m p.1 q.2.1 q.2.2 t))) s)

end Sys2Proof.Machine
end

