-- ==== Sys2Proof/Machine/AtomWords.lean ====
section
/-! DEFINITION. Atomics on global memory and on scratchpads: ATOM and ATOMS (spec/13, R276 to R278). -/

namespace Sys2Proof.Machine

/-- What an atomic takes from and gives to registers: its width, the registers it writes, its operand and, for a compare-exchange,
the new value (Table 13.2). -/
structure AtomForm where
  width : Nat
  dest : List Nat
  o : Nat
  o2 : Nat
deriving DecidableEq, Repr

/-- Registers of a block as one number, the first least significant. -/
def Ctx.block (c : Ctx) (rs : List Nat) : Except Nat Nat :=
  match rs with
  | [] => .ok 0
  | r :: rs => do
    let x ← c.readV r
    let y ← c.block rs
    pure (x.toNat + y * 2 ^ 32)

/-- The form of an atomic by its operation and type; 2 for a pair that Table 13.2 does not list, or a bad register block. -/
def Ctx.atomForm (c : Ctx) (d : Opnd) (x : Atm) : Except Nat AtomForm :=
  match atomWidth x.aop.code x.ty.code with
  | none => .error 2
  | some a =>
    if x.aop = .cas then do
      let n := if a = 8 then 4 else 2
      let rs ← c.longDest d n n
      let y ← c.block rs
      pure ⟨a, rs.take (n / 2), y % 2 ^ (8 * a), y / 2 ^ (8 * a)⟩
    else do
      let n := if a = 8 then 2 else 1
      let rs ← c.longDest d n n
      let y ← c.block rs
      pure ⟨a, rs, y % 2 ^ (8 * a), 0⟩

def execAtom (h : Hdr) (d : Opnd) (slot : Fin 16) (idx : Opnd) (x : Atm) (s : State) : Step1 :=
  .next (runWord h 2 (fun c s =>
    match (do
      let f ← c.atomForm d x
      let i ← c.src (.int 32) idx
      pure (f, i) : Except Nat (AtomForm × Nat)) with
    | .error e => .trap e 0 0
    | .ok p =>
      let r := s.slot c.wg slot.val
      match checkLane r (p.2 + x.eoff.toNat) p.1.width true true with
      | .trap k => .trap k 0 0
      | .skip => skipLane c s p.1.dest
      | .at va =>
        laneAccess c s (memOp c 2 x.aop.code x.ty.code p.1.width p.1.o p.1.o2 x.ord.code x.scope.code p.1.dest
          (bits r 191 176) va)) s)

def execAtoms (h : Hdr) (d adr : Opnd) (x : Atm) (s : State) : Step1 :=
  .next (runWord h 2 (fun c s =>
    match (do
      if x.ord ≠ .relaxed ∧ (x.scope = .dev ∨ x.scope = .sys) then .error 2
      let f ← c.atomForm d x
      let a ← c.src (.int 32) adr
      pure (f, a) : Except Nat (AtomForm × Nat)) with
    | .error e => .trap e 0 0
    | .ok p =>
      spadAccess c s (p.2 + x.eoff.toNat * p.1.width)
        (memOp c 2 x.aop.code x.ty.code p.1.width p.1.o p.1.o2 x.ord.code x.scope.code p.1.dest 0 0)) s)

end Sys2Proof.Machine
end

