-- ==== Sys2Proof/Machine/SyncWords.lean ====
section
/-! DEFINITION. Fences, RESFENCE, barriers, trellises, KICK, the wait words and TLREAD (spec/13, R279 to R292). -/

namespace Sys2Proof.Machine

/-! ## Shared by the words that release (Table 4.3, R295) -/

/-- Every earlier access of the thread is performed but for dirty L1 lines: none is in the queue or waits for a ticket. -/
def Thread.settled (t : Thread) : Bool := t.chk.all (fun c => c.parked == 0)

/-- A word that is a release: it waits at issue for the thread's earlier accesses, is discarded after a terminal response (R86),
and otherwise acts once they are performed. -/
def releaseFirst (c : Ctx) (s : State) (scope : Nat) (f : State → Out) : Out :=
  if c.th.hold != [] || !c.th.settled then .stall
  else if c.th.term.isSome then .next s
  else f (s.releaseL1 c.wg.unit scope)

/-- A word that is a release at sys scope and starts once every earlier access of its thread is globally performed (R295, R83). -/
def globalFirst (c : Ctx) (s : State) (f : State → Out) : Out :=
  releaseFirst c s 3 (fun s => f (s.globallyAll c.wk c.idx))

/-- A long result of registers known at issue, of a word that is no memory word. -/
def longPut (c : Ctx) (s : State) (rs vals : List Nat) : State :=
  s.modThread c.wk c.idx (fun t => t.addPend (pendOf c.th.freshId false rs vals))

/-- The two halves of a 64-bit result, low half first (R280). -/
def halves (x : Nat) : List Nat := [x % 2 ^ 32, x / 2 ^ 32 % 2 ^ 32]

/-- A window-0 scratchpad offset of a word of format FE: in the allocation, aligned, bits [31:18] zero (R280, R57). -/
def Ctx.spadOff (c : Ctx) (x align n : Nat) : Except Nat Nat :=
  if 2 ^ 18 ≤ x ∨ x % align ≠ 0 ∨ c.wg.spadKiB * 1024 < x + n then .error 10 else .ok x

/-! ## FENCE (R279, R77) -/

/-- An earlier load or atomic of the thread is not bound. -/
def Thread.unbound (t : Thread) : Bool := t.pend.any (fun e => e.mem && !e.isBound)

/-- A fence waits at issue for the earlier accesses of its thread that it orders (R279): an acquire for the loads, a release for all. -/
def Thread.fenceWaits (t : Thread) (acq rel : Bool) : Bool :=
  t.hold != [] || t.queue.any (fun m => rel || m.reads) || (acq && t.unbound)

/-- What a fence orders after a terminal response already received (R86, Table 4.2). -/
def Terminal.fence (x : Terminal) (k : FenceKind) : Terminal :=
  match k with
  | .acq => { x with all := x.all || x.load }
  | .rel => { x with stores := true }
  | .acqrel => { x with all := x.all || x.load, stores := true }
  | .sc => { x with all := true }

def execFence (h : Hdr) (kind : FenceKind) (scope : Scope) (s : State) : Step1 :=
  .next (runWord h 1 (fun c s =>
    let rel := kind != .acq
    let acq := kind != .rel
    if c.th.fenceWaits acq rel then .stall
    else
      let s := s.modThread c.wk c.idx (fun t => { t with term := t.term.map (fun x => x.fence kind) })
      let s := if rel then s.releaseL1 c.wg.unit scope.code else s
      .next (if acq then s.acquireFence c.wk c.idx c.wg.unit scope.code else s)) s)

def execFenceOob (h : Hdr) (d : Opnd) (s : State) : Step1 :=
  .next (runWord h 1 (fun c s =>
    match c.longDest d 1 1 with
    | .error e => .trap e 0 0
    | .ok rs =>
      if 8 ≤ c.th.longCount then .stall
      else .next ((longPut c s rs [bnat c.th.oob]).modThread c.wk c.idx (fun t => { t with oob := false }))) s)

/-! ## RESFENCE (R282, R269) -/

/-- Append every core's filter entries of a partition's resource, or of all of them (R268). -/
def State.drainFilters (s : State) (part : Nat) (res : Option Nat) : State :=
  let mine (f : Feedback) : Bool := f.part == part && (match res with
    | some r => f.res == r
    | none => true)
  (s.cores.map (·.1)).foldl (fun s k =>
    let l := (s.core k).filter
    let s := (l.filter mine).foldl (fun s f => s.appendFeedback k f) s
    s.modCore k (fun c => { c with filter := l.filter (fun f => !mine f) })) s

/-- Every column's residency cache drops its copies. -/
def State.dropCaches (s : State) : State := { s with cols := s.cols.map (fun c => (c.1, { c.2 with cache := [] })) }

def execResfence (h : Hdr) (a : Opnd) (s : State) : Step1 :=
  .next (runWord h 1 (fun c s =>
    match c.src (.int 32) a with
    | .error e => .trap e 0 0
    | .ok x =>
      if x ≠ 2 ^ 32 - 1 ∧ bits (s.part c.wg.part).lod 11 0 ≤ x then .trap 2 0 0
      else
        releaseFirst c s 2 (fun s =>
          if c.th.unbound then .stall
          else
            let s := (s.dropCaches).drainFilters c.wg.part (if x = 2 ^ 32 - 1 then none else some x)
            .next (s.acquireL1 c.wg.unit 2))) s)

/-! ## BAR (R283, R284) -/

def execBar (h : Hdr) (id : Fin 32) (plot : Bool) (kind : BarKind) (s : State) : Step1 :=
  .next (runWord h 1 (fun c s =>
    if (plot ∧ 4 ≤ id.val) ∨ (!plot ∧ c.wg.nbar ≤ id.val) then .trap 2 0 0
    else .ends s (.bar (if plot then 32 + id.val else id.val) (if c.th.runEnded then .wait else kind))) s)

/-! ## Trellises (R285, R67) -/

def execTrinit (h : Hdr) (a b : Opnd) (imm : Option (BitVec 26)) (s : State) : Step1 :=
  .next (runWord h (lenOf imm) (fun c s =>
    match (do
      let x ← c.src (.int 32) a
      let n ← match imm with
        | some i => .ok i.toNat
        | none => c.src (.int 32) b
      let o ← c.spadOff x 16 16
      pure (o, n) : Except Nat (Nat × Nat)) with
    | .error e => .trap e 0 0
    | .ok p =>
      let m := { memOp c 1 0 0 16 0 0 0 0 [] 0 p.1 with spad := c.wk + 1 }
      match c.gate m (some m.place) with
      | .wait => .stall
      | .discard => .next s
      | .go =>
        let gen := s.spadGet c.wk (p.1 + 4) 4
        .next (s.spadPut c.wk p.1 16 (p.2 + (gen + 1) % 2 ^ 32 * 2 ^ 32))) s)

/-- What TRWAIT waits for: the trellis at a scratchpad offset. -/
def Ctx.trellisWait (c : Ctx) (a : Opnd) : Except Nat EndOp := do
  let x ← c.src (.int 32) a
  let o ← c.spadOff x 16 16
  pure (.trellis o)

/-- A wait word ends its run at what it waits for, or traps. -/
def waitOn (s : State) (x : Except Nat EndOp) : Out :=
  match x with
  | .error e => .trap e 0 0
  | .ok op => .ends s op

def execTrwait (h : Hdr) (a : Opnd) (s : State) : Step1 := .next (runWord h 1 (fun c s => waitOn s (c.trellisWait a)) s)

/-! ## KICK (R286, R65) -/

/-- Fields of a copy request (Table 13.4). -/
def cpDst (r : Nat) : Nat := bits r 255 160
def cpSrc (r : Nat) : Nat := bits r 159 64
def cpRows (r : Nat) : Nat := bits r 63 48 + 1
def cpBytes (r : Nat) : Nat := bits r 47 24 + 1
def cpTrel (r : Nat) : Nat := bits r 23 10 * 16
def cpTuse (r : Nat) : Bool := bit r 9
def cpRed (r : Nat) : Nat := bits r 8 6
def cpType (r : Nat) : Nat := bits r 5 2
def cpChan (r : Nat) : Nat := bits r 1 0

/-- Whether a destination descriptor writes outside the scratchpad of a workgroup (Table 18.9). -/
def dstOutside (w : Wg) (d : Nat) : Bool := bits d 1 0 != 0 || (bits d 23 20 != 0 && bits d 23 20 != w.wgid + 1)

/-- Requests held by a core's request engine (R286). -/
def Core.requests (c : Core) : Nat := (c.chans.vals.map (fun n => n.reqs.length)).foldl (· + ·) 0

/-- Hand the request at a scratchpad offset to its channel, capturing its trellis's generation. -/
def State.kickOne (s : State) (c : Ctx) (off : Nat) : State :=
  let r := c.wg.spadNat off 32
  let t := cpTrel r
  let gen := if cpTuse r then c.wg.spadNat (t + 4) 4 else 0
  let q : Copy :=
    { rcd := r, wk := c.wk, idx := c.idx, tag := c.wg.tag, part := c.wg.part, launch := c.wg.launch, ltab := c.wg.ltab, gen := gen,
      det := c.wg.det, recs := [], started := false, done := 0, parked := false, pruned := false }
  let s := if dstOutside c.wg (cpDst r) then s.clearFlush c.wk else s
  s.modCore c.wg.core (fun k =>
    let n := k.chans.get Chan.zero (cpChan r)
    { k with chans := k.chans.put (cpChan r) { n with reqs := n.reqs ++ [q] } })

def execKick (h : Hdr) (a b : Opnd) (s : State) : Step1 :=
  .next (runWord h 1 (fun c s =>
    match (do
      let x ← c.src (.int 32) a
      let n ← c.src (.int 32) b
      if n = 0 ∨ 64 < n then .error 2
      let o ← c.spadOff x 32 (32 * n)
      pure (o, n) : Except Nat (Nat × Nat)) with
    | .error e => .trap e 0 0
    | .ok p =>
      if 256 < (s.core c.wg.core).requests + p.2 then .stall
      else
        releaseFirst c s 3 (fun s =>
          match s.wgs.find? c.wk with
          | none => .next s
          | some w => .next ((List.range p.2).foldl (fun s i => s.kickOne { c with wg := w } (p.1 + 32 * i)) s))) s)

/-! ## Counters and waits (R290 to R292) -/

/-- A selector of Table 13.5 that names a counter. -/
def selectorOk (x : Nat) : Bool :=
  match bits x 31 30 with
  | 0 => bits x 29 6 == 0
  | 1 => bits x 29 2 == 0
  | 2 => bits x 29 8 == 0
  | _ => false

/-- The target of a wait: the extension's value, or an even v pair (R280). -/
def Ctx.target (c : Ctx) (b : Opnd) (imm : Option (BitVec 26)) : Except Nat Nat :=
  match imm, b with
  | some i, _ => .ok i.toNat
  | none, .v n => c.src64 (.v n)
  | none, _ => .error 2

/-- What WPWAIT waits for: a write pointer's view and its target. -/
def Ctx.viewWait (c : Ctx) (a b : Opnd) (imm : Option (BitVec 26)) : Except Nat EndOp := do
  let x ← c.src (.int 32) a
  let t ← c.target b imm
  if 3 < x then .error 2
  pure (.wptr x t)

def execWpwait (h : Hdr) (a b : Opnd) (imm : Option (BitVec 26)) (s : State) : Step1 :=
  .next (runWord h (lenOf imm) (fun c s => waitOn s (c.viewWait a b imm)) s)

/-- What TLWAIT waits for: a counter and its target. -/
def Ctx.counterWait (c : Ctx) (a b : Opnd) (imm : Option (BitVec 26)) : Except Nat EndOp := do
  let x ← c.src (.int 32) a
  let t ← c.target b imm
  if !selectorOk x ∨ bits x 31 30 = 1 then .error 2
  pure (.counter x t)

def execTlwait (h : Hdr) (a b : Opnd) (imm : Option (BitVec 26)) (s : State) : Step1 :=
  .next (runWord h (lenOf imm) (fun c s => waitOn s (c.counterWait a b imm)) s)

/-- What a word at which a resumed thread stands waits for, as the word itself finds it; with its words (R358). -/
def Ctx.endOf (c : Ctx) (i : Instr) : Option (EndOp × Nat) :=
  let ok (x : Except Nat EndOp) (n : Nat) : Option (EndOp × Nat) := x.toOption.map (fun op => (op, n))
  match i with
  | .trwait _ a => ok (c.trellisWait a) 1
  | .wpwait _ a b imm => ok (c.viewWait a b imm) (lenOf imm)
  | .tlwait _ a b imm => ok (c.counterWait a b imm) (lenOf imm)
  | .bar _ id plot kind => some (.bar (if plot then 32 + id.val else id.val) kind, 1)
  | .phase _ n => some (.phase n.toNat, 1)
  | .requota _ q => some (.requota q.toNat, 1)
  | _ => none

def execTlread (h : Hdr) (d a : Opnd) (s : State) : Step1 :=
  .next (runWord h 1 (fun c s =>
    match (do
      let rs ← c.longDest d 2 2
      let x ← c.src (.int 32) a
      if !selectorOk x then .error 2
      pure (rs, x) : Except Nat (List Nat × Nat)) with
    | .error e => .trap e 0 0
    | .ok p => if 8 ≤ c.th.longCount then .stall else .next (longPut c s p.1 (halves (s.counter c.wg p.2)))) s)

end Sys2Proof.Machine
end

