-- ==== Sys2Proof/Machine/Issue.lean ====
section
/-! DEFINITION. Choosing and fetching the next word: the PC table and issue groups (R11, R12, R16), instruction fetch (R131, R372),
and what becomes ready again after each step (R16, R138, R281). -/

namespace Sys2Proof.Machine

/-- A partition's cores issue while it is not halted (R323, R324). -/
def State.running (s : State) (part : Nat) : Bool :=
  let c := (s.part part).cfg
  !bit c 35 && !bit c 36

/-- A workgroup's threads may issue: not draining, stopped or being saved, its partition not halted. -/
def State.issues (s : State) (w : Wg) : Bool := !w.draining && w.stopped == none && !w.saving && s.running w.part

/-- The context identifier of a workgroup's launch (R11). -/
def State.ctxid (s : State) (w : Wg) : Nat :=
  match s.launch? w.part w.ltab with
  | some l => bits l.rcd 79 64
  | none => 0

/-- A ready thread with what R12 orders by. -/
structure Cand where
  wk : Nat
  idx : Nat
  part : Nat
  ctx : Nat
  obj : Nat
  off : Nat
  since : Nat
  np : Bool
  slot : Nat
  waits : Bool                -- its word waits at issue
deriving DecidableEq, Repr

/-- Two threads stand under one key. The key holds the PC as the thread has it, object and offset: two PCs of one launch context with
one sum are two entries, where the spec speaks of the PC alone (log entry 39). -/
def Cand.sameKey (a b : Cand) : Bool := a.part == b.part && a.ctx == b.ctx && a.obj == b.obj && a.off == b.off

/-- The ready threads of a core. -/
def State.readyOn (s : State) (core : Nat) : List Cand :=
  s.wgs.flatMap (fun p =>
    let w := p.2
    if w.core = core ∧ s.issues w then
      let ctx := s.ctxid w
      w.threads.filterMap (fun q =>
        if q.2.st = .ready then some ⟨p.1, q.1, w.part, ctx, q.2.obj, q.2.off, q.2.since, w.np, w.slot, q.2.waits⟩ else none)
    else [])

/-- The PC-table entries of a core: each key's longest wait, whether a no-pre-emption thread stands under it, and whether every word
under it waits at issue (R12). -/
def entries (l : List Cand) : List Cand :=
  l.foldl (fun es c =>
    if es.any (fun e => e.sameKey c) then
      es.map (fun e => if e.sameKey c then { e with since := min e.since c.since, np := e.np || c.np, waits := e.waits && c.waits } else e)
    else es ++ [c]) []

/-- R12, rules 1 to 4: whether entry `a` is selected before entry `b`. Entries that tie in all of them stand in the order of the contexts
they were found in, which the spec leaves open (log entry 39). -/
def Cand.before (clock : Nat) (a b : Cand) : Bool :=
  let pa := a.np && decide (a.since + 4096 ≤ clock)
  let pb := b.np && decide (b.since + 4096 ≤ clock)
  if pa != pb then pa
  else if a.since != b.since then decide (a.since < b.since)
  else if a.obj + a.off != b.obj + b.off then decide (a.obj + a.off < b.obj + b.off)
  else decide (a.ctx < b.ctx)

/-- The entry a core selects. -/
def selectEntry (clock : Nat) : List Cand → Option Cand
  | [] => none
  | c :: cs =>
    match selectEntry clock cs with
    | none => some c
    | some d => if Cand.before clock d c then some d else some c

/-- Longest wait first, then context slot, then team index (R12). -/
def Cand.placedBefore (a b : Cand) : Bool :=
  if a.since != b.since then decide (a.since < b.since)
  else if a.slot != b.slot then decide (a.slot < b.slot)
  else decide (teamOf a.idx < teamOf b.idx)

def bestCand : List Cand → Option Cand
  | [] => none
  | c :: cs =>
    match bestCand cs with
    | none => some c
    | some d => if d.placedBefore c then some d else some c

/-- The group of a word that reads no partner: in each lane the best thread under the key. -/
def plainGroup (l : List Cand) : List (Nat × Nat) :=
  (List.range Config.laneWidth).filterMap (fun n =>
    (bestCand (l.filter (fun c => laneOf c.idx == n))).map (fun c => (c.wk, c.idx)))

/-- Place whole teams in order while their lanes are free. The fuel is the number of candidates. -/
def placeTeams : Nat → List Cand → List Cand → List Cand
  | 0, _, placed => placed
  | n + 1, rest, placed =>
    match bestCand rest with
    | none => placed
    | some c =>
      let same (x : Cand) : Bool := x.wk == c.wk && teamOf x.idx == teamOf c.idx
      let team := rest.filter same
      let free := team.all (fun x => !placed.any (fun y => laneOf y.idx == laneOf x.idx))
      placeTeams n (rest.filter (fun x => !same x)) (if free then placed ++ team else placed)

/-- The threads in ascending lane order. -/
def byLane (l : List Cand) : List (Nat × Nat) :=
  (List.range Config.laneWidth).flatMap (fun n => (l.filter (fun c => laneOf c.idx == n)).map (fun c => (c.wk, c.idx)))

/-! ## Cross-lane reads (R15, R16) -/

/-- The pattern read of a word, if it makes one (R157, R193). -/
def patternOf : Instr → Option Pat
  | .add _ _ _ b _ | .sub _ _ _ b _ | .addc _ _ _ b _ | .subb _ _ _ b _ | .mul _ _ _ b _ | .mulhiS32 _ _ _ b _
  | .mulhiZ32 _ _ _ b _ | .mad _ _ _ b _ | .shl _ _ _ b _ | .shr _ _ _ b _ | .sar _ _ _ b _ | .rot _ _ _ b _
  | .and _ _ _ b _ | .or _ _ _ b _ | .xor _ _ _ b _ | .andn _ _ _ b _ | .minS32 _ _ _ b _ | .minZ32 _ _ _ b _
  | .maxS32 _ _ _ b _ | .maxZ32 _ _ _ b _ | .bfx _ _ _ b _ | .bfi _ _ _ b _ | .sel _ _ _ b _ | .cmp _ _ _ b | .tst _ _ _ b
  | .fadd _ _ _ b _ | .fsub _ _ _ b _ | .fmul _ _ _ b _ | .fma _ _ _ b _ | .fmin _ _ _ b _ | .fmax _ _ _ b _ | .fcmp _ _ _ b
  | .hadd2 _ _ _ b _ | .hmul2 _ _ _ b _ | .hfma2 _ _ _ b _ | .fdot2 _ _ _ b _ | .padd4 _ _ _ b _ | .pmul4 _ _ _ b _
  | .pmin4 _ _ _ b _ | .pmax4 _ _ _ b _ | .dot4 _ _ _ b _ | .dot8 _ _ _ b _ =>
    (match b with
      | .pat q => some q
      | _ => none)
  | .clz _ _ _ b _ | .popc _ _ _ b _ | .brev _ _ _ b _ | .abs _ _ _ b _ | .neg _ _ _ b _ | .mov _ _ _ b _ | .kset _ _ _ b
  | .calli _ _ b | .fabs _ _ _ b _ | .fneg _ _ _ b _ | .frcp _ _ _ b _ | .frsq _ _ _ b _ | .fsqrt _ _ _ b _
  | .fexp2 _ _ _ b _ | .flog2 _ _ _ b _ | .fsin _ _ _ b _ | .fcos _ _ _ b _ | .frnd _ _ _ b _ => b
  | _ => none

/-- The lanes a thread's word reads from, none where it reads no partner or its pattern is illegal (R16, R49, R208). -/
def partnersOf (i : Instr) (lane : Nat) : Option (List Nat) :=
  match i with
  | .red _ _ _ _ _ | .scan _ _ _ _ _ _ => some (List.range Config.laneWidth)
  | .ballot _ _ _ | .matchLanes _ _ _ =>
    some ((List.range Config.laneWidth).filter (fun l => l / 64 == lane / 64))
  | _ => match patternOf i with
    | some q => (patLane q lane).map (fun l => [l])
    | none => none

/-- A partner is ready at the PC, parked for a cross-lane read there, or exited (R16). -/
def partnerThere (w : Wg) (i obj off lane : Nat) : Bool :=
  match w.threads.find? (teamOf i * Config.laneWidth + lane) with
  | none => true
  | some t => t.st == .exited || ((t.st == .ready || t.st == .cross) && t.obj == obj && t.off == off)

/-- A thread is issuable: every partner meets R16. -/
def issuable (w : Wg) (i : Nat) (t : Thread) (lanes : List Nat) : Bool :=
  lanes.all (fun l => partnerThere w i t.obj t.off l)

/-! ## Fetch (R131, R372) -/

/-- What a fetch finds: the word, or the address that cannot be fetched and why. -/
inductive Fetched
  | word (w : Word)
  | fault (va cause : Nat)
  | term (va sub : Nat)
deriving DecidableEq, Repr

/-- What a workgroup's lease says of a fetch (R367): none where it may go on. -/
def State.fetchLease (s : State) (w : Wg) (va : Nat) : Option Xlat :=
  (s.launch? w.part w.ltab).bind (fun l => leaseCheck l (va % 2 ^ 57))

/-- Translation of a fetch for a thread of a workgroup. -/
def State.xlateFetch (s : State) (w : Wg) (va : Nat) : Xlat :=
  (s.fetchLease w va).getD (s.xlate w.part va false false true)

/-- The word at an address, as a thread of a workgroup fetches it. -/
def State.fetchWord (s : State) (w : Wg) (va : Nat) : Fetched :=
  match s.xlateFetch w va with
  | .ok pa _ => if s.poisoned pa 4 then .term va 1 else .word (BitVec.ofNat 32 (s.baseNat pa 4))
  | .fault c => .fault va c
  | .term sub => .term va sub

/-- The words of a packet that an instruction at byte offset `off` needs: its own, word 0 and, at an EXT, the next. An EXT at word 2 is
followed by a word of the next packet, which is fetched too before the pair is refused: the spec does not say whether its fetch fault
or the trap of R134 comes first (log entry 22). -/
def State.decodeFrom (s : State) (w : Wg) (obj off : Nat) : Except Fetched (Except Reject Instr) :=
  let pos := off / 4 % 3
  match s.fetchWord w (obj + off) with
  | .word x =>
    match s.fetchWord w (obj + off - 4 * pos) with
    | .word w0 =>
      if isExt x.toNat then
        match s.fetchWord w (obj + off + 4) with
        | .word w2 => .ok (decodeAt pos (verOf w0.toNat) x (some w2))
        | f => .error f
      else .ok (decodeAt pos (verOf w0.toNat) x none)
    | f => .error f
  | f => .error f

/-- The trap a rejected word takes (R144): cause 1 with the sub-cause of Table 7.12, or cause 2. -/
def rejectTrap : Reject → Nat × Nat
  | .undefined => (1, 1)
  | .reserved => (1, 2)
  | .version => (1, 3)
  | .ext => (1, 4)
  | .chain => (1, 5)
  | .operand => (2, 0)

/-- The words of the instruction at a PC, as far as it can be fetched: an EXT and the word it extends are one (R134, R374). -/
def State.wordsAt (s : State) (w : Wg) (obj off : Nat) : Nat :=
  match s.fetchWord w (obj + off) with
  | .word x => if isExt x.toNat then 2 else 1
  | _ => 1

/-- Traps for a group whose word cannot be decoded; a thread whose run is full takes the run-length trap first (R136). An illegal EXT pair
whose EXT is the run's 24th word takes the trap of its encoding, where a legal pair takes that of the run's length: the spec orders the
two no further (DESIGN CHOICE, log entry 22). -/
def State.rejectGroup (s : State) (g : List (Nat × Nat)) (len : Nat) (r : Reject) : State :=
  let reqs := g.filterMap (fun id => (s.thread? id.1 id.2).map (fun t =>
    if 24 ≤ t.runw then (⟨id.1, id.2, 6, 0, 0, 0, t.obj, t.off, len⟩ : TrapReq)
    else ⟨id.1, id.2, (rejectTrap r).1, (rejectTrap r).2, 0, 0, t.obj, t.off, len⟩))
  { s.takeTraps reqs.length reqs with group := [] }

/-- Traps for threads of a workgroup whose fetch at `va` got a terminal response (cause 17). -/
def State.fetchTraps (s : State) (w : Wg) (g : List (Nat × Nat)) (va sub len : Nat) : State :=
  let s := s.logTerm sub w.part 0 (s.coreNum w.core) va (some (s.rawPa w.part va))
  let reqs := g.filterMap (fun id => (s.thread? id.1 id.2).map (fun t =>
    (⟨id.1, id.2, 17, sub, 0, s.failAddr w.part sub va, t.obj, t.off, len⟩ : TrapReq)))
  s.takeTraps reqs.length reqs

/-- A fetch fault parks the group's threads until it is answered, each workgroup's as one waiter (R369: type x). They are found again
by it. -/
def State.fetchPark (s : State) (g : List (Nat × Nat)) (va cause : Nat) : State :=
  let s := (g.map (·.1)).dedup.foldl (fun s k =>
    match s.wgs.find? k with
    | none => s
    | some w =>
      let ids := (g.filter (fun x => x.1 == k)).map (·.2)
      (s.modWg k (fun w => { w with threads := w.threads.map (fun p =>
        if ids.contains p.1 then (p.1, { p.2 with st := .wait, op := some .again }) else p) })).parkFor
          (.fetch k ids) w.part va cause 4 1 w.launch (w.core / 8)) s
  { s with group := [] }

/-- Threads whose partners are elsewhere park for a cross-lane read (R16). -/
def State.crossPark (s : State) (i : Instr) (g : List (Nat × Nat)) : State :=
  g.foldl (fun s id => s.modThread id.1 id.2 (fun t =>
    { t with st := .cross, partners := (partnersOf i (laneOf id.2)).getD [] })) s

/-- Split candidates into those that may issue the word and those that park. -/
def State.splitIssuable (s : State) (i : Instr) (l : List Cand) : List Cand × List Cand :=
  l.partition (fun c =>
    match partnersOf i (laneOf c.idx) with
    | none => true
    | some ls =>
      match s.wgs.find? c.wk with
      | some w =>
        match w.threads.find? c.idx with
        | some t => issuable w c.idx t ls
        | none => false
      | none => false)

/-- The cores with a workgroup, from `turn` upward and round. -/
def State.coreOrder (s : State) : List Nat :=
  let cs := (s.wgs.map (fun p => p.2.core)).dedup
  cs.filter (fun c => decide (s.turn ≤ c)) ++ cs.filter (fun c => decide (c < s.turn))

/-- The threads under the key of the next word, those whose words wait at issue with them: what a chained word left, else the entry the
next core with a thread that can issue selects. -/
def State.nextKey (s : State) : Option (Nat × List Cand) :=
  match s.group with
  | _ :: _ =>
    let l := s.group.filterMap (fun id =>
      match s.wgs.find? id.1 with
      | some w =>
        match w.threads.find? id.2 with
        | some t => if t.st = .ready ∧ s.issues w then
            some (⟨id.1, id.2, w.part, s.ctxid w, t.obj, t.off, t.since, w.np, w.slot, false⟩ : Cand) else none
        | none => none
      | none => none)
    match l with
    | [] => none
    | c :: _ => some ((match s.wgs.find? c.wk with
      | some w => w.core
      | none => 0), l)
  | [] =>
    s.coreOrder.findSome? (fun core =>
      let l := s.readyOn core
      match selectEntry s.clock ((entries l).filter (fun e => !e.waits)) with
      | none => none
      | some e => some (core, l.filter (fun c => c.sameKey e)))

/-- Two threads under one key fetch alike: their launches' leases say the same of the words at the PC (R367). -/
def State.sameFetch (s : State) (a b : Cand) : Bool :=
  a.wk == b.wk || (match s.wgs.find? a.wk, s.wgs.find? b.wk with
    | some w, some x => [a.off, a.off + 4, a.off - a.off % 12].all (fun o => s.fetchLease w (a.obj + o) == s.fetchLease x (a.obj + o))
    | _, _ => false)

/-- A chained group reaches a word that reads partners: with each member, the threads of its team that are ready at the word (R12). -/
def State.teamsOf (s : State) (core : Nat) (l : List Cand) : List Cand :=
  (s.readyOn core).filter (fun x =>
    l.any (fun c => c.sameKey x && c.wk == x.wk && teamOf c.idx == teamOf x.idx))

/-- The issue group of a decoded word, and the state with the threads that must wait for their partners parked (R12, R16). A word that
reads no partner takes no thread whose word waits at issue; one that does takes whole teams. -/
def State.formGroup (s : State) (core : Nat) (i : Instr) (c : Cand) (l : List Cand) : State × List (Nat × Nat) :=
  if (partnersOf i (laneOf c.idx)).isSome then
    let p := s.splitIssuable i (if s.group ≠ [] then s.teamsOf core l else l)
    (s.crossPark i (p.2.map (fun c => (c.wk, c.idx))), byLane (placeTeams l.length p.1 []))
  else (s, plainGroup (l.filter (fun x => !x.waits)))

/-- An operand names one of some registers, a pair by its first. -/
def namesOne (l : List Nat) : Opnd → Bool
  | .v n => l.contains n.val || l.contains (n.val + 1)
  | _ => false

/-- A word uses a value that a load gave one of some registers (R74). A load or a store does where it names one; of the other words all but
NOP, TRAIL and FENCE count as using them (log entry 21). -/
def usesLoaded (l : List Nat) : Instr → Bool
  | .nop _ _ | .trail _ _ _ _ | .fence _ _ _ => false
  | .ld _ _ _ a _ _ | .lds _ _ a _ _ => namesOne l a
  | .st _ a _ b _ _ | .sts _ a b _ _ => namesOne l a || namesOne l b
  | _ => l != []

/-- The threads whose loaded values a word of a group may use: the group's own, and with a word that reads partners every thread of their
workgroups (R15). -/
def State.usersOf (s : State) (i : Instr) (g : List (Nat × Nat)) : List (Nat × Nat) :=
  if (partnersOf i 0).isSome then
    (g.map (·.1)).dedup.flatMap (fun k => ((s.wgs.find? k).map (fun w => w.threads.map (fun t => (k, t.1)))).getD [])
  else g

/-- What a group's word does is ordered after the loads whose values it uses (R74, R75). -/
def State.dependAll (s : State) (i : Instr) (g : List (Nat × Nat)) : State :=
  (s.usersOf i g).foldl (fun s x =>
    if (s.thread? x.1 x.2).any (fun t => usesLoaded t.loaded i) then s.depend x.1 x.2 else s) s

/-- Select, fetch, decode and form the issue group: the state with the group set and the instruction to run, or the state after
a trap, a fault or a park, with none. -/
def State.issue (s : State) : State × Option Instr :=
  match s.nextKey with
  | none => ({ s with group := [] }, none)
  | some (core, l) =>
    let s := { s with turn := core + 1 }
    match l.find? (fun c => !c.waits) with
    | none => ({ s with group := [] }, none)
    | some c =>
      match s.wgs.find? c.wk with
      | none => ({ s with group := [] }, none)
      | some w =>
        let l := l.filter (fun x => s.sameFetch c x)
        match s.decodeFrom w c.obj c.off with
        | .error (.fault va cause) => (s.fetchPark (plainGroup l) va cause, none)
        | .error (.term va sub) => ({ s.fetchTraps w (plainGroup l) va sub (s.wordsAt w c.obj c.off) with group := [] }, none)
        | .error (.word _) => (s, none)
        | .ok (.error r) => (s.rejectGroup (plainGroup l) (s.wordsAt w c.obj c.off) r, none)
        | .ok (.ok i) =>
          let r := s.formGroup core i c l
          ({ r.1.dependAll i r.2 with group := r.2 }, if r.2 = [] then none else some i)

/-! ## What becomes ready after a step -/

/-- A thread that waits at a BAR whose phase has completed goes on at the next word (R284). -/
def State.leaveBar (s : State) (k i id n : Nat) : State :=
  (s.modThread k i (fun t =>
    { t with completed := t.completed.filter (· != id), wlen := n, runEnded := false }.proceed s.clock)).modWg k (fun w => w.passK i id)

/-- A thread resumed at a wait word, PHASE or REQUOTA finds what the word at its PC waits for, without issuing it (R358): its arrival is made
where the image has it so, and else it makes its arrival or its park as the word does. One at a BAR whose phase has completed meanwhile
goes on. A word that waits for nothing issues. -/
def State.reexamine (s : State) (k i : Nat) : State :=
  match s.wgs.find? k with
  | none => s
  | some w =>
    match w.threads.find? i with
    | none => s
    | some t =>
      if s.parked.any (fun p => decide (p.2.who = .fetch k [i])) then s
      else
        match s.decodeFrom w t.obj t.off with
        | .error (.fault va cause) => s.parkFor (.fetch k [i]) w.part va cause 4 1 w.launch (w.core / 8)
        | .error (.term va sub) => s.fetchTraps w [(k, i)] va sub (s.wordsAt w t.obj t.off)
        | .error (.word _) => s
        | .ok (.error _) => s.modThread k i (fun t => { t with st := .ready, op := none, since := s.clock })
        | .ok (.ok x) =>
          match (⟨s, k, i, w, t, 1⟩ : Ctx).endOf x with
          | none => s.modThread k i (fun t => { t with st := .ready, op := none, since := s.clock })
          | some (op, n) =>
            if t.runEnded then
              let stand (op : EndOp) : State := s.modThread k i (fun t => { t with st := .wait, op := some op, wlen := n, runEnded := false })
              match op with
              | .bar id _ => if t.arrived.contains id then stand (.bar id .wait) else s.leaveBar k i id n
              | op => stand op
            else s.modThread k i (fun t => { t with op := some op, wlen := n })

/-- One thread's own conditions: its switch, the word that ended its run, its wait. -/
def State.settleThread (s : State) (k i : Nat) : State :=
  match s.wgs.find? k with
  | none => s
  | some w =>
    match w.threads.find? i with
    | none => s
    | some t =>
      match t.st with
      | .switch =>
        if (t.await.getD []).all (fun n => !t.pend.any (fun e => e.id == n)) then
          s.modThread k i (fun t => { t with st := .ready, await := none, since := s.clock })
        else s
      | .ended => if t.op = some .again then s.reexamine k i else if s.canArrive k i then s.arrive k i else s
      | .wait =>
        match t.op with
        | some op => if s.waitHolds w op then (s.acquireL1 w.unit 2).modThread k i (fun t => t.proceed s.clock) else s
        | none => s
      | .requota => s.requotaCheck k (w.stageOf i)
      | .phase => s.phaseCheck k
      | _ => s

/-- The threads of a workgroup parked for a cross-lane read whose partners are all there return to the PC table at one moment (R16). -/
def Wg.returnCross (w : Wg) (clock : Nat) : Wg :=
  { w with threads := w.threads.map (fun p =>
      if p.2.st = .cross ∧ issuable w p.1 p.2 p.2.partners = true then
        (p.1, { p.2 with st := .ready, partners := [], since := clock })
      else p) }

/-- Every thread of every workgroup that may issue is looked at once; then the cross-lane readers together. -/
def State.settle (s : State) : State :=
  (s.wgs.map (fun p => (p.1, p.2.threads.map (·.1)))).foldl (fun s q =>
    match s.wgs.find? q.1 with
    | some w =>
      if s.issues w then
        let s := q.2.foldl (fun s i => s.settleThread q.1 i) s
        (match s.wgs.find? q.1 with
          | some w => if w.threads.any (fun p => p.2.st == .cross) then s.modWg q.1 (fun w => w.returnCross s.clock) else s
          | none => s)
      else s
    | none => s) s

/-- After a step: the clock advances by one and waiting threads are looked at. -/
def State.tick (s : State) : State := { s.settle with clock := s.clock + 1 }

end Sys2Proof.Machine
end

