-- ==== Sys2Proof/Machine/Image.lean ====
section
/-! DEFINITION. Context images (R358 to R360, Tables 18.10 to 18.12) and trace records as stored (Table 12.4): writing a workgroup
into an image and reading one back. -/

namespace Sys2Proof.Machine

/-! ## Trace records (Table 12.4) -/

/-- A range of tiles as stored: first at [61:32], last at [29:0]. -/
def rangeBits (p : Nat × Nat) : Nat := p.1 % 2 ^ 30 * 2 ^ 32 + p.2 % 2 ^ 30

/-- The four ranges of a map and the mask of those present. -/
def rangesBits (m : FMap (Nat × Nat)) : Nat := ((List.range 4).map (fun j => match m.find? j with
  | some p => rangeBits p * 2 ^ (64 * j)
  | none => 0)).foldl (· + ·) 0

def rangesMask (m : FMap (Nat × Nat)) : Nat := maskOf ((List.range 4).filter (fun j => (m.find? j).isSome))

/-- A trace record with its signature, run count and flags. -/
def TraceRec.bits2048 (t : TraceRec) (sig runs : Nat) (sigchg shrunk valid : Bool) : Nat :=
  (((List.range t.exact.length).map (fun i => t.exact.getD i 0 * 2 ^ (704 + 32 * i))).foldl (· + ·) 0)
    + rangesBits t.coarse * 2 ^ 448 + rangesBits t.written * 2 ^ 192 + t.gen * 2 ^ 128 + t.epoch * 2 ^ 96 + sig * 2 ^ 64
    + runs * 2 ^ 48 + rangesMask t.written * 2 ^ 13 + bnat sigchg * 2 ^ 12 + bnat shrunk * 2 ^ 11 + bnat t.other * 2 ^ 10
    + t.exact.length * 2 ^ 5 + rangesMask t.coarse * 2 + bnat valid

/-- The ranges named by a mask, from 64-bit entries that start at bit `lo`. -/
def rangesOf (x lo mask : Nat) : FMap (Nat × Nat) :=
  (ones 4 mask).map (fun j => (j, bits x (lo + 64 * j + 61) (lo + 64 * j + 32), bits x (lo + 64 * j + 29) (lo + 64 * j)))

/-- A trace record read from memory or from an image. -/
def traceOf (x : Nat) : TraceRec :=
  { gen := bits x 191 128, epoch := bits x 127 96
    exact := (List.range (bits x 9 5)).map (fun i => bits x (735 + 32 * i) (704 + 32 * i))
    coarse := rangesOf x 448 (bits x 4 1)
    written := rangesOf x 192 (bits x 16 13)
    other := bit x 10 }

/-- A workgroup's signature: the XOR over its threads (R259). -/
def Wg.sig (w : Wg) : Nat := (w.threads.vals.map (fun t => t.sig.toNat)).foldl (· ^^^ ·) 0

/-! ## Thread blocks (Table 18.12) -/

/-- The code of a thread's standing and its argument. -/
def Thread.stCode (t : Thread) : Nat × Nat :=
  match t.st with
  | .ready => (0, 0)
  | .switch => (1, 0)
  | .wait =>
    (match t.op with
      | some (.trellis _) => (2, 0)
      | some (.wptr _ _) => (2, 0)
      | some (.counter _ _) => (2, 0)
      | some (.bar _ _) => (2, 0)
      | _ => (0, 0))
  | .cross => (3, 0)
  | .requota => (4, t.parg)
  | .phase => (5, t.parg)
  | .exited => (6, 0)
  | .trapped => (7, 0)
  | .ended => (if t.runEnded then 2 else 8, 0)

def regsBits (m : FMap Word) (n : Nat) : Nat := ((List.range n).map (fun i => (FMap.get 0 m i).toNat * 2 ^ (32 * i))).foldl (· + ·) 0

/-- The first 128 bytes of a thread block. -/
def Thread.block (t : Thread) : Nat :=
  let bst := ((List.range 36).map (fun i => (bnat (t.arrived.contains i) + 2 * bnat (t.completed.contains i)) * 4 ^ i)).foldl (· + ·) 0
  let cause := match t.term with
    | some c => c.cause
    | none => 0
  let addr := match t.term with
    | some c => c.addr % 2 ^ 57
    | none => 0
  t.obj % 2 ^ 57 + t.off % 2 ^ 32 * 2 ^ 64 + t.cc.image * 2 ^ 96 + t.stCode.1 * 2 ^ 104 + t.runw * 2 ^ 108 + bnat t.oob * 2 ^ 113
    + t.calls.length * 2 ^ 114 + regsBits t.x 4 * 2 ^ 128 + regsBits t.t 8 * 2 ^ 256 + t.sig.toNat * 2 ^ 512 + bst * 2 ^ 544
    + cause * 2 ^ 616 + addr * 2 ^ 624 + t.stCode.2 * 2 ^ 688

/-- A thread block's bytes. Record 0 is the oldest call: Table 18.12 does not say which end it counts from (log entry 8). -/
def Thread.blockBytes (t : Thread) (ceil tbs : Nat) : List Byte :=
  let l := leBytes 128 t.block ++ leBytes (4 * ceil) (regsBits t.v ceil)
    ++ t.calls.reverse.flatMap (fun c => leBytes 16 (c.obj % 2 ^ 57 + c.off % 2 ^ 32 * 2 ^ 64))
  l ++ List.replicate (tbs - l.length) (0 : Byte)

/-! ## Images (Tables 18.10 and 18.11) -/

def tbsOf (ceil crec : Nat) : Nat := roundUp (128 + 4 * ceil + 16 * crec) 64
def imageSize (spad tpw tbs : Nat) : Nat := 0x400 + spad * 1024 + (tpw + 1) * tbs

def Wg.crec (w : Wg) : Nat := (w.threads.vals.map (fun t => t.calls.length)).foldl max 0

/-- The image bytes of a save of a workgroup, estimated or written (Table 18.8). -/
def Wg.imageBytes (w : Wg) : Nat := imageSize w.spadKiB (w.nthreads - 1) (tbsOf w.ceil w.crec)

/-- The header of a workgroup's image. -/
def State.imageHeader (s : State) (w : Wg) : Nat :=
  let tbs := tbsOf w.ceil w.crec
  let views := ((List.range 4).map (fun n => s.view w n * 2 ^ (512 + 64 * n))).foldl (· + ·) 0
  let quota := ((List.range 4).map (fun i => w.quota.getD i 0 / 8 * 2 ^ (142 + 6 * i))).foldl (· + ·) 0
  views + (s.clock - w.born) % 2 ^ 64 * 2 ^ 384 + w.imageBytes * 2 ^ 320 + (if w.np then w.nptime else 0) % 2 ^ 32 * 2 ^ 256
    + tbs * 2 ^ 224 + Config.lwlog * 2 ^ 193 + w.nbar * 2 ^ 187 + w.spadKiB * 2 ^ 178 + w.crec * 2 ^ 172 + w.ceil / 8 % 64 * 2 ^ 166
    + quota + (w.nthreads - 1) * 2 ^ 132 + w.wgid * 2 ^ 128 + w.plot % 2 ^ 32 * 2 ^ 96 + w.launch % 2 ^ 32 * 2 ^ 64
    + bnat w.np * 2 ^ 52 + bnat w.flush * 2 ^ 51 + bnat w.det * 2 ^ 50 + bnat w.traced * 2 ^ 49 + w.tag * 2 ^ 43 + w.part * 2 ^ 40
    + 1 * 2 ^ 32 + 0x43580001

/-- The image of a workgroup whose work has settled. -/
def State.image (s : State) (w : Wg) : List Byte :=
  let tbs := tbsOf w.ceil w.crec
  leBytes 256 (s.imageHeader w)
    ++ leBytes 128 (((List.range 36).map (fun i => FMap.get 0 w.phases i % 2 ^ 16 * 2 ^ (16 * i))).foldl (· + ·) 0)
    ++ leBytes 256 (if w.traced then w.trace.bits2048 w.sig 0 false false false else 0)
    ++ leBytes 64 (regsBits w.k 16) ++ List.replicate 320 (0 : Byte)
    ++ (List.range (w.spadKiB * 1024)).map (fun i => FMap.get (0 : Byte) w.spad i)
    ++ (List.range w.nthreads).flatMap (fun i => match w.threads.find? i with
      | some t => t.blockBytes w.ceil tbs
      | none => List.replicate tbs (0 : Byte))

/-- `n` bytes of an image as a number. -/
def imgNat (img : List Byte) (off n : Nat) : Nat := ofLe ((img.drop off).take n)

def imgHeader (img : List Byte) : Nat := imgNat img 0 256
def hdTbs (h : Nat) : Nat := bits h 255 224
def hdSpad (h : Nat) : Nat := bits h 186 178
def hdCeil (h : Nat) : Nat := if bits h 171 166 = 0 then 0 else bits h 171 166 * 8
def hdTpw (h : Nat) : Nat := bits h 141 132
def hdLaunch (h : Nat) : Nat := bits h 95 64
def hdPlot (h : Nat) : Nat := bits h 127 96
def hdWgid (h : Nat) : Nat := bits h 130 128
def hdTag (h : Nat) : Nat := bits h 48 43
def hdPart (h : Nat) : Nat := bits h 42 40
def hdSize (h : Nat) : Nat := bits h 383 320

/-- The offset of thread `i`'s block. -/
def hdBlock (h i : Nat) : Nat := 0x400 + hdSpad h * 1024 + i * hdTbs h

/-- Reserved bits of a header. -/
def hdRsvd (h : Nat) : Nat := bits h 2047 768 + bits h 511 448 + bits h 319 288 + bits h 223 197 + bits h 131 131 + bits h 63 53

/-- The bits of an index register that hold something (Table 2.2); the others read as zero (R6). -/
def xMask : Word := 0x1FFFF

/-- A thread block breaks R360: reserved bits, those of its index registers among them, a reserved st, or too deep. -/
def blockBad (b : Nat) : Bool :=
  bits b 63 57 + bits b 103 101 + bits b 127 120 + bits b 687 681 + bits b 1023 697 != 0 || decide (8 < bits b 107 104)
    || decide (32 < bits b 119 114) || (List.range 4).any (fun j => bits b (128 + 32 * j + 31) (128 + 32 * j + 17) != 0)

/-- A call record of a thread block has a reserved bit set. -/
def recordBad (r : Nat) : Bool := bits r 63 57 + bits r 127 96 != 0

/-- A trace record in progress has a reserved bit or valid set (Table 12.4). -/
def traceBad (x : Nat) : Bool :=
  let range (lo : Nat) : Bool := (List.range 4).any (fun j => bits x (lo + 64 * j + 63) (lo + 64 * j + 62) + bits x (lo + 64 * j + 31) (lo + 64 * j + 30) != 0)
  bits x 2047 1664 + bits x 47 17 + bits x 0 0 != 0 || decide (30 < bits x 9 5) || range 448 || range 192

/-- An image meets R360 but for its launch and tag: `tpw`, `spad`, `nbar` and `ceil` (÷ 8) are the record's. -/
def imageFormed (part tpw spad nbar ceil : Nat) (img : List Byte) : Bool :=
  let h := imgHeader img
  decide (0x400 ≤ img.length) && bits h 31 0 == 0x43580001 && bits h 39 32 == 1 && hdPart h == part && hdRsvd h == 0
    && imgNat img 0x148 56 == 0 && imgNat img 0x2C0 320 == 0 && hdTpw h == tpw && hdSpad h == spad && bits h 192 187 == nbar
    && bits h 171 166 == ceil && bits h 196 193 == Config.lwlog && hdTbs h == tbsOf (hdCeil h) (bits h 177 172)
    && hdSize h == imageSize spad tpw (hdTbs h) && img.length == hdSize h
    && (List.range (tpw + 1)).all (fun i =>
      let b := imgNat img (hdBlock h i) 128
      !blockBad b && decide (bits b 119 114 ≤ bits h 177 172)
        && (List.range (bits h 177 172)).all (fun k => !recordBad (imgNat img (hdBlock h i + 128 + 4 * hdCeil h + 16 * k) 16)))
    && !traceBad (imgNat img 0x180 256) && (bit h 49 || imgNat img 0x180 256 == 0)

/-! ## Resuming (R354, R358) -/

/-- Registers read from an image: a zero is not listed. -/
def regsOf (x n : Nat) : FMap Word :=
  (List.range n).foldl (fun m i => FMap.set 0 m i (BitVec.ofNat 32 (bits x (32 * i + 31) (32 * i)))) []

/-- A thread as its block describes it. One parked at a wait word, its arrival made (`runEnded`), and one whose run has ended there with no
arrival yet made stand at the word at their PC without issuing it again: `State.reexamine` finds what it waits for. The sub-cause, PC and
word of a pending terminal cause are not in the image: free values (log entry 8). `trap` is the identifier of the record of a trapped
thread. Table 18.12 has no place for the sources of a chained group (R132): a thread saved at a later word of one reads the registers as
they stand (DESIGN CHOICE, log entry 22). -/
def threadOf (clock fresh trap : Nat) (img : List Byte) (h i : Nat) : Thread :=
  let o := hdBlock h i
  let b := imgNat img o 128
  let ceil := hdCeil h
  let st := bits b 107 104
  let call (k : Nat) : CallRec :=
    let c := imgNat img (o + 128 + 4 * ceil + 16 * k) 16
    ⟨bits c 56 0, bits c 95 64⟩
  let t := Thread.start (bits b 56 0) (bits b 95 64) clock
  { t with
    cc := CC.ofImage (bits b 100 96)
    v := regsOf (imgNat img (o + 128) (4 * ceil)) ceil
    t := regsOf (bits b 511 256) 8
    tw := if bits b 112 108 = 0 ∧ st ≠ 2 ∧ st ≠ 8 then [] else List.range 8
    x := (regsOf (bits b 255 128) 4).map (fun p => (p.1, p.2 &&& xMask))
    st := match st with
      | 1 => .switch
      | 2 => .ended
      | 8 => .ended
      | 3 => .cross
      | 4 => .requota
      | 5 => .phase
      | 6 => .exited
      | 7 => .trapped
      | _ => .ready
    parg := bits b 696 688
    await := if st = 1 then some [] else none
    op := if st = 2 ∨ st = 8 then some .again else none
    runEnded := st == 2
    runw := if st = 2 ∨ st = 8 then 0 else bits b 112 108
    oob := bit b 113
    calls := ((List.range (bits b 119 114)).map call).reverse
    sig := BitVec.ofNat 32 (bits b 543 512)
    arrived := (List.range 36).filter (fun n => bit b (544 + 2 * n))
    completed := (List.range 36).filter (fun n => bit b (545 + 2 * n))
    term := if bits b 623 616 = 0 then none
      else some ⟨bits b 623 616, Config.freeNat (2 * fresh) % 6, bits b 680 624, bits b 56 0, (Config.freeWord fresh).toNat / 4 * 4,
        1, 0, 0, false, true, false, 0⟩
    trap := trap }

/-- A workgroup as its image describes it, placed on a core. `trapOf` gives the trap record of a trapped thread. -/
def State.wgOf (s : State) (img : List Byte) (ltab core slot bslot : Nat) (np det traced : Bool) (trapOf : Nat → Nat) : Wg :=
  let h := imgHeader img
  let n := hdTpw h + 1
  let quota := (List.range 4).map (fun i => bits h (142 + 6 * i + 5) (142 + 6 * i) * 8)
  let view (c : Nat) : Nat := bits h (575 + 64 * c) (512 + 64 * c)
  { part := hdPart h, ltab := ltab, launch := hdLaunch h, plot := hdPlot h, wgid := hdWgid h, core := core, slot := slot,
    bslot := bslot, tag := hdTag h, nthreads := n, stages := [], quota := quota, ceil := hdCeil h, pool := 0,
    k := regsOf (imgNat img 0x280 64) 16, spadKiB := hdSpad h,
    spad := (List.range (hdSpad h * 1024)).foldl (fun m i => FMap.set 0 m i ((img.drop (0x400 + i)).headD 0)) [],
    nbar := bits h 192 187,
    phases := (List.range 36).foldl (fun m i => FMap.set 0 m i (imgNat img (0x100 + 2 * i) 2)) [],
    bases := (List.range 4).foldl (fun m c =>
      FMap.set 0 m c ((((s.core core).chans.get Chan.zero c).wptr + 2 ^ 64 - view c) % 2 ^ 64)) [],
    flush := true, np := np, nptime := bits h 287 256, det := det, traced := traced, stopped := none, draining := false,
    born := s.clock - bits h 447 384,
    threads := (List.range n).map (fun i => (i, threadOf s.clock (s.fresh * 1024 + i) (trapOf i) img h i)),
    trace := traceOf (imgNat img 0x180 256), staging := [], saving := false, flushing := false }

/-- The image with thread `i`'s block changed: another st, and another PC where one is given (R374 on a saved workgroup). -/
def patchThread (img : List Byte) (i st : Nat) (pc : Option (Nat × Nat)) : List Byte :=
  let h := imgHeader img
  let o := hdBlock h i
  let b := setBits (imgNat img o 128) 107 104 st
  let b := match pc with
    | some (obj, off) => setBits (setBits b 56 0 obj) 95 64 off
    | none => b
  img.take o ++ leBytes 128 b ++ img.drop (o + 128)

end Sys2Proof.Machine
end

