-- ==== Sys2Proof/Machine/Place.lean ====
section
/-! DEFINITION. Where an engine's operand rows lie (R221, R287, R390): scratchpads, buffer records and tensors, with the checks of
R53, R57 and R60; and reading and writing their bytes at a tag (R93, R95). -/

namespace Sys2Proof.Machine

/-- A byte an engine reaches. `space` is 0 for virtual memory, 1 or 2 for the tensor store of die 0 or 1, 2^20 + c for the weight
buffer of column c, and 3 + k for the scratchpad of workgroup k. -/
structure Loc where
  space : Nat
  addr : Nat
deriving DecidableEq, Repr

/-- For whom an engine works. -/
structure Req where
  part : Nat
  tag : Nat
  ltab : Nat
  launch : Nat
  wk : Nat
  core : Nat
  plot : Nat
  wgid : Nat
deriving DecidableEq, Repr

/-- The requester a workgroup's threads make. -/
def Wg.reqOf (w : Wg) (k : Nat) : Req := ⟨w.part, w.tag, w.ltab, w.launch, k, w.core, w.plot, w.wgid⟩

/-- A workgroup is member `n` of the requester's plot. -/
def Req.member (q : Req) (n : Nat) (w : Wg) : Bool := w.part == q.part && w.launch == q.launch && w.plot == q.plot && w.wgid == n

/-- The workgroup that made a request, while it is resident: another may since have taken its context slot. -/
def State.reqWg (s : State) (q : Req) : Option Wg := (s.wgs.find? q.wk).filter (q.member q.wgid)

/-! ## Bytes -/

/-- The physical address of a place, or why it cannot be reached (R85, R86). -/
def State.locXlate (s : State) (q : Req) (l : Loc) (needR needW : Bool) : Xlat :=
  if l.space ≠ 0 then .ok l.addr false
  else
    match s.shootHost none q.part q.tag l.addr 1 needR (s.xlateFor q.part q.ltab l.addr needR needW) with
    | .ok pa dup => if needR && s.poisonedFor none q.tag pa 1 then .term 1 else .ok pa dup
    | x => x

/-- The first place of a list that cannot be reached. -/
def State.locsFail (s : State) (q : Req) (needR needW : Bool) (ls : List Loc) : Option (Nat × Xlat) :=
  ls.findSome? (fun l => match s.locXlate q l needR needW with
    | .ok _ _ => none
    | x => some (l.addr, x))

/-- Read a byte at the requester's tag. -/
def State.locRead (s : State) (q : Req) (l : Loc) : Byte :=
  if l.space = 0 then
    (match s.locXlate q l true false with
      | .ok pa _ => s.readHome q.tag pa
      | _ => 0)
  else if l.space ≤ 2 then FMap.get 0 s.tstore (2 ^ 40 * (l.space - 1) + l.addr)
  else if 2 ^ 20 ≤ l.space then FMap.get 0 (s.col (l.space - 2 ^ 20)).weight l.addr
  else match s.wgs.find? (l.space - 3) with
    | some w => FMap.get 0 w.spad l.addr
    | none => 0

/-- A tag that engines may still write under: committed state, or a live shoot. -/
def State.tagLive (s : State) (tag : Nat) : Bool := tag == 0 || (s.tag tag).state == 1

/-- Write a byte to memory under a tag for a launch: stamped, versioned, or discarded where the tag has gone or finds no
space (R93, R105, R106, R255). -/
def State.engineWrite (s : State) (q : Req) (va pa : Nat) (b : Byte) : State :=
  if !s.tagLive q.tag then s
  else if s.noSpace q.tag pa then s.exhaust q.tag
  else ((if (s.reqWg q).isSome then s.traceNote q.wk va 1 true else s).noteRegions q.part q.ltab q.launch pa).writeHome q.tag va pa b

/-- Write a byte at a place. -/
def State.locWrite (s : State) (q : Req) (l : Loc) (b : Byte) : State :=
  if l.space = 0 then
    (match s.locXlate q l false true with
      | .ok pa _ => s.engineWrite q l.addr pa b
      | _ => s)
  else if 2 ^ 20 ≤ l.space then s.modCol (l.space - 2 ^ 20) (fun c => { c with weight := FMap.set 0 c.weight l.addr b })
  else if l.space ≤ 2 then { s with tstore := FMap.set 0 s.tstore (2 ^ 40 * (l.space - 1) + l.addr) b }
  else s.modWg (l.space - 3) (fun w => { w with spad := FMap.set 0 w.spad l.addr b })

/-- Record the tiles of bytes that an engine reads for a workgroup (R258). -/
def State.noteLocs (s : State) (q : Req) (ls : List Loc) : State :=
  match s.reqWg q with
  | some w => if w.traced then (ls.filter (fun l => l.space == 0)).foldl (fun s l => s.traceNote q.wk l.addr 1 false) s else s
  | none => s

/-! ## Rows -/

/-- Where a row begins: at a byte of a space, or at byte `xb` of row `y` of a swizzled buffer. -/
inductive RowAt
  | flat (space base : Nat)
  | buf (rcd y xb : Nat)
deriving DecidableEq, Repr

def RowAt.byte (r : RowAt) (i : Nat) : Loc :=
  match r with
  | .flat sp b => ⟨sp, b + i⟩
  | .buf rcd y xb => ⟨0, swzAddr (recSwz rcd) (recBase rcd) (recStride rcd) y (xb + i)⟩

/-- Bytes `from` to `from + n` of a row. -/
def RowAt.locs (r : RowAt) (start n : Nat) : List Loc := (List.range n).map (fun i => r.byte (start + i))

/-- `w` bits of a row from bit `b`. -/
def State.rowBits (s : State) (q : Req) (r : RowAt) (b w : Nat) : Nat :=
  ofLe ((List.range ((b % 8 + w + 7) / 8)).map (fun i => s.locRead q (r.byte (b / 8 + i)))) / 2 ^ (b % 8) % 2 ^ w

/-- Write bytes into a row. -/
def State.rowWrite (s : State) (q : Req) (r : RowAt) (start : Nat) : List Byte → State
  | [] => s
  | b :: bs => State.rowWrite (s.locWrite q (r.byte start) b) q r (start + 1) bs

/-! ## Matrix operand formats (Tables 6.1 and 6.3, R219) -/

/-- A matrix operand format. `frac` is the s8 of an MX block, whose value is the integer × 2^−6 (R115). -/
structure MFmt where
  elem : StFmt
  scale : Option FFmt
  block : Nat
  sparse : Bool
  kpc : Nat
  isInt : Bool
  frac : Bool
deriving DecidableEq, Repr

def mfPlain (e : StFmt) (kpc : Nat) (isInt : Bool) : MFmt := ⟨e, none, 0, false, kpc, isInt, false⟩
def mfMx (e : StFmt) (kpc : Nat) : MFmt := ⟨e, some .e8m0, 32, false, kpc, false, e == .int .s8⟩
def mfBk (e : StFmt) (kpc : Nat) : MFmt := ⟨e, some .e4m3, 16, false, kpc, false, false⟩
def mfSparse (f : MFmt) : MFmt := { f with sparse := true }

/-- Table 6.3, with the tensor-only codes 28 and 29 (R116). -/
def mfmt (code : Nat) : Option MFmt :=
  ([mfPlain (.flt .bf16) 24 false, mfPlain (.flt .f16) 24 false, mfPlain (.flt .e4m3) 48 false, mfPlain (.flt .e5m2) 48 false,
    mfPlain (.flt .e3m2) 64 false, mfPlain (.flt .e2m3) 64 false, mfPlain (.flt .e2m1) 96 false, mfPlain (.int .s8) 48 true,
    mfPlain (.int .z8) 48 true, mfPlain (.int .s4) 96 true, mfPlain (.int .z4) 96 true, mfMx (.flt .e4m3) 48,
    mfMx (.flt .e5m2) 48, mfMx (.flt .e3m2) 64, mfMx (.flt .e2m3) 64, mfMx (.flt .e2m1) 96, mfMx (.int .s8) 48,
    mfBk (.flt .e2m1) 96, mfBk (.flt .e4m3) 48, mfSparse (mfPlain (.flt .bf16) 24 false),
    mfSparse (mfPlain (.flt .f16) 24 false), mfSparse (mfPlain (.flt .e4m3) 48 false), mfSparse (mfPlain (.flt .e5m2) 48 false),
    mfSparse (mfPlain (.flt .e2m1) 96 false), mfSparse (mfPlain (.int .s8) 48 true), mfSparse (mfPlain (.int .s4) 96 true),
    mfSparse (mfMx (.flt .e4m3) 48), mfSparse (mfMx (.flt .e2m1) 96),
    mfPlain (.flt .f32) 0 false, mfPlain (.int .s32) 0 true])[code]?

/-- The three parts of a row of `k` dense elements (R219), in bytes. -/
def MFmt.preLen (f : MFmt) (k : Nat) : Nat := if f.block = 0 then 0 else roundUp ((k + f.block - 1) / f.block) 16
def MFmt.metaLen (f : MFmt) (k : Nat) : Nat := if f.sparse then roundUp ((k + 7) / 8) 16 else 0
def MFmt.elemLen (f : MFmt) (k : Nat) : Nat := ((if f.sparse then k / 2 else k) * stWidth f.elem + 7) / 8
def MFmt.rowLen (f : MFmt) (k : Nat) : Nat := f.preLen k + f.metaLen k + f.elemLen k

/-- An operand row: where its parts begin in the stored row, and the first scale, group and stored element of it. -/
structure OpRow where
  row : RowAt
  pre : Nat
  mdat : Nat
  el : Nat
  s0 : Nat
  g0 : Nat
  e0 : Nat
deriving DecidableEq, Repr

/-- An element's value without its scale (R115). -/
def MFmt.value (f : MFmt) (x : Nat) : XR :=
  match stValue f.elem x with
  | .fin s n d => if f.frac then .fin s n (d * 64) else .fin s n d
  | v => v

/-- The stored element that stands at dense position `k`, none where a 2:4 group leaves it zero (R220). -/
def State.storedAt (s : State) (q : Req) (f : MFmt) (r : OpRow) (k : Nat) : Option Nat :=
  if !f.sparse then some (r.e0 + k)
  else
    let m := s.rowBits q r.row (8 * r.mdat + 4 * (r.g0 + k / 4)) 4
    if k % 4 = m / 4 then some (r.e0 + 2 * (k / 4) + 1)
    else if k % 4 = m % 4 then some (r.e0 + 2 * (k / 4))
    else none

/-- Dense element `k` of an operand row, scale applied. -/
def State.opElem (s : State) (q : Req) (f : MFmt) (r : OpRow) (k : Nat) : XR :=
  let v := match s.storedAt q f r k with
    | some j => f.value (s.rowBits q r.row (8 * r.el + j * stWidth f.elem) (stWidth f.elem))
    | none => .zero
  match f.scale with
  | some g => scaled (fmtValue g (s.rowBits q r.row (8 * (r.pre + r.s0 + k / f.block)) 8)) v
  | none => v

/-! ## Tensors (Table 3.4, R390, R60) -/

def tenExt (e i : Nat) : Nat := bits e (64 + 16 * i + 15) (64 + 16 * i)
def tenFmt (e : Nat) : Nat := bits e 12 8
def tenRights (e : Nat) : Nat := bits e 6 5
def tenSpace (e : Nat) : Nat := 1 + bnat (bit e 1)
def tenCoord (d i : Nat) : Nat := bits d (14 + 16 * i + 15) (14 + 16 * i)

/-- Bytes of a stored row of a tensor, padded. -/
def tenPitch (e : Nat) (f : MFmt) : Nat := roundUp (f.rowLen (tenExt e 0 + 1)) 256

/-- The first byte of row (c1, c2, c3). -/
def tenRow (e : Nat) (f : MFmt) (c1 c2 c3 : Nat) : Nat :=
  bits e 63 36 * 256 + tenPitch e f * (c1 + (tenExt e 1 + 1) * (c2 + (tenExt e 2 + 1) * c3))

/-- An entry in use by a partition whose fmt is not 30 or 31 (R60, R116). -/
def tenValid (part e : Nat) : Bool := bit e 0 && bits e 4 2 == part && decide (tenFmt e < 30)

/-- The checks of R60 and R95 on a tensor descriptor: `last0` is the last coordinate in dimension 0, `rows` the rows taken. -/
def tenOk (part tag d e last0 rows : Nat) (needR needW : Bool) : Bool :=
  let last (i : Nat) : Nat := if i = 0 then last0 else if i = 1 then tenCoord d 1 + rows - 1 else tenCoord d i
  tenValid part e && (!needR || bit (tenRights e) 0) && (!needW || bit (tenRights e) 1) && !(tag != 0 && needW)
    && (List.range 4).all (fun i => decide (last i ≤ tenExt e i) && (decide (i ≤ bits e 14 13) || last i == 0))

/-! ## Descriptors (Table 10.3) -/

/-- Bits of a descriptor that its kind leaves reserved. -/
def descRsvd (d : Nat) : Nat :=
  match bits d 1 0 with
  | 0 => bits d 95 42
  | 1 => bits d 95 38
  | 2 => bits d 95 78
  | _ => bits d 95 24

/-- The record or entry that a descriptor names, as bound now. -/
def State.descRec (s : State) (q : Req) (d : Nat) : Nat :=
  match bits d 1 0 with
  | 1 =>
    (match s.launch? q.part q.ltab with
      | some l => FMap.get 0 l.q (bits d 5 2)
      | none => 0)
  | 2 => FMap.get 0 (s.part q.part).tensors (bits d 13 2)
  | _ => 0

/-- The workgroup whose scratchpad a descriptor's window names: the requester's own, or a member of its plot, which stays while the request
does (R23, R228). -/
def State.descOwner (s : State) (q : Req) (d : Nat) : Option (Nat × Wg) :=
  let n := if bits d 23 20 = 0 then q.wgid else bits d 23 20 - 1
  List.find? (fun p => q.member n p.2) s.wgs

/-- Why an operand is refused: what CORE_ENGINE_ERR logs (R289, R329). -/
structure Refused where
  cause : Nat
  addr : Nat
  coord : Nat
deriving DecidableEq, Repr

/-- Row `r` of a buffer-record descriptor, wherever it lies (R221). -/
def bufRow (d rcd r : Nat) : RowAt :=
  let e := bits d 37 6
  let cx := recCountx rcd
  .buf rcd (e / cx + r) (e % cx * recEsize rcd)

/-- The address or handle that a refused request logs for a descriptor: of its first byte. -/
def descAddr (d rcd : Nat) : Nat :=
  match bits d 1 0 with
  | 0 => bits d 23 2
  | 1 => if recCountx rcd = 0 then recBase rcd else ((bufRow d rcd 0).byte 0).addr
  | _ => bits d 13 2

/-- A refusal by R60, logged with the coordinates. -/
def refusedTensor (d : Nat) : Refused := ⟨2, bits d 13 2, bits d 77 14⟩

/-- A refusal logged with cause `c`. -/
def refusedAt (c d rcd : Nat) : Refused := ⟨c, descAddr d rcd, 0⟩

/-- The rows of a scratchpad descriptor of `n` bytes each, checked by R57. -/
def State.spadRows (s : State) (q : Req) (cause d rows n : Nat) : Except Refused (Nat → RowAt) :=
  match s.descOwner q d with
  | none => .error (refusedAt cause d 0)
  | some (k, w) =>
    let off := bits d 19 2
    let pitch := bits d 41 24
    if w.spadKiB * 1024 < off + (rows - 1) * pitch + n then .error (refusedAt cause d 0)
    else .ok (fun r => .flat (3 + k) (off + r * pitch))

/-- A buffer record grants the rights that an operand needs (R53). -/
def bufRights (rcd : Nat) (needR needW : Bool) : Bool := (!needR || bit (recRights rcd) 0) && (!needW || bit (recRights rcd) 1)

/-- The rows of a buffer-record descriptor meet the bounds of R52 with the row length as the access width. -/
def bufBounds (d rcd rows n : Nat) : Bool :=
  let e := bits d 37 6
  let cx := recCountx rcd
  cx != 0 && recInBounds rcd e n && recInBounds rcd ((e / cx + (rows - 1)) * cx + e % cx) n

/-- The rows of a buffer-record descriptor of a copy, checked by R52 and R53. -/
def bufRows (cause d rcd rows n : Nat) (needR needW : Bool) : Except Refused (Nat → RowAt) :=
  if bufRights rcd needR needW && bufBounds d rcd rows n then .ok (bufRow d rcd) else .error (refusedAt cause d rcd)

/-- A row of a buffer-record operand of a task does not start 16-byte aligned (R219). -/
def bufMisaligned (d rcd rows : Nat) : Bool :=
  bits d 1 0 == 1 && recCountx rcd != 0 && (List.range rows).any (fun r => ((bufRow d rcd r).byte 0).addr % 16 != 0)

/-- The rows of a copy's operand (R287, R390). -/
def State.copyRows (s : State) (q : Req) (d rcd rows n : Nat) (needR needW : Bool) : Except Refused (Nat → RowAt) :=
  match bits d 1 0 with
  | 0 => s.spadRows q 3 d rows n
  | 1 => bufRows 3 d rcd rows n needR needW
  | 2 =>
    (match mfmt (tenFmt rcd) with
      | none => .error (refusedTensor d)
      | some f =>
        let c0 := tenCoord d 0
        let plain := f.block == 0 && !f.sparse
        let start := if plain then c0 * stWidth f.elem / 8 else 0
        if !tenOk q.part q.tag d rcd c0 rows needR needW then .error (refusedTensor d)
        else if (if plain then c0 * stWidth f.elem % 8 != 0 else c0 != 0) || decide (tenPitch rcd f < start + n) then
          .error (refusedTensor d)
        else .ok (fun r => .flat (tenSpace rcd) (tenRow rcd f (tenCoord d 1 + r) (tenCoord d 2) (tenCoord d 3) + start)))
  | _ => .error (refusedAt 3 d rcd)

/-- The rows of a matrix operand of `k` dense elements in format `f` (R219, R221, R390), or its refusal with what is logged: a failure of
bounds or of R60 is, one of rights alone is not (R229). -/
def State.opRows (s : State) (q : Req) (f : MFmt) (d rcd rows k : Nat) (needR needW : Bool) : Except (Option Refused) (Nat → OpRow) :=
  let plainRow (r : RowAt) : OpRow := ⟨r, 0, f.preLen k, f.preLen k + f.metaLen k, 0, 0, 0⟩
  match bits d 1 0 with
  | 0 => ((s.spadRows q 4 d rows (f.rowLen k)).map (fun g r => plainRow (g r))).mapError some
  | 1 =>
    if !bufBounds d rcd rows (f.rowLen k) then .error (some (refusedAt 4 d rcd))
    else if !bufRights rcd needR needW then .error none
    else .ok (fun r => plainRow (bufRow d rcd r))
  | 2 =>
    let c0 := tenCoord d 0
    let k0 := tenExt rcd 0 + 1
    let step := if f.block ≠ 0 then f.block else if f.sparse then 4 else 1
    if !tenOk q.part q.tag d rcd (c0 + k - 1) rows needR needW then .error (some (refusedTensor d))
    else if c0 % step ≠ 0 ∨ c0 * stWidth f.elem % 8 ≠ 0 then .error (some (refusedTensor d))
    else .ok (fun r =>
      ⟨.flat (tenSpace rcd) (tenRow rcd f (tenCoord d 1 + r) (tenCoord d 2) (tenCoord d 3)), 0, f.preLen k0,
        f.preLen k0 + f.metaLen k0, if f.block = 0 then 0 else c0 / f.block, c0 / 4, if f.sparse then c0 / 2 else c0⟩)
  | _ => .error (some (refusedAt 4 d rcd))

/-- The bytes of an operand row that hold `k` elements. -/
def OpRow.locs (f : MFmt) (r : OpRow) (k : Nat) : List Loc :=
  let sc := if f.block = 0 then [] else r.row.locs (r.pre + r.s0) ((k + f.block - 1) / f.block)
  let md := if f.sparse then r.row.locs (r.mdat + r.g0 / 2) ((r.g0 % 2 * 4 + k + 7) / 8) else []
  let b := r.e0 * stWidth f.elem
  let n := (if f.sparse then k / 2 else k) * stWidth f.elem
  sc ++ md ++ r.row.locs (r.el + b / 8) ((b % 8 + n + 7) / 8)

/-! ## What holds an engine's access back (R85, R86, R371) -/

/-- Why an engine's accesses cannot be performed now. `types` are those of Table 19.8. -/
inductive Held1
  | fault (va cause types : Nat)
  | term (va sub : Nat)
  | snoop (va pa : Nat)
deriving DecidableEq, Repr

/-- The first device line among places to be written that the host may hold (R371). -/
def State.locsShared (s : State) (q : Req) (ls : List Loc) : Option (Nat × Nat) :=
  if s.shared = [] ∨ q.tag ≠ 0 then none
  else ls.findSome? (fun l => match s.locXlate q l false true with
    | .ok pa dup => if l.space = 0 ∧ s.hostHolds dup pa then some (l.addr, pa) else none
    | _ => none)

/-- What holds back accesses that need the rights, if anything does. -/
def State.locsHeld (s : State) (q : Req) (needR needW : Bool) (types : Nat) (ls : List Loc) : Option Held1 :=
  match s.locsFail q needR needW ls with
  | some (va, .fault c) => some (.fault va c types)
  | some (va, .term sub) => some (.term va sub)
  | _ => none

/-- The first place in host memory that must wait for a port to run (R384). -/
def State.locsLink (s : State) (q : Req) (ls : List Loc) : Option (Nat × Nat) :=
  if (s.hostPort 0).isSome then none
  else ls.findSome? (fun l => match s.locXlate q l false false with
    | .ok pa _ => if l.space = 0 ∧ s.linkHeld pa then some (l.addr, pa) else none
    | _ => none)

/-- Whether reads and writes may be performed; `rmw` places need both rights, and are reported as atomics. A shoot's writes need no port. -/
def State.engineHeld (s : State) (q : Req) (reads writes : List Loc) (rmw : Bool) : Option Held1 :=
  ((s.locsHeld q true false 1 reads).orElse (fun _ => s.locsHeld q rmw true (if rmw then 8 else 2) writes)).orElse
    (fun _ => ((s.locsLink q (if q.tag = 0 then reads ++ writes else reads)).orElse (fun _ => s.locsShared q writes)).map
      (fun p => Held1.snoop p.1 p.2))

/-- An engine's request waits at a fault (R369) or for the host (R371). `src` as in Table 19.8. -/
def State.engineWait (s : State) (q : Req) (who : Waiter) (src : Nat) (x : Held1) : State :=
  match x with
  | .fault va c types => s.parkFor who q.part va c types src q.launch (q.core / 8)
  | .snoop va pa => s.addSnoop who q.part va pa
  | .term _ _ => s

/-- Log a terminal response that an engine met. -/
def State.engineTerm (s : State) (q : Req) (source cause va sub : Nat) : State :=
  (s.logTerm sub q.part source (s.coreNum q.core) va (some (s.rawPa q.part va))).logEngine q.core cause va 0

/-- A partition's engines may start work: it is not halted (R324). -/
def State.startable (s : State) (part : Nat) : Bool := !bit (s.part part).cfg 35

/-- A swap-out of a partition is in progress (R361). -/
def State.swappingOut (s : State) (part : Nat) : Bool := !bit (s.part part).swapCtl 62 && (s.part part).swapRun == 0

end Sys2Proof.Machine
end

