-- ==== Sys2Proof/Machine/Tasks.lean ====
section
/-! DEFINITION. Matrix tasks at rest (spec/10): the record (Table 10.1), acceptance (R226, R227), streams, status records (R228,
R229) and Linroth 1 shadow regions (R234, R235). -/

namespace Sys2Proof.Machine

/-! ## The record (Table 10.1) -/

def tkOp (r : Nat) : Nat := bits r 3 0
def tkAfmt (r : Nat) : Nat := bits r 8 4
def tkBfmt (r : Nat) : Nat := bits r 13 9
def tkDfmt (r : Nat) : Nat := bits r 16 14
def tkAcc (r : Nat) : Bool := bit r 17
def tkSat (r : Nat) : Bool := bit r 18
def tkTrans (r : Nat) : Bool := bit r 19
def tkM (r : Nat) : Nat := 16 * (bits r 23 20 + 1)
def tkN (r : Nat) : Nat := 16 * (bits r 27 24 + 1)
def tkK (r : Nat) : Nat := bits r 43 28 + 1
def tkStream (r : Nat) : Nat := bits r 49 44
def tkStat (r : Nat) : Nat := bits r 63 50 * 16
def tkA (r : Nat) : Nat := bits r 159 64
def tkB (r : Nat) : Nat := bits r 255 160
def tkD (r : Nat) : Nat := bits r 351 256
def tkDep (r i : Nat) : Nat := bits r (352 + 80 * i + 79) (352 + 80 * i)

/-- A dependence in use: its stream and value (Table 10.4). -/
def depOf (d : Nat) : Option (Nat × Nat) := if bit d 0 then some (bits d 6 1, bits d 79 16) else none

/-- The dependences of a record. -/
def tkDeps (r : Nat) : List (Nat × Nat) := (depOf (tkDep r 0)).toList ++ (depOf (tkDep r 1)).toList

/-! ## Counters (R68, R226) -/

/-- A counter and the numbers complete above it, with every number that now follows on taken in. -/
def advance : Nat → Nat → List Nat → Nat × List Nat
  | 0, c, l => (c, l)
  | n + 1, c, l => if l.contains (c + 1) then advance n (c + 1) (l.filter (· != c + 1)) else (c, l)

/-- A task of a stream has completed. -/
def Stream.complete (x : Stream) (num : Nat) : Stream :=
  let r := advance (x.done.length + 1) x.counter (num :: x.done)
  { x with counter := r.1, done := r.2 }

/-- Whether a task number of a stream has completed. -/
def Stream.isDone (x : Stream) (num : Nat) : Bool := decide (num ≤ x.counter) || x.done.contains num

/-- A numbered operation of an engine context has completed (R297). -/
def Part.completeCtx (p : Part) (c num : Nat) : Part :=
  let r := advance ((p.ectrDone.get [] c).length + 1) (p.ectr.get 0 c) (num :: p.ectrDone.get [] c)
  { p with ectr := p.ectr.put c r.1, ectrDone := p.ectrDone.put c r.2 }

/-- The next number on an engine context's counter (R297). -/
def Part.numberCtx (p : Part) (c : Nat) : Part × Nat :=
  let n := p.ectrNum.get 0 c + 1
  ({ p with ectrNum := p.ectrNum.put c n }, n)

/-! ## Completion (R228, R229) -/

/-- The requester of a task. -/
def Task.req (t : Task) : Req := ⟨t.part, t.tag, t.ltab, t.launch, t.wk, t.core, t.plot, t.wgid⟩

/-- Write a task's status record, where it names one inside its workgroup's allocation (Table 10.6). -/
def State.statusRecord (s : State) (t : Task) (status : Nat) : State :=
  let o := tkStat t.rcd
  if o = 0 then s
  else
    match s.reqWg t.req with
    | none => s
    | some w =>
      if w.spadKiB * 1024 < o + 16 then s.logEngine t.core 5 o 0
      else s.spadPut t.wk o 16 (status + t.block * 2 ^ 32 + t.num * 2 ^ 64)

/-- Remove a task from its column's scheduler. -/
def State.dropTask (s : State) (t : Task) : State :=
  s.modCol (t.core / 8) (fun c => { c with tasks := c.tasks.filter (fun x =>
    !(x.num == t.num && x.part == t.part && tkStream x.rcd == tkStream t.rcd)) })

/-- A task completes: its status record, then its stream's counter, a release. -/
def State.completeTask (s : State) (t : Task) (status : Nat) : State :=
  let s := (s.dropTask t).statusRecord t status
  s.modPart t.part (fun p =>
    { p with streams := p.streams.put (tkStream t.rcd) ((p.streams.get Stream.zero (tkStream t.rcd)).complete t.num) })

/-- A task has run with a status: a shadowed one waits for its region to close (R234). -/
def State.endTask (s : State) (t : Task) (status : Nat) : State :=
  if t.shadowed then
    (s.dropTask t).modPart t.part (fun p =>
      let x := p.streams.get Stream.zero (tkStream t.rcd)
      { p with streams := p.streams.put (tkStream t.rcd) { x with ran := x.ran ++ [
        if status = 3 then { t with status := some 3, eng := none, out := [], block := 0 } else { t with status := some status, eng := none }] } })
  else s.completeTask t status

/-! ## Acceptance (R217, R226, R227) -/

/-- Tasks of a partition's stream that a column's scheduler holds and that have not run. -/
def State.streamTasks (s : State) (part stream : Nat) : List Task :=
  s.cols.flatMap (fun c => c.2.tasks.filter (fun t => t.part == part && tkStream t.rcd == stream))

/-- Accept a record for a thread: the task takes the next number of its stream. -/
def State.acceptTask (s : State) (wk : Nat) (w : Wg) (rcd : Nat) : State × Nat :=
  let st := tkStream rcd
  let x := (s.part w.part).streams.get Stream.zero st
  let num := x.accepted + 1
  let never := (tkDeps rcd).any (fun d => d.1 == st && decide (num ≤ d.2))
  let t : Task :=
    { rcd := rcd, num := num, part := w.part, tag := w.tag, wk := wk, core := w.core, launch := w.launch, ltab := w.ltab,
      status := if never then some 4 else none, eng := none, block := 0, recs := [], parked := false, since := s.clock,
      pruned := false, shadowed := x.shadow, out := [], plot := w.plot, wgid := w.wgid }
  let s := s.modPart w.part (fun p => { p with streams := p.streams.put st { x with accepted := num } })
  let s := s.modCol (w.core / 8) (fun c => { c with tasks := c.tasks ++ [t] })
  (if tkOp rcd = 1 ∨ (tkOp rcd = 0 ∧ dstOutside w (tkD rcd)) then s.clearFlush wk else s, num)

/-! ## Shadow regions (R233 to R235) -/

def State.stream (s : State) (part n : Nat) : Stream := (s.part part).streams.get Stream.zero n
def State.setStream (s : State) (part n : Nat) (x : Stream) : State :=
  s.modPart part (fun p => { p with streams := p.streams.put n x })

/-- The shadowed tasks of a stream that have not run. -/
def State.shadowWaiting (s : State) (part n : Nat) : List Task := (s.streamTasks part n).filter (·.shadowed)

/-- A byte of a destination as a task of the region reads it: the last value the region wrote, else the destination's. -/
def State.shadowRead (s : State) (t : Task) (l : Loc) : Byte :=
  let outs := ((s.stream t.part (tkStream t.rcd)).ran.flatMap (·.out)) ++ t.out
  match List.find? (fun e => e.1 == l.space && e.2.1 == l.addr) outs.reverse with
  | some e => e.2.2
  | none => s.locRead t.req l

/-- The places a shadowed task will write. -/
def Task.outLocs (t : Task) : List Loc := t.out.map (fun e => ⟨e.1, e.2.1⟩)

/-- What the first result of a stream's shadow that cannot be committed now waits for: a fault's answer, or the host (R235, R371). -/
def State.shadowHeld (s : State) (x : Stream) : Option (Task × Held1) :=
  x.ran.findSome? (fun t => match s.engineHeld t.req [] t.outLocs false with
    | some (.term _ _) => none
    | some h => some (t, h)
    | none => none)

/-- Commit one shadowed task: its results, then its status record and number. A terminal response ends it with status 5. All its places are
tried first, so that none of its blocks is written then: R231 does not say which are (DESIGN CHOICE, log entry 49). -/
def State.commitTask (s : State) (t : Task) : State :=
  match s.locsFail t.req false true t.outLocs with
  | some (va, .term sub) =>
    let s := (s.logTerm sub t.part 2 (s.coreNum t.core) va (some (s.rawPa t.part va))).logEngine t.core 4 va 0
    s.completeTask { t with block := 0 } 5
  | _ =>
    (t.out.foldl (fun s e => s.locWrite t.req ⟨e.1, e.2.1⟩ e.2.2) s).completeTask t (t.status.getD 0)

/-- SHCOMMIT's effect once every shadowed task has run (R235). -/
def State.shadowCommit (s : State) (part n : Nat) : State :=
  let x := s.stream part n
  let s := s.setStream part n { x with shadow := false, ran := [] }
  x.ran.foldl State.commitTask s

/-- SHDROP's effect: every shadowed task ends with status 6, run or not (R235). The blocks field of its record counts what it had computed
into the shadow (DESIGN CHOICE, log entry 49). -/
def State.shadowDrop (s : State) (part n : Nat) : State :=
  let x := s.stream part n
  let wait := s.shadowWaiting part n
  let s := s.setStream part n { x with shadow := false, ran := [] }
  (x.ran ++ wait).foldl (fun s t => s.completeTask t 6) s

end Sys2Proof.Machine
end

