-- ==== Sys2Proof/Machine/Complete.lean ====
section
/-! DEFINITION. Memory reads and writes by units that may be held back, the launch record (Table 13.7), trace headers and records
(Tables 12.3 and 12.4, R257 to R261) and the completion of launches and frame graphs (R297, R250, R256). -/

namespace Sys2Proof.Machine

/-! ## A unit's reads and writes through translation -/

/-- Where `n` bytes of a virtual range lie, with their dup bits, or what holds the access back: a fault, or host memory that no port runs to
(R384). -/
def State.vPlace (s : State) (part tag va n : Nat) (needR needW : Bool) : Except Held1 (Nat → Nat × Bool) :=
  let one (a : Nat) : Except Held1 (Nat × Bool) :=
    match s.shootHost none part tag a 1 needR (s.xlate part a needR needW false) with
    | .ok pa dup => if (tag == 0 || needR) && s.linkHeld pa then .error (.snoop a pa) else .ok (pa, dup)
    | .fault c => .error (.fault a c (if needW then (if needR then 8 else 2) else 1))
    | .term sub => .error (.term a sub)
  if n = 0 ∨ va / 2 ^ 15 = (va + n - 1) / 2 ^ 15 then (one va).map (fun p i => (p.1 + i, p.2))
  else do
    let l ← (List.range n).mapM (fun i => one (va + i))
    pure (fun i => l.getD i (0, false))

/-- `n` bytes of a virtual range at a tag. -/
def State.vGet (s : State) (part tag va n : Nat) : Except Held1 Nat := do
  let f ← s.vPlace part tag va n true false
  match (List.range n).find? (fun i => s.poisonedFor none tag (f i).1 1) with
  | some i => .error (.term (va + i) 1)
  | none => pure (ofLe ((List.range n).map (fun i => s.readHome tag (f i).1)))

/-- Write bytes to a virtual range at a tag, all or none; `note` enters what is written by physical address (R256). -/
def State.vPutBy (s : State) (note : State → Nat → State) (part tag va : Nat) (l : List Byte) : Except Held1 State := do
  let f ← s.vPlace part tag va l.length false true
  match (if tag = 0 ∧ s.shared ≠ [] then (List.range l.length).find? (fun i => s.hostHolds (f i).2 (f i).1) else none) with
  | some i => .error (.snoop (va + i) (f i).1)
  | none =>
    if (List.range l.length).any (fun i => s.noSpace tag (f i).1) then pure (s.exhaust tag)
    else pure (((List.range l.length).zip l).foldl (fun s p => (note s (f p.1).1).writeHome tag (va + p.1) (f p.1).1 p.2) s)

/-- Write bytes to a virtual range at a tag, all or none. -/
def State.vPut (s : State) (part tag va : Nat) (l : List Byte) : Except Held1 State := s.vPutBy (fun s _ => s) part tag va l

/-- The number of the launch in an entry of the launch table. -/
def State.launchNum (s : State) (part e : Nat) : Nat := ((s.launch? part e).map (·.num)).getD 0

/-- As `vPut` for a launch, whose regions the write enters (R256). -/
def State.vPutFor (s : State) (part ltab tag va : Nat) (l : List Byte) : Except Held1 State :=
  s.vPutBy (fun t pa => t.noteRegions part ltab (s.launchNum part ltab) pa) part tag va l

/-- The regions of a range that a launch is about to write at tag 0 (R256). -/
def State.noteRange (s : State) (part ltab va n : Nat) : State :=
  match s.vPlace part 0 va n false true with
  | .ok f => (List.range n).foldl (fun t i => t.noteRegions part ltab (s.launchNum part ltab) (f i).1) s
  | .error _ => s

/-! ## The launch record (Table 13.7) -/

def lcTag (r : Nat) : Nat := bits r 62 57
def lcThreads (r : Nat) : Nat := bits r 137 128 + 1
def lcWpp (r : Nat) : Nat := bits r 140 138 + 1
def lcGrid (r : Nat) : Nat := (bits r 95 80 + 1) * (bits r 111 96 + 1) * (bits r 127 112 + 1)
def lcSpad (r : Nat) : Nat := bits r 150 142
def lcNbar (r : Nat) : Nat := bits r 156 151
def lcCeil (r : Nat) : Nat := bits r 197 192 * 8

/-- The stage boundaries in use. -/
def lcStages (r : Nat) : List Nat :=
  (List.range (bits r 158 157)).map (fun i => bits r (160 + 10 * i + 9) (160 + 10 * i))

/-- The quota of each stage in registers; one stage has the ceiling (R21). -/
def lcQuota (r : Nat) : List Nat :=
  if bits r 158 157 = 0 then [lcCeil r]
  else (List.range (bits r 158 157 + 1)).map (fun i => bits r (198 + 6 * i + 5) (198 + 6 * i) * 8)

def lcTrace (r : Nat) : Bool := bit r 225
def lcRelaunch (r : Nat) : Bool := bit r 224

def Launch.wpp (l : Launch) : Nat := lcWpp l.rcd

/-- The workgroups of a launch that run: the selected ones of a relaunch, or all (R260). -/
def Launch.selected (l : Launch) (wg : Nat) : Bool := match l.select with
  | some x => x.contains wg
  | none => true

/-- The plots to be claimed, in claim order, of a relaunch. -/
def Launch.selPlots (l : Launch) : Option (List Nat) := l.select.map (fun x => (x.map (fun k => k / l.wpp)).dedup)

/-- How many plots the launch runs. -/
def Launch.plots (l : Launch) : Nat := match l.selPlots with
  | some x => x.length
  | none => lcGrid l.rcd

/-- The workgroup indices within a plot that run. -/
def Launch.membersOf (l : Launch) (plot : Nat) : List Nat := (List.range l.wpp).filter (fun i => l.selected (plot * l.wpp + i))

/-- A launch of R299 or R257 records afresh: no record is compared. -/
def Launch.afresh (l : Launch) : Bool := l.select.isNone

/-! ## Completion -/

/-- A launch's workgroups that hold resources. -/
def State.residents (s : State) (part e : Nat) : Bool := s.wgs.any (fun p => p.2.part == part && p.2.ltab == e)

/-- Whether a launch is complete but for its record (R24, R105, R366). -/
def State.launchFinished (s : State) (part e : Nat) (l : Launch) : Bool :=
  if l.kind = 1 then l.status == some 4
  else if l.kind ≠ 0 then false
  else if l.status = some 4 then !s.residents part e
  else if !l.ready then l.status == some 5
  else decide (l.plots ≤ l.plotsFree) && !s.residents part e

/-- The completion record of Table 13.9. -/
def completionRecord (shrunk sigchg rerun errs detail status : Nat) : Nat :=
  shrunk % 2 ^ 32 * 2 ^ 96 + sigchg % 2 ^ 32 * 2 ^ 64 + rerun % 2 ^ 32 * 2 ^ 32 + errs % 2 ^ 16 * 2 ^ 16 + detail * 2 ^ 8 + status

/-- The status a launch completes with. -/
def Launch.finalStatus (l : Launch) : Nat := l.status.getD (if l.errs = 0 then 0 else 6)

/-- The trace header after a relaunch (R261). -/
def Launch.header (l : Launch) (h : Nat) : Nat :=
  let n := if l.afresh then 1 else satInc 32 (bits h 63 32)
  setBits (setBits (setBits (setBits (setBits h 191 160 l.shrunk) 159 128 l.sigchg) 127 96 l.rerun) 63 32 n) 1 1 (bnat l.wrapped)

/-- Write a completion record where an address is named; `skip` gives the write up. -/
def State.putRecord (s : State) (part va rcd : Nat) (skip : Bool) : Except Held1 State :=
  if va = 0 then .ok s
  else match s.vPut part 0 va (leBytes 16 rcd) with
    | .ok t => .ok t
    | .error x => if skip then .ok s else .error x

/-- Slots bound to a launch become invalid (R345). -/
def State.unbind (s : State) (part e : Nat) : State :=
  { s with cols := s.cols.map (fun c => (c.1,
      { c.2 with slots := c.2.slots.map (fun x =>
          if bit x.2 63 && bits x.2 32 30 == part && bits x.2 29 22 == e then (x.1, setBits x.2 63 63 0) else x) })) }

/-- The tasks of a launch that leaves the launch table keep the buffer records it had last bound (R221). -/
def State.keepSlots (s : State) (part e : Nat) : State :=
  match s.launch? part e with
  | none => s
  | some l =>
    { s with cols := s.cols.map (fun c => (c.1, { c.2 with tasks := c.2.tasks.map (fun t =>
        if t.part = part ∧ t.ltab = e ∧ t.launch = l.num then { t with slots := t.slots.or (some l.q) } else t) })) }

/-- A launch leaves the launch table; its counter advances (R297). -/
def State.retireEntry (s : State) (part e : Nat) (ctr : Nat) (donen : Nat) : State :=
  let s := ((s.unbind part e).keepSlots part e).modPart part (fun p => { p with ltab := p.ltab.erase e })
  if donen = 0 then s else s.modPart part (fun p => p.completeCtx ctr donen)

/-! ## Frame graphs (Tables 11.5 and 11.6) -/

/-- The header and nodes lie at the address that the submission names. -/
def gsHeader (r : Nat) : Nat := bits r 56 0
def gsNode (r n : Nat) : Nat := gsHeader r + 64 + 64 * n

/-- A frame graph of which every node has completed completes (R344). -/
def State.finishGraph (s : State) (part e : Nat) (skip : Bool) : Except Held1 State :=
  match s.launch? part e with
  | none => .ok s
  | some l =>
    if l.kind ≠ 2 ∨ !(s.graphs.any (fun g => g.2.part == part && g.2.ltab == e && g.2.nodes.all (· == 2))) then .ok s
    else do
      let s ← s.putRecord part (bits l.rcd 120 64) (completionRecord 0 0 0 0 0 0) skip
      let s := { s with graphs := s.graphs.filter (fun g => !(g.2.part == part && g.2.ltab == e)) }
      pure (s.retireEntry part e (bits l.rcd 135 128) l.donen)

/-- A waiting node whose dependences have completed. -/
def Graph.isReady (g : Graph) (n : Nat) : Bool :=
  g.nodes.getD n 2 == 0 && (List.range 4).all (fun i =>
    let d := bits (g.deps.getD n 0) (8 * i + 7) (8 * i)
    d == 255 || g.nodes.getD d 0 == 2)

/-- The nodes that are ready now and were not before became ready now (R251). -/
def Graph.noteReady (g : Graph) (clock : Nat) : Graph :=
  { g with readyAt := (List.range g.nodes.length).foldl (fun m n =>
      if g.isReady n && (m.find? n).isNone then m.put n clock else m) g.readyAt }

/-- A node of a graph ends: its status field is written, unless the graph's tag is pruned (R105), and its state becomes complete. Its state
while it runs is 4 plus the status it will take. -/
def State.finishNode (s : State) (part e n st : Nat) (skip : Bool) : Except Held1 State :=
  match s.launch? part e with
  | none => .ok s
  | some l =>
    let va := gsNode l.rcd n
    let put : Except Held1 State := do
      let b ← s.vGet part (lcTag l.rcd) va 1
      s.vPutFor part e (lcTag l.rcd) va [BitVec.ofNat 8 (b / 16 * 16 + st)]
    let done (s : State) : Except Held1 State :=
      State.finishGraph { s with graphs := s.graphs.map (fun g =>
        if g.2.part = part ∧ g.2.ltab = e then (g.1, { g.2 with nodes := g.2.nodes.set n 2 }.noteReady s.clock) else g) } part e skip
    if l.status = some 4 then done s
    else match put with
      | .ok s => done s
      | .error x => if skip then done s else .error x

/-- The status a running node will take. -/
def State.nodeStatus (s : State) (part e n : Nat) : Nat :=
  match List.find? (fun g => g.2.part == part && g.2.ltab == e) s.graphs with
  | some g => g.2.nodes.getD n 4 - 4
  | none => 0

/-- COMPLETION of a launch, in order: a relaunch's header, the regions it wrote advance, those of its completion record among them, the
completion record, the node of a graph it ran for, then its counter (R256, R261, R297). -/
def State.finishLaunch (s : State) (part e : Nat) (l : Launch) (skip : Bool) : Except Held1 State := do
  let va := bits l.rcd 568 512
  let head : Except Held1 State := do
    let h ← s.vGet part (lcTag l.rcd) va 256
    s.vPutFor part e (lcTag l.rcd) va (leBytes 256 (l.header h))
  let s ← if lcRelaunch l.rcd && lcTrace l.rcd && l.status != some 4 then
      (match head with
        | .ok t => .ok t
        | .error x => if skip then .ok s else .error x)
    else .ok s
  let rec1 := bits l.rcd 760 704
  let s := if rec1 = 0 then s else s.noteRange part e rec1 16
  let regions := ((s.launch? part e).map (·.regions)).getD []
  let s := regions.foldl (fun s x => s.advanceRegion (x / 4096) (x % 4096)) s
  let s ← s.putRecord part rec1 (completionRecord l.shrunk l.sigchg l.rerun l.errs 0 l.finalStatus) skip
  let s ← match l.node with
    | some (g, n) => s.finishNode part g n (s.nodeStatus part g n) skip
    | none => .ok s
  pure (s.retireEntry part e (bits l.rcd 775 768) l.donen)

/-- A raster pass of a pruned tag ends: it writes no further sample, and its counter advances (R105, R239). -/
def State.prunedPass (s : State) (part e : Nat) (l : Launch) : State :=
  let s := { s with
    passes := s.passes.filter (fun p => !(p.2.part == part && p.2.ltab == e))
    parked := s.parked.filter (fun p => !decide (p.2.who = Waiter.pass part e))
    snoops := s.snoops.filter (fun p => !decide (p.2.who = Waiter.pass part e)) }
  let s := l.regions.foldl (fun s x => s.advanceRegion (x / 4096) (x % 4096)) s
  s.retireEntry part e (bits l.rcd 455 448) l.donen

/-- Complete an entry of the launch table that has finished; a fault leaves it waiting. `skip` gives up the writes that fail. -/
def State.tryComplete (s : State) (part e : Nat) (skip : Bool) : State :=
  let wait (x : Held1) (num : Nat) : State :=
    match x with
    | .fault va c types => s.parkFor (.done part e) part va c types 32 num 255
    | .snoop va pa => if s.snoops.any (fun p => decide (p.2.who = .done part e)) then s else s.addSnoop (.done part e) part va pa
    | .term _ _ => s
  let run (f : State → Bool → Except Held1 State) (num : Nat) : State :=
    match f s skip with
    | .ok t => t
    | .error (.term va sub) =>
      let s := s.logTerm sub part 5 255 va (some (s.rawPa part va))
      (match f s true with
        | .ok t => t
        | .error _ => s)
    | .error x => wait x num
  match s.launch? part e with
  | none => s
  | some l =>
    if l.kind = 2 then run (fun s k => s.finishGraph part e k) l.num
    else if l.kind = 1 then (if l.status = some 4 then s.prunedPass part e l else s)
    else if s.launchFinished part e l then run (fun s k => s.finishLaunch part e l k) l.num
    else s

/-- Complete every launch that has finished without a step of its own: those that a prune emptied (R105). -/
def State.reap (s : State) : State :=
  (s.parts.flatMap (fun p => (p.2.ltab.filter (fun e => s.launchFinished p.1 e.1 e.2)).map (fun e => (p.1, e.1)))).foldl
    (fun s x => if s.parked.any (fun p => decide (p.2.who = .done x.1 x.2)) then s else s.tryComplete x.1 x.2 false) s

end Sys2Proof.Machine
end

