-- ==== Sys2Proof/Machine/FrontEnd.lean ====
section
/-! DEFINITION. The front end (spec/18): observing rings (R339), merge order and service (R340, R341), and the acceptance of launch
records (R297, R342, R359, R360, R366), raster passes (R343) and frame graphs (R250, R344). -/

namespace Sys2Proof.Machine

/-! ## Rings and queues (R339 to R341) -/

def State.queueCfg (s : State) (part g : Nat) : Nat := FMap.get 0 (s.part part).queues g

/-- Enabled (Table 17.2). -/
def Part.enabled (p : Part) : Bool := bit p.cfg 34

/-- FRONT_END_OBSERVE_WR: the front end reads the wr of a host producer's ring of an enabled partition (R339, R323). -/
def State.observeWr (s : State) (part ring : Nat) : State :=
  match s.ring? part ring with
  | none => s
  | some r =>
    if r.valid && !r.dev && (s.part part).enabled then s.modPart part (fun p => { p with observed := p.observed.put ring r.wr })
    else s

def execFrontEndObserveWr (part ring : Nat) (s : State) : Step1 := .next (s.observeWr part ring)

/-- A ring holds an entry that the front end may read: below its observed wr (R339), and of a host producer only where the partition
is enabled (R323). -/
def State.unread (s : State) (r : Ring) : Bool :=
  match (s.part r.part).observed.find? r.num with
  | some w => w != r.rd && (r.dev || (s.part r.part).enabled)
  | none => false

/-- The rings of a logical queue: the first 64 that name it (R340). -/
def State.queueRings (s : State) (part g : Nat) : List Ring :=
  ((List.range (bits (s.part part).ringTable 11 0)).filterMap (fun n =>
    match s.ring? part n with
    | some r => if r.valid && r.queue == g then some r else none
    | none => none)).take 64

/-- The queue's next entry: the ring at which its round stands while the read of an entry waits, else the round goes on from the ring it
visits next, or a new round begins (R340). -/
def State.queueHead (s : State) (part g : Nat) : Option Ring :=
  let l := (s.queueRings part g).filter s.unread
  let start := FMap.get 0 (s.part part).merge g
  let next := (List.find? (fun r => decide (start ≤ r.num)) l).orElse (fun _ => l.head?)
  match (s.part part).visiting.find? g with
  | some n => (List.find? (fun r => r.num == n) l).orElse (fun _ => next)
  | none => next

/-- The launch table has a free entry (R342). -/
def Part.freeEntry (p : Part) : Option Nat := (List.range 256).find? (fun e => (p.ltab.find? e).isNone)

/-- The queues that have a head which can be accepted now. -/
def State.readyQueues (s : State) (part : Nat) : List Nat :=
  if (s.part part).freeEntry.isNone then []
  else (List.range 64).filter (fun g =>
    bit (s.queueCfg part g) 0 && (s.queueHead part g).isSome && !(s.parked.any (fun p => decide (p.2.who = .front part g)))
      && !(s.snoops.any (fun p => decide (p.2.who = .front part g))))

/-- The queue served next: highest prio, then the lowest above the last one served at that prio, round (R341). -/
def State.nextQueue (s : State) (part : Nat) : Option Nat :=
  let gs := s.readyQueues part
  let prio (g : Nat) : Nat := bits (s.queueCfg part g) 5 2
  let top := (gs.map prio).foldl max 0
  let l := gs.filter (fun g => prio g == top)
  match (s.part part).served.find? top with
  | some last => (l.find? (fun g => decide (last < g))).orElse (fun _ => l.head?)
  | none => l.head?

/-- The front end has copied an entry: rd, the merge unit and the service order move on. -/
def State.takeEntry (s : State) (part g : Nat) (r : Ring) : State :=
  (s.setRd r (r.rd + 1)).modPart part (fun p =>
    { p with merge := p.merge.put g (r.num + 1), visiting := p.visiting.erase g, served := p.served.put (bits (FMap.get 0 p.queues g) 5 2) g })

/-! ## Checks of a launch record (R297) -/

/-- The reserved fields of Table 13.7. -/
def lcRsvd (r : Nat) : Bool :=
  [(1023, 912), (895, 889), (799, 777), (767, 761), (703, 697), (639, 624), (575, 569), (511, 505), (447, 441), (378, 377),
   (319, 313), (239, 236), (223, 222), (191, 190), (159, 159), (141, 141), (63, 63)].any (fun p => bits r p.1 p.2 != 0)

/-- An address field breaks its alignment. -/
def lcMisaligned (r : Nat) : Bool :=
  bits r 56 0 % 256 != 0 || bits r 760 704 % 16 != 0 || bits r 312 256 % 64 != 0 || bits r 504 448 % 4 != 0
    || bits r 376 320 % 32 != 0 || bits r 440 384 % 64 != 0 || bits r 568 512 % 256 != 0 || bits r 696 640 % 1024 != 0

def sorted : List Nat → Bool
  | a :: b :: l => decide (a ≤ b) && sorted (b :: l)
  | _ => true

/-- Stages, boundaries and quotas meet R21 and R297. -/
def lcStagesOk (r : Nat) : Bool :=
  let c := bits r 197 192
  decide (2 ≤ c ∧ c ≤ 32) && sorted (lcStages r)
    && (lcStages r).all (fun b => b % Config.laneWidth == 0 && decide (b ≤ lcThreads r))
    && (lcQuota r).all (fun q => decide (16 ≤ q ∧ q ≤ lcCeil r))

def lcTeams (r : Nat) : Nat := (lcThreads r + Config.laneWidth - 1) / Config.laneWidth

/-- Registers per lane of a workgroup (R19, R22). -/
def lcPool (r : Nat) : Nat :=
  ((List.range (lcTeams r)).map (fun j =>
    (lcQuota r).getD ((lcStages r).filter (fun b => decide (b ≤ j * Config.laneWidth))).length 0)).foldl (· + ·) 0

/-- How many workgroups of a record an empty core holds (R19). -/
def lcPerCore (r : Nat) : Nat :=
  let lim (have1 need : Nat) : Nat := if need = 0 then Config.ctxSlots else have1 / need
  min (min Config.ctxSlots (lim Config.threadSlots (lcTeams r))) (min (lim Config.regsPerLane (lcPool r))
    (min (lim Config.spadKiB (lcSpad r)) (lim Config.barriersPerCore (lcNbar r))))

/-- Details 9 and 1 to 7 that the record alone decides, in the order of R297; `lease9` is a lease entry that breaks Table 19.5. -/
def lcDetail (r : Nat) (lease9 : Bool) : Option Nat :=
  if lcRsvd r || lcMisaligned r || decide (16 < bits r 383 379) || lease9 then some 9
  else if 2 ^ 32 < lcGrid r then some 3
  else if !lcStagesOk r then some 4
  else if 256 < lcSpad r then some 5
  else if 32 < lcNbar r then some 6
  else if lcPerCore r * Config.coresPerColumn < lcWpp r then some 7
  else if 8 < bits r 231 228 then some 8
  else none

/-- A lease entry breaks Table 19.5. -/
def leaseBad (e : Nat) : Bool := bits e 127 97 != 0 || bits e 63 57 != 0 || bits e 95 64 == 0 || bits e 56 0 % 2 ^ 15 != 0

/-- A swizzle's stride rule (Table 3.2). -/
def strideOk (rcd : Nat) : Bool :=
  if recSwz rcd = 0 then recStride rcd % recEsize rcd == 0 else recStride rcd % (swzTile (recSwz rcd)).2 == 0

/-- A buffer record may be bound (R51, R253). -/
def State.bindOk (s : State) (part rcd : Nat) : Bool :=
  decide (bits rcd 162 160 < 5) && recBase rcd % recEsize rcd == 0 && strideOk rcd
    && (bits rcd 191 176 == 0 || (s.region? part (bits rcd 191 176)).isSome)
    && (!recLod rcd || (s.lodEntry part (bits rcd 223 192)).isSome)

/-- The trace slots, relaunch bit and trace buffer are as R297 and R296 require. -/
def State.traceOk (s : State) (part r : Nat) : Bool :=
  (!lcRelaunch r || lcTrace r)
    && (!lcTrace r || (traceSlots r).all (fun id => id == 0 || (s.region? part id).isSome))

/-- What the checks find: a rejection with its status and detail, or what the launch record names. -/
inductive Verdict
  | no (status detail : Nat)
  | yes (q : FMap Nat) (vtab : List Nat) (kblk : Nat) (variant : Option Nat) (imgs : List (List Byte)) (owner : Option (Nat × Nat))

/-- The images of a resume record, one after another (R358). The fuel is the number of images. -/
def State.readImages (s : State) (part : Nat) : Nat → Nat → Except Held1 (List (List Byte))
  | 0, _ => .ok []
  | n + 1, va => do
    let h ← s.vGet part 0 va 256
    let size := if bits h 31 0 = 0x43580001 ∧ hdSize h ≤ imageSize 256 1023 (tbsOf 256 32) then max 256 (hdSize h) else 256
    let x ← s.vGet part 0 va size
    let l ← State.readImages s part n (va + roundUp size 1024)
    pure (leBytes size x :: l)

/-- The launch whose plot a resume record's images name (R359). -/
def State.imageOwner (s : State) (part : Nat) (imgs : List (List Byte)) : Option (Nat × Nat) :=
  match imgs with
  | [] => none
  | img :: _ =>
    let h := imgHeader img
    (List.find? (fun e => e.2.num == hdLaunch h && e.2.kind == 0) (s.part part).ltab).map (fun e => (e.1, hdPlot h))

/-- A resume record describes the plots of the launch that its images belong to: as many workgroups and the same stage boundaries (R359). -/
def Launch.describedBy (l : Launch) (r : Nat) : Bool := l.wpp == lcWpp r && lcStages l.rcd == lcStages r

/-- The images meet R359 and R360. -/
def State.imagesOk (s : State) (part r : Nat) (imgs : List (List Byte)) : Bool :=
  let h0 := imgHeader (imgs.headD [])
  lcGrid r == 1 && ((s.imageOwner part imgs).bind (fun p => s.launch? part p.1)).any (fun l => l.describedBy r)
    && (List.range imgs.length).all (fun i =>
      let img := imgs.getD i []
      let h := imgHeader img
      imageFormed part (bits r 137 128) (lcSpad r) (lcNbar r) (bits r 197 192) img && hdWgid h == i && hdPlot h == hdPlot h0
        && hdLaunch h == hdLaunch h0 && hdTag h == hdTag h0
        && (hdTag h == 0 || ((s.tag (hdTag h)).state == 1 && (s.tag (hdTag h)).part == part)))

/-- The checks of step 1 of R342, in its order. An image that an uncorrectable error spoils is invalid (R376). -/
def State.judge (s : State) (part r : Nat) : Except Held1 Verdict := do
  let t := lcTag r
  let leases ← if lcRsvd r || lcMisaligned r then .ok []
    else (List.range (bits r 911 896)).mapM (fun i => s.vGet part t (bits r 888 832 + 16 * i) 16)
  match lcDetail r (leases.any leaseBad) with
  | some d => pure (.no 1 d)
  | none =>
    let nvar := bits r 231 228
    let vtab ← (List.range nvar).mapM (fun i => s.vGet part t (bits r 440 384 + 64 * i) 64)
    let bounds := vtab.map (fun v => bits v 31 0)
    if !(sorted bounds && bounds.dedup.length == bounds.length) then pure (.no 1 8)
    else if !s.traceOk part r then pure (.no 1 11)
    else
      let qs ← (List.range (bits r 383 379)).mapM (fun i => s.vGet part t (bits r 376 320 + 32 * i) 32)
      match (List.range qs.length).find? (fun i => !s.bindOk part (qs.getD i 0)) with
      | some i => pure (.no 1 (16 + i))
      | none =>
        if t ≠ 0 ∧ !((s.tag t).state == 1 && (s.tag t).part == part) then pure (.no 3 0)
        else
          let imgs : Option (List (List Byte)) ← if bit r 227 then
              (match s.readImages part (lcWpp r) (bits r 696 640) with
                | .ok l => .ok (some l)
                | .error (.term _ 1) => .ok none
                | .error x => .error x)
            else .ok (some [])
          match imgs with
          | none => pure (.no 1 10)
          | some imgs =>
            if bit r 227 && !s.imagesOk part r imgs then pure (.no 1 10)
            else
              let kblk ← if bits r 312 256 = 0 then .ok 0 else s.vGet part t (bits r 312 256) 64
              let q := ((List.range qs.length).zip qs).foldl (fun m p => FMap.set 0 m p.1 p.2) []
              if nvar = 0 then pure (.yes q vtab kblk none imgs (s.imageOwner part imgs))
              else
                let size ← s.vGet part t (bits r 504 448) 4
                match pickVariant vtab size with
                | none => pure (.no 2 0)
                | some v => pure (.yes q vtab kblk (some v) imgs (s.imageOwner part imgs))

/-! ## Traces at acceptance (R256, R257, R260, R299) -/

/-- Slot `j`'s region identifier as a header lists it, for all four slots. -/
def slotWord (r : Nat) : Nat := ((List.range 4).map (fun j => (traceSlots r).getD j 0 * 2 ^ (16 * j))).foldl (· + ·) 0

def launchWgs (r : Nat) : Nat := lcGrid r * lcWpp r

/-- The header a traced launch writes at acceptance (R257). -/
def freshHeader (r : Nat) : Nat := slotWord r * 2 ^ 192 + launchWgs r % 2 ^ 32 * 2 ^ 64 + 1

/-- A recorded tile is stale: beyond its region, or stamped since (R260). -/
def State.stale (s : State) (part tag rcd rec1 j t : Nat) : Bool :=
  match s.region? part ((traceSlots rcd).getD j 0) with
  | none => true
  | some g => decide (g.tiles ≤ t) || decide (bits rec1 (128 + 16 * j + 15) (128 + 16 * j) < s.readHomeNat tag (g.stamps + 2 * t) 2)

/-- A slot's epoch differs from a record's. -/
def State.epochMoved (s : State) (part rcd rec1 : Nat) : Bool :=
  bit rec1 0 && (List.range 4).any (fun j =>
    let id := (traceSlots rcd).getD j 0
    id != 0 && (match s.region? part id with
      | some g => g.epoch != bits rec1 (96 + 8 * j + 7) (96 + 8 * j)
      | none => true))

/-- selected(rec) of R260. -/
def State.recSelected (s : State) (part tag rcd rec1 : Nat) : Bool :=
  let t := traceOf rec1
  !bit rec1 0 || t.other || s.epochMoved part rcd rec1
    || t.exact.any (fun e => s.stale part tag rcd rec1 (e / 2 ^ 30) (e % 2 ^ 30))
    || t.coarse.any (fun p =>
      (List.range (p.2.2 + 1 - p.2.1)).any (fun i => s.stale part tag rcd rec1 p.1 (p.2.1 + i)))

/-- The workgroups a relaunch runs, and whether an epoch made it all of them; none where R299 runs every one afresh. -/
def State.relaunchSelect (s : State) (part r : Nat) : Except Held1 (Option (List Nat × Bool)) := do
  let t := lcTag r
  let va := bits r 568 512
  let h ← s.vGet part t va 256
  if !bit h 0 || bits h 95 64 != launchWgs r % 2 ^ 32 || bits h 255 192 != slotWord r then pure none
  else
    let recs ← (List.range (launchWgs r)).mapM (fun k => s.vGet part t (va + 256 * (k + 1)) 256)
    let wrap := recs.any (s.epochMoved part r)
    let all := List.range (launchWgs r)
    pure (some (if wrap then all else all.filter (fun k => s.recSelected part t r (recs.getD k 0)), wrap))

/-! ## Leases (R366) -/

/-- The first page of a lease that is invalid, malformed or lacks its right, or that keeps the list from being read: its page number and the
types of access that it is needed for. -/
def State.leaseMissing (s : State) (part tag r : Nat) : Option (Nat × Nat) :=
  (List.range (bits r 911 896)).findSome? (fun i =>
    match s.vGet part tag (bits r 888 832 + 16 * i) 16 with
    | .error _ => some ((bits r 888 832 + 16 * i) / 2 ^ 15, 1)
    | .ok e =>
      (List.range (bits e 95 64)).findSome? (fun j =>
        let page := bits e 56 15 + j
        let missing := some (page, if bit e 96 then 3 else 1)
        match s.leaf part (page * 2 ^ 15 % 2 ^ 57) with
        | .ok l => if (if bit e 96 then l.w else l.r) then none else missing
        | .error _ => missing))

/-- Step 3 and 4 of R342: the launch takes its lease and is posted to the management core, or waits at a page. -/
def State.acquireLease (s : State) (part e : Nat) : State :=
  match s.launch? part e with
  | none => s
  | some l =>
    match s.leaseMissing part (lcTag l.rcd) l.rcd with
    | some (page, types) => s.parkFor (.lease part e) part (page * 2 ^ 15) 6 types 32 l.num 255
    | none =>
      let ls := s.leaseEntries part l
      (s.modLaunch part e (fun l => { l with lease := ls, ready := true })).modSys (fun y =>
        { y with launchQ := y.launchQ ++ [(part, e)] })

/-! ## Acceptance of launches (R342) -/

/-- Number a record on its counter where doneuse = 1 (R297). -/
def State.numberDone (s : State) (part ctr : Nat) (use : Bool) : State × Nat :=
  if use then
    let r := (s.part part).numberCtx ctr
    (s.setPart part r.1, r.2)
  else (s, 0)

/-- A record that uses no entry completes at once: its completion record, its node, its counter. -/
def State.rejectLaunch (s : State) (part r status detail donen : Nat) (node : Option (Nat × Nat)) (skip : Bool) :
    Except Held1 State := do
  let s ← s.putRecord part (bits r 760 704) (completionRecord 0 0 0 0 detail status) skip
  let s ← match node with
    | some (g, n) => s.finishNode part g n (s.nodeStatus part g n) skip
    | none => .ok s
  pure (if donen = 0 then s else s.modPart part (fun p => p.completeCtx (bits r 775 768) donen))

/-- The lowest workgroup not fully released moves past those that are free or do not run. The fuel bounds the walk. -/
def Launch.relAdvance (l : Launch) : Nat → Launch
  | 0 => l
  | n + 1 =>
    if l.relDone.contains l.relTicket || (!l.selected l.relTicket && decide (l.relTicket < launchWgs l.rcd)) then
      Launch.relAdvance { l with relTicket := l.relTicket + 1, relDone := l.relDone.filter (· != l.relTicket) } n
    else l

/-- A new launch number (R342): rising by one modulo 2^32, skipping 0. -/
def nextNumber (n : Nat) : Nat := if (n + 1) % 2 ^ 32 = 0 then 1 else (n + 1) % 2 ^ 32

/-- Regions of the trace slots that the host or a peer has stamped since their last advance move on (R256). -/
def State.quietAdvance (s : State) (part r : Nat) : State :=
  if lcTrace r then
    ((traceSlots r).dedup.filter (fun id => id != 0 && ((s.part part).quiet.find? id).isSome)).foldl
      (fun s id => s.advanceRegion part id) s
  else s

/-- ACCEPT a launch record: check it, then enter, trace, lease and post it, or complete it at once. `skip` answers a translation
failure: what fails for good ends the record with status 5, or leaves its completion record unwritten. -/
def State.accept (s : State) (part queue r : Nat) (node : Option (Nat × Nat)) (skip : Bool) : Except Held1 State := do
  let d := s.numberDone part (bits r 775 768) (bit r 776)
  let s := d.1
  let v ← match s.judge part r with
    | .ok v => .ok v
    | .error x => if skip then .ok (.no 5 0) else .error x
  match v with
  | .no status detail => s.rejectLaunch part r status detail d.2 node skip
  | .yes q vtab kblk variant imgs owner =>
    match (s.part part).freeEntry with
    | none => pure s
    | some e =>
      let num := (s.part part).nextNum
      let s := s.quietAdvance part r
      let sel ← if lcRelaunch r && lcTrace r then
          (match s.relaunchSelect part r with
            | .ok x => .ok x
            | .error x => if skip then .ok none else .error x)
        else .ok none
      let resume := bit r 227
      let l : Launch :=
        { num := num, kind := 0, rcd := r, queue := queue, q := q, variant := variant, vtab := vtab,
          ticket := if resume then 1 else 0
          returned := if resume then [.saved ((owner.map (·.2)).getD 0) imgs] else []
          avg := none, plotsFree := 0, members := [], errs := 0, status := none, lease := [], revoked := [], ready := false,
          donen := d.2, select := sel.map (·.1), shrunk := 0, sigchg := 0
          rerun := match sel with
            | some x => x.1.length
            | none => launchWgs r
          regions := [], relTicket := 0, relDone := [], seqs := [], ordered := [], stagings := [], node := node
          resumeOf := if resume then owner else none
          kblk := kblk, np := bit (s.queueCfg part queue) 7, wrapped := (sel.map (·.2)).getD false }
      let l := if bit r 226 then l.relAdvance (launchWgs r) else l
      let s := s.modPart part (fun p => { p with ltab := p.ltab.put e l, nextNum := nextNumber p.nextNum })
      let s ← if lcTrace r && sel.isNone then
          (match s.vPutFor part e (lcTag r) (bits r 568 512) (leBytes 256 (freshHeader r)) with
            | .ok t => .ok t
            | .error x => if skip then .ok s else .error x)
        else .ok s
      pure ((s.acquireLease part e).tryComplete part e false)

/-! ## Raster passes (Table 18.5) -/

def rpRsvd (r : Nat) : Bool :=
  [(1023, 825), (767, 761), (703, 697), (639, 613), (607, 569), (459, 457), (447, 71), (63, 63), (56, 0)].any
    (fun p => bits r p.1 p.2 != 0)

def rpTag (r : Nat) : Nat := bits r 62 57
def rpSlot (r : Nat) : Nat := bits r 463 460
def rpWidth (r : Nat) : Nat := bits r 479 464 + 1
def rpHeight (r : Nat) : Nat := bits r 495 480 + 1

/-- Bins of 64 × 64 pixels (R243). -/
def rpBinsX (r : Nat) : Nat := (rpWidth r + 63) / 64
def rpBins (r : Nat) : Nat := rpBinsX r * ((rpHeight r + 63) / 64)

/-- ACCEPT a raster pass: it takes an entry, a number and a number on its counter; one that fails a check writes nothing and only
completes (R343). -/
def State.acceptPass (s : State) (part queue r : Nat) (skip : Bool) : Except Held1 State := do
  let d := s.numberDone part (bits r 455 448) true
  let s := d.1
  let fail : State := s.modPart part (fun p => p.completeCtx (bits r 455 448) d.2)
  let t := rpTag r
  if rpRsvd r || bits r 824 768 % 64 != 0 || bits r 696 640 % 32 != 0 || bits r 568 512 % 32 != 0 || 16 < bits r 612 608
    || t ≠ 0 ∧ !((s.tag t).state == 1 && (s.tag t).part == part) then pure fail
  else
    let qs ← match (List.range (bits r 612 608)).mapM (fun i => s.vGet part t (bits r 568 512 + 32 * i) 32) with
      | .ok l => .ok (some l)
      | .error x => if skip then .ok none else .error x
    match qs with
    | none => pure fail
    | some qs =>
      let vis := qs.getD (rpSlot r) 0
      if !qs.all (s.bindOk part) || bits vis 162 160 != 3 || recRights vis != 3 then pure fail
      else
        match (s.part part).freeEntry with
        | none => pure s
        | some e =>
          let num := (s.part part).nextNum
          let q := ((List.range qs.length).zip qs).foldl (fun m p => FMap.set 0 m p.1 p.2) []
          let l : Launch :=
            { num := num, kind := 1, rcd := r, queue := queue, q := q, variant := none, vtab := [], ticket := 0, returned := [],
              avg := none, plotsFree := 0, members := [], errs := 0, status := none, lease := [], revoked := [], ready := true,
              donen := d.2, select := none, shrunk := 0, sigchg := 0, rerun := 0, regions := [], relTicket := 0, relDone := [], seqs := [],
              ordered := [], stagings := [], node := none, resumeOf := none, kblk := 0, np := false, wrapped := false }
          let s := s.modPart part (fun p => { p with ltab := p.ltab.put e l, nextNum := nextNumber p.nextNum })
          let k := s.passes.freshKey (s.passes.length + 1) 0
          pure { s with passes := s.passes.put k { part := part, ltab := e, num := num, bins := List.range (rpBins r), stats := [], parked := false } }

/-! ## Frame graphs (R250, R344) -/

/-- Reserved bits of a submission. -/
def gsRsvd (r : Nat) : Bool := bit r 63 || bits r 1023 137 != 0 || bits r 127 121 != 0

def ghNodes (h : Nat) : Nat := bits h 8 0
def ghPolicy (h c : Nat) : Nat := bits h (48 + 2 * c + 1) (48 + 2 * c)
def gnDep (n i : Nat) : Nat := bits n (224 + 8 * i + 7) (224 + 8 * i)

/-- A graph is well formed (R250). -/
def graphOk (h : Nat) (nodes : List Nat) : Bool :=
  bits h 511 128 == 0 && bits h 33 9 == 0 && decide (1 ≤ ghNodes h ∧ ghNodes h ≤ 256)
    && (List.range 8).all (fun c => ghPolicy h c != 3)
    && (List.range nodes.length).all (fun i =>
      let n := nodes.getD i 0
      bits n 223 96 == 0 && bits n 47 8 == 0 && (List.range 4).all (fun k => gnDep n k == 255 || decide (gnDep n k < i)))

/-- ACCEPT a frame-graph submission: it takes an entry and a number, and its nodes wait for their dependences; a graph that R250
rejects completes with status 1. -/
def State.acceptGraph (s : State) (part queue r : Nat) (skip : Bool) : Except Held1 State := do
  let d := s.numberDone part (bits r 135 128) (bit r 136)
  let s := d.1
  let t := lcTag r
  let fail (status : Nat) : Except Held1 State := do
    let s ← s.putRecord part (bits r 120 64) (completionRecord 0 0 0 0 0 status) skip
    pure (if d.2 = 0 then s else s.modPart part (fun p => p.completeCtx (bits r 135 128) d.2))
  if gsRsvd r || gsHeader r % 64 != 0 || bits r 120 64 % 16 != 0 then fail 1
  else if t ≠ 0 ∧ !((s.tag t).state == 1 && (s.tag t).part == part) then fail 3
  else
    let g : Except Held1 (Nat × List Nat) := do
      let h ← s.vGet part t (gsHeader r) 64
      let ns ← (List.range (min (ghNodes h) 256)).mapM (fun i => s.vGet part t (gsNode r i) 64)
      pure (h, ns)
    match g with
    | .error x => if skip then fail 5 else .error x
    | .ok (h, ns) =>
      if !graphOk h ns then fail 1
      else
        match (s.part part).freeEntry with
        | none => pure s
        | some e =>
          let num := (s.part part).nextNum
          let l : Launch :=
            { num := num, kind := 2, rcd := r, queue := queue, q := [], variant := none, vtab := [], ticket := 0, returned := [],
              avg := none, plotsFree := 0, members := [], errs := 0, status := none, lease := [], revoked := [], ready := true,
              donen := d.2, select := none, shrunk := 0, sigchg := 0, rerun := 0, regions := [], relTicket := 0, relDone := [], seqs := [],
              ordered := [], stagings := [], node := none, resumeOf := none, kblk := 0, np := false, wrapped := false }
          let s := s.modPart part (fun p => { p with ltab := p.ltab.put e l, nextNum := nextNumber p.nextNum })
          let k := s.graphs.freshKey (s.graphs.length + 1) 0
          pure { s with graphs := s.graphs.put k (Graph.noteReady
            { part := part, ltab := e, nodes := List.replicate (ghNodes h) 0, deps := ns.map (fun n => bits n 255 224) } s.clock) }

/-! ## Serving a queue -/

/-- Copy a queue's head and accept or reject it, or say what holds it back. -/
def State.serveRing (s : State) (part queue : Nat) (r : Ring) (skip : Bool) : Except Held1 State := do
  let x ← match s.vGet part 0 (r.entry r.rd) 128 with
    | .ok x => .ok (some x)
    | .error y => if skip then .ok none else .error y
  let s := s.takeEntry part queue r
  match x with
  | none => pure s
  | some x =>
    if r.kind = 0 then s.accept part queue x none skip
    else if r.kind = 1 then s.acceptPass part queue x skip
    else s.acceptGraph part queue x skip

/-- As `serveRing`; a fault leaves the entry unread until it is answered, and what fails for good is given up (R366, R370). -/
def State.serveHead (s : State) (part queue : Nat) (r : Ring) (skip : Bool) : State :=
  let held := s.modPart part (fun p => { p with visiting := p.visiting.put queue r.num })
  match s.serveRing part queue r skip with
  | .ok t => t
  | .error (.fault va c types) => held.parkFor (.front part queue) part va c types 32 0 255
  | .error (.snoop va pa) => held.addSnoop (.front part queue) part va pa
  | .error (.term va sub) =>
    let s := s.logTerm sub part 5 255 va (some (s.rawPa part va))
    match s.serveRing part queue r true with
    | .ok t => t
    | .error _ => s

/-- Serve a queue when it is the one R341 serves next and the ring of its head is of the kind named. -/
def State.serve (s : State) (part queue kind : Nat) : State :=
  if s.nextQueue part ≠ some queue then s
  else
    match s.queueHead part queue with
    | none => s
    | some r => if r.kind ≠ kind then s else s.serveHead part queue r false

def execLaunchAccept (part queue : Nat) (s : State) : Step1 := .next (s.serve part queue 0)
def execRasterPassAccept (part queue : Nat) (s : State) : Step1 := .next (s.serve part queue 1)
def execFrameGraphAccept (part queue : Nat) (s : State) : Step1 := .next (s.serve part queue 2)

/-- A front-end access is answered with fail: the entry is decided without it. -/
def State.frontFail (s : State) (part queue : Nat) : State :=
  match s.queueHead part queue with
  | some r => if (s.part part).freeEntry.isNone then s else s.serveHead part queue r true
  | none => s

end Sys2Proof.Machine
end

