-- ==== Sys2Proof/Machine/VersionWords.lean ====
section
/-! DEFINITION. FORK, GRAFT, PRUNE and PRESENT (spec/05, R89 to R111, R295), and the flips they release (R252, R327). -/

namespace Sys2Proof.Machine

/-! ## Tags and sets in use (R89, R90, R108) -/

/-- The lowest fork-set slot that is not held. -/
def State.freeSet (s : State) : Option Nat := (List.range 8).find? (fun n => (s.sets.find? n).isNone)

/-- The free shoot tags, ascending. -/
def State.freeTags (s : State) : List Nat := ((List.range 63).map (· + 1)).filter (fun t => (s.tag t).state == 0)

/-- A partition's fork sets that count as live. -/
def State.liveSets (s : State) (part : Nat) : Nat := (s.sets.filter (fun p => p.2.part == part)).length

/-- A partition's tags in a state. -/
def State.tagCount (s : State) (part state : Nat) : Nat := (s.tags.filter (fun p => p.2.part == part && p.2.state == state)).length

/-- Why FORK fails, in the order of R90; none where it succeeds. -/
def State.forkFails (s : State) (part n : Nat) : Option Nat :=
  let v := (s.part part).vers
  if !bit v 0 then some 4
  else if bits v 16 13 < s.liveSets part + 1 ∨ bits v 12 7 < s.tagCount part 1 + s.tagCount part 2 + n then some 3
  else if s.freeSet.isNone then some 1
  else if s.freeTags.length < n then some 2
  else none

/-- FORK in one step: the state and the result of Table 5.2. -/
def State.forkNow (s : State) (part n : Nat) : State × Nat :=
  match s.forkFails part n, s.freeSet with
  | none, some k =>
    let tags := s.freeTags.take n
    let t := tags.foldl (fun s x => s.setTag x ⟨1, part, k⟩) s
    let res := ((List.range n).map (fun j => tags.getD j 0 * 2 ^ (6 * j))).foldl (· + ·) 0
    ({ t with sets := t.sets.put k ⟨part, tags, false, []⟩ }, k * 2 ^ 48 + res)
  | some st, _ => (s, st * 2 ^ 52)
  | none, none => (s, 2 ^ 52)

def execFork (h : Hdr) (d a : Opnd) (s : State) : Step1 :=
  .next (runWord h 1 (fun c s =>
    match (do
      let rs ← c.longDest d 2 2
      let n ← c.src (.int 32) a
      if c.wg.tag ≠ 0 ∨ n < 2 ∨ 8 < n then .error 2
      pure (rs, n) : Except Nat (List Nat × Nat)) with
    | .error e => .trap e 0 0
    | .ok p =>
      if 8 ≤ c.th.longCount then .stall
      else
        globalFirst c s (fun s =>
          let r := (s.clearFlush c.wk).forkNow c.wg.part p.2
          .next (longPut c r.1 p.1 (halves r.2)))) s)

/-! ## Reports and refusals (Table 5.6, R100, R105) -/

/-- The report of Table 5.6. -/
def forkReport (addr overlap winner set status : Nat) : Nat :=
  addr % 2 ^ 57 * 2 ^ 64 + overlap % 2 ^ 32 * 2 ^ 32 + winner * 2 ^ 10 + set * 2 ^ 7 + status

/-- Why an operation on a set is refused, rows 1, 5 and 4 in that order. -/
def State.setRefused (s : State) (part set : Nat) : Option Nat :=
  match s.sets.find? set with
  | none => some 1
  | some f => if f.part ≠ part then some 5 else if f.exhausted then some 4 else none

/-- A launch of the tag has been accepted and is not complete. -/
def State.tagRunning (s : State) (tag : Nat) : Bool := s.parts.any (fun p => p.2.ltab.any (fun e => e.2.tag == tag))

/-- Why a graft is refused (R100): 1, 5, 4, 3, 2 in that order. -/
def State.graftRefused (s : State) (part set winner : Nat) : Option Nat :=
  match s.setRefused part set with
  | some x => some x
  | none =>
    if !((s.sets.find? set).map (fun f => f.tags.contains winner)).getD false then some 3
    else if s.tagRunning winner then some 2
    else none

/-- A refusal with status 4 frees the slot it names (R89). -/
def State.freeExhausted (s : State) (set status : Nat) : State :=
  if status = 4 then { s with sets := s.sets.erase set } else s

/-- The report and d of a GRAFT or PRUNE that ends at issue. -/
def versionEnd (c : Ctx) (s : State) (rs : List Nat) (off rep : Nat) : State :=
  longPut c (s.spadPut c.wk off 16 rep) rs [rep % 2 ^ 32]

/-- Operands of GRAFT and PRUNE: destination, set, winner and report offset. -/
def Ctx.versionArgs (c : Ctx) (d a b : Opnd) (legal : Nat) : Except Nat (List Nat × Nat × Nat × Nat) := do
  let rs ← c.longDest d 1 1
  let x ← c.src (.int 32) a
  let y ← c.src (.int 32) b
  if c.wg.tag ≠ 0 ∨ x &&& legal ≠ x then .error 2
  let o ← c.spadOff y 16 16
  pure (rs, bits x 2 0, bits x 13 8, o)

def execGraft (h : Hdr) (d a b : Opnd) (s : State) : Step1 :=
  .next (runWord h 1 (fun c s =>
    match c.versionArgs d a b 0x3F07 with
    | .error e => .trap e 0 0
    | .ok (rs, set, win, off) =>
      if 8 ≤ c.th.longCount ∨ c.th.unbound then .stall
      else
        globalFirst c s (fun s =>
          let s := s.clearFlush c.wk
          match s.graftRefused c.wg.part set win with
          | some st => .next (versionEnd c (s.freeExhausted set st) rs off (forkReport 0 0 win set st))
          | none =>
            let id := c.th.freshId
            let e := pendOf id false rs []
            let s := s.modThread c.wk c.idx (fun t => { t.addPend { e with vals := none } with hold := id :: t.hold })
            .next { s with grafts := s.grafts ++ [⟨c.wk, c.idx, id, set, win, off, false⟩] })) s)

def execPrune (h : Hdr) (d a b : Opnd) (s : State) : Step1 :=
  .next (runWord h 1 (fun c s =>
    match c.versionArgs d a b 7 with
    | .error e => .trap e 0 0
    | .ok (rs, set, _, off) =>
      if 8 ≤ c.th.longCount ∨ c.th.unbound then .stall
      else
        globalFirst c s (fun s =>
          let s := s.clearFlush c.wk
          match s.setRefused c.wg.part set with
          | some st => .next (versionEnd c (s.freeExhausted set st) rs off (forkReport 0 0 0 set st))
          | none =>
            let tags := ((s.sets.find? set).map (·.tags)).getD []
            let t := tags.foldl State.pruneTag s
            let t := ({ t with sets := t.sets.erase set } : State).acquireL1 c.wg.unit 3
            .next (versionEnd c t rs off (forkReport 0 0 0 set 0)))) s)

/-! ## Flips (R252, R327, R99) -/

/-- Where the surface-table entry of a display stands (R327). -/
def State.surfacePa (s : State) (y surf : Nat) : Nat := bits (s.disp y).cfg 51 12 * 4096 + 16 * surf

/-- The surface-table entry of a display; one that may not be read is invalid (R327, R331). -/
def State.surface (s : State) (y surf : Nat) : Nat :=
  match s.physical (s.surfacePa y surf) true false false with
  | .ok pa _ => s.baseNat pa 16
  | _ => 0

/-- A read of a surface-table entry outside the host windows is logged (R331). -/
def State.noteSurface (s : State) (part y surf : Nat) : State :=
  match s.physical (s.surfacePa y surf) true false false with
  | .term sub => s.logPhys sub part 5 255 (s.surfacePa y surf)
  | _ => s

/-- Release a flip to a display's queue: the status of Table 13.6. -/
def State.releaseFlip (s : State) (part y surf : Nat) : State × Nat :=
  let d := s.disp y
  let e := s.surface y surf
  if !bit d.cfg 4 || bits d.cfg 7 5 != part then (s, 4)
  else if !bit e 0 || decide (2 < bits e 103 96) then (s.noteSurface part y surf, 4)
  else if 4 ≤ d.queue.length then (s, 3)
  else (s.setDisp y { d with queue := d.queue ++ [(surf, e)] }, 0)

/-- A flip of a tag: released under tag 0, held under a shoot, discarded once the tag has gone (R99). -/
def State.flipNow (s : State) (part tag y surf : Nat) : State × Nat :=
  if tag = 0 then s.releaseFlip part y surf
  else if !s.tagLive tag then (s, 1)
  else if 4 ≤ (s.held.filter (fun x => x.tag == tag && x.flip)).length then (s, 2)
  else ({ s with held := s.held ++ [⟨tag, true, part, y, surf⟩] }, 1)

/-- A push or flip of a deterministic workgroup is staged; its status lands when the ticket unit releases it (R300). It is a release: it waits
for the accesses of its thread that are not staged, and is discarded after a terminal response (R86). -/
def stageEffect (c : Ctx) (s : State) (rs : List Nat) (n : Nat) (x : Nat → Staged) : Out :=
  match s.wgs.find? c.wk with
  | none => .next s
  | some w =>
    if c.th.hold != [] || c.th.queue != [] then .stall
    else if c.th.term.isSome then .next s
    else if 65536 < w.stagedBytes + n then .stall
    else
      let id := c.th.freshId
      let e := pendOf id false rs []
      .next ((s.modWg c.wk (fun w => { w with staging := w.staging ++ [x id] })).modThread c.wk c.idx
        (fun t => t.addPend { e with vals := none }))

def execPresent (h : Hdr) (d a b : Opnd) (s : State) : Step1 :=
  .next (runWord h 1 (fun c s =>
    match (do
      let rs ← c.longDest d 1 1
      let y ← c.src (.int 32) a
      let f ← c.src (.int 32) b
      if 15 < y ∨ 255 < f then .error 2
      pure (rs, y, f) : Except Nat (List Nat × Nat × Nat)) with
    | .error e => .trap e 0 0
    | .ok (rs, y, f) =>
      if 8 ≤ c.th.longCount then .stall
      else if c.wg.det then stageEffect c s rs 0 (fun id => .flip c.idx id y f)
      else
        releaseFirst c s 3 (fun s =>
          let r := (s.clearFlush c.wk).flipNow c.wg.part c.wg.tag y f
          .next (longPut c r.1 rs [r.2]))) s)

end Sys2Proof.Machine
end

