-- ==== Sys2Proof/Machine/LaunchWords.lean ====
section
/-! DEFINITION. LAUNCH and RELAUNCH (R296, R337, R338): a push to a device-producer ring, held under a shoot's tag. -/

namespace Sys2Proof.Machine

/-- The entry a push writes: in a kind-0 ring the relaunch bit is the word's own (R296). -/
def pushRecord (r : Ring) (rcd : Nat) (re : Bool) : Nat := if r.kind = 0 then setBits rcd 224 224 (bnat re) else rcd

/-- How a push ends: with a status of Table 13.6, or held back at the ring's entry. -/
inductive Pushed
  | done (s : State) (status : Nat)
  | fault (va cause : Nat)
  | term (va sub : Nat)
  | snoop (va pa : Nat)

/-- A launch has written the physical bytes of a list: the regions it has written (R256). -/
def State.noteBytes (s : State) (part ltab num : Nat) (pas : List Nat) : State := pas.foldl (fun s pa => s.noteRegions part ltab num pa) s

/-- Write an entry at wr and make it visible (R338), for a launch where `by1` gives its entry of the launch table and its number. -/
def State.ringPut (s : State) (r : Ring) (rcd : Nat) (by1 : Option (Nat × Nat)) : Pushed :=
  let va := r.entry r.wr
  match s.xlate r.part va false true false with
  | .fault c => .fault va c
  | .term sub => .term va sub
  | .ok pa dup =>
    if s.hostHolds dup pa || s.linkHeld pa then .snoop va pa
    else
      let s := match by1 with
        | some (e, num) => s.noteBytes r.part e num ((List.range 128).map (pa + ·) ++ (List.range 4).map (r.addr + 16 + ·))
        | none => s
      .done ((s.writeHomeList 0 va pa (leBytes 128 rcd)).setWr r (r.wr + 1)) 0

/-- Whether a ring takes pushes of a word: a device-producer ring in use of an enabled partition, of kind 0 for RELAUNCH. -/
def State.pushRing? (s : State) (part ring : Nat) (re : Bool) : Option Ring :=
  match s.ring? part ring with
  | none => none
  | some r => if bit (s.part part).cfg 34 && r.valid && r.dev && (!re || r.kind == 0) then some r else none

/-- A push by a thread of a launch and its tag, checked in the order 4, 1 for a retired tag, 3, 2 (R296, R99). -/
def State.pushNow (s : State) (part tag ltab num ring rcd : Nat) (re : Bool) : Pushed :=
  match s.pushRing? part ring re with
  | none => .done (s.noteRing part ring) 4
  | some r =>
    if tag ≠ 0 ∧ !s.tagLive tag then .done s 1
    else if r.full then .done s 3
    else if tag = 0 then s.ringPut r (pushRecord r rcd re) (some (ltab, num))
    else if 256 ≤ (s.held.filter (fun x => x.tag == tag && !x.flip)).length then .done s 2
    else .done ({ (s.noteBytes part ltab num ((List.range 2).map (r.addr + 24 + ·))).setResv r (r.resv + 1) with held := s.held ++ [⟨tag, false, part, ring, pushRecord r rcd re⟩] }) 1

/-- The ring of a staged push, with 4,096 added for a RELAUNCH. -/
def stagedRing (ring : Nat) (re : Bool) : Nat := ring + 4096 * bnat re

/-- A thread's word cannot act until a fault or the host is answered: it stays at the word, which is no switch (R86). -/
def State.holdWord (s : State) (c : Ctx) (x : Held1) : State :=
  let s := s.modThread c.wk c.idx (fun t => { t with st := .wait, op := some .again })
  match x with
  | .fault va cause types => s.parkFor (.fetch c.wk [c.idx]) c.wg.part va cause types 1 c.wg.launch (c.wg.core / 8)
  | .snoop va pa => s.addSnoop (.fetch c.wk [c.idx]) c.wg.part va pa
  | .term _ _ => s

/-- LAUNCH and RELAUNCH alike. -/
def launchWord (d a b : Opnd) (re : Bool) (c : Ctx) (s : State) : Out :=
  match (do
    let rs ← c.longDest d 1 1
    let x ← c.src (.int 32) a
    let g ← c.src (.int 32) b
    if 4095 < g then .error 2
    let o ← c.spadOff x 16 128
    pure (rs, o, g) : Except Nat (List Nat × Nat × Nat)) with
  | .error e => .trap e 0 0
  | .ok (rs, o, g) =>
    if 8 ≤ c.th.longCount then .stall
    else
      let rcd := c.wg.spadNat o 128
      if c.wg.det then stageEffect c s rs 128 (fun id => .push c.idx id (stagedRing g re) rcd)
      else
        releaseFirst c s 2 (fun s =>
          match s.pushNow c.wg.part c.wg.tag c.wg.ltab c.wg.launch g rcd re with
          | .done s st => .next (longPut c (s.clearFlush c.wk) rs [st])
          | .fault va cause => .held (s.holdWord c (.fault va cause 2))
          | .snoop va pa => .held (s.holdWord c (.snoop va pa))
          | .term va sub =>
            .next ((s.logTerm sub c.wg.part 0 (s.coreNum c.wg.core) va (some (s.rawPa c.wg.part va))).setTerm c.wk c.idx
              ⟨16, sub, s.failAddr c.wg.part sub va, c.th.obj, c.th.off, c.len, va, 128, false, false, false, c.pre.fresh⟩))

def execLaunch (h : Hdr) (d a b : Opnd) (s : State) : Step1 := .next (runWord h 1 (launchWord d a b false) s)
def execRelaunch (h : Hdr) (d a b : Opnd) (s : State) : Step1 := .next (runWord h 1 (launchWord d a b true) s)

end Sys2Proof.Machine
end

