-- ==== Sys2Proof/Machine/Grafts.lean ====
section
/-! DEFINITION. A graft's ordered effects (R101 to R103, R109), the scrub (R107), the ticket unit of deterministic launches (R300) and
the time-out of a feedback filter (R268). -/

namespace Sys2Proof.Machine

/-! ## GRAFT_START -/

/-- The value of an outstanding write becomes known (R139). -/
def State.bindPend (s : State) (k i id : Nat) (vals : List Nat) : State :=
  s.modThread k i (fun t => { t with pend := t.pend.map (fun e =>
    if e.id = id then { e with vals := some (List.zip e.names (vals.map (BitVec.ofNat 32))) } else e) })

/-- A graft ends: the report, its d, and the thread waits for it no longer. -/
def State.endGraft (s : State) (g : Grafting) (rep : Nat) : State :=
  let s := (s.spadPut g.wk g.report 16 rep).bindPend g.wk g.idx g.id [rep % 2 ^ 32]
  let s := s.modThread g.wk g.idx (fun t => { t with hold := t.hold.filter (· != g.id) })
  { s with grafts := s.grafts.filter (fun x => decide (x ≠ g)) }

/-- A delta element of the winner lies in a line that a tag-0 deterministic window holds in ordered mode (R109). -/
def State.graftOrdered (s : State) (tag : Nat) : Bool :=
  s.deltas.any (fun d => d.1 / 2 ^ 52 == tag && s.inOrderedMode 0 (d.1 % 2 ^ 52))

/-- The first byte of the winner's versions and deltas in a line that the host may hold: its virtual and physical address. -/
def State.graftShared (s : State) (tag : Nat) : Option (Nat × Nat) :=
  if s.shared = [] then none
  else
    ((s.vers.keys ++ s.deltas.keys).filter (fun k => k / 2 ^ 52 == tag && s.shared.contains (k % 2 ^ 52 / 64))).head?.map
      (fun k => let pa := k % 2 ^ 52; (FMap.get 0 s.versVa (2 ^ 44 * tag + pa / 256) * 256 + pa % 256, pa))

/-- The winner's bytes in lines that the host keeps go without effect: their writes got a terminal response (R371). -/
def State.dropShared (s : State) (tag : Nat) : State :=
  let kept (k : Nat) : Bool := k / 2 ^ 52 != tag || !s.shared.contains (k % 2 ^ 52 / 64)
  { s with vers := s.vers.filter (fun p => kept p.1), deltas := s.deltas.filter (fun p => kept p.1) }

/-- Step 2: the held pushes land after every push already in their rings. `skip` loses those that cannot be written. -/
def State.graftPushes (s : State) (tag : Nat) (skip : Bool) : Except Held1 State :=
  (s.held.filter (fun x => x.tag == tag && !x.flip)).foldlM (fun s x =>
    match s.ring? x.part x.dst with
    | none => .ok s
    | some r =>
      let t := s.setResv r (r.resv - 1)
      match t.ringPut r x.val none with
      | .done t _ => .ok t
      | .fault va c => if skip then .ok t else .error (.fault va c 2)
      | .snoop va pa => if skip then .ok t else .error (.snoop va pa)
      | .term va sub => if skip then .ok t else .error (.term va sub)) s

/-- A flip retired as skipped (R252). -/
def Disp.skip (d : Disp) (n : Nat) : Disp := { d with stat := setBits d.stat 79 72 (satAdd 8 (bits d.stat 79 72) n) }

/-- Step 3: the held flips are released; one refused at its release is retired as skipped (R327). -/
def State.graftFlips (s : State) (tag : Nat) : State :=
  (s.held.filter (fun x => x.tag == tag && x.flip)).foldl (fun s x =>
    let r := s.releaseFlip x.part x.dst x.val
    if r.2 = 0 then r.1 else r.1.setDisp x.dst ((r.1.disp x.dst).skip 1)) s

/-- Steps 1 to 4 and the report (R101). -/
def State.graftAll (s : State) (g : Grafting) (f : ForkSet) (skip : Bool) : Except Held1 State := do
  let m := s.graftMemory f g.winner
  let owner := s.wgs.find? g.wk
  let core := (owner.map (·.core)).getD 0
  let s := (m.1.graftBreaches g.winner).foldl (fun s pa => s.logTerm 4 f.part 0 (s.coreNum core) 0 (some pa)) m.1
  let s ← s.graftPushes g.winner skip
  let s := s.graftFlips g.winner
  let s := (f.tags.filter (· != g.winner)).foldl State.pruneTag s
  let s := s.retireTag g.winner
  let s := { s with sets := s.sets.erase g.set }
  pure ((s.acquireL1 ((owner.map Wg.unit).getD 0) 3).endGraft g (forkReport m.2.first m.2.count g.winner g.set 0))

/-- GRAFT_START: the oldest graft that waits for a set starts, unless it is refused by now, waits for a window of R109, for the host
or for a fault. `skip` answers what it waited for with a failure. -/
def State.startGraft (s : State) (set : Nat) (skip : Bool) : State :=
  match s.grafts.find? (fun g => g.set == set) with
  | none => s
  | some g =>
    match s.wgs.find? g.wk with
    | none => s
    | some w =>
      let wait (x : Held1) : State :=
        match x with
        | .fault va c types => s.parkFor (.graft set) w.part va c types 1 w.launch (w.core / 8)
        | .snoop va pa => s.addSnoop (.graft set) w.part va pa
        | .term va sub =>
          let t := s.logTerm sub w.part 0 (s.coreNum w.core) va (some (s.rawPa w.part va))
          (match s.sets.find? set with
            | some f => (match t.graftAll g f true with
              | .ok t => t
              | .error _ => t)
            | none => t)
      match s.graftRefused w.part set g.winner, s.sets.find? set with
      | some st, _ => (s.freeExhausted set st).endGraft g (forkReport 0 0 g.winner set st)
      | none, none => s
      | none, some f =>
        if s.graftOrdered g.winner || (!skip && (s.parked.any (fun p => decide (p.2.who = .graft set))
            || s.snoops.any (fun p => decide (p.2.who = .graft set)))) then s
        else
          let s1 := if skip then s.dropShared g.winner else s
          match s1.graftShared g.winner with
          | some p => wait (.snoop p.1 p.2)
          | none => match s1.graftAll g f skip with
            | .ok t => t
            | .error x => wait x

def execGraftStart (set : Nat) (s : State) : Step1 := .next (s.startGraft set false)

/-! ## SCRUB_TAG_CLEAN (R107) -/

/-- The scrub reports a retired tag clean: it is free, and no spill-log space is its own any more. -/
def State.scrubClean (s : State) (tag : Nat) : State :=
  if (s.tag tag).state = 2 then
    let t := s.dropTag tag
    { t with tags := t.tags.erase tag, parts := t.parts.map (fun p => (p.1, { p.2 with scrub := p.2.scrub.erase tag })) }
  else s

/-- The scrub goes on in the background: of the spill-log lines that a retired tag still holds, a free number are given back (R107). -/
def State.scrubStep (s : State) : State :=
  if s.parts.all (fun p => p.2.scrub == []) then s
  else
    { s with
      parts := s.parts.map (fun p => (p.1, { p.2 with
        scrub := p.2.scrub.filterMap (fun x => let n := x.2 - Config.freeNat (s.fresh + 64 * p.1 + x.1) % 4; if n = 0 then none else some (x.1, n)) }))
      fresh := s.fresh + 512 }

def execScrubTagClean (tag : Nat) (s : State) : Step1 := .next (s.scrubClean tag)

/-! ## TICKET_RELEASE (R300, R88, R109) -/

/-- A staged effect leaves its workgroup's staging. -/
def State.unstage (s : State) (k : Nat) : State := s.modWg k (fun w => { w with staging := w.staging.drop 1 })

/-- A sequenced float atomic takes the next number of its address, and its line is in ordered mode from then on. -/
def State.sequence (s : State) (part e : Nat) (m : MemOp) : State :=
  if m.kind = 2 ∧ atomOrdered m.aop m.typ then
    match s.shootHost none part m.tag m.va m.width true (s.xlateFor part e m.va true true) with
    | .ok pa _ => s.modLaunch part e (fun l =>
        { l with seqs := l.seqs.put pa (FMap.get 0 l.seqs pa + 1),
                 ordered := if l.ordered.contains (pa / 256) then l.ordered else l.ordered ++ [pa / 256] })
    | _ => s
  else s

/-- The device line that a staged write must have back from the host first (R371), or the host address that no port runs to. -/
def State.stagedSnoop (s : State) (part e : Nat) (m : MemOp) : Option Nat :=
  if m.tag ≠ 0 then none
  else match s.xlateFor part e m.va m.reads m.writes with
    | .ok pa dup => if s.hostHolds dup pa || s.linkHeld pa then some pa else none
    | _ => none

/-- Release a staged store or atomic. -/
def State.releaseMem (s : State) (part e k : Nat) (m : MemOp) : State :=
  if s.heldOp m then s
  else
    match s.stagedSnoop part e m with
    | some pa => s.addSnoop (.op m) m.part m.va pa
    | none =>
      match s.tryOp m true with
      | .done t val line => ((t.sequence part e m).complete m val line).unstage k
      | .fault c => s.parkOp m c
      | .term sub => (s.unstage k).failOp m 16 sub
      | _ => s

/-- A staged push that cannot be written is lost, and its thread takes the terminal error: at the word that it stands at, since its own PC is
not kept with what it staged (log entry 21). -/
def State.losePush (s : State) (k i id sub addr va : Nat) : State :=
  let p := ((s.thread? k i).map (fun t => (t.obj, t.off))).getD (0, 0)
  ((s.unstage k).modThread k i (fun t => { t with pend := t.pend.filter (fun x => x.id != id) })).setTerm k i
    ⟨16, sub, addr, p.1, p.2, 1, va, 128, false, false, false, s.fresh⟩

/-- Release a staged push or flip; its status lands in the word's destination. -/
def State.releasePush (s : State) (part e k i id ring rcd : Nat) : State :=
  let tag := ((s.wgs.find? k).map (·.tag)).getD 0
  let num := ((s.launch? part e).map (·.num)).getD 0
  if s.parked.any (fun p => decide (p.2.who = .ticket part e)) || s.snoops.any (fun p => decide (p.2.who = .ticket part e)) then s
  else
    match s.pushNow part tag e num (ring % 4096) rcd (decide (4096 ≤ ring)) with
    | .done t st => ((t.bindPend k i id [st]).clearFlush k).unstage k
    | .fault va c => s.parkFor (.ticket part e) part va c 2 1 num (k / 256)
    | .snoop va pa => s.addSnoop (.ticket part e) part va pa
    | .term va sub =>
      (s.logTerm sub part 0 (s.coreNum (k / 32)) va (some (s.rawPa part va))).losePush k i id sub (s.failAddr part sub va) va

/-- A staged push whose ring entry is refused for good is lost, and its thread takes the terminal error. -/
def State.ticketFail (s : State) (part e : Nat) : State :=
  match List.find? (fun p => p.2.part == part && p.2.ltab == e && (match p.2.staging with
      | .push _ _ _ _ :: _ => true
      | _ => false)) s.wgs with
  | none => s
  | some (k, w) =>
    match w.staging with
    | .push i id ring _ :: _ =>
      let va := match s.ring? part (ring % 4096) with
        | some r => r.entry r.wr
        | none => 0
      (s.logTerm 3 part 0 (s.coreNum w.core) va none).losePush k i id 3 va va
    | _ => s

/-- The resident workgroup whose turn it is: the lowest of a deterministic launch not fully released. -/
def State.ticketTurn (s : State) (part e : Nat) : Option (Nat × Wg) :=
  match s.launch? part e with
  | none => none
  | some l =>
    List.find? (fun p => p.2.part == part && p.2.ltab == e && p.2.det && p.2.plot * l.wpp + p.2.wgid == l.relTicket) s.wgs

/-- TICKET_RELEASE: the oldest staged effect of the workgroup whose turn it is is released. -/
def State.ticketRelease (s : State) (part e : Nat) : State :=
  match s.ticketTurn part e with
  | none => s
  | some (k, w) =>
    match w.staging with
    | [] => s
    | .mem m _ :: _ => s.releaseMem part e k m
    | .push i id ring rcd :: _ => s.releasePush part e k i id ring rcd
    | .flip i id y surf :: _ =>
      let r := s.flipNow part w.tag y surf
      ((r.1.bindPend k i id [r.2]).clearFlush k).unstage k

def execTicketRelease (part ltab : Nat) (s : State) : Step1 := .next (s.ticketRelease part ltab)

/-! ## FEEDBACK_FILTER_TIMEOUT (R268) -/

/-- An entry that has been pending 1,024 clocks goes to its ring. -/
def State.filterTimeout (s : State) (core idx : Nat) : State :=
  let l := (s.core core).filter
  match l[idx]? with
  | none => s
  | some f =>
    if s.clock < f.born + 1024 then s
    else (s.appendFeedback core f).modCore core (fun c => { c with filter := l.eraseIdx idx })

def execFeedbackFilterTimeout (core idx : Nat) (s : State) : Step1 := .next (s.filterTimeout core idx)

end Sys2Proof.Machine
end

