-- ==== Sys2Proof/Machine/Frame.lean ====
section
/-! DEFINITION. Frame graphs at run time (R250, R251) and the displays' presentation events (R252, R328). -/

namespace Sys2Proof.Machine

/-! ## FRAME_NODE_READY (R251) -/

/-- Clocks that the anchor core's cycle counter has counted since a clock, up to another; none where no enabled column has such a core.
A reset of its column starts the counter again (R32). -/
def State.anchorClocks (s : State) (anchor t u : Nat) : Option Nat :=
  ((List.range 34).find? (fun c => (s.col c).enabled && (s.col c).num == anchor / 8)).map (fun c => u - max t (s.col c).base)

/-- Whether a node that became ready at a clock is late: past budget clocks of the anchor core after presentation event base + pres. An
event that has not occurred is in the future; event 0 is the start of the count. -/
def State.nodeLate (s : State) (h n at1 : Nat) : Bool :=
  let ev := (bits h 127 64 + bits n 63 48) % 2 ^ 64
  let d := s.disp (bits h 39 36)
  if bits d.stat 63 0 < ev then false
  else (s.anchorClocks (bits h 47 40) (FMap.get 0 d.events ev) at1).any (fun c => decide (bits n 95 64 < c))

/-- The launch-record address of a quality level; 0 where none. -/
def gnLaunch (n level : Nat) : Nat := bits n (256 + 64 * level + 56) (256 + 64 * level)

/-- What becomes of a ready node: a status, and the address of the record it runs; no address drops it. -/
def nodeAction (h n : Nat) (late : Bool) : Nat × Nat :=
  let q := bits h 35 34
  let atQ : Nat × Nat := (bnat late, gnLaunch n q)
  if !late || !bit n 4 then atQ
  else
    match ghPolicy h (bits n 7 5) with
    | 0 => atQ
    | 1 => (2, 0)
    | _ => match (([3, 2, 1].filter (fun l => decide (q < l))).find? (fun l => gnLaunch n l != 0)) with
      | some l => (3, gnLaunch n l)
      | none => atQ

/-- A node's state in its graph. -/
def State.setNode (s : State) (k n x : Nat) : State :=
  { s with graphs := s.graphs.modify k (fun g => { g with nodes := g.nodes.set n x }) }

/-- Start a node: its launch record is accepted at the submission's tag once the launch table has room, or the node is dropped, which needs
no entry. -/
def State.runNode (s : State) (k : Nat) (g : Graph) (l : Launch) (n : Nat) : Except Held1 State := do
  let t := lcTag l.rcd
  let h ← s.vGet g.part t (gsHeader l.rcd) 64
  let x ← s.vGet g.part t (gsNode l.rcd n) 64
  let a := nodeAction h x (s.nodeLate h x ((g.readyAt.find? n).getD s.clock))
  if a.2 = 0 then s.finishNode g.part g.ltab n 2 false
  else if (s.part g.part).freeEntry.isNone then pure s
  else
    let r ← s.vGet g.part t a.2 128
    let s := s.setNode k n (4 + a.1)
    s.accept g.part l.queue (setBits r 62 57 t) (some (g.ltab, n)) false

/-- A node of a graph waits for a page or for the host. -/
def State.holdNode (s : State) (k n : Nat) : State := { s with graphs := s.graphs.modify k (fun g => { g with held := some n }) }

/-- FRAME_NODE_READY: a node whose dependences have completed runs, runs late, degrades or is dropped; it waits while a page it needs is
missing. `skip` drops a node whose records cannot be read. -/
def State.frameNode (s : State) (part k n : Nat) (skip : Bool) : State :=
  match s.graphs.find? k with
  | none => s
  | some g =>
    match s.launch? g.part g.ltab with
    | none => s
    | some l =>
      let busy (x : Waiter) : Bool := decide (x = .graph part g.ltab)
      if g.part ≠ part ∨ g.nodes.length ≤ n ∨ g.nodes.getD n 2 ≠ 0
          ∨ (!skip && (s.parked.any (fun p => busy p.2.who) || s.snoops.any (fun p => busy p.2.who))) then s
      else
        let drop (s : State) : State := match s.finishNode part g.ltab n 2 true with
          | .ok t => t
          | .error _ => s
        let run : Except Held1 State := if g.isReady n then s.runNode k g l n else .ok s
        if skip then drop s
        else
        match run with
        | .ok t => t
        | .error (.fault va c types) => (s.holdNode k n).parkFor (.graph part g.ltab) part va c types 32 l.num 255
        | .error (.snoop va pa) => (s.holdNode k n).addSnoop (.graph part g.ltab) part va pa
        | .error (.term va sub) => drop (s.logTerm sub part 5 255 va (some (s.rawPa part va)))

def execFrameNodeReady (part graph node : Nat) (s : State) : Step1 := .next (s.frameNode part graph node false)

/-- A frame graph's page is answered: its nodes try again, or the one whose access is refused is dropped. -/
def State.graphAnswer (s : State) (part ltab : Nat) (fail : Bool) : State :=
  if !fail then s
  else
    match List.find? (fun g => g.2.part == part && g.2.ltab == ltab) s.graphs with
    | none => s
    | some (k, g) =>
      match g.held with
      | some n => State.frameNode { s with graphs := s.graphs.put k { g with held := none } } part k n true
      | none => s.tryComplete part ltab true

/-! ## Presentation events (R252, R328) -/

/-- A presentation event of a display: the count advances, the newest released flip takes effect and the older ones are skipped. -/
def Disp.event (d : Disp) (clock : Nat) : Disp :=
  let n := (bits d.stat 63 0 + 1) % 2 ^ 64
  let d := { d with stat := setBits d.stat 63 0 n, events := d.events.put n clock }
  match d.queue.getLast? with
  | none => d
  | some (surf, e) =>
    { d.skip (d.queue.length - 1) with queue := [], current := e, stat := setBits (d.skip (d.queue.length - 1)).stat 71 64 surf }

/-- A presentation event, with its interrupt. -/
def State.present (s : State) (y : Nat) : State :=
  let d := s.disp y
  let s := s.setDisp y (d.event s.clock)
  if bit d.time 33 then s.modSys (fun z => { z with msix := z.msix ++ [32 + y] }) else s

/-- PRESENTATION_EVENT: the reference timer's period expires for an enabled display that it drives. -/
def execPresentationEvent (disp : Nat) (s : State) : Step1 :=
  let d := s.disp disp
  .next (if 16 ≤ disp ∨ bit d.time 32 ∨ bits d.time 31 0 = 0 ∨ !bit d.cfg 4 then s else s.present disp)

/-- DISP_EVT_FIRE: a host write of fire = 1, ignored while src = 0. -/
def execDispEvtFire (disp : Nat) (s : State) : Step1 :=
  .next (if 16 ≤ disp ∨ !bit (s.disp disp).time 32 then s else s.present disp)

end Sys2Proof.Machine
end

