-- ==== Sys2Proof/Machine/Land.lean ====
section
/-! DEFINITION. What reaches threads and memory of itself: results landing (R139), terminal responses (R86), pieces becoming globally
performed (R83), L1 lines written back (R82), and the quantiser of range-format windows (R63, R64). -/

namespace Sys2Proof.Machine

/-! ## RESULT_LAND (R139, R44) -/

/-- An outstanding write has a part of CC still to write. -/
def Pend.toCC (e : Pend) : Bool := e.ccF || e.ccA

/-- Two outstanding writes share a register that is still to be written, or CC, which is one unit (R44, R139). -/
def Pend.meets (a b : Pend) : Bool := a.live.any (fun r => b.live.contains r) || (a.toCC && b.toCC)

/-- An outstanding write may land: its value is bound and no earlier one is still to write what it writes. -/
def canLand (pend : List Pend) (e : Pend) : Bool :=
  e.isBound && (pend.takeWhile (fun x => x.id != e.id)).all (fun x => !x.meets e)

/-- The registers an outstanding write still names take its values, and CC the parts it still has to write. Registers of a load hold a value
that no word has used yet (R74). -/
def Thread.landed (t : Thread) (e : Pend) : Thread :=
  let v := ((e.vals.getD []).filter (fun p => e.live.contains p.1)).foldl (fun m p => FMap.set 0 m p.1 p.2) t.v
  let x := e.ccVal.getD t.cc
  let cc := if e.ccF then { x with a := t.cc.a } else t.cc
  let cc := if e.ccA then { cc with a := x.a } else cc
  { t with v := v, cc := cc, pend := t.pend.filter (fun y => y.id != e.id), loaded := if e.mem then (t.loaded ++ e.live).dedup else t.loaded }

/-- A write of a thread lands. -/
def Thread.land (t : Thread) (id : Nat) : Thread :=
  match t.pend.find? (fun e => e.id == id) with
  | none => t
  | some e => if canLand t.pend e then t.landed e else t

/-- A level-of-detail load that lands makes CC depend on what it read. -/
def Thread.landsCC (t : Thread) (id : Nat) : Bool := t.pend.any (fun e => e.id == id && e.mem && e.ccDest && canLand t.pend e)

/-- RESULT_LAND: a load or an atomic that is not yet performed is performed now, piece by piece (R83); and an outstanding write whose value
is bound lands. -/
def State.resultLand (s : State) (k i id : Nat) : State :=
  let s := s.performOne k i (fun m => m.id == id && m.reads)
  let s := if (s.thread? k i).any (fun t => t.landsCC id) then s.depend k i else s
  s.modThread k i (fun t => t.land id)

def execResultLand (wg tid idx : Nat) (s : State) : Step1 := .next (s.resultLand wg tid idx)

/-! ## TERMINAL_RESPONSE (R86, R372) -/

/-- The outstanding accesses of a word of a thread: in its queue, or staged. -/
def State.outstandingOps (s : State) (k i id : Nat) : List MemOp :=
  let queued := ((s.thread? k i).map (fun t => t.queue)).getD []
  let staged := match s.wgs.find? k with
    | some w => w.stagedOps.filter (fun m => m.idx == i)
    | none => []
  (queued ++ staged).filter (fun m => m.id == id)

/-- An access waits no longer: its park, its snoop and its place in the staging go. -/
def State.forgetOp (s : State) (m : MemOp) : State :=
  let mine (x : Waiter) : Bool := decide (x = .op m)
  ({ s with
    parked := s.parked.filter (fun p => !mine p.2.who)
    snoops := s.snoops.filter (fun p => !mine p.2.who) } : State).modWg m.wk (fun w =>
      { w with staging := w.staging.filter (fun x => match x with
          | .mem y _ => decide (y ≠ m)
          | _ => true) })

/-- An uncorrectable error of a core's register file or scratchpad reaches the thread that reads the bad word: it takes cause 16 at its next
switch with address 0, and the error is counted and logged (R376). Which of the two it is, is free. The word is the one that the thread
issues next, and the record's PC is that of its checkpoint, if it holds one (R86). -/
def State.coreError (s : State) (k i : Nat) : State :=
  match s.wgs.find? k, s.thread? k i with
  | some w, some t =>
    if t.st = .exited then s
    else
      let u := { (s.logEcc (6 + bnat (Config.freeBit s.fresh))).logErr w.part 1 0 (s.coreNum w.core) true 0 with fresh := s.fresh + 1 }
      u.setTerm k i ⟨16, 1, 0, t.obj, t.off, s.wordsAt w t.obj t.off, 0, 0, true, false, false, s.fresh⟩
  | _, _ => s

/-- A correctable error is corrected in place and counted (R376). -/
def State.corrected (s : State) : State :=
  s.modSys (fun y => { y with eccLog := setBits y.eccLog 63 32 (satInc 32 (bits y.eccLog 63 32)) })

/-- The memories that an access may meet an uncorrectable error in: tensor store, GDDR7, L3, L2, L1 or shadow storage (R376). -/
def eccUnits : List Nat := [1, 2, 3, 4, 5, 8]

/-- The unit of the last uncorrectable error: a free one of them (log entry 26). -/
def State.eccUnit (s : State) : State :=
  { s.modSys (fun y => { y with eccLog := setBits y.eccLog 3 0 (eccUnits.getD (Config.freeNat s.fresh % 6) 2) }) with fresh := s.fresh + 1 }

/-- An error response to an outstanding access of a thread: it is terminal. `sub` is a terminal sub-cause (R372). A sub-cause 1 where no such
access is outstanding is an error of the core's own memories, and a `sub` of 0 one that is corrected (R376, log entry 26). A scratchpad
answers with no other sub-cause than 1. -/
def State.terminalResponse (s : State) (k i id sub : Nat) : State :=
  if sub = 0 then s.corrected
  else
    match s.outstandingOps k i id with
    | [] => if sub = 1 then s.coreError k i else s
    | m :: _ =>
      if 5 < sub ∨ (m.spad ≠ 0 ∧ sub ≠ 1) then s
      else
        let s := (s.failOp m 16 sub).forgetOp m
        if sub = 1 ∧ m.spad = 0 then s.eccUnit else s

/-! ## STORE_GLOBALLY_PERFORMED and DIRTY_LINE_WRITE_BACK (R82 to R84) -/

/-- STORE_GLOBALLY_PERFORMED: a store that is not yet performed enters its core's L1 or goes home, as its order has it; one that is
performed becomes globally performed. -/
def State.storePerformed (s : State) (k i id : Nat) : State :=
  let ready := (s.readyOps k i).any (fun m => m.id == id && m.kind == 1)
  if ready then s.performOne k i (fun m => m.id == id && m.kind == 1) else s.globally k i id

def execStoreGloballyPerformed (wg tid idx : Nat) (s : State) : Step1 := .next (s.storePerformed wg tid idx)

/-- A dirty line that an uncorrectable error spoils at its write-back (R376): in device memory its granule fails from now on, or all four of
its 256-byte line where the error cannot be placed; in host memory nothing is sent. Its physical address is logged. A shoot's line fails in
its version alone. -/
def State.spoiledLine (s : State) (u tag pa : Nat) : State :=
  let k := lineKey u tag pa
  let t := ((s.setLine k none).logEcc 5).logErr 0 1 7 255 false pa
  if bit pa 51 then t
  else
    let gs := if Config.freeBit s.fresh then [pa / 64] else (List.range 4).map (fun i => pa / 256 * 4 + i)
    { t with poison := gs.foldl (fun m g => m.put (granuleKey tag g) (List.range 64)) t.poison, fresh := t.fresh + 1 }

/-- A line that a workgroup's L1 holds of a physical core, the unit that does; where several do, a free number says which. -/
def State.lineHolder (s : State) (core tag pa : Nat) : Nat :=
  let l := (s.l1.filter (fun e => lineTag e.1 == tag && lineAddr e.1 / 64 == pa / 64 && unitCore (lineUnit e.1) == core
    && !isBuf (lineUnit e.1))).map (fun e => lineUnit e.1)
  l.getD (Config.freeNat s.fresh % max l.length 1) core

/-- A unit's L1 takes a line before a load asks for it, with the bytes that the home holds now (R74: any load may return any value that an
allowed execution gives it; log entry 21). -/
def State.fillEarly (s : State) (u tag pa : Nat) : State :=
  if s.wgs.any (fun w => w.2.unit == u && w.2.tag == tag) && s.tableOpen pa true false && !s.poisonedFor (some u) tag (pa / 64 * 64) 64 then
    s.fillL1 u tag pa
  else s

/-- An L1 writes a line back of itself and drops it, or drops a line that a load filled (R82). `core` names a physical core; 2^16 added to it
says that the line meets an uncorrectable error there; and from 2^17 on it names a unit, whose L1 takes the line early where it does not
hold it (log entries 21 and 26). -/
def execDirtyLineWriteBack (core tag line : Nat) (s : State) : Step1 :=
  let pa := 64 * line
  let u := if core < 2 ^ 17 then s.lineHolder (core % 2 ^ 16) tag pa else core - 2 ^ 17
  let held := s.l1.find? (lineKey u tag pa)
  .next (if decide (2 ^ 16 ≤ core ∧ core < 2 ^ 17) && held.any (fun l => l.dirty != []) then s.spoiledLine u tag pa
    else if decide (2 ^ 17 ≤ core) && held.isNone then s.fillEarly u tag pa
    else s.flushLine u tag pa)

/-! ## RANGE_FMT_WRITEBACK (R63, R64) -/

/-- The quotient of an expanded value by a block's scale. An infinite value keeps its sign (R115); a finite one that is not zero overflows
every format under a scale of zero, which gives no quotient (R63, log entry 45). -/
def stQuo (v sc : XR) : XR :=
  match v, sc with
  | _, .nan => .nan
  | .inf n, _ => .inf n
  | .fin s n _, .fin t 0 _ => .fin (xor s t) (if n = 0 then 0 else 2 ^ 4096) 1
  | _, _ => XR.quo v sc

/-- Whether a quotient overflows a stored format. -/
def stOverflows (f : StFmt) (x : XR) : Bool :=
  match f, x with
  | .flt g, .nan => (fmtNan g).isNone
  | .flt g, .inf _ => (fmtInf g).isNone
  | .flt g, .fin s n d => n != 0 && decide (fmtMax g < roundMag g .rne s n d 0 0)
  | .int g, .fin s n d =>
    let i := roundInt .rne 0 0 (.fin s n d)
    decide (i < intMin g) || decide (intMax g < i)
  | .int _, _ => true

/-- The stored encoding of a quotient that does not overflow. -/
def stRound (f : StFmt) (x : XR) : Nat :=
  match f with
  | .flt g => roundRne g x
  | .int g => wrapInt (intWidth g) (roundInt .rne 0 0 x)

/-- saturate_finite: a NaN gives 0, anything else the largest finite value of its sign. -/
def stSaturate (f : StFmt) (x : XR) : Nat :=
  match f with
  | .flt g => if x.isNan then 0 else fmtSign g x.neg? + fmtMax g
  | .int g => if x.isNan then 0 else wrapInt (intWidth g) (if x.neg? then intMin g else intMax g)

/-- The next value of a scale; one at its largest finite value, or that is no number, stays. -/
def raiseScale (f : FFmt) (x : Nat) : Nat :=
  if f = .e8m0 then (if x < 254 then x + 1 else x)
  else if x < 0x7E then x + 1
  else if x < 0x80 ∨ x = 0xFF then x
  else if x = 0x80 then 1
  else x - 1

def rfDesc (r b : Nat) : Nat := rfScBase r + 2 * b
def rfElems (r b : Nat) : List Nat := (List.range (rfBlock r)).map (fun j => b * rfBlock r + j)

/-- The scale a block is stored with: raised at most twice while an element overflows. -/
def chooseScale (r : Nat) (vals : List XR) : Nat → Nat → Nat
  | 0, sc => sc
  | n + 1, sc =>
    if vals.any (fun v => stOverflows (rfStFmt r) (stQuo v (rfScale r sc))) then chooseScale r vals n (raiseScale (rfScFmt r) sc)
    else sc

/-- Whether the probe window of a block holds a valid entry of one of its elements. -/
def State.blockHasOut (s : State) (r b : Nat) : Bool :=
  (probeWindow r b).any (fun k => let e := s.outlier r k; bit e 127 && bits e 111 64 / rfBlock r == b)

/-- Write hasout of a block's descriptor. -/
def State.setHasOut (s : State) (r b : Nat) (x : Bool) : State := s.wrNat (rfDesc r b + 1) 1 (bnat x)

/-- free_outlier. -/
def State.freeOutlier (s : State) (r b i : Nat) : State :=
  match s.outlierOf r b i with
  | none => s
  | some k =>
    let s := s.wrNat (rfOutBase r + 16 * k) 16 (setBits (s.outlier r k) 127 127 0)
    if s.blockHasOut r b then s else s.setHasOut r b false

/-- The entry append_outlier writes, if the window has room. -/
def State.outlierRoom (s : State) (r b : Nat) : Option Nat := (probeWindow r b).find? (fun k => !bit (s.outlier r k) 127)

/-- One element of a block under its scale; `drop` counts the elements saturated for lack of room. -/
def quantiseElem (r b sc : Nat) (acc : State × Nat) (e : Nat × XR) : State × Nat :=
  let t := acc.1.freeOutlier r b e.1
  let x := stQuo e.2 (rfScale r sc)
  if stOverflows (rfStFmt r) x then
    match t.outlierRoom r b with
    | some k =>
      let t := t.wrNat (rfOutBase r + 16 * k) 16 (2 ^ 127 + e.1 * 2 ^ 64 + roundRne .f32 e.2)
      ((t.setHasOut r b true).putStored r e.1 0, acc.2)
    | none => (t.putStored r e.1 (stSaturate (rfStFmt r) x), acc.2 + 1)
  else (t.putStored r e.1 (stRound (rfStFmt r) x), acc.2)

/-- quantise_block of a window's block. R63 states no order of its elements: they are taken in rising order, so that the first that overflow
get the free outlier entries (DESIGN CHOICE, log entry 45). -/
def State.quantise (s : State) (ctl win r b : Nat) : State :=
  let w := rfExpBytes r
  let els := rfElems r b
  let vals := els.map (fun i => fmtValue (rfExp r) (s.baseNat (rfBase r + i * w) w))
  let sc := chooseScale r vals 2 (s.rdNat (rfDesc r b) 1)
  let t := s.wrNat (rfDesc r b) 1 sc
  let q := (List.zip els vals).foldl (quantiseElem r b sc) (t, 0)
  let lo := rfBase r + b * rfBlock r * w
  let t := { q.1 with expanded := q.1.expanded.filter (fun p => !(decide (lo ≤ p.1) && decide (p.1 < lo + rfBlock r * w))) }
  if q.2 = 0 then t
  else
    let reg := setBits (setBits r 254 236 (satAdd 19 (bits r 254 236) q.2)) 255 255 1
    t.modSys (fun y => { y with rangeFmt := FMap.set 0 y.rangeFmt (16 * ctl + win) reg })

/-- A granule of the block's stored elements, descriptor or outliers fails (R376). -/
def State.blockFails (s : State) (r b : Nat) : Option Nat :=
  let w := stWidth (rfStFmt r)
  let els := (List.range ((rfBlock r * w + 7) / 8)).map (fun j => rfStBase r + b * rfBlock r * w / 8 + j)
  let outs := (probeWindow r b).flatMap (fun k => (List.range 16).map (fun j => rfOutBase r + 16 * k + j))
  (els ++ [rfDesc r b, rfDesc r b + 1] ++ outs).find? (fun a => s.poisoned a 1)

/-- RANGE_FMT_WRITEBACK: a controller writes back a block of an enabled window that holds a written byte. An uncorrectable error in
its arrays is logged for the write-back, and the block's written bytes are lost with it (R376). -/
def State.rangeWriteback (s : State) (ctl win b : Nat) : State :=
  let r := FMap.get 0 s.sys.rangeFmt (16 * ctl + win)
  let lo := rfBase r + b * rfBlock r * rfExpBytes r
  let hi := lo + rfBlock r * rfExpBytes r
  if 16 ≤ win ∨ !rfEnabled r ∨ ctlOf lo ≠ ctl ∨ rfLimit r ≤ lo ∨ s.window? lo ≠ some (win, r)
      ∨ !s.expanded.any (fun p => decide (lo ≤ p.1 ∧ p.1 < hi)) then s
  else
    match s.blockFails r b with
    | some a =>
      let t := (s.logEcc 2).logErr 0 1 7 255 false a
      { t with expanded := t.expanded.filter (fun p => !(decide (lo ≤ p.1) && decide (p.1 < hi))) }
    | none => s.quantise ctl win r b

def execRangeFmtWriteback (ctl win blk : Nat) (s : State) : Step1 := .next (s.rangeWriteback ctl win blk)

end Sys2Proof.Machine
end

