-- ==== Sys2Proof/Machine/Matrix.lean ====
section
/-! DEFINITION. The matrix engines (spec/10): a task starts, is checked or refused (R216, R218, R229), computes its output blocks
(R127, R215, R219 to R224), parks and resumes (R230), and ends. -/

namespace Sys2Proof.Machine

/-! ## Formats of a task -/

/-- The tensor code and format of a destination (R221, Table 10.2). -/
def dstCode (isInt : Bool) (dfmt : Nat) : Nat :=
  match dfmt with
  | 0 => if isInt then 29 else 28
  | 1 => 1
  | 2 => 0
  | 3 => 2
  | _ => 7

/-- The class a destination format belongs to, where it has only one. -/
def dstClass (dfmt : Nat) : Option Bool := if dfmt = 0 then none else some (dfmt == 4)

/-- What a task's record means: its formats, and the rows and elements of A. -/
structure Plan where
  fa : MFmt
  fb : MFmt
  fd : MFmt
  aRows : Nat
  aK : Nat
deriving DecidableEq, Repr

/-- The plan of a record whose format codes are legal. -/
def planOf (r : Nat) : Option Plan :=
  match mfmt (tkAfmt r), mfmt (tkBfmt r) with
  | some fa, some fb =>
    (mfmt (dstCode fa.isInt (tkDfmt r))).map (fun fd =>
      { fa := fa, fb := fb, fd := fd, aRows := if tkTrans r then tkK r else tkM r, aK := if tkTrans r then tkM r else tkK r })
  | _, _ => none

/-! ## Malformed records (R218) -/

/-- A scratchpad operand's address and pitch meet R218 for a row length. -/
def spadShape (d n : Nat) : Bool :=
  bits d 1 0 != 0 || (bits d 23 2 % 16 == 0 && bits d 41 24 % 16 == 0 && decide (n ≤ bits d 41 24))

/-- A descriptor of one of the given kinds, its reserved bits zero. -/
def kindOk (d : Nat) (kinds : List Nat) : Bool := kinds.contains (bits d 1 0) && descRsvd d == 0

/-- The record is well formed but for the formats of tensor entries (R218, R117). -/
def taskFormed (r : Nat) : Bool :=
  let deps := bits (tkDep r 0) 15 7 == 0 && bits (tkDep r 1) 15 7 == 0
  deps && (match tkOp r with
    | 0 =>
      (match planOf r with
        | none => false
        | some p =>
          decide (tkAfmt r < 28) && decide (tkBfmt r < 28) && decide (tkDfmt r < 5) && !p.fa.sparse && p.fa.isInt == p.fb.isInt
            && (match dstClass (tkDfmt r) with
              | some c => c == p.fa.isInt
              | none => true)
            && !(tkTrans r && p.fa.block != 0) && !(p.fb.sparse && tkK r % 4 != 0)
            && kindOk (tkA r) [0, 1, 2] && kindOk (tkB r) [2, 3] && kindOk (tkD r) [0, 1, 2]
            && spadShape (tkA r) (p.fa.rowLen p.aK) && spadShape (tkD r) (p.fd.rowLen (tkN r)))
    | 1 =>
      (match mfmt (tkBfmt r) with
        | none => false
        | some fb =>
          decide (tkBfmt r < 28) && tkAfmt r == 0 && tkDfmt r == 0 && !tkTrans r && !tkAcc r && !tkSat r && tkM r == 16
            && !(fb.sparse && tkK r % 4 != 0) && kindOk (tkA r) [0, 1, 2] && tkB r == 0 && kindOk (tkD r) [3]
            && spadShape (tkA r) (fb.rowLen (tkK r)))
    | 2 => bits r 43 4 == 0 && tkA r == 0 && tkB r == 0 && tkD r == 0
    | _ => false)

/-- A tensor entry holds another format than the operand's (R221): looked at before R60 is (R229), whatever else the entry says. -/
def wrongFmt (d e code : Nat) : Bool := bits d 1 0 == 2 && tenFmt e != code

/-- Bytes of a weight-range operand: rows of `n` bytes, each rounded up to 16, in a range inside the buffer (R224). -/
def weightOk (d rows n : Nat) : Bool :=
  decide (bits d 12 2 + bits d 23 13 < 2048) && decide (rows * roundUp n 16 ≤ (bits d 23 13 + 1) * 256)

/-- The rows of a weight range. -/
def weightRows (col d n : Nat) (f : MFmt) (k : Nat) : Nat → OpRow :=
  fun j => ⟨.flat (2 ^ 20 + col) (bits d 12 2 * 256 + j * roundUp n 16), 0, f.preLen k, f.preLen k + f.metaLen k, 0, 0, 0⟩

/-- The rows of A, B and the destination of a task. -/
structure Rows where
  a : Nat → OpRow
  b : Nat → OpRow
  d : Nat → OpRow

/-- The first of a task's operands, by descriptor, that is refused: one that R221 refuses before one, a tensor, that R60 or R95 does
(R229). -/
def firstRefused (l : List (Nat × Except (Option Refused) (Nat → OpRow))) : Option Refused :=
  let tensor (p : Nat × Except (Option Refused) (Nat → OpRow)) : Bool := bits p.1 1 0 == 2
  ((l.filter (fun p => !tensor p) ++ l.filter tensor).findSome? (fun p => match p.2 with
    | .ok _ => none
    | .error e => some e)).getD none

/-- The rows of a multiply's operands, or what refuses it; none logs nothing. -/
def State.mmaRows (s : State) (t : Task) (p : Plan) (recs : List Nat) : Except (Option Refused) Rows :=
  let r := t.rcd
  let q := t.req
  let a := s.opRows q p.fa (tkA r) (recs.getD 0 0) p.aRows p.aK true false
  let b := if bits (tkB r) 1 0 = 3 then
      (if weightOk (tkB r) (tkN r) (p.fb.rowLen (tkK r)) then
        .ok (weightRows (t.core / 8) (tkB r) (p.fb.rowLen (tkK r)) p.fb (tkK r))
       else .error none)
    else s.opRows q p.fb (tkB r) (recs.getD 1 0) (tkN r) (tkK r) true false
  let d := s.opRows q p.fd (tkD r) (recs.getD 2 0) (tkM r) (tkN r) (tkAcc r) true
  match a, b, d with
  | .ok a, .ok b, .ok d => .ok ⟨a, b, d⟩
  | a, b, d => .error (firstRefused [(tkA r, a), (tkB r, b), (tkD r, d)])

/-- The rows of a weight load: source and weight range. -/
def State.loadRows (s : State) (t : Task) (fb : MFmt) (recs : List Nat) : Except (Option Refused) Rows := do
  let r := t.rcd
  let a ← s.opRows t.req fb (tkA r) (recs.getD 0 0) (tkN r) (tkK r) true false
  if !weightOk (tkD r) (tkN r) (fb.rowLen (tkK r)) then .error none
  let g := weightRows (t.core / 8) (tkD r) (fb.rowLen (tkK r)) fb (tkK r)
  pure ⟨a, g, g⟩

/-- The record or entry that a task's descriptor names now: a buffer record is the one bound to the slot, as last bound where its launch has
left the launch table (R221). -/
def State.taskRec (s : State) (t : Task) (d : Nat) : Nat :=
  match t.slots with
  | some q => if bits d 1 0 = 1 then FMap.get 0 q (bits d 5 2) else s.descRec t.req d
  | none => s.descRec t.req d

/-- The records that a task's descriptors name now: A, B and destination. -/
def State.taskRecs (s : State) (t : Task) : List Nat :=
  [s.taskRec t (tkA t.rcd), s.taskRec t (tkB t.rcd), s.taskRec t (tkD t.rcd)]

/-- The status that the checks of R229 give, with what is logged; none where the task may run. A buffer row that does not start 16-byte
aligned (R219) gives status 1, as a misaligned scratchpad row does: the spec names no status for it (log entry 43). -/
def State.taskCheck (s : State) (t : Task) (recs : List Nat) : Option (Nat × Option Refused) :=
  let r := t.rcd
  if !taskFormed r then some (1, none)
  else
    match tkOp r with
    | 0 =>
      (match planOf r with
        | none => some (1, none)
        | some p =>
          if wrongFmt (tkA r) (recs.getD 0 0) (tkAfmt r) || wrongFmt (tkB r) (recs.getD 1 0) (tkBfmt r)
            || wrongFmt (tkD r) (recs.getD 2 0) (dstCode p.fa.isInt (tkDfmt r)) || bufMisaligned (tkA r) (recs.getD 0 0) p.aRows
            || bufMisaligned (tkD r) (recs.getD 2 0) (tkM r) then some (1, none)
          else match s.mmaRows t p recs with
            | .ok _ => none
            | .error e => some (2, e))
    | 1 =>
      (match mfmt (tkBfmt r) with
        | none => some (1, none)
        | some fb =>
          if wrongFmt (tkA r) (recs.getD 0 0) (tkBfmt r) || bufMisaligned (tkA r) (recs.getD 0 0) (tkN r) then some (1, none)
          else match s.loadRows t fb recs with
            | .ok _ => none
            | .error e => some (2, e))
    | _ => none

/-! ## Starting (R216, R227, R229) -/

/-- The tasks before it on its stream have completed; those of an open shadow region have run. -/
def State.prevDone (s : State) (t : Task) : Bool :=
  let x := s.stream t.part (tkStream t.rcd)
  x.isDone (t.num - 1) || x.ran.any (fun y => y.num + 1 == t.num)

/-- A task is ready (R216); one that was refused at acceptance or pruned waits for no dependence. A halted partition's starts only while
a swap-out in progress waits for it (log entry 16). -/
def State.taskReady (s : State) (t : Task) : Bool :=
  t.eng.isNone && !t.parked && s.prevDone t && (s.startable t.part || s.swappingOut t.part)
    && (t.status.isSome || t.pruned || t.recs != []
      || (tkDeps t.rcd).all (fun d => decide (d.2 ≤ (s.stream t.part d.1).counter)))

/-- The ready task accepted earliest; in one clock, that of the lower stream. -/
def State.nextTask (s : State) (col : Nat) : Option Task :=
  ((s.col col).tasks.filter s.taskReady).foldl (fun best t =>
    match best with
    | none => some t
    | some b => if t.since < b.since ∨ (t.since = b.since ∧ tkStream t.rcd < tkStream b.rcd) then some t else best) none

/-- Replace a task in its column's scheduler. -/
def State.putTask (s : State) (t : Task) : State :=
  s.modCol (t.core / 8) (fun c => { c with tasks := c.tasks.map (fun x =>
    if x.num == t.num && x.part == t.part && tkStream x.rcd == tkStream t.rcd then t else x) })

/-- Bytes of a task's result. -/
def resultBytes (r : Nat) : Nat :=
  match tkOp r with
  | 0 => (match planOf r with
    | some p => tkM r * tkN r * stWidth p.fd.elem / 8
    | none => 0)
  | 1 => (match mfmt (tkBfmt r) with
    | some fb => tkN r * roundUp (fb.rowLen (tkK r)) 16
    | none => 0)
  | _ => 0

/-- A shadowed task's result fits in what is left of its stream's 4 MiB (R234). -/
def State.shadowFits (s : State) (t : Task) : Bool :=
  let used := ((s.stream t.part (tkStream t.rcd)).ran.map (fun x => if x.status = some 0 then resultBytes x.rcd else 0)).foldl (· + ·) 0
  decide (used + resultBytes t.rcd ≤ 4 * 1024 * 1024)

/-- Log why a task was refused. -/
def State.logRefused (s : State) (core : Nat) (e : Option Refused) : State :=
  match e with
  | some x => s.logEngine core x.cause x.addr x.coord
  | none => s

/-- TASK_START: a free engine takes the column's next ready task, which is checked; a refused task, a JOIN, a pruned one and one
whose dependence can never be met complete at once. -/
def State.taskStart (s : State) (col eng : Nat) : State :=
  if 4 ≤ eng ∨ (s.col col).tasks.any (fun t => t.eng == some eng) then s
  else
    match s.nextTask col with
    | none => s
    | some t =>
      if t.recs != [] then s.putTask { t with eng := some eng }
      else
        match t.status with
        | some st => s.endTask t st
        | none =>
          if t.pruned then s.endTask t 3
          else
            let recs := s.taskRecs t
            match s.taskCheck t recs with
            | some (st, e) => (s.logRefused t.core e).endTask t st
            | none =>
              if tkOp t.rcd = 2 then s.endTask t 0
              else if t.shadowed && !s.shadowFits t then s.endTask t 7
              else s.putTask { t with eng := some eng, recs := recs }

/-! ## Output blocks (R127, R215, R222, R223) -/

/-- The sum of a chunk's products in f32: NaN or an infinity as R127 says, an exact zero as +0. -/
def chunkSum (ps : List XR) : Nat :=
  let x := xsum .rne ps
  if x.isZero then 0 else roundRne .f32 x

/-- A finite value as an integer. -/
def XR.toInt : XR → Int
  | .fin n m d => if n then -((m / d : Nat) : Int) else ((m / d : Nat) : Int)
  | _ => 0

/-- matrix_element of R127 over the products in chunks, from an accumulator's bits. -/
def accumulate (isInt sat : Bool) (chunks : List (List XR)) (acc : Nat) : Nat :=
  chunks.foldl (fun acc ps =>
    if isInt then
      let x := sInt 32 acc + (ps.map XR.toInt).foldl (· + ·) 0
      wrapInt 32 (if sat then clampInt (-(2 ^ 31)) (2 ^ 31 - 1) x else x)
    else roundRne .f32 (XR.add .rne (fmtValue .f32 acc) (fmtValue .f32 (chunkSum ps)))) acc

/-- Cut a list into pieces of `n`. The fuel is the length of the list. -/
def chunksOf {α : Type} (n : Nat) : Nat → List α → List (List α)
  | 0, _ => []
  | _, [] => []
  | f + 1, l => l.take n :: chunksOf n f (l.drop n)

/-- An accumulator written in the destination's format (R223). -/
def narrow (dfmt : Nat) (sat : Bool) (acc : Nat) : Nat :=
  match dfmt with
  | 0 => acc
  | 1 => (roundTo .f16 .rne sat 0 0 (fmtValue .f32 acc)).enc
  | 2 => (roundTo .bf16 .rne sat 0 0 (fmtValue .f32 acc)).enc
  | 3 => (roundTo .e4m3 .rne sat 0 0 (fmtValue .f32 acc)).enc
  | _ => (toInteger .s8 .rne 0 (.ofInt (sInt 32 acc))).enc

/-- An old destination element widened into the accumulator's format (R223). -/
def widenAcc (isInt : Bool) (fd : MFmt) (x : Nat) : Nat :=
  if isInt then wrapInt 32 (sInt (stWidth fd.elem) x) else roundRne .f32 (stValue fd.elem x)

/-- The bytes of destination element (i, j): its row, the first byte and the width in bytes. -/
def dstLocs (rs : Rows) (fd : MFmt) (i j : Nat) : List Loc :=
  let r := rs.d i
  let w := stWidth fd.elem / 8
  r.row.locs (r.el + (r.e0 + j) * w) w

/-- Indices of the block's rows and columns. -/
def blockRows (t : Task) : List Nat := (List.range 16).map (fun i => 16 * (t.block / (tkN t.rcd / 16)) + i)
def blockCols (t : Task) : List Nat := (List.range 16).map (fun j => 16 * (t.block % (tkN t.rcd / 16)) + j)

/-- The bytes that a block reads of A and of B. -/
def blockReads (t : Task) (p : Plan) (rs : Rows) : List Loc :=
  let ar := if tkTrans t.rcd then List.range (tkK t.rcd) else blockRows t
  ar.flatMap (fun i => (rs.a i).locs p.fa p.aK) ++ (blockCols t).flatMap (fun j => (rs.b j).locs p.fb (tkK t.rcd))

/-- The bytes of A and B. -/
def allReads (t : Task) (p : Plan) (rs : Rows) : List Loc :=
  (List.range p.aRows).flatMap (fun i => (rs.a i).locs p.fa p.aK) ++ (List.range (tkN t.rcd)).flatMap (fun j => (rs.b j).locs p.fb (tkK t.rcd))

/-- What a block's destination bytes hold before it writes them, where the task also reads them as an operand. -/
def State.overwritten (s : State) (t : Task) (p : Plan) (rs : Rows) (dsts : List Loc) : List (Nat × Nat × Byte) :=
  let reads := allReads t p rs
  (dsts.filter (fun l => reads.contains l && !t.was.any (fun x => x.1 == l.space && x.2.1 == l.addr))).map
    (fun l => (l.space, l.addr, s.locRead t.req l))

/-- An element of an operand as a block reads it: where earlier blocks of the task have overwritten it, the old value or the new one
(R222). `n` names the element among those the block reads. -/
def State.blockElem (s : State) (t : Task) (f : MFmt) (r : OpRow) (n k : Nat) : XR :=
  if t.was = [] ∨ !Config.freeBit ((s.clock * 2 ^ 20 + n) * 2 ^ 20 + k) then s.opElem t.req f r k
  else (t.was.foldl (fun s x => s.locWrite t.req ⟨x.1, x.2.1⟩ x.2.2) s).opElem t.req f r k

/-- Element (i, j) of a task's result as it is written. -/
def State.mmaElem (s : State) (t : Task) (p : Plan) (rs : Rows) (i j : Nat) : Nat :=
  let q := t.req
  let prods := (List.range (tkK t.rcd)).map (fun k =>
    let a := if tkTrans t.rcd then s.blockElem t p.fa (rs.a k) (2 * k) i else s.blockElem t p.fa (rs.a i) (2 * i) k
    XR.mul a (s.blockElem t p.fb (rs.b j) (2 * j + 1) k))
  let old := if tkAcc t.rcd then
      widenAcc p.fa.isInt p.fd (ofLe ((dstLocs rs p.fd i j).map (fun l => if t.shadowed then s.shadowRead t l else s.locRead q l)))
    else 0
  narrow (tkDfmt t.rcd) (tkSat t.rcd)
    (accumulate p.fa.isInt (tkSat t.rcd) (chunksOf (min p.fa.kpc p.fb.kpc) prods.length prods) old)

/-- The task's scheduler has it as pruned: the writes of a block may have pruned their own tag (R106). -/
def State.taskPruned (s : State) (t : Task) : Bool :=
  (s.col (t.core / 8)).tasks.any (fun x => x.num == t.num && x.part == t.part && tkStream x.rcd == tkStream t.rcd && x.pruned)

/-- The block is done: the next one, or the end of the task (R228), at once where its tag is pruned (R105). A weight load has no output
block. -/
def State.blockDone (s : State) (t : Task) : State :=
  let t := { t with block := if tkOp t.rcd = 1 then 0 else t.block + 1, pruned := s.taskPruned t }
  if t.pruned then s.endTask t 3
  else if tkOp t.rcd ≠ 1 ∧ t.block < (tkM t.rcd / 16) * (tkN t.rcd / 16) then s.putTask t
  else s.endTask t 0

/-- An engine's accesses are held back: the task parks (R230), or ends with status 5 (R231). -/
def State.taskHeld (s : State) (t : Task) (x : Held1) : State :=
  match x with
  | .term va sub => (s.engineTerm t.req 2 4 va sub).endTask t 5
  | _ => (s.engineWait t.req (.task t.part (tkStream t.rcd) t.num) 4 x).putTask { t with parked := true, ask := s.clock }

/-- A result is computed: a shadowed task's goes to the shadow of its stream at once (R234); any other's is written by later events. -/
def State.putResult (s : State) (t : Task) (ls : List (Loc × Byte)) : State :=
  let l := ls.map (fun p => (p.1.space, p.1.addr, p.2))
  if t.shadowed then s.blockDone { t with out := t.out ++ l } else s.putTask { t with todo := l }

/-- Pieces of a result that an engine writes next: some of those left, as free numbers say, so that two tasks that write one tile may
interleave in any order (R80, R225). A piece is 32 bits of a destination (R223), or 256 bytes of the weight buffers. -/
def Task.nextPieces (t : Task) (clock : Nat) : List (List (Nat × Nat × Byte)) × List (List (Nat × Nat × Byte)) :=
  let ps := chunksOf (if tkOp t.rcd = 1 then 256 else 4) t.todo.length t.todo
  let ps := ps.rotateLeft (Config.freeNat (2 * clock))
  let n := 1 + Config.freeNat (2 * clock + 1) % max ps.length 1
  (ps.take n, ps.drop n)

/-- An engine writes pieces of its task's result; once none is left the block is done. Those of a pruned task for memory are acknowledged
without effect: the tag may be another shoot's by now (R105). -/
def State.writeResult (s : State) (t : Task) : State :=
  let p := t.nextPieces s.clock
  let now := p.1.flatten.filter (fun e => !t.pruned || e.1 != 0)
  match s.engineHeld t.req [] (now.map (fun e => ⟨e.1, e.2.1⟩)) false with
  | some x => s.taskHeld t x
  | none =>
    let s := now.foldl (fun s e => s.locWrite t.req ⟨e.1, e.2.1⟩ e.2.2) s
    let t := { t with todo := p.2.flatten, pruned := s.taskPruned t }
    if t.todo = [] then s.blockDone t else s.putTask t

/-- The bytes that a weight load writes, in ascending places: each row's scales, metadata and elements, with zeros where the layout pads
(R219, R224). -/
def State.weightBytes (s : State) (q : Req) (fb : MFmt) (rs : Rows) (n k : Nat) : List (Loc × Byte) :=
  (List.range n).flatMap (fun j =>
    let a := rs.a j
    let d := rs.d j
    let part (at8 len from8 w m : Nat) : List (Loc × Byte) :=
      (List.range len).map (fun i =>
        (d.row.byte (at8 + i), BitVec.ofNat 8 (if 8 * i < m * w then s.rowBits q a.row (from8 + 8 * i) (min 8 (m * w - 8 * i)) else 0)))
    let w := stWidth fb.elem
    part d.pre (fb.preLen k) (8 * (a.pre + a.s0)) 8 (if fb.block = 0 then 0 else (k + fb.block - 1) / fb.block)
      ++ part d.mdat (fb.metaLen k) (8 * a.mdat + 4 * a.g0) 4 (k / 4)
      ++ part d.el (roundUp (fb.rowLen k) 16 - fb.preLen k - fb.metaLen k) (8 * a.el + a.e0 * w) w (if fb.sparse then k / 2 else k))

/-- A weight load reads its rows (R224, R225). -/
def State.loadWeights (s : State) (t : Task) : State :=
  match mfmt (tkBfmt t.rcd) with
  | none => s.endTask t 1
  | some fb =>
    match s.loadRows t fb t.recs with
    | .error e => (s.logRefused t.core e).endTask t 2
    | .ok rs =>
      let reads := (List.range (tkN t.rcd)).flatMap (fun j => (rs.a j).locs fb (tkK t.rcd))
      match s.engineHeld t.req reads [] false with
      | some x => s.taskHeld t x
      | none => (s.noteLocs t.req reads).putResult t (s.weightBytes t.req fb rs (tkN t.rcd) (tkK t.rcd))

/-- An output block of a multiply is computed: what it reads is read now (R222). -/
def State.mmaBlock (s : State) (t : Task) : State :=
  match planOf t.rcd with
  | none => s.endTask t 1
  | some p =>
    match s.mmaRows t p t.recs with
    | .error e => (s.logRefused t.core e).endTask t 2
    | .ok rs =>
      let q := t.req
      let cells := (blockRows t).flatMap (fun i => (blockCols t).map (fun j => (i, j)))
      let dsts := cells.flatMap (fun c => dstLocs rs p.fd c.1 c.2)
      let reads := blockReads t p rs
      let old := if tkAcc t.rcd then dsts else []
      match s.engineHeld q (reads ++ old) (if t.shadowed then [] else dsts) false with
      | some x => s.taskHeld t x
      | none =>
        let outs := cells.flatMap (fun c =>
          List.zip (dstLocs rs p.fd c.1 c.2) (leBytes (stWidth p.fd.elem / 8) (s.mmaElem t p rs c.1 c.2)))
        let t := { t with was := if t.shadowed then t.was else t.was ++ s.overwritten t p rs dsts }
        (s.noteLocs q (reads ++ old)).putResult t outs

/-- TASK_BLOCK_COMPLETE: the task on an engine goes on with its output block, which it computes and then writes piece by piece; a parked
one does nothing, nor one that was parked when its partition halted (R324), and a pruned one ends at its block's end (R105). -/
def State.taskBlock (s : State) (col eng : Nat) : State :=
  match (s.col col).tasks.find? (fun t => t.eng == some eng) with
  | none => s
  | some t =>
    if t.parked ∨ (bit (s.part t.part).cfg 36 = true ∧ s.swappingOut t.part = false) then s
    else if t.todo != [] then s.writeResult t
    else if t.pruned then s.endTask t 3
    else if tkOp t.rcd = 1 then s.loadWeights t
    else s.mmaBlock t

/-- TASK_SHADOW_SPILL: a task parked for 4,096 clocks is saved and its engine released (R230). -/
def State.taskSpill (s : State) (col eng : Nat) : State :=
  match (s.col col).tasks.find? (fun t => t.eng == some eng) with
  | none => s
  | some t => if t.parked ∧ t.ask + 4096 ≤ s.clock then s.putTask { t with eng := none } else s

/-- The access with which a shadowed task's result was to be committed gets a terminal response: the task has status 5, and the commit that
waits for it goes on (R231, R235). -/
def State.shadowFail (s : State) (part stream num va : Nat) : State :=
  let x := s.stream part stream
  match List.find? (fun t => t.num == num) x.ran with
  | none => s
  | some t =>
    (s.engineTerm t.req 2 4 va 3).setStream part stream { x with ran := x.ran.map (fun y =>
      if y.num = num then { y with status := some 5, out := [], block := 0 } else y) }

/-- A task's parked access is answered: it goes on, or ends with status 5 (R231). -/
def State.taskAnswer (s : State) (part stream num : Nat) (fail : Bool) (va : Nat) : State :=
  match List.find? (fun t => t.num == num) (s.streamTasks part stream) with
  | none => if fail then s.shadowFail part stream num va else s
  | some t =>
    if !t.parked then s
    else if fail then (s.engineTerm t.req 2 4 va 3).endTask { t with parked := false } 5
    else s.putTask { t with parked := false }

def execTaskStart (col eng : Nat) (s : State) : Step1 := .next (s.taskStart col eng)
def execTaskBlockComplete (col eng : Nat) (s : State) : Step1 := .next (s.taskBlock col eng)
def execTaskShadowSpill (col eng : Nat) (s : State) : Step1 := .next (s.taskSpill col eng)

end Sys2Proof.Machine
end

