-- ==== Sys2Proof/Machine/Copies.lean ====
section
/-! DEFINITION. The copy channels (R65 to R67, R286 to R289): a request starts or is refused, and its bytes arrive. -/

namespace Sys2Proof.Machine

/-- The requester of a copy: the workgroup that kicked it, which drains until it is delivered (R23). -/
def State.copyReq (s : State) (r : Copy) (core : Nat) : Req :=
  match s.wgs.find? r.wk with
  | some w => ⟨r.part, r.tag, r.ltab, r.launch, r.wk, core, w.plot, w.wgid⟩
  | none => ⟨r.part, r.tag, r.ltab, r.launch, r.wk, core, 0, 0⟩

/-- Bytes that a request delivers. -/
def Copy.total (r : Copy) : Nat := cpRows r.rcd * cpBytes r.rcd

/-- The first request of a channel. -/
def State.copyHead (s : State) (core chan : Nat) : Option Copy := ((s.core core).chans.get Chan.zero chan).reqs.head?

def State.modChan (s : State) (core chan : Nat) (f : Chan → Chan) : State :=
  s.modCore core (fun k => { k with chans := k.chans.put chan (f (k.chans.get Chan.zero chan)) })

def State.setHead (s : State) (core chan : Nat) (r : Copy) : State :=
  s.modChan core chan (fun c => { c with reqs := r :: c.reqs.drop 1 })

/-! ## Reductions (R288) -/

/-- The atomic operation of a reduction code (Tables 13.4 and 7.7). -/
def redAop (red : Nat) : Nat := match red with
  | 1 => 0
  | 2 => 2
  | 3 => 3
  | 4 => 5
  | 5 => 6
  | _ => 7

/-- The legal combinations of a reduction. -/
def redOk (red ty : Nat) : Bool :=
  match red with
  | 0 => true
  | 1 => ty == 1 || ty == 2 || ty == 8 || ty == 9 || ty == 10
  | 2 => ty == 1 || ty == 2 || ty == 8
  | 3 => ty == 1 || ty == 2 || ty == 8
  | 4 => ty == 0
  | 5 => ty == 0
  | 6 => ty == 0
  | _ => false

/-- The width of a reduction's element; 1 for a plain copy. -/
def redWidth (red ty : Nat) : Nat := if red = 0 then 1 else (atomWidth (redAop red) ty).getD 1

/-! ## Delivery (R65 to R67) -/

/-- A prefix and the elements of `w` bytes above it, with every element that now follows on taken in. -/
def extend (w : Nat) : Nat → Nat → List Nat → Nat × List Nat
  | 0, p, l => (p, l)
  | n + 1, p, l => if l.contains p then extend w n (p + w) (l.filter (· != p)) else (p, l)

/-- Elements of a channel's request delivered, by their first byte: the pointer advances over the prefix they complete, and the request
leaves when all of its bytes are delivered (R65). -/
def State.deliver (s : State) (core chan w : Nat) (offs : List Nat) (r : Copy) : State :=
  let e := extend w (offs.length + r.got.length + 1) r.done (r.got ++ offs)
  s.modChan core chan (fun c =>
    { wptr := (c.wptr + (e.1 - r.done)) % 2 ^ 64
      reqs := if r.total ≤ e.1 then c.reqs.drop 1
        else { r with done := e.1, got := e.2, pruned := (c.reqs.head?.map (·.pruned)).getD false } :: c.reqs.drop 1 })

/-- Every byte of a request is written or settled: it leaves (R65). -/
def State.deliverRest (s : State) (core chan : Nat) (r : Copy) : State :=
  s.modChan core chan (fun c => { wptr := (c.wptr + (r.total - r.done)) % 2 ^ 64, reqs := c.reqs.drop 1 })

/-- Whether an arrival of a request is dropped (R67): its tag is pruned, or its trellis has another generation. -/
def State.arrivalDropped (s : State) (r : Copy) : Bool :=
  r.pruned || (cpTuse r.rcd && s.spadGet r.wk (cpTrel r.rcd + 4) 4 != r.gen)

/-- Count a trellis down by `n` bytes; `err` where the request was refused (R67). -/
def State.countTrellis (s : State) (r : Copy) (n : Nat) (err : Bool) : State :=
  if !cpTuse r.rcd then s
  else
    let o := cpTrel r.rcd
    let t := s.spadGet r.wk o 16
    let c := bits t 31 0
    let t := setBits t 31 0 (c - n)
    let t := if c < n then setBits t 65 65 1 else t
    let t := if err then setBits t 64 64 1 else t
    s.spadPut r.wk o 16 t

/-- Settle the bytes of a request without writing them: counted with err, or dropped and logged (R67, R289). -/
def State.settleCopy (s : State) (core chan : Nat) (r : Copy) (addr : Nat) : State :=
  let n := r.total - r.done - r.got.length * redWidth (cpRed r.rcd) (cpType r.rcd)
  let s := if s.arrivalDropped r then s.logEngine core 1 addr 0 else s.countTrellis r n true
  s.deliverRest core chan r

/-- A terminal response ends a request: logged, the rest settled, and counted for the launch where the thread that kicked it has
exited (R183, R289). -/
def State.terminateCopy (s : State) (core chan : Nat) (r : Copy) (va sub : Nat) : State :=
  let s := (s.engineTerm (s.copyReq r core) 1 3 va sub).settleCopy core chan r va
  match s.thread? r.wk r.idx with
  | some t => if t.st = .exited then s.modLaunch r.part r.ltab (fun l => { l with errs := satInc 16 l.errs }) else s
  | none => s

/-! ## Starting a request (R287, R289) -/

/-- The rows of a request's operands, or why it is refused. Logged is the first descriptor that breaks a rule, and the source where a rule
of the request as a whole is broken: the spec says "its first descriptor address" (log entry 44). -/
def State.copyPlan (s : State) (core : Nat) (r : Copy) (recs : List Nat) : Except Refused ((Nat → RowAt) × (Nat → RowAt)) :=
  let q := s.copyReq r core
  let d := cpDst r.rcd
  let sd := cpSrc r.rcd
  let rows := cpRows r.rcd
  let n := cpBytes r.rcd
  let red := cpRed r.rcd
  let ty := cpType r.rcd
  let s0 := recs.getD 0 0
  let d0 := recs.getD 1 0
  let ill (x : Nat) : Bool := descRsvd x != 0 || bits x 1 0 == 3 || (bits x 1 0 == 0 && decide (1 < rows) && decide (bits x 41 24 < n))
  let trellis := cpTuse r.rcd && (match s.wgs.find? r.wk with
    | some w => decide (w.spadKiB * 1024 < cpTrel r.rcd + 16)
    | none => true)
  if !redOk red ty || n % redWidth red ty != 0 || trellis || (red != 0 && (atomFloat ty).isSome && r.det) then
    .error (refusedAt 3 sd s0)
  else do
    if ill sd then .error (refusedAt 3 sd s0)
    let a ← s.copyRows q sd s0 rows n true false
    if ill d then .error (refusedAt 3 d d0)
    let b ← s.copyRows q d d0 rows n (red != 0) true
    pure (a, b)

/-- COPY_REQUEST_START: a channel takes its next request, unless its partition is halted and no swap-out waits for it (R324, log entry
16); a refused one is settled in full. -/
def State.copyStart (s : State) (core chan : Nat) : State :=
  match s.copyHead core chan with
  | none => s
  | some r =>
    if r.started || !(s.startable r.part || s.swappingOut r.part) then s
    else
      let q := s.copyReq r core
      let recs := [s.descRec q (cpSrc r.rcd), s.descRec q (cpDst r.rcd)]
      match s.copyPlan core r recs with
      | .ok _ => s.setHead core chan { r with started := true, recs := recs }
      | .error e => (s.logEngine core e.cause e.addr e.coord).settleCopy core chan r (descAddr (cpDst r.rcd) (recs.getD 1 0))

/-! ## Arrivals -/

/-- The bytes of an element stand in order from an aligned physical address. -/
def State.inOrder (s : State) (q : Req) (w pa : Nat) (ls : List Loc) : Bool :=
  pa % w == 0 && (ls.zip (List.range w)).all (fun p => match s.locXlate q p.1 true true with
    | .ok a _ => a == pa + p.2
    | _ => false)

/-- One element of a reduction at its destination, whose bytes are `ls` (R288). One whose bytes do not stand aligned and in order in memory
acts on each of them as it is translated. -/
def State.reduceOne (s : State) (q : Req) (red ty : Nat) (ls : List Loc) (o : Nat) : State :=
  let w := redWidth red ty
  let l := ls.headD ⟨0, 0⟩
  let bytewise (s : State) : State :=
    let s := s.noteLocs q ls
    match atomNew (redAop red) ty w (ofLe (ls.map (s.locRead q))) o 0 with
    | some x => (ls.zip (leBytes w x)).foldl (fun s p => s.locWrite q p.1 p.2) s
    | none => s
  if l.space ≠ 0 then bytewise s
  else
    match s.locXlate q l true true with
    | .ok pa _ =>
      if !s.tagLive q.tag then s
      else if !s.inOrder q w pa ls then bytewise s
      else if s.noSpace q.tag pa then s.exhaust q.tag
      else
        let s := if (s.reqWg q).isSome then (s.traceNote q.wk l.addr w false).traceNote q.wk l.addr w true else s
        ((s.noteRegions q.part q.ltab q.launch pa).rmwHome q.tag l.addr pa (redAop red) ty w o 0).2
    | _ => s

/-- A float element of a reduction aimed at a line in ordered mode under its tag (R301). -/
def State.redOrdered (s : State) (q : Req) (red ty : Nat) (l : Loc) : Bool :=
  red != 0 && atomOrdered (redAop red) ty && l.space == 0 && (match s.locXlate q l true true with
    | .ok pa _ => s.inOrderedMode q.tag pa
    | _ => false)

/-- A byte of a request, as source and destination. -/
def copyPair (p : (Nat → RowAt) × (Nat → RowAt)) (len j : Nat) : Loc × Loc := ((p.1 (j / len)).byte (j % len), (p.2 (j / len)).byte (j % len))

/-- The elements that an arrival of `n` delivers, by their first byte: from a place that a free number gives upward, those not yet
delivered. Other agents may see a request's bytes in any order (R81). -/
def Copy.arriving (r : Copy) (w n clock : Nat) : List Nat :=
  let k := (r.total - r.done) / w
  let i := Config.freeNat clock % max k 1
  (((List.range n).map (fun j => i + j)).filter (fun j => decide (j < k))).map (fun j => r.done + w * j) |>.filter (fun o => !r.got.contains o)

/-- COPY_ARRIVAL: up to `n` elements of a channel's request are written, or dropped; a fault parks the request and a terminal response
settles the rest of it (R67, R287 to R289). A drop is logged with the address of its first byte: in a scratchpad or a tensor, which
has no virtual address, the offset in the allocation or in the stack (log entry 44). -/
def State.copyArrive (s : State) (core chan n : Nat) : State :=
  match s.copyHead core chan with
  | none => s
  | some r =>
    let red := cpRed r.rcd
    let ty := cpType r.rcd
    let w := redWidth red ty
    if !r.started || r.parked then s
    else
      let q := s.copyReq r core
      match s.copyPlan core r r.recs with
      | .error e => (s.logEngine core e.cause e.addr e.coord).settleCopy core chan r (descAddr (cpDst r.rcd) (r.recs.getD 1 0))
      | .ok p =>
        let offs := r.arriving w (max n 1) s.clock
        let els := offs.map (fun o => (List.range w).map (fun i => copyPair p (cpBytes r.rcd) (o + i)))
        let ps := els.flatten
        let dsts := ps.map (·.2)
        if s.arrivalDropped r then
          (s.logEngine core 1 ((dsts.head?.map (·.addr)).getD 0) 0).deliver core chan w offs r
        else
          match s.engineHeld q (ps.map (·.1)) dsts (red != 0) with
          | some (.term va sub) => s.terminateCopy core chan r va sub
          | some x => (s.engineWait q (.copy core chan) 2 x).setHead core chan { r with parked := true }
          | none =>
            match dsts.find? (s.redOrdered q red ty) with
            | some l =>
              ((s.logErr r.part 5 1 (s.coreNum core) true l.addr).logEngine core 3 l.addr 0).settleCopy core chan r l.addr
            | none =>
              let s := s.noteLocs q (ps.map (·.1))
              let bs := els.map (fun e => e.map (fun p => s.locRead q p.1))
              let s := if red = 0 then (dsts.zip bs.flatten).foldl (fun s p => s.locWrite q p.1 p.2) s
                else (els.zip bs).foldl (fun s p => s.reduceOne q red ty (p.1.map (·.2)) (ofLe p.2)) s
              (s.countTrellis r (w * offs.length) false).deliver core chan w offs r

/-- A copy's parked access is answered: it goes on, or its request ends (R289). -/
def State.copyAnswer (s : State) (core chan : Nat) (fail : Bool) (va : Nat) : State :=
  match s.copyHead core chan with
  | none => s
  | some r =>
    if !r.parked then s
    else if fail then s.terminateCopy core chan { r with parked := false } va 3
    else s.setHead core chan { r with parked := false }

def execCopyRequestStart (core chan : Nat) (s : State) : Step1 := .next (s.copyStart core chan)
def execCopyArrival (core chan n : Nat) (s : State) : Step1 := .next (s.copyArrive core chan n)

end Sys2Proof.Machine
end

