-- ==== Sys2Proof/Machine/Dispatcher.lean ====
section
/-! DEFINITION. The column dispatchers (R19, R346, R354, R357) and the end of a workgroup (R23, R24, R258, R261, R300, R349). -/

namespace Sys2Proof.Machine

/-! ## Resources (R19) -/

/-- What a workgroup needs of a core, or what is in use on one. -/
structure Need where
  slots : Nat
  ctx : Nat
  regs : Nat
  spad : Nat
  bars : Nat
deriving DecidableEq, Repr

def Need.add (a b : Need) : Need := ⟨a.slots + b.slots, a.ctx + b.ctx, a.regs + b.regs, a.spad + b.spad, a.bars + b.bars⟩
def Need.zero : Need := ⟨0, 0, 0, 0, 0⟩

/-- Within what one core has (Table 0.1). -/
def Need.fits (a : Need) : Bool :=
  decide (a.slots ≤ Config.threadSlots) && decide (a.ctx ≤ Config.ctxSlots) && decide (a.regs ≤ Config.regsPerLane)
    && decide (a.spad ≤ Config.spadKiB) && decide (a.bars ≤ Config.barriersPerCore)

/-- What a workgroup holds: a draining one holds no thread slot (Table 1.3). -/
def Wg.need (w : Wg) : Need := ⟨if w.draining then 0 else (w.nthreads + 63) / 64, 1, w.pool, w.spadKiB, w.nbar⟩
def lcNeed (r : Nat) : Need := ⟨lcTeams r, 1, lcPool r, lcSpad r, lcNbar r⟩

/-- What the resident and draining workgroups of a core hold. -/
def State.inUse (s : State) (core : Nat) : Need :=
  ((s.wgs.filter (fun p => p.2.core == core)).map (fun p => p.2.need)).foldl Need.add Need.zero

/-- The core that takes the next workgroup: of those with room, the one with the most free thread slots, then the lowest. -/
def pickCore (used : List (Nat × Need)) (n : Need) : Option Nat :=
  let ok := used.filter (fun p => (p.2.add n).fits)
  ok.foldl (fun best p => match best with
    | none => some p.1
    | some b => if p.2.slots < ((List.find? (fun q => q.1 == b) used).map (fun q => q.2.slots)).getD 0 then some p.1 else some b) none

/-- Cores for workgroups of the needs given, in S_WGID order; none where they do not all fit. -/
def placeAll : List Need → List (Nat × Need) → Option (List Nat)
  | [], _ => some []
  | n :: ns, used =>
    match pickCore used n with
    | none => none
    | some c => (placeAll ns (used.map (fun p => if p.1 = c then (c, p.2.add n) else p))).map (fun l => c :: l)

/-- Registers per lane of a workgroup that comes back from an image to a launch: the launch's pool, and at least what the quotas of the
image take, which need not be those of the launch (R22, R359). -/
def imgPool (rcd : Nat) (img : List Byte) : Nat :=
  let h := imgHeader img
  let stage (j : Nat) : Nat := ((lcStages rcd).filter (fun b => decide (b ≤ j * Config.laneWidth))).length
  max (lcPool rcd) (((List.range ((hdTpw h + 64) / 64)).map (fun j =>
    bits h (142 + 6 * stage j + 5) (142 + 6 * stage j) * 8)).foldl (· + ·) 0)

/-- What a workgroup needs that comes back from an image. -/
def imgNeed (rcd : Nat) (img : List Byte) : Need :=
  let h := imgHeader img
  ⟨(hdTpw h + 64) / 64, 1, imgPool rcd img, hdSpad h, bits h 192 187⟩

/-! ## Claims (R346, R354) -/

def slPrio (x : Nat) : Nat := bits x 60 57
def slCores (x : Nat) : Nat := bits x 56 49
def slMax (x : Nat) : Nat := bits x 48 41
def slPart (x : Nat) : Nat := bits x 32 30
def slLtab (x : Nat) : Nat := bits x 29 22

def Returned.plot : Returned → Nat
  | .saved p _ => p
  | .flushed p => p

/-- The saved entry, else the flushed one, of lowest plot. -/
def nextReturned (l : List Returned) : Option Returned :=
  let least (l : List Returned) : Option Returned := l.foldl (fun b x => match b with
    | none => some x
    | some y => if x.plot < y.plot then some x else some y) none
  let saved := l.filter (fun x => match x with
    | .saved _ _ => true
    | .flushed _ => false)
  (least saved).orElse (fun _ => least l)

/-- What a slot would claim for its launch: a returned plot, or a new one. -/
inductive Claim
  | back (r : Returned)
  | fresh (plot : Nat)
deriving DecidableEq, Repr

def Launch.claim (l : Launch) : Option Claim :=
  if l.kind ≠ 0 ∨ !l.ready ∨ l.status = some 4 then none
  else
    match nextReturned l.returned with
    | some r => some (.back r)
    | none =>
      if l.plots ≤ l.ticket then none
      else match l.selPlots with
        | some x => some (.fresh (x.getD l.ticket 0))
        | none => some (.fresh l.ticket)

/-- The launch-table entry of the launch whose plot a saved plot of a launch is: its own, or the one a resume launch resumes (R359). -/
def Launch.home (l : Launch) (e : Nat) : Nat :=
  match l.resumeOf with
  | some (x, _) => x
  | none => e

/-- What the workgroups that a claim places need, in S_WGID order (R19): saved ones come back to their own launch. -/
def State.claimNeeds (s : State) (part e : Nat) (l : Launch) (c : Claim) : List Need :=
  match c with
  | .back (.saved _ imgs) =>
    (match s.launch? part (l.home e) with
      | some lo => imgs.map (imgNeed lo.rcd)
      | none => imgs.map (imgNeed l.rcd))
  | .back (.flushed p) => List.replicate (l.membersOf p).length (lcNeed l.rcd)
  | .fresh p => List.replicate (l.membersOf p).length (lcNeed l.rcd)

/-- The cores of a column that a slot allows, with their use. -/
def State.slotCores (s : State) (col slot : Nat) : List (Nat × Need) :=
  (ones 8 (slCores slot)).map (fun k => (8 * col + k, s.inUse (8 * col + k)))

/-- A saved plot is not resumed in a column that thermal control saved it from (R356). -/
def State.ousted (s : State) (col part e : Nat) (l : Launch) (c : Claim) : Bool :=
  match c with
  | .back (.saved p _) =>
    (match s.launch? part (l.home e) with
      | some lo => (s.col col).ousted.contains (part, lo.num, p)
      | none => false)
  | _ => false

/-- Where a slot's launch would place its next plot in a column; none where it does not fit. -/
def State.placement (s : State) (col slot : Nat) (l : Launch) (c : Claim) : Option (List Nat) :=
  placeAll (s.claimNeeds (slPart slot) (slLtab slot) l c) (s.slotCores col slot)

/-- Plots of a slot that are resident in its column. -/
def State.slotPlots (s : State) (col n : Nat) : Nat :=
  ((s.wgs.filter (fun p => p.2.core / 8 == col && p.2.bslot == n)).map (fun p => (p.2.part, p.2.ltab, p.2.plot))).dedup.length

/-! ## Requests for pre-emption that keep resources (R348, R351) -/

/-- The (column, slot) pairs bound to a launch. -/
def State.boundSlots (s : State) (part e : Nat) : List (Nat × Nat) :=
  s.cols.flatMap (fun c => (c.2.slots.filter (fun x => bit x.2 63 && slPart x.2 == part && slLtab x.2 == e)).map (fun x => (c.1, x.1)))

/-- Occupied context slots of a column. -/
def State.ctxInUse (s : State) (col : Nat) : Nat := (s.wgs.filter (fun p => p.2.core / 8 == col)).length

/-- A column is above its dispatch threshold for a launch bound there (R347). -/
def State.aboveThreshold (s : State) (col n : Nat) (l : Launch) (c : Claim) : Bool :=
  decide (bits (s.col col).cfg 8 0 < s.ctxInUse col) || (s.placement col (FMap.get 0 (s.col col).slots n) l c).isNone

/-- The conditions of R348 hold for a launch. -/
def State.requests (s : State) (part e : Nat) : Bool :=
  match s.launch? part e with
  | none => false
  | some l =>
    match l.claim with
    | none => false
    | some c =>
      let b := s.boundSlots part e
      bit (s.queueCfg part l.queue) 6 && bits l.rcd 831 800 != 0 && b != [] && b.all (fun p => s.aboveThreshold p.1 p.2 l c)

/-- A slot claims nothing in a column while resources freed there are kept for another launch (R351). -/
def State.slotKept (s : State) (col n : Nat) : Bool :=
  (s.col col).kept.any (fun k => k.1 == n && s.requests k.2.1 k.2.2)

/-- Resources are kept for a launch only while its request lasts (R348, R351). -/
def State.dropKept (s : State) : State :=
  if s.cols.all (fun (c : Nat × Col) => c.2.kept == []) then s
  else { s with cols := s.cols.map (fun (c : Nat × Col) => (c.1, { c.2 with kept := c.2.kept.filter (fun k => s.requests k.2.1 k.2.2) })) }

/-- A plot of a launch has been placed: its request ends (R348). -/
def State.endRequest (s : State) (part e : Nat) : State :=
  { s with cols := s.cols.map (fun c => (c.1, { c.2 with kept := c.2.kept.filter (fun k => !(k.2.1 == part && k.2.2 == e)) })) }

/-! ## Placing (R10, R20, R35, R39, R58, R65) -/

/-- The lowest context slot of a core that is free. -/
def State.freeCtx (s : State) (core : Nat) : Nat :=
  ((List.range Config.ctxSlots).find? (fun n => (s.wgs.find? (32 * core + n)).isNone)).getD 0

/-- Generations and epochs of the trace slots at dispatch, packed as Table 12.4 has them. -/
def State.traceStart (s : State) (part rcd : Nat) : TraceRec :=
  let f (g : Region → Nat) (w : Nat) : Nat :=
    ((List.range 4).map (fun j => match s.region? part ((traceSlots rcd).getD j 0) with
      | some r => g r * 2 ^ (w * j)
      | none => 0)).foldl (· + ·) 0
  ⟨f (·.gen) 16, f (·.epoch) 8, [], [], [], false⟩

/-- The byte offset of a launch's first word: the entry of the record, or of the variant selected. -/
def Launch.entry (l : Launch) : Nat :=
  match l.variant with
  | some v => 4 * bits (l.vtab.getD v 0) 47 32
  | none => 4 * bits l.rcd 255 240

/-- Reference ticks of a no-pre-emption region: 100 µs at 100 MHz (R355). -/
def npTicks : Nat := 10000

/-- A workgroup of a launch at dispatch. -/
def State.newWg (s : State) (part e : Nat) (l : Launch) (plot wgid core slot bslot : Nat) : Wg :=
  let r := l.rcd
  { part := part, ltab := e, launch := l.num, plot := plot, wgid := wgid, core := core, slot := slot, bslot := bslot,
    tag := lcTag r, nthreads := lcThreads r, stages := lcStages r, quota := lcQuota r, ceil := lcCeil r, pool := lcPool r,
    k := regsOf l.kblk 16, spadKiB := lcSpad r, spad := [], nbar := lcNbar r, phases := [],
    bases := (List.range 4).foldl (fun m c => FMap.set 0 m c ((s.core core).chans.get Chan.zero c).wptr) [],
    flush := true, np := l.np, nptime := if l.np then npTicks else 0, det := bit r 226, traced := lcTrace r, stopped := none,
    draining := false, born := s.clock,
    threads := (List.range (lcThreads r)).map (fun i => (i, Thread.start (bits r 56 0) l.entry s.clock)),
    trace := if lcTrace r then s.traceStart part r else TraceRec.zero, staging := [], saving := false, flushing := false }

/-- The trap record of a thread saved with st = 7: the one that names its launch, plot, workgroup, team and lane. -/
def Part.trapOf (p : Part) (launch plot wgid idx : Nat) : Nat :=
  ((List.find? (fun t => bits t.2.bits 95 64 == launch % 2 ^ 32 && bits t.2.bits 159 128 == plot % 2 ^ 32
    && bits t.2.bits 101 99 == wgid && bits t.2.bits 117 112 == teamOf idx && t.2.threads.contains idx) p.traps).map (·.1)).getD 0

/-- Place one workgroup: its context slot, and the acquire that its dispatch is (R92, R296). -/
def State.seat (s : State) (core : Nat) (w : Wg) : State :=
  ({ s with wgs := s.wgs.put (32 * core + w.slot) w }).acquireL1 w.unit 4

/-- WORKGROUP_RESUME: a workgroup comes back from its image onto a core, and its tasks that go on are its own again (R354, R358, R66,
R232). -/
def State.resumeWg (s : State) (part e : Nat) (l : Launch) (img : List Byte) (core bslot : Nat) : State :=
  let h := imgHeader img
  let slot := s.freeCtx core
  let k := 32 * core + slot
  let w := s.wgOf img e core slot bslot (bit h 52) (bit h 50) (bit h 49)
    (fun i => (s.part part).trapOf (hdLaunch h) (hdPlot h) (hdWgid h) i)
  let n := hdPlot h * l.wpp + hdWgid h
  let staged := (FMap.get [] l.stagings n).map (fun x => match x with
    | .mem m q => Staged.mem { m with wk := k } q
    | y => y)
  let w := { w with stages := lcStages l.rcd, pool := imgPool l.rcd img, staging := staged, draining := w.live == [] }
  let s := (s.seat core w).modLaunch part e (fun l => { l with stagings := l.stagings.erase n })
  let back (t : Task) : Task := if t.req.part = part ∧ t.req.member t.wgid w = true then { t with wk := k } else t
  let s := s.modPart part (fun p => { p with
    traps := p.traps.map (fun t => if w.threads.any (fun x => x.2.st == .trapped && x.2.trap == t.1) then (t.1, { t.2 with wk := k }) else t)
    streams := p.streams.map (fun x => (x.1, { x.2 with ran := x.2.ran.map back })) })
  { s with
    cols := s.cols.map (fun c => (c.1, { c.2 with tasks := c.2.tasks.map back }))
    fresh := s.fresh + 1 }

/-- Seat the workgroups of a plot on the cores chosen for them. -/
def State.seatNew (s : State) (part e : Nat) (l : Launch) (plot bslot : Nat) (ids cores : List Nat) : State :=
  (List.zip ids cores).foldl (fun s p => s.seat p.2 (s.newWg part e l plot p.1 p.2 (s.freeCtx p.2) bslot)) s

/-- CLAIM: the plot leaves the return list or the ticket rises, and its workgroups are placed. -/
def State.claimPlot (s : State) (part e : Nat) (l : Launch) (bslot : Nat) (c : Claim) (cores : List Nat) : State :=
  let s := s.endRequest part e
  match c with
  | .fresh plot =>
    (s.modLaunch part e (fun l => { l with ticket := l.ticket + 1 })).seatNew part e l plot bslot (l.membersOf plot) cores
  | .back (.flushed plot) =>
    (s.modLaunch part e (fun l => { l with returned := l.returned.filter (· != .flushed plot) })).seatNew part e l plot bslot
      (l.membersOf plot) cores
  | .back (.saved plot imgs) =>
    let s := s.modLaunch part e (fun l => { l with returned := l.returned.filter (· != .saved plot imgs) })
    let o := l.home e
    match s.launch? part o with
    | none => s
    | some lo =>
      let s : State := { s with cols := s.cols.map (fun (c : Nat × Col) => (c.1, { c.2 with ousted := c.2.ousted.filter (· != (part, lo.num, plot)) })) }
      let s := s.modLaunch part o (fun l => { l with returned := l.returned.filter (fun r => match r with
        | .saved p _ => p != plot
        | .flushed _ => true) })
      (List.zip imgs cores).foldl (fun s p => s.resumeWg part o lo p.1 p.2 bslot) s

/-- The bind records of a column are installed (R332). -/
def State.install (s : State) (col : Nat) : State :=
  if (s.col col).fresh = [] then s else s.modCol col (fun c => { c with fresh := [] })

/-- A partition's plots may be placed: it is not swapped out, nor being swapped out (R361). -/
def State.dispatchable (s : State) (part : Nat) : Bool := !bit (s.part part).swapCtl 60 && !s.swappingOut part

/-- PLOT_DISPATCH: the dispatcher examines the column's slots; the first, by descending prio and then slot number, that can take a
plot takes one (R346). -/
def State.dispatch (s : State) (col : Nat) : State :=
  let s := s.install col
  let slots := ((s.col col).slots.filter (fun x => bit x.2 63))
  let order := ((List.range 16).reverse).flatMap (fun p => slots.filter (fun x => slPrio x.2 == p))
  let try1 (x : Nat × Nat) : Option (Nat × Nat × Launch × Claim × List Nat) :=
    match s.launch? (slPart x.2) (slLtab x.2) with
    | none => none
    | some l =>
      match l.claim with
      | none => none
      | some c =>
        if s.slotKept col x.1 || !s.dispatchable (slPart x.2) || s.ousted col (slPart x.2) (slLtab x.2) l c || (slMax x.2 != 0 && decide (slMax x.2 ≤ s.slotPlots col x.1))
        then none
        else (s.placement col x.2 l c).map (fun cs => (x.1, x.2, l, c, cs))
  match order.findSome? try1 with
  | none => s
  | some (n, x, l, c, cs) => s.claimPlot (slPart x) (slLtab x) l n c cs

def execPlotDispatch (col : Nat) (s : State) : Step1 := .next (s.dispatch col)

/-! ## The end of a workgroup (R23, R24) -/

/-- Descriptors whose scratchpad window names a workgroup. -/
def State.touches (s : State) (q : Req) (k : Nat) (ds : List Nat) : Bool :=
  ds.any (fun d => bits d 1 0 == 0 && (match s.descOwner q d with
    | some (n, _) => n == k
    | none => false))

/-- A copy request holds a workgroup's scratchpad: it kicked it, or the copy's window names it. -/
def State.copyHolds (s : State) (k : Nat) : Bool :=
  s.cores.any (fun c => c.2.chans.any (fun n => n.2.reqs.any (fun r =>
    r.wk == k || s.touches (s.copyReq r c.1) k [cpDst r.rcd, cpSrc r.rcd])))

/-- A matrix task holds it: an operand in its scratchpad, or the status record. -/
def State.taskHolds (s : State) (k : Nat) : Bool :=
  let holds (t : Task) : Bool :=
    (t.wk == k && (s.reqWg t.req).isSome && tkStat t.rcd != 0) || s.touches t.req k ((if tkOp t.rcd = 2 then [] else [tkA t.rcd, tkD t.rcd]) ++
      (if tkOp t.rcd = 0 then [tkB t.rcd] else []))
  s.cols.any (fun c => c.2.tasks.any holds) || s.parts.any (fun p => p.2.streams.any (fun x => x.2.ran.any holds))

/-- An access of a workgroup waits for a fault or for the host. -/
def State.waits (s : State) (k : Nat) : Bool :=
  let mine (x : Waiter) : Bool := match x with
    | .op m => m.wk == k
    | .fetch wk _ => wk == k
    | .phase wk => wk == k
    | .free wk => wk == k
    | .ray c r => ((s.col c).rays.find? r).any (fun y => y.wk == k)
    | _ => false
  s.parked.any (fun p => mine p.2.who) || s.snoops.any (fun p => mine p.2.who)

/-- A thread, of the workgroup or of another of its plot, has an access to its scratchpad that is not performed. -/
def State.spadHolds (s : State) (k : Nat) : Bool :=
  s.wgs.any (fun w => w.2.threads.any (fun t => t.2.queue.any (fun m => m.spad == k + 1)))

/-- Every outstanding operation of R23 has been acknowledged. -/
def State.settledWg (s : State) (k : Nat) (w : Wg) : Bool :=
  w.threads.all (fun t => t.2.chk == []) && w.staging == [] && !s.copyHolds k && !s.taskHolds k && !s.waits k && !s.spadHolds k
    && !s.grafts.any (fun g => g.wk == k)

/-- A workgroup's trace record as it replaces the one before it (R257, R261): the record, and whether sigchg and shrunk are set. -/
def Wg.finalTrace (w : Wg) (afresh : Bool) (old : Nat) : Nat × Bool × Bool :=
  let t := w.trace
  if afresh || !bit old 0 then (t.bits2048 w.sig 1 false false true, false, false)
  else
    let o := traceOf old
    let sigchg := bits old 95 64 != w.sig
    let shrunk := o.written.any (fun p => match t.written.find? p.1 with
      | some r => !(decide (r.1 ≤ p.2.1) && decide (p.2.2 ≤ r.2))
      | none => true)
    (t.bits2048 w.sig (satInc 16 (bits old 63 48)) sigchg shrunk true, sigchg, shrunk)

/-- The bytes that a task reads through buffer records, and those it writes so (R258). -/
def State.taskTiles (s : State) (t : Task) : List Loc × List Loc :=
  let recs := if t.recs = [] then s.taskRecs t else t.recs
  match tkOp t.rcd, planOf t.rcd, mfmt (tkBfmt t.rcd) with
  | 0, some p, _ =>
    (match s.mmaRows t p recs with
      | .ok rs =>
        let ds := (List.range (tkM t.rcd)).flatMap (fun i => (List.range (tkN t.rcd)).flatMap (dstLocs rs p.fd i))
        (allReads t p rs ++ (if tkAcc t.rcd then ds else []), ds)
      | .error _ => ([], []))
  | 1, _, some fb =>
    (match s.loadRows t fb recs with
      | .ok rs => ((List.range (tkN t.rcd)).flatMap (fun j => (rs.a j).locs fb (tkK t.rcd)), [])
      | .error _ => ([], []))
  | _, _, _ => ([], [])

/-- A task of a workgroup: its issuer. -/
def State.issuedBy (s : State) (k : Nat) (t : Task) : Bool := t.wk == k && (s.reqWg t.req).isSome

/-- A traced workgroup that becomes free or is saved has the tiles of its tasks that have still to run in its record, whether or not they
come to be read, and those of the results that its shadow regions hold: such a task keeps neither back (R23, R232, R258). -/
def State.noteTasks (s : State) (k : Nat) (w : Wg) : State :=
  if !w.traced then s
  else
    let waiting := (s.cols.flatMap (fun c => c.2.tasks.filter (fun t => s.issuedBy k t && t.status.isNone))).map s.taskTiles
    let ran := (s.parts.flatMap (fun p => p.2.streams.flatMap (fun x => x.2.ran.filter (s.issuedBy k)))).map (fun t => ([], t.outLocs))
    let note (write : Bool) (s : State) (l : Loc) : State := if l.space = 0 then s.traceNote k l.addr 1 write else s
    (waiting ++ ran).foldl (fun s (x : List Loc × List Loc) => x.2.foldl (note true) (x.1.foldl (note false) s)) s

/-- The record of a traced workgroup that is saved, with the tiles of its tasks that go on (R232, R258). -/
def State.withTasks (s : State) (k : Nat) (w : Wg) : Wg := { w with trace := (((s.noteTasks k w).wgs.find? k).getD w).trace }

/-- Write a workgroup's trace record. -/
def State.putTrace (s : State) (w : Wg) (l : Launch) : Except Held1 State := do
  let n := w.plot * l.wpp + w.wgid
  let va := bits l.rcd 568 512 + 256 * (n + 1)
  let old ← if l.afresh then .ok 0 else s.vGet w.part w.tag va 256
  let r := w.finalTrace l.afresh old
  let s ← s.vPutFor w.part w.ltab w.tag va (leBytes 256 r.1)
  pure (s.modLaunch w.part w.ltab (fun l => { l with sigchg := l.sigchg + bnat r.2.1, shrunk := l.shrunk + bnat r.2.2 }))

/-- A workgroup is free: its launch counts it (R24, R349, R300). -/
def Launch.countFree (l : Launch) (plot wgid life : Nat) (det : Bool) : Launch :=
  let n := ((List.find? (fun p => p.1 == plot) l.members).map (·.2)).getD 0 + 1
  let rest := l.members.filter (fun p => p.1 != plot)
  let whole := decide ((l.membersOf plot).length ≤ n)
  let l := { l with
    avg := some (match l.avg with
      | some a => (7 * a + life) / 8
      | none => life)
    members := if whole then rest else (plot, n) :: rest
    plotsFree := if whole then l.plotsFree + 1 else l.plotsFree }
  if det then
    let l := { l with relDone := (plot * l.wpp + wgid) :: l.relDone }
    l.relAdvance (l.relDone.length + (match l.select with
      | some _ => launchWgs l.rcd
      | none => 0))
  else l

/-- The plots that a launch has wholly freed, seen at one plot. -/
def Launch.plotDone (l : Launch) (plot : Nat) : Bool := !(l.members.any (fun p => p.1 == plot))

/-- Give up a workgroup's place: it leaves its core, and the trap records it leaves behind name no thread. -/
def State.unseat (s : State) (k : Nat) (w : Wg) : State :=
  let s := s.modPart w.part (fun p => { p with traps := (p.traps.filter (fun t => !(t.2.wk == k && t.2.stored))).map (fun t =>
    if t.2.wk = k then (t.1, { t.2 with threads := [] }) else t) })
  { s with wgs := s.wgs.erase k }

/-- WORKGROUP_FREE: a draining workgroup whose every operation is acknowledged writes its trace record and becomes free; its launch
counts it, and completes with its last. `skip` gives up a trace record that cannot be written. -/
def State.freeWg (s : State) (k : Nat) (skip : Bool) : State :=
  match s.wgs.find? k with
  | none => s
  | some w =>
    if !w.draining || !s.settledWg k w then s
    else
      let s := s.noteTasks k w
      let w := (s.wgs.find? k).getD w
      match s.launch? w.part w.ltab with
      | none => s.unseat k w
      | some l =>
        let finish (s : State) : State :=
          let s := (s.unseat k w).modLaunch w.part w.ltab (fun l =>
            { l.countFree w.plot w.wgid (s.clock - w.born) w.det with
              status := if l.status = some 4 then l.status else w.stopped.or l.status })
          let done := match s.launch? w.part w.ltab with
            | some l => l.plotDone w.plot
            | none => false
          let rs := ((s.part w.part).ltab.filter (fun e => done && e.2.resumeOf == some (w.ltab, w.plot))).map (·.1)
          let s := rs.foldl (fun s e => (s.modLaunch w.part e (fun l => { l with plotsFree := 1 })).tryComplete w.part e false) s
          s.tryComplete w.part w.ltab false
        if !w.traced || skip || w.stopped = some 4 then finish s
        else
          match s.putTrace w l with
          | .ok t => finish t
          | .error (.fault va c types) => s.parkFor (.free k) w.part va c types 1 w.launch (w.core / 8)
          | .error (.snoop va pa) => s.addSnoop (.free k) w.part va pa
          | .error (.term va sub) => finish (s.logTerm sub w.part 0 (s.coreNum w.core) va (some (s.rawPa w.part va)))

def execWorkgroupFree (wg : Nat) (s : State) : Step1 := .next (s.freeWg wg false)

end Sys2Proof.Machine
end

