-- ==== Sys2Proof/Machine/Preempt.lean ====
section
/-! DEFINITION. Pre-emption (R348 to R354, R362), saves and flushes, no-pre-emption regions (R355), thermal control (R356) and the
stretching of a column's clock (R330, R383). -/

namespace Sys2Proof.Machine

/-! ## Plots as they stand in a column -/

/-- The resident and draining members of a plot, with their keys. -/
def State.plotWgs (s : State) (part e plot : Nat) : List (Nat × Wg) :=
  s.wgs.filter (fun p => p.2.part == part && p.2.ltab == e && p.2.plot == plot)

/-- Every member that the plot has is resident: none draining, none free (R348). -/
def State.plotWhole (_s : State) (l : Launch) (plot : Nat) (ms : List (Nat × Wg)) : Bool :=
  ms.length == (l.membersOf plot).length && ms.all (fun p => !p.2.draining)

/-- A plot that a request may take: its launch, members and slot prio. -/
structure Victim where
  part : Nat
  ltab : Nat
  plot : Nat
  prio : Nat
  bslot : Nat
  first : Nat                 -- key of its lowest member: column, core and context slot
  keys : List Nat
  whole : Bool
deriving DecidableEq, Repr

/-- The prio of the slot that placed a workgroup. -/
def State.slotPrio (s : State) (w : Wg) : Nat := slPrio (FMap.get 0 (s.col (w.core / 8)).slots w.bslot)

/-- The candidates in a column against a slot prio (R348). -/
def State.candidates (s : State) (col prio : Nat) : List Victim :=
  let here := s.wgs.filter (fun p => p.2.core / 8 == col)
  let plots := (here.map (fun p => (p.2.part, p.2.ltab, p.2.plot))).dedup
  plots.filterMap (fun x =>
    let ms := s.plotWgs x.1 x.2.1 x.2.2
    match ms, s.launch? x.1 x.2.1 with
    | m :: _, some l =>
      let ok := ms.any (fun p => !p.2.draining) && ms.all (fun p => !p.2.np && !p.2.saving) && decide (s.slotPrio m.2 < prio)
      if ok then some ⟨x.1, x.2.1, x.2.2, s.slotPrio m.2, m.2.bslot, m.1, ms.map (·.1), s.plotWhole l x.2.2 ms⟩ else none
    | _, _ => none)

/-! ## Ways (R349, Table 18.8). Times and wastes are counted in 1/640 clock, at 1,200 clocks a microsecond -/

inductive Way
  | drain | save | flush
deriving DecidableEq, Repr

def State.victimWgs (s : State) (v : Victim) : List Wg := v.keys.filterMap (fun k => s.wgs.find? k)

def State.age (s : State) (w : Wg) : Nat := s.clock - w.born

/-- Time to free and waste of a way, where it is allowed. -/
def State.wayCost (s : State) (v : Victim) (y : Way) : Option (Nat × Nat) :=
  let ws := s.victimWgs v
  let sum (f : Wg → Nat) : Nat := (ws.map f).foldl (· + ·) 0
  match y with
  | .drain =>
    ((s.launch? v.part v.ltab).bind (·.avg)).map (fun a => (sum (fun w => 640 * (a - s.age w)), 0))
  | .save => if v.whole then let t := sum (fun w => 1200 * 640 + 3 * w.imageBytes); some (t, 2 * t) else none
  | .flush =>
    if v.whole && ws.all (·.flush) then some (sum (fun _ => 600 * 640), sum (fun w => 640 * s.age w)) else none

/-- The chosen way under a bound in microseconds: least waste among those that meet it; ties to drain, save, flush. -/
def State.chosenWay (s : State) (v : Victim) (bound : Nat) : Option (Way × Nat) :=
  let ok (y : Way) : Option (Way × Nat) := match s.wayCost v y with
    | some (t, w) => if t ≤ bound * 1200 * 640 then some (y, w) else none
    | none => none
  ([ok .drain, ok .save, ok .flush].filterMap id).foldl (fun b x => match b with
    | none => some x
    | some y => if x.2 < y.2 then some x else some y) none

/-- The least of a list by a strict order, the earlier standing. -/
def leastBy {α : Type} (lt : α → α → Bool) (l : List α) : Option α :=
  l.foldl (fun b x => match b with
    | none => some x
    | some y => if lt x y then some x else some y) none

/-- VICTIM_CHOICE (R351): a victim and its way, and whether the bound was missed. -/
def State.chooseVictim (s : State) (cs : List Victim) (bound : Nat) : Option (Victim × Way × Bool) :=
  let m := cs.filterMap (fun v => (s.chosenWay v bound).map (fun y => (v, y)))
  let before (a b : Victim × Way × Nat) : Bool :=
    if a.1.prio != b.1.prio then decide (a.1.prio < b.1.prio)
    else if a.2.2 != b.2.2 then decide (a.2.2 < b.2.2)
    else decide (a.1.first < b.1.first)
  match leastBy before m with
  | some (v, y, _) => some (v, y, false)
  | none =>
    let t := cs.filterMap (fun v => (s.wayCost v .save).map (fun c => (v, c.1)))
    (leastBy (fun a b => if a.2 != b.2 then decide (a.2 < b.2) else decide (a.1.first < b.1.first)) t).map (fun v => (v.1, .save, true))

/-! ## Leaving by a save or a flush (R352, R353) -/

/-- Stop a plot's members for a save, a flush or a swap. -/
def State.stopForSave (s : State) (keys : List Nat) (flush : Bool) : State :=
  keys.foldl (fun s k => s.modWg k (fun w => if w.draining then w else { w with saving := true, flushing := flush })) s

/-- No engine uses a workgroup's scratchpad and no access of it waits. -/
def State.quietWg (s : State) (k : Nat) : Bool := !s.copyHolds k && !s.taskHolds k && !s.waits k && !s.grafts.any (fun g => g.wk == k)

/-- A flushed workgroup's accesses that wait and its rays are dropped. -/
def State.dropOps (s : State) (k : Nat) : State :=
  let mine (x : Waiter) : Bool := match x with
    | .op m => m.wk == k
    | .fetch wk _ => wk == k
    | .phase wk => wk == k
    | _ => false
  { s with
    parked := s.parked.filter (fun p => !mine p.2.who)
    snoops := s.snoops.filter (fun p => !mine p.2.who)
    cols := s.cols.map (fun c => (c.1, { c.2 with rays := c.2.rays.filter (fun r => r.2.wk != k) })) }

/-- WORKGROUP_FLUSH: the plot's members are discarded, their resources freed, and the plot index returned (R353). -/
def State.flushPlot (s : State) (part e plot : Nat) : State :=
  let s := (s.plotWgs part e plot).foldl (fun s p => (s.dropOps p.1).unseat p.1 p.2) s
  s.modLaunch part e (fun l => { l with returned := l.returned ++ [.flushed plot] })

/-- A missed bound is logged: the first since the last read by its launch number (R362). -/
def State.logMissed (s : State) (part num : Nat) : State :=
  s.modPart part (fun p =>
    let x := p.schedLog
    let x := if bits x 47 32 = 0 then setBits x 31 0 num else x
    { p with schedLog := setBits x 47 32 (satInc 16 (bits x 47 32)) })

def State.logThermal (s : State) (part : Nat) : State :=
  s.modPart part (fun p => { p with schedLog := setBits p.schedLog 55 48 (satInc 8 (bits p.schedLog 55 48)) })

def State.logOverrun (s : State) (part : Nat) : State :=
  s.modPart part (fun p => { p with schedLog := setBits p.schedLog 63 56 (satInc 8 (bits p.schedLog 63 56)) })

/-- Apply a way to a victim; its slot claims nothing in its column until the request ends (R351). -/
def State.applyWay (s : State) (v : Victim) (y : Way) (part e : Nat) : State :=
  let col := v.first / 32 / 8
  let s := s.modCol col (fun c => { c with kept := (v.bslot, part, e) :: c.kept.filter (· != (v.bslot, part, e)) })
  match y with
  | .drain => s
  | .save => s.stopForSave v.keys false
  | .flush => if v.keys.all s.quietWg then s.flushPlot v.part v.ltab v.plot else s.stopForSave v.keys true

/-- A plot of a launch that is on its way out already frees resources that the request waits for. -/
def State.leaving (s : State) (part e : Nat) : Bool :=
  s.cols.any (fun c => c.2.kept.any (fun k => k.2 == (part, e))
    && s.wgs.any (fun p => p.2.core / 8 == c.1 && p.2.saving))

/-- PREEMPTION_REQUEST: while its conditions hold, one victim is chosen in the launch's columns and taken (R348, R351). -/
def State.preempt (s : State) (part e : Nat) : State :=
  match s.launch? part e with
  | none => s
  | some l =>
    if !s.requests part e || s.leaving part e then s
    else
      let cs := (s.boundSlots part e).flatMap (fun b => s.candidates b.1 (slPrio (FMap.get 0 (s.col b.1).slots b.2)))
      match s.chooseVictim cs.dedup (bits l.rcd 831 800) with
      | none => s
      | some (v, y, missed) =>
        let s := s.applyWay v y part e
        if missed then s.logMissed part l.num else s

def execPreemptionRequest (part ltab : Nat) (s : State) : Step1 := .next (s.preempt part ltab)

/-! ## Saving (R352, R358) -/

/-- Nothing of a workgroup is outstanding that its save waits for; what a deterministic workgroup has staged stays staged. -/
def State.savable (s : State) (k : Nat) (w : Wg) : Bool :=
  w.saving && s.quietWg k && w.threads.all (fun t =>
    t.2.pend == [] && t.2.queue == [] && t.2.chk.all (fun c => w.stagedOps.any (fun m => m.idx == t.1 && m.id == c.id)))

/-- A thread whose EXIT waited for its writes leaves, or takes a terminal cause there (R358, R183). -/
def State.exitForSave (s : State) (k i : Nat) : State :=
  match s.thread? k i with
  | none => s
  | some t =>
    if t.st = .ended ∧ t.op = some .exit then
      match t.term with
      | some c => (s.modThread k i (fun t => { t.endRun with term := none })).takeTraps 1 [t.trapReq k i c]
      | none => s.exitThread k i
    else s

/-- A workgroup leaves for an image: its trap records wait with it, its staging stays with the launch. -/
def State.putAway (s : State) (p : Nat × Wg) : State :=
  let s := s.modPart p.2.part (fun q => { q with traps := q.traps.map (fun t => if t.2.wk = p.1 then (t.1, { t.2 with wk := 2 ^ 32 }) else t) })
  let s := if p.2.staging = [] then s
    else s.modLaunch p.2.part p.2.ltab (fun l => { l with stagings := l.stagings.put (p.2.plot * l.wpp + p.2.wgid) p.2.staging })
  { s with wgs := s.wgs.erase p.1 }

/-- The time left of a no-pre-emption region at a save: timing is not modelled, so it is free up to what it was. -/
def State.npLeft (s : State) (w : Wg) : Nat := if w.np then Config.freeNat (s.fresh * 8 + w.wgid) % (w.nptime + 1) else 0

/-- Save or flush a plot all of whose members have stopped and settled. -/
def State.savePlot (s : State) (part e plot : Nat) : State :=
  let ms := s.plotWgs part e plot
  if ms.any (fun p => p.2.flushing) then s.flushPlot part e plot
  else
    let ids := ms.map (fun p => (p.1, p.2.threads.map (·.1)))
    let s := ids.foldl (fun s x => x.2.foldl (fun s i => s.exitForSave x.1 i) s) s
    let ms := s.plotWgs part e plot
    if ms.any (fun p => p.2.draining) then
      ms.foldl (fun s p => s.modWg p.1 (fun w => { w with saving := false })) s
    else
      let order := (List.range 8).flatMap (fun n => ms.filter (fun p => p.2.wgid == n))
      let imgs := order.map (fun p => s.image { s.withTasks p.1 p.2 with nptime := s.npLeft p.2 })
      let s := order.foldl State.putAway s
      { s.modLaunch part e (fun l => { l with returned := l.returned ++ [.saved plot imgs] }) with fresh := s.fresh + 1 }

/-- WORKGROUP_SAVE: once the outstanding work of a stopped workgroup and of its plot has settled, their images are written and their
resources freed (R352); one stopped for a flush is discarded (R353). -/
def State.saveWg (s : State) (k : Nat) : State :=
  match s.wgs.find? k with
  | none => s
  | some w =>
    let ms := s.plotWgs w.part w.ltab w.plot
    if !w.saving || !bit (s.part w.part).swapCtl 62 then s
    else if w.flushing then
      (if ms.all (fun p => s.quietWg p.1) then s.flushPlot w.part w.ltab w.plot else s)
    else if ms.all (fun p => s.savable p.1 p.2) then s.savePlot w.part w.ltab w.plot
    else s

def execWorkgroupSave (wg : Nat) (s : State) : Step1 := .next (s.saveWg wg)

/-! ## No-pre-emption regions (R355) -/

/-- System software or a bound ends a workgroup: it issues no further word and drains; its launch takes status 5. -/
def State.endWg (s : State) (k : Nat) : State :=
  s.modWg k (fun w => { w with stopped := some (w.stopped.getD 5), draining := true, saving := false, flushing := false })

/-- NP_REGION_OVERRUN: the bound of a region is reached; every thread takes trap 15 and the workgroup is ended. -/
def State.overrun (s : State) (k : Nat) : State :=
  match s.wgs.find? k with
  | none => s
  | some w =>
    if !w.np || w.draining || w.saving || bit (s.part w.part).cfg 35 then s
    else
      let reqs := (w.threads.filter (fun t => t.2.st != .exited && t.2.st != .trapped)).map (fun t =>
        (⟨k, t.1, 15, 0, 0, 0, t.2.obj, t.2.off, s.wordsAt w t.2.obj t.2.off⟩ : TrapReq))
      ((s.takeTraps reqs.length reqs).endWg k).logOverrun w.part

def execNpRegionOverrun (wg : Nat) (s : State) : Step1 := .next (s.overrun wg)

/-! ## Heat and supply (R330, R356, R383) -/

def Col.stretchFor (c : Col) (r : Nat) : Col := if c.stretch.contains r then c else { c with stretch := c.stretch ++ [r] }
def Col.unstretch (c : Col) (r : Nat) : Col := { c with stretch := c.stretch.filter (· != r) }

def execThermalLimit (col : Nat) (s : State) : Step1 := .next (s.modCol col (fun c => c.stretchFor 3))
def execTemperatureBelowLimit (col : Nat) (s : State) : Step1 :=
  .next (s.modCol col (fun c => { c.unstretch 3 with hot := false }))
def execSupplyDroop (col : Nat) (s : State) : Step1 := .next (s.modCol col (fun c => c.stretchFor 0))
def execSupplyRecovery (col : Nat) (s : State) : Step1 := .next (s.modCol col (fun c => c.unstretch 0))
def execColumnCurrentLimit (col : Nat) (s : State) : Step1 := .next (s.modCol col (fun c => c.stretchFor 1))

/-- Every enabled column is stretched for the power cap. -/
def State.capStretch (s : State) : State :=
  (List.range Config.columns).foldl (fun s c => if (s.col c).enabled then s.modCol c (fun x => x.stretchFor 2) else s) s

def execPowerCapExceeded (s : State) : Step1 := .next s.capStretch

/-- Stretching for current or for the cap ends at a moment the spec leaves to the current and the power. -/
def State.relax (s : State) : State :=
  if s.cols.all (fun c => !c.2.stretch.contains 1 && !c.2.stretch.contains 2) then s
  else
    { s with
      cols := s.cols.map (fun c =>
        (c.1, { c.2 with stretch := c.2.stretch.filter (fun r => (r != 1 && r != 2) || Config.freeBit (s.fresh * 256 + 4 * c.1 + r)) }))
      fresh := s.fresh + 1 }

/-- THERMAL_SAVE_TIMEOUT: a column above its limit for 10 ms gives up one plot outside no-pre-emption regions, of the least slot
prio (R356); it is not resumed in this column. -/
def State.thermalSave (s : State) (col : Nat) : State :=
  if !(s.col col).stretch.contains 3 then s
  else
    let s := s.modCol col (fun c => { c with hot := true })
    if s.wgs.any (fun p => p.2.core / 8 == col && p.2.saving) then s
    else
      let cs := (s.candidates col 16).filter (·.whole)
      match leastBy (fun a b => if a.prio != b.prio then decide (a.prio < b.prio) else decide (a.first < b.first)) cs with
      | none => s
      | some v =>
        let num := ((s.launch? v.part v.ltab).map (·.num)).getD 0
        ((s.modCol col (fun c => { c with ousted := (v.part, num, v.plot) :: c.ousted })).stopForSave v.keys false).logThermal v.part

def execThermalSaveTimeout (col : Nat) (s : State) : Step1 := .next (s.thermalSave col)

end Sys2Proof.Machine
end

