-- ==== Sys2Proof/Machine/Raster.lean ====
section
/-! DEFINITION. The raster units (spec/11, R236 to R244): draws, coverage, depth, hierarchical depth, bins and statistics. Window
coordinates have y growing downward (log entry 9). -/

namespace Sys2Proof.Machine

/-! ## Triangles and coverage (R240) -/

/-- A finite f32 as an integer count of 2^-150. -/
def fixed (x : Nat) : Option Int :=
  match fmtValue .f32 x with
  | .fin neg n d => let m : Int := (n * 2 ^ 150 / d : Nat); some (if neg then -m else m)
  | _ => none

/-- A point in window coordinates, in units of 2^-150, with its z encoding. -/
structure Vtx where
  x : Int
  y : Int
  z : Nat
deriving DecidableEq, Repr

structure Tri where
  a : Vtx
  b : Vtx
  c : Vtx
deriving DecidableEq, Repr

/-- The edge function of a to b at a point: positive to its right, y downward. -/
def edgeFn (a b : Vtx) (x y : Int) : Int := (b.x - a.x) * (y - a.y) - (b.y - a.y) * (x - a.x)

/-- Twice the signed area: positive where the triangle turns clockwise on the screen. -/
def Tri.area (t : Tri) : Int := edgeFn t.a t.b t.c.x t.c.y

/-- The triangle turned clockwise. -/
def Tri.clockwise (t : Tri) : Tri := if t.area < 0 then ⟨t.a, t.c, t.b⟩ else t

/-- A top or a left edge of a clockwise triangle. -/
def topLeft (a b : Vtx) : Bool := decide (b.y < a.y) || (a.y == b.y && decide (a.x < b.x))

def edgeIn (a b : Vtx) (x y : Int) : Bool :=
  let e := edgeFn a b x y
  decide (0 < e) || (e == 0 && topLeft a b)

/-- The top-left rule: a point is covered by a clockwise triangle of positive area. -/
def Tri.covers (t : Tri) (x y : Int) : Bool := edgeIn t.a t.b x y && edgeIn t.b t.c x y && edgeIn t.c t.a x y

/-- unorm24 of the depth interpolated at a point in f32 (R237); none where it is NaN. -/
def Tri.depth (t : Tri) (x y : Int) : Option Nat :=
  let term (e : Int) (z : Nat) : XR := XR.mul (.ofInt e) (fmtValue .f32 z)
  let num := xsum .rne [term (edgeFn t.b t.c x y) t.a.z, term (edgeFn t.c t.a x y) t.b.z, term (edgeFn t.a t.b x y) t.c.z]
  let z := fmtValue .f32 (roundRne .f32 (XR.quo num (.ofInt t.area)))
  if z.isNan then none
  else
    let one := XR.ofInt 1
    let c := if z.lt .zero then .zero else if one.lt z then one else z
    some (roundInt .rne 0 16 (XR.mul c (.ofInt (2 ^ 24 - 1)))).toNat

/-! ## Draw records (Table 11.2) -/

def drRsvd (d : Nat) : Bool := bits d 255 96 != 0 || bits d 15 4 != 0
def drPrims (d : Nat) : Nat := bits d 63 40 + 1
def drDraw (d : Nat) : Nat := bits d 31 16
def drLate (d : Nat) : Bool := bit d 0

/-- A draw is refused: it writes nothing (R240). -/
def drRefused (d : Nat) : Bool := drRsvd d || decide (2 ^ 24 < drPrims d)

/-- Culled early: no area, or a face the draw culls. -/
def Tri.culled (t : Tri) (d : Nat) : Bool :=
  let front := if bit d 3 then decide (t.area < 0) else decide (0 < t.area)
  t.area == 0 || (!front && bit d 1) || (front && bit d 2)

/-! ## The pass record (Table 18.5) -/

def rpSamples (r : Nat) : Nat := if bit r 456 then 4 else 1
def rpHz (r : Nat) : Nat := bits r 760 704
def rpTilesX (r : Nat) : Nat := (rpWidth r + 7) / 8

/-- Sample offsets in eighths of a pixel (R240). -/
def sampleAt (r i : Nat) : Nat × Nat :=
  if bit r 456 then [(3, 1), (7, 3), (1, 5), (5, 7)].getD i (0, 0) else (4, 4)

/-- A sample of a pixel: its place in units of 2^-150. -/
def samplePos (r px py i : Nat) : Int × Int :=
  let o := sampleAt r i
  (((8 * px + o.1) * 2 ^ 147 : Nat), ((8 * py + o.2) * 2 ^ 147 : Nat))

/-- An element of a bound buffer: its address where the checks of R53 pass. -/
def elemAt (rcd e n : Nat) (wr : Bool) : Option Nat :=
  match checkLane rcd e n true wr with
  | .at va => some va
  | _ => none

/-- `n` bytes of element `e` of a slot; zero where the lane reads nothing (R53). -/
def State.slotRead (s : State) (p : Pass) (l : Launch) (slot e n : Nat) : Except Held1 Nat :=
  match elemAt (FMap.get 0 l.q slot) e n false with
  | some va => s.vGet p.part (rpTag l.rcd) va n
  | none => .ok 0

/-- Vertex `k` of triangle `t` of a draw. -/
def State.vertex (s : State) (p : Pass) (l : Launch) (d t k : Nat) : Except Held1 Nat := do
  let i ← s.slotRead p l (bits d 39 36) (bits d 95 64 + 3 * t + k) 4
  s.slotRead p l (bits d 35 32) i 16

/-- The three vertices of triangle `t` of a draw. -/
def State.vertices (s : State) (p : Pass) (l : Launch) (d t : Nat) : Except Held1 (List Nat) := (List.range 3).mapM (s.vertex p l d t)

def vtxOf (v : Nat) : Option Vtx :=
  match fixed (bits v 31 0), fixed (bits v 63 32) with
  | some x, some y => some ⟨x, y, bits v 95 64⟩
  | _, _ => none

/-- The triangle of three vertices; none where a coordinate is no finite number. -/
def triOf (vs : List Nat) : Option Tri :=
  match vs.map vtxOf with
  | [some a, some b, some c] => some ⟨a, b, c⟩
  | _ => none

/-- The draw records of a pass (R240). -/
def State.draws (s : State) (p : Pass) (l : Launch) : Except Held1 (List Nat) :=
  (List.range (bits l.rcd 511 496 + 1)).mapM (fun i => s.vGet p.part (rpTag l.rcd) (bits l.rcd 696 640 + 32 * i) 32)

/-! ## Binning and its counts (R243, R244) -/

/-- The samples of a rectangle of pixels inside the screen: pixel and sample number. -/
def samplesIn (r x0 y0 w h : Nat) : List (Nat × Nat × Nat) :=
  (List.range h).flatMap (fun j => (List.range w).flatMap (fun i => (List.range (rpSamples r)).filterMap (fun k =>
    if x0 + i < rpWidth r ∧ y0 + j < rpHeight r then some (x0 + i, y0 + j, k) else none)))

/-- A triangle's bounds meet a rectangle of pixels. -/
def Tri.meets (t : Tri) (x0 y0 w h : Nat) : Bool :=
  let one : Int := (2 ^ 150 : Nat)
  decide (min (min t.a.x t.b.x) t.c.x < (x0 + w) * one) && decide (min (min t.a.y t.b.y) t.c.y < (y0 + h) * one)
    && decide (x0 * one < max (max t.a.x t.b.x) t.c.x) && decide (y0 * one < max (max t.a.y t.b.y) t.c.y)

/-- Whether a triangle is binned: it covers a sample, or it may cover one; for one that covers none the spec leaves it open. -/
def Tri.binned (t : Tri) (r free : Nat) : Bool :=
  let c := t.clockwise
  c.meets 0 0 (rpWidth r) (rpHeight r) && ((samplesIn r 0 0 (rpWidth r) (rpHeight r)).any (fun p =>
    let q := samplePos r p.1 p.2.1 p.2.2
    c.covers q.1 q.2) || Config.freeBit free)

/-- The bins that a triangle may cover: those its bounds meet (R243). -/
def Tri.binsOf (t : Tri) (r : Nat) : List Nat :=
  (List.range (rpBins r)).filter (fun b => t.meets (b % rpBinsX r * 64) (b / rpBinsX r * 64) 64 64)

/-- Counts of a pass, in the order of Table 11.3: inprims, culled, binned, tested, passed, refused. -/
abbrev Stats := List Nat

def Stats.bump (l : Stats) (i n : Nat) : Stats :=
  l.set i (satAdd (if i < 2 then 32 else 64) (l.getD i 0) n)

/-- What binning finds of one triangle: whether it counts as culled or as binned, and its place in the bin lists. One with a coordinate that
is no finite number covers nothing; whether it counts as culled or as binned is open (log entry 36). -/
def binTri (r d free : Nat) (vs : List Nat) : Bool × Bool × List Nat :=
  match triOf vs with
  | none => (Config.freeBit free, !Config.freeBit free && Config.freeBit (free + 1), [])
  | some x => if x.culled d then (true, false, []) else if x.binned r (free + 2) then (false, true, x.binsOf r) else (false, false, [])

/-- Bin every triangle of a pass, once and in draw order: its counts and its bin lists (R243, R244). -/
def State.binAll (s : State) (p : Pass) (l : Launch) : Except Held1 (Stats × List Binned) := do
  let ds ← s.draws p l
  ds.foldlM (fun a d =>
    if drRefused d then .ok (a.1.bump 5 1, a.2)
    else (List.range (drPrims d)).foldlM (fun a t => do
      let vs ← s.vertices p l d t
      let x := binTri l.rcd d ((s.fresh * 65536 + drDraw d) * 2 ^ 26 + 4 * t) vs
      pure (((a.1.bump 0 1).bump 1 (bnat x.1)).bump 2 (bnat x.2.1), if x.2.2 = [] then a.2 else a.2 ++ [⟨d, t, vs, x.2.2⟩])) a)
    ([0, 0, 0, 0, 0, 0], [])

/-- The hierarchical-depth entry of a tile as the pass reads it now; the farthest depth where it names no array. -/
def State.hzEntry (s : State) (p : Pass) (l : Launch) (tile : Nat) : Except Held1 Nat :=
  if rpHz l.rcd = 0 then .ok (2 ^ 24 - 1)
  else (s.vGet p.part (rpTag l.rcd) (rpHz l.rcd + 4 * tile) 4).map (fun x => bits x 23 0)

/-- A pass reads the entries of tiles. -/
def State.readHz (s : State) (p : Pass) (l : Launch) (tiles : List Nat) : Except Held1 Pass := do
  let hs ← tiles.mapM (s.hzEntry p l)
  pure { p with hz := (tiles.zip hs).foldl (fun m x => m.put x.1 x.2) p.hz }

/-- A pass starts: it reads every hierarchical-depth entry, and bins its triangles (R241, R243). -/
def State.startPass (s : State) (p : Pass) (l : Launch) : Except Held1 Pass := do
  let p ← s.readHz p l (if rpHz l.rcd = 0 then [] else List.range (rpTilesX l.rcd * ((rpHeight l.rcd + 7) / 8)))
  let x ← s.binAll p l
  pure { p with started := true, stats := x.1, tris := x.2 }

/-! ## Rasterising a bin (R236 to R243) -/

/-- A bin in progress: the state, samples tested and passed, the samples that draws other than late ones have covered, and how many more
samples it writes before its unit is taken from it, if it is (R243). -/
structure BinRun where
  s : State
  tested : Nat
  passed : Nat
  covered : List (Nat × Nat × Nat)
  left : Option Nat

/-- The address of a sample's element (R236). -/
def sampleElem (l : Launch) (q : Nat × Nat × Nat) : Option Nat :=
  elemAt (FMap.get 0 l.q (rpSlot l.rcd)) ((q.2.1 * rpWidth l.rcd + q.1) * rpSamples l.rcd + q.2.2) 8 true

/-- An atomic minimum of a pass at its tag: the old value; none where the tag has gone or finds no space (R93, R105, R106). -/
def State.passMin (s : State) (p : Pass) (l : Launch) (va ty width x : Nat) : Except Held1 (State × Option Nat) := do
  let t := rpTag l.rcd
  let f ← s.vPlace p.part t va width true true
  let pa := (f 0).1
  if t = 0 ∧ s.hostHolds (f 0).2 pa then .error (.snoop va pa)
  if !s.tagLive t then return (s, none)
  if s.noSpace t pa then return (s.exhaust t, none)
  let r := (s.noteRegions p.part p.ltab p.num pa).rmwHome t va pa 2 ty width x 0
  pure (r.2, some r.1)

/-- The depth test of one sample: a 64-bit unsigned atomic minimum at the pass's tag (R238). -/
def BinRun.sample (b : BinRun) (p : Pass) (l : Launch) (q : Nat × Nat × Nat) (word : Nat) : Except Held1 BinRun :=
  if b.left = some 0 then .ok b
  else
    let b := { b with tested := b.tested + 1, left := b.left.map (· - 1) }
    match sampleElem l q with
    | none => .ok b
    | some va => do
      let r ← b.s.passMin p l va 3 8 word
      pure { b with s := r.1, passed := b.passed + bnat (r.2.any (fun old => decide (word < old))) }

/-- One triangle in one 8 × 8 tile: against the tile's hierarchical-depth entry, then sample by sample (R241). -/
def BinRun.tile (b : BinRun) (p : Pass) (l : Launch) (d prim : Nat) (t : Tri) (hz : Nat) (qs : List (Nat × Nat × Nat)) :
    Except Held1 BinRun :=
  let hits := qs.filterMap (fun q =>
    let o := samplePos l.rcd q.1 q.2.1 q.2.2
    if t.covers o.1 o.2 then (t.depth o.1 o.2).map (fun z => (q, z)) else none)
  let least := (hits.map (·.2)).foldl min (2 ^ 24)
  if hz < least then .ok b
  else do
    let b ← hits.foldlM (fun b h => b.sample p l h.1 (h.2 * 2 ^ 40 + drDraw d * 2 ^ 24 + prim)) b
    pure (if drLate d then b else { b with covered := b.covered ++ hits.map (·.1) })

/-- The tiles of a bin: tile index in the array and its samples. -/
def binTiles (r bin : Nat) : List (Nat × List (Nat × Nat × Nat)) :=
  let bx := bin % rpBinsX r * 64
  let by0 := bin / rpBinsX r * 64
  (List.range 64).filterMap (fun i =>
    let x := bx + i % 8 * 8
    let y := by0 + i / 8 * 8
    if x < rpWidth r ∧ y < rpHeight r then some (y / 8 * rpTilesX r + x / 8, samplesIn r x y 8 8) else none)

/-- After a bin, an entry may be lowered to the greatest depth stored in its tile once its every sample is covered; whether it is, is
the rasteriser's choice (R241). -/
def BinRun.lower (b : BinRun) (p : Pass) (l : Launch) (tile : Nat) (qs : List (Nat × Nat × Nat)) : Except Held1 BinRun :=
  if rpHz l.rcd = 0 ∨ b.left.isSome ∨ !qs.all (fun q => b.covered.contains q) ∨ !Config.freeBit (b.s.fresh * 2 ^ 34 + tile) then .ok b
  else do
    let zs ← qs.mapM (fun q => match sampleElem l q with
      | some va => (b.s.vGet p.part (rpTag l.rcd) va 8).map (fun x => x / 2 ^ 40)
      | none => .ok (2 ^ 24 - 1))
    let r ← b.s.passMin p l (rpHz l.rcd + 4 * tile) 2 4 (zs.foldl max 0)
    pure { b with s := r.1 }

/-- Rasterise one bin over its list, in draw order; `left` as in `BinRun`. -/
def State.rasterBin (s : State) (p : Pass) (l : Launch) (bin : Nat) (left : Option Nat) : Except Held1 BinRun := do
  let tiles := binTiles l.rcd bin
  let b ← (p.tris.filter (fun x => x.bins.contains bin)).foldlM (fun b x =>
    match triOf x.verts with
    | none => .ok b
    | some t => tiles.foldlM (fun b y => b.tile p l x.draw x.prim t.clockwise (p.hz.get (2 ^ 24 - 1) y.1) y.2) b) ⟨s, 0, 0, [], left⟩
  tiles.foldlM (fun b y => b.lower p l y.1 y.2) b

/-- The statistics record (Table 11.3). -/
def statsRecord (st : Stats) : Nat :=
  st.getD 0 0 + st.getD 1 0 * 2 ^ 32 + st.getD 2 0 * 2 ^ 64 + st.getD 3 0 * 2 ^ 128 + st.getD 4 0 * 2 ^ 192 + st.getD 5 0 * 2 ^ 256

/-- RASTER_PASS_COMPLETE: the statistics are written, then the pass's counter advances (R239, R244). -/
def State.endPass (s : State) (p : Pass) (l : Launch) (st : Stats) (skip : Bool) : Except Held1 State := do
  let s ← match s.vPutFor p.part p.ltab (rpTag l.rcd) (bits l.rcd 824 768) (leBytes 64 (statsRecord st)) with
    | .ok t => .ok t
    | .error x => if skip then .ok s else .error x
  let regions := ((s.launch? p.part p.ltab).map (·.regions)).getD []
  let s := regions.foldl (fun s x => s.advanceRegion (x / 4096) (x % 4096)) s
  pure (s.retireEntry p.part p.ltab (bits l.rcd 455 448) l.donen)

/-- One bin of a started pass, which reads the bin's entries again; its counts, and the pass's end with its last bin. A unit that is
pre-empted or reset leaves the bin to be replayed from its start, and counts nothing. `skip` gives up what cannot be accessed: the bin
writes nothing more. -/
def State.binStep (s : State) (k : Nat) (p : Pass) (l : Launch) (bin : Nat) (left : Option Nat) (skip : Bool) : Except Held1 State := do
  let run : Except Held1 (Pass × BinRun) := do
    let p ← s.readHz p l (if rpHz l.rcd = 0 then [] else (binTiles l.rcd bin).map (·.1))
    let b ← s.rasterBin p l bin left
    pure (p, b)
  let r ← if skip then .ok (p, ⟨s, 0, 0, [], none⟩) else run
  let p := r.1
  let b := r.2
  let keep (q : Pass) : State := { b.s with passes := b.s.passes.put k q, fresh := b.s.fresh + 1 }
  let p := { p with parked := false, held := none }
  if b.left.isSome then pure (keep p)
  else
    let st := (Stats.bump p.stats 3 b.tested).bump 4 b.passed
    let bins := p.bins.filter (· != bin)
    let s := keep { p with bins := bins, stats := st }
    if bins = [] ∧ s.tagLive (rpTag l.rcd) then (s.endPass p l st skip).map (fun s => { s with passes := s.passes.erase k }) else pure s

/-- Whether the raster unit of a bin is taken from it before it ends, and after how many samples: what pre-empts or resets a unit is not
modelled further (R243, log entry 36). -/
def State.binCut (s : State) (bin : Nat) : Option Nat :=
  if Config.freeBit (s.fresh * 2 ^ 34 + 2 ^ 33 + bin) then some (Config.freeNat s.fresh) else none

/-- RASTER_BIN: a raster unit rasterises a bin that is left, once the pass has started; a fault parks the pass at the bin (R369). In a
partition that is halted it finishes the bin that it is at and starts no other (R324). -/
def State.runBin (s : State) (part k bin : Nat) (skip : Bool) : State :=
  match s.passes.find? k with
  | none => s
  | some p =>
    match s.launch? p.part p.ltab with
    | none => s
    | some l =>
      if p.part ≠ part ∨ !p.bins.contains bin ∨ (p.parked && !skip) ∨ p.held.any (· != bin) ∨ (p.held.isNone && !s.startable part)
          ∨ l.status = some 4 then s
      else
        let col := ((ones 34 (bits (s.part part).cfg 33 0)).head?).getD 0
        let failed (s : State) (p : Pass) (x : Held1) (again : State → State) : State :=
          let park (s : State) : State := { s with passes := s.passes.put k { p with parked := true, held := some bin } }
          match x with
          | .fault va c types => park (s.parkFor (.pass part p.ltab) part va c types 16 p.num col)
          | .snoop va pa => park (s.addSnoop (.pass part p.ltab) part va pa)
          | .term va sub => again (s.logTerm sub part 4 255 va (some (s.rawPa part va)))
        let bin1 (s : State) (p : Pass) (skip : Bool) : Except Held1 State := s.binStep k p l bin (s.binCut bin) skip
        let run (s : State) (p : Pass) : State :=
          match bin1 s p skip with
          | .ok t => t
          | .error x => failed s p x (fun s => match bin1 s p true with
            | .ok t => t
            | .error _ => s)
        let empty : Pass := { p with started := true, stats := [0, 0, 0, 0, 0, 0], tris := [] }
        if p.started then run s p
        else if skip then run s empty
        else
          match s.startPass p l with
          | .ok q => run s q
          | .error x => failed s p x (fun s => run s empty)

def execRasterBin (part pass bin : Nat) (s : State) : Step1 := .next (s.runBin part pass bin false)

/-- A pass's parked access is answered: the bin it was at goes on, or writes nothing more. -/
def State.passAnswer (s : State) (part ltab : Nat) (fail : Bool) : State :=
  match List.find? (fun p => p.2.part == part && p.2.ltab == ltab) s.passes with
  | none => s
  | some (k, p) =>
    let s := { s with passes := s.passes.put k { p with parked := false } }
    match fail, p.held with
    | true, some b => s.runBin part k b true
    | _, _ => s

end Sys2Proof.Machine
end

