-- ==== Sys2Proof/Machine/Transc.lean ====
section
/-! DEFINITION. The special functions at contract level 1 (R199, R200): each result is the exact value rounded once. A
transcendental value is formed with more than 190 correct bits, far beyond what any f32 rounding decision can need. -/

namespace Sys2Proof.Machine

/-- π in units of 2^-400. -/
def piFix : Nat :=
  0x3243f6a8885a308d313198a2e03707344a4093822299f31d0082efa98ec4e6c89452821e638d01377be5466cf34e90c6cc0ac

/-- ln 2 in units of 2^-260. -/
def ln2Fix : Nat := 0xb17217f7d1cf79abc9e3b39803f2f6af40f343267298b62d8a0d175b8baafa2be

/-- Digits of the integer square root, from bit `n - 1` down. -/
def isqrtBits (x : Nat) : Nat → Nat → Nat
  | 0, r => r
  | n + 1, r =>
    let c := r + 2 ^ n
    isqrtBits x n (if c * c ≤ x then c else r)

/-- The integer square root of a number below 2^256. -/
def isqrt (x : Nat) : Nat := isqrtBits x 128 0

/-- √(n/d) of a positive rational, to over 90 bits, with one more bit that says whether it is inexact. -/
def sqrtRat (n d : Nat) : XR :=
  let e := ilog2 n d
  let t : Int := 100 - e / 2
  let x := if t < 0 then n / (d * 4 ^ (-t).toNat) else n * 4 ^ t.toNat / d
  let r := isqrt x
  let exact := r * r == x && (if t < 0 then n % (d * 4 ^ (-t).toNat) == 0 else n * 4 ^ t.toNat % d == 0)
  .ofDyadic false (2 * r + bnat (!exact)) (-t - 1)

/-- Terms of exp: `term` is y^(k-1)/(k-1)! in units of 2^-p. -/
def expTerms (p : Nat) (y : Nat) : Nat → Nat → Nat → Nat → Nat
  | 0, _, _, acc => acc
  | n + 1, k, term, acc =>
    let t := term * y / 2 ^ p / k
    expTerms p y n (k + 1) t (acc + t)

/-- 2^(f/2^200) in units of 2^-200, for f below 2^200. -/
def exp2Frac (f : Nat) : Nat := expTerms 200 (f * ln2Fix / 2 ^ 260) 60 1 (2 ^ 200) (2 ^ 200)

/-- Terms of the inverse hyperbolic tangent. -/
def atanhTerms (p z2 : Nat) : Nat → Nat → Nat → Nat → Nat
  | 0, _, _, acc => acc
  | n + 1, k, pow, acc => atanhTerms p z2 n (k + 2) (pow * z2 / 2 ^ p) (acc + pow / k)

/-- log2(n/d) in units of 2^-240, for n/d in [1, 2). -/
def log2Frac (n d : Nat) : Nat :=
  let z := (n - d) * 2 ^ 240 / (n + d)
  let s := 2 * atanhTerms 240 (z * z / 2 ^ 240) 80 1 z 0
  s * 2 ^ 260 / ln2Fix

/-- Terms of sine or cosine: alternating, `k` the last factorial argument. -/
def trigTerms (r2 : Nat) : Nat → Nat → Nat → Bool → Int → Int
  | 0, _, _, _, acc => acc
  | n + 1, k, term, neg, acc =>
    let t := term * r2 / 2 ^ 300 / ((k + 1) * (k + 2))
    trigTerms r2 n (k + 2) t (!neg) (if neg then acc + t else acc - t)

/-- sin r and cos r in units of 2^-300, for |r| below 1. -/
def sinFix (r : Int) : Int :=
  let a := r.natAbs
  let s := trigTerms (a * a / 2 ^ 300) 50 1 a false a
  if r < 0 then -s else s

def cosFix (r : Int) : Int :=
  let a := r.natAbs
  trigTerms (a * a / 2 ^ 300) 50 0 (2 ^ 300) false (2 ^ 300)

/-- sin (or cos) of a nonzero finite rational: the quadrant, then the reduced argument (R200: exact reduction). -/
def trig (cosine neg : Bool) (n d : Nat) : XR :=
  let k := (4 * n * 2 ^ 400 + d * piFix) / (2 * d * piFix)
  let r : Int := (n * 2 ^ 300 / d : Nat) - (k * piFix / 2 ^ 101 : Nat)
  let q := (k + bnat cosine) % 4
  let v := match q with
    | 0 => sinFix r
    | 1 => cosFix r
    | 2 => -sinFix r
    | _ => -cosFix r
  .fin (xor (decide (v < 0)) (neg && !cosine)) v.natAbs (2 ^ 300)

/-- The seven special functions. -/
inductive SFn
  | rcp | rsq | sqrt | exp2 | log2 | sin | cos
deriving DecidableEq, Repr

/-- The exact result, or for a transcendental one its value to working precision, before rounding (Table 9.4). -/
def specialExact (f : SFn) (x : XR) : XR :=
  match f, x with
  | _, .nan => .nan
  | .rcp, .inf s => .fin s 0 1
  | .rcp, .fin s n d => if n = 0 then .inf s else .fin s d n
  | .rsq, .inf s => if s then .nan else .fin false 0 1
  | .rsq, .fin s n d => if n = 0 then .inf s else if s then .nan else sqrtRat d n
  | .sqrt, .inf s => if s then .nan else .inf false
  | .sqrt, .fin s n d => if n = 0 then .fin s 0 1 else if s then .nan else sqrtRat n d
  | .exp2, .inf s => if s then .fin false 0 1 else .inf false
  | .exp2, .fin s n d =>
    let i := XR.floor (.fin s n d)
    if i < -300 then .ofDyadic false 1 (-300)
    else if 300 < i then .ofDyadic false 1 300
    else if n % d = 0 then .ofDyadic false 1 i
    else
      let fx : Int := (if s then -(((n * 2 ^ 200 + d - 1) / d : Nat) : Int) else ((n * 2 ^ 200 / d : Nat) : Int)) - i * 2 ^ 200
      .ofDyadic false (exp2Frac fx.toNat) (i - 200)
  | .log2, .inf s => if s then .nan else .inf false
  | .log2, .fin s n d =>
    if n = 0 then .inf true
    else if s then .nan
    else
      let e := ilog2 n d
      let n' := if e < 0 then n * 2 ^ (-e).toNat else n
      let d' := if e < 0 then d else d * 2 ^ e.toNat
      if n' = d' then .ofInt e
      else
        let v : Int := e * 2 ^ 240 + log2Frac n' d'
        .fin (decide (v < 0)) v.natAbs (2 ^ 240)
  | .sin, .inf _ => .nan
  | .sin, .fin s n d => if n = 0 then .fin s 0 1 else trig false s n d
  | .cos, .inf _ => .nan
  | .cos, .fin s n d => if n = 0 then .fin false 1 1 else trig true s n d

/-- The result encoding in a format, and V: an f16 or bf16 result is the f32 result rounded once more, but for FSQRT (R200). -/
def special (f : SFn) (fmt : FFmt) (rm : Rm) (x : XR) : Rounded :=
  let e := specialExact f x
  if f = .sqrt ∨ fmt = .f32 then roundTo fmt rm false 0 0 e
  else
    let r := roundTo .f32 .rne false 0 0 e
    let y := roundTo fmt .rne false 0 0 (fmtValue .f32 r.enc)
    ⟨y.enc, r.ovf || y.ovf⟩

end Sys2Proof.Machine
end

