-- ==== Sys2Proof/Machine/Rv32.lean ====
section
/-! DEFINITION. The intersection cores: RV32IMF (R247, R248), one instruction at a time. The instruction set is RISC-V's own (log entry
11): rounding is by RNE whatever an rm field or frm asks for, a reserved rm is illegal, the only CSRs are those of F, and ECALL, EBREAK and
every store end the program with a fault. -/

namespace Sys2Proof.Machine

/-- A core's registers: those missing read as zero, x0 always does. -/
structure Rv where
  pc : Nat
  x : FMap Word
  f : FMap Word
  fcsr : Nat := 0             -- fflags [4:0] (NX, UF, OF, DZ, NV upward) and frm [7:5]
deriving DecidableEq, Repr

def Rv.rd (r : Rv) (n : Nat) : Word := if n = 0 then 0 else FMap.get 0 r.x n
def Rv.wr (r : Rv) (n : Nat) (v : Word) : Rv := if n = 0 then r else { r with x := FMap.set 0 r.x n v }
def Rv.rdf (r : Rv) (n : Nat) : Nat := (FMap.get 0 r.f n).toNat
def Rv.wrf (r : Rv) (n v : Nat) : Rv := { r with f := FMap.set 0 r.f n (BitVec.ofNat 32 v) }

/-- Advance to the next instruction. -/
def Rv.next (r : Rv) : Rv := { r with pc := (r.pc + 4) % 2 ^ 32 }

/-- What an instruction does: go on, return, fault, or load `n` bytes at an offset of the buffer into a register, with the way the
value is extended. -/
inductive RvOut
  | go (r : Rv)
  | ret (r : Rv)
  | fault
  | load (r : Rv) (off n : Nat) (signed : Bool) (float : Bool) (dest : Nat)

/-! ## Immediates -/

def rvImmI (w : Nat) : Word := BitVec.ofNat 32 (sext32 12 (bits w 31 20))
def rvImmB (w : Nat) : Nat := sext32 13 (bits w 31 31 * 2 ^ 12 + bits w 7 7 * 2 ^ 11 + bits w 30 25 * 2 ^ 5 + bits w 11 8 * 2)
def rvImmJ (w : Nat) : Nat := sext32 21 (bits w 31 31 * 2 ^ 20 + bits w 19 12 * 2 ^ 12 + bits w 20 20 * 2 ^ 11 + bits w 30 21 * 2)
def rvImmU (w : Nat) : Nat := bits w 31 12 * 2 ^ 12

/-! ## Integer arithmetic -/

/-- An OP or OP-IMM function; none where it is not defined. -/
def rvAlu (f3 f7 : Nat) (a b : Word) : Option Word :=
  match f7, f3 with
  | 0x00, 0 => some (a + b)
  | 0x20, 0 => some (a - b)
  | 0x00, 1 => some (a <<< (b.toNat % 32))
  | 0x00, 2 => some (if a.toInt < b.toInt then 1 else 0)
  | 0x00, 3 => some (if a.toNat < b.toNat then 1 else 0)
  | 0x00, 4 => some (a ^^^ b)
  | 0x00, 5 => some (a >>> (b.toNat % 32))
  | 0x20, 5 => some (a.sshiftRight (b.toNat % 32))
  | 0x00, 6 => some (a ||| b)
  | 0x00, 7 => some (a &&& b)
  | 0x01, 0 => some (a * b)
  | 0x01, 1 => some (BitVec.ofNat 32 (wrapInt 64 (a.toInt * b.toInt) / 2 ^ 32))
  | 0x01, 2 => some (BitVec.ofNat 32 (wrapInt 64 (a.toInt * b.toNat) / 2 ^ 32))
  | 0x01, 3 => some (BitVec.ofNat 32 (a.toNat * b.toNat / 2 ^ 32))
  | 0x01, 4 => some (if b = 0 then BitVec.ofNat 32 (2 ^ 32 - 1) else BitVec.ofNat 32 (wrapInt 32 (a.toInt.tdiv b.toInt)))
  | 0x01, 5 => some (if b = 0 then BitVec.ofNat 32 (2 ^ 32 - 1) else BitVec.ofNat 32 (a.toNat / b.toNat))
  | 0x01, 6 => some (if b = 0 then a else BitVec.ofNat 32 (wrapInt 32 (a.toInt.tmod b.toInt)))
  | 0x01, 7 => some (if b = 0 then a else BitVec.ofNat 32 (a.toNat % b.toNat))
  | _, _ => none

/-- OP-IMM: a shift takes its function from bits [31:25]. -/
def rvImm (w f3 : Nat) (a : Word) : Option Word :=
  if f3 = 1 ∨ f3 = 5 then
    (if bits w 31 25 = 1 then none else rvAlu f3 (bits w 31 25) a (BitVec.ofNat 32 (bits w 24 20)))
  else rvAlu f3 0 a (rvImmI w)

/-- Whether a branch is taken; none for an undefined condition. -/
def rvTaken (f3 : Nat) (a b : Word) : Option Bool :=
  match f3 with
  | 0 => some (a == b)
  | 1 => some (a != b)
  | 4 => some (decide (a.toInt < b.toInt))
  | 5 => some (decide (b.toInt ≤ a.toInt))
  | 6 => some (decide (a.toNat < b.toNat))
  | 7 => some (decide (b.toNat ≤ a.toNat))
  | _ => none

/-! ## Single-precision arithmetic -/

def rvVal (x : Nat) : XR := fmtValue .f32 x
def rvNan : Nat := 0x7FC00000

/-- A signaling NaN. -/
def rvSnan (a : Nat) : Bool := bits a 30 23 == 255 && bits a 22 0 != 0 && !bit a 22

/-- The flags of rounding an exact value to an encoding: inexact, and underflow or overflow with it. Tininess is seen after rounding. -/
def rvRounded (x : XR) (e : Nat) : Nat :=
  match x with
  | .fin _ n d =>
    if XR.eqv x (fmtValue .f32 e) then 0
    else if bits e 30 23 = 255 then 5
    else if bits e 30 23 = 0 ∨ (bits e 30 0 = 2 ^ 23 ∧ n * 2 ^ 151 < d * (2 ^ 25 - 1)) then 3
    else 1
  | _ => 0

/-- A result and its flags: `x` exact, from the operands given; `nv` invalid for a reason of the operation's own. -/
def rvResult (ops : List Nat) (nv : Bool) (x : XR) : Nat × Nat :=
  let e := roundRne .f32 x
  let bad := nv || ops.any rvSnan || (x.isNan && !ops.any (fun a => (rvVal a).isNan))
  (e, rvRounded x e + 16 * bnat bad)

def rvFadd (a b : Nat) : Nat × Nat := rvResult [a, b] false (XR.add .rne (rvVal a) (rvVal b))
def rvFmul (a b : Nat) : Nat × Nat := rvResult [a, b] false (XR.mul (rvVal a) (rvVal b))

/-- a × b + c, with the signs of the product and of c changed as asked. -/
def rvFma (np nc : Bool) (a b c : Nat) : Nat × Nat :=
  let p := XR.mul (rvVal a) (rvVal b)
  let z := if nc then (rvVal c).negate else rvVal c
  rvResult [a, b, c] (p.isNan && !(rvVal a).isNan && !(rvVal b).isNan) (XR.add .rne (if np then p.negate else p) z)

/-- A quotient, with its flags; a finite value divided by a zero raises DZ. -/
def rvFdiv (a b : Nat) : Nat × Nat :=
  match rvVal a, rvVal b with
  | .fin s n d, .fin t m e =>
    if m = 0 then (if n = 0 then (rvNan, 16) else (roundRne .f32 (.inf (xor s t)), 8))
    else rvResult [a, b] false (.fin (xor s t) (n * e) (d * m))
  | .inf s, .fin t _ _ => (roundRne .f32 (.inf (xor s t)), 0)
  | .fin s _ _, .inf t => (fmtSign .f32 (xor s t), 0)
  | _, _ => rvResult [a, b] false .nan

/-- A square root, with its flags: exact where its square is the operand. -/
def rvSqrt (a : Nat) : Nat × Nat :=
  let e := (special .sqrt .f32 .rne (rvVal a)).enc
  let v := rvVal e
  (e, if rvSnan a || (v.isNan && !(rvVal a).isNan) then 16 else bnat (!v.isNan && !XR.eqv (XR.mul v v) (rvVal a)))

/-- FSGNJ, FSGNJN and FSGNJX. -/
def rvSgnj (f3 a b : Nat) : Option Nat :=
  let s := match f3 with
    | 0 => some (b / 2 ^ 31)
    | 1 => some (1 - b / 2 ^ 31)
    | 2 => some ((a / 2 ^ 31 + b / 2 ^ 31) % 2)
    | _ => none
  s.map (fun s => a % 2 ^ 31 + s * 2 ^ 31)

/-- FLE, FLT and FEQ, with their flags: FLE and FLT take a quiet NaN too as invalid. -/
def rvFcmp (f3 a b : Nat) : Option (Nat × Nat) :=
  let x := rvVal a
  let y := rvVal b
  let nan := x.isNan || y.isNan
  match f3 with
  | 0 => some (bnat (XR.lt x y || XR.eqv x y), 16 * bnat nan)
  | 1 => some (bnat (XR.lt x y), 16 * bnat nan)
  | 2 => some (bnat (XR.eqv x y), 16 * bnat (rvSnan a || rvSnan b))
  | _ => none

/-- FCVT to an integer, rounded and clamped, with its flags. -/
def rvToInt (lo hi : Int) (a : Nat) : Nat × Nat :=
  match rvVal a with
  | .nan => (wrapInt 32 hi, 16)
  | .inf s => (wrapInt 32 (if s then lo else hi), 16)
  | x =>
    let i := roundInt .rne 0 0 x
    (wrapInt 32 (clampInt lo hi i), if i < lo ∨ hi < i then 16 else bnat (!XR.eqv x (.ofInt i)))

/-- FCVT from an integer, with its flags. -/
def rvOfInt (i : Int) : Nat × Nat := rvResult [] false (.ofInt i)

/-- FCLASS. -/
def rvClass (a : Nat) : Nat :=
  let s := bit a 31
  let e := bits a 30 23
  let m := bits a 22 0
  let k := if e = 255 then (if m = 0 then (if s then 0 else 7) else if bit m 22 then 9 else 8)
    else if e = 0 then (if m = 0 then (if s then 3 else 4) else (if s then 2 else 5))
    else (if s then 1 else 6)
  2 ^ k

/-- A rounding mode that is not reserved: the field's, or for 7 that of frm. -/
def rvRm (r : Rv) (w : Nat) : Bool :=
  let m := bits w 14 12
  m != 5 && m != 6 && (m != 7 || decide (bits r.fcsr 7 5 < 5))

/-- Flags accrue. -/
def Rv.accrue (r : Rv) (fl : Nat) : Rv := { r with fcsr := r.fcsr ||| fl }

/-- OP-FP. -/
def rvOpFp (r : Rv) (w : Nat) : RvOut :=
  let d := bits w 11 7
  let f3 := bits w 14 12
  let n2 := bits w 24 20
  let a := r.rdf (bits w 19 15)
  let b := r.rdf n2
  let fl (x : Nat × Nat) : RvOut := .go ((r.wrf d x.1).accrue x.2).next
  let fr (x : Nat × Nat) : RvOut := if rvRm r w then fl x else .fault
  let int (x : Nat × Nat) : RvOut := .go ((r.wr d (BitVec.ofNat 32 x.1)).accrue x.2).next
  let minmax (x : Nat) : RvOut := fl (x, 16 * bnat (rvSnan a || rvSnan b))
  match bits w 31 25 with
  | 0x00 => fr (rvFadd a b)
  | 0x04 => fr (rvResult [a, b] false (XR.add .rne (rvVal a) (rvVal b).negate))
  | 0x08 => fr (rvFmul a b)
  | 0x0C => fr (rvFdiv a b)
  | 0x2C => if n2 = 0 then fr (rvSqrt a) else .fault
  | 0x10 => match rvSgnj f3 a b with
    | some x => fl (x, 0)
    | none => .fault
  | 0x14 => if f3 = 0 then minmax (fminmax .f32 false a b) else if f3 = 1 then minmax (fminmax .f32 true a b) else .fault
  | 0x50 => match rvFcmp f3 a b with
    | some x => int x
    | none => .fault
  | 0x60 =>
    if !rvRm r w then .fault
    else if n2 = 0 then int (rvToInt (-(2 ^ 31)) (2 ^ 31 - 1) a)
    else if n2 = 1 then int (rvToInt 0 (2 ^ 32 - 1) a)
    else .fault
  | 0x68 =>
    let x := r.rd (bits w 19 15)
    if !rvRm r w then .fault
    else if n2 = 0 then fl (rvOfInt x.toInt)
    else if n2 = 1 then fl (rvOfInt x.toNat)
    else .fault
  | 0x70 => if n2 ≠ 0 then .fault else if f3 = 0 then int (a, 0) else if f3 = 1 then int (rvClass a, 0) else .fault
  | 0x78 => if n2 = 0 ∧ f3 = 0 then fl ((r.rd (bits w 19 15)).toNat, 0) else .fault
  | _ => .fault

/-- The CSR instructions on fflags, frm and fcsr; on any other CSR, and ECALL and EBREAK, illegal. -/
def rvCsr (r : Rv) (w : Nat) : RvOut :=
  let f3 := bits w 14 12
  let n1 := bits w 19 15
  let x := if 4 ≤ f3 then n1 else (r.rd n1).toNat
  let place : Option (Nat × Nat) := match bits w 31 20 with
    | 1 => some (4, 0)
    | 2 => some (7, 5)
    | 3 => some (7, 0)
    | _ => none
  match place with
  | none => .fault
  | some (hi, lo) =>
    let old := bits r.fcsr hi lo
    let new := if f3 % 4 = 1 then x else if n1 = 0 then old else if f3 % 4 = 2 then old ||| x else old - (old &&& x)
    if f3 % 4 = 0 then .fault
    else .go ({ r with fcsr := setBits r.fcsr hi lo (new % 2 ^ (hi + 1 - lo)) }.wr (bits w 11 7) (BitVec.ofNat 32 old)).next

/-! ## One instruction -/

/-- Go to a target, which must be aligned to an instruction. -/
def rvJump (r : Rv) (target : Nat) : RvOut := if target % 4 = 0 then .go { r with pc := target % 2 ^ 32 } else .fault

/-- The instruction `w` at the core's pc. A program returns by `JALR x0, 0(ra)` while ra holds what it held at entry, zero. -/
def rvStep (r : Rv) (w : Nat) : RvOut :=
  let d := bits w 11 7
  let f3 := bits w 14 12
  let a := r.rd (bits w 19 15)
  let b := r.rd (bits w 24 20)
  let set (x : Option Word) : RvOut := match x with
    | some v => .go (r.wr d v).next
    | none => .fault
  let fma (np nc : Bool) : RvOut :=
    let x := rvFma np nc (r.rdf (bits w 19 15)) (r.rdf (bits w 24 20)) (r.rdf (bits w 31 27))
    if bits w 26 25 = 0 ∧ rvRm r w then .go ((r.wrf d x.1).accrue x.2).next else .fault
  let load (n : Nat) (sg fl : Bool) : RvOut := .load r.next (a + rvImmI w).toNat n sg fl d
  match bits w 6 0 with
  | 0x37 => set (some (BitVec.ofNat 32 (rvImmU w)))
  | 0x17 => set (some (BitVec.ofNat 32 (r.pc + rvImmU w)))
  | 0x6F => rvJump (r.wr d (BitVec.ofNat 32 (r.pc + 4))) ((r.pc + rvImmJ w) % 2 ^ 32)
  | 0x67 =>
    let t := (a + rvImmI w).toNat / 2 * 2
    if f3 ≠ 0 then .fault
    else if d = 0 ∧ bits w 19 15 = 1 ∧ rvImmI w = 0 ∧ a = 0 then .ret r
    else rvJump (r.wr d (BitVec.ofNat 32 (r.pc + 4))) t
  | 0x63 => match rvTaken f3 a b with
    | none => .fault
    | some t => if t then rvJump r ((r.pc + rvImmB w) % 2 ^ 32) else .go r.next
  | 0x03 => match f3 with
    | 0 => load 1 true false
    | 1 => load 2 true false
    | 2 => load 4 false false
    | 4 => load 1 false false
    | 5 => load 2 false false
    | _ => .fault
  | 0x07 => if f3 = 2 then load 4 false true else .fault
  | 0x13 => set (rvImm w f3 a)
  | 0x33 => set (rvAlu f3 (bits w 31 25) a b)
  | 0x0F => if f3 = 0 then .go r.next else .fault
  | 0x43 => fma false false
  | 0x47 => fma false true
  | 0x4B => fma true false
  | 0x4F => fma true true
  | 0x53 => rvOpFp r w
  | 0x73 => rvCsr r w
  | _ => .fault

/-- Complete a load with the bytes read. -/
def rvLoaded (r : Rv) (n : Nat) (signed float : Bool) (dest val : Nat) : Rv :=
  let v := if signed then sext32 (8 * n) val else val
  if float then r.wrf dest v else r.wr dest (BitVec.ofNat 32 v)

/-- The registers at a program's entry (R248): `geo` the geometry id, `prim` the primitive index, `off` the leaf's byte offset and
`kind` its kind. -/
def rvEntry (pc : Nat) (ray : List Nat) (t geo prim off kind : Nat) : Rv :=
  let vs := ray.take 6 ++ [t]
  let r : Rv := ⟨pc, [], [], 0⟩
  let r := ((List.range 7).zip vs).foldl (fun r p => (r.wr (10 + p.1) (BitVec.ofNat 32 p.2)).wrf (10 + p.1) p.2) r
  (((r.wr 17 (BitVec.ofNat 32 geo)).wr 9 (BitVec.ofNat 32 prim)).wr 18 (BitVec.ofNat 32 off)).wr 19 (BitVec.ofNat 32 kind)

end Sys2Proof.Machine
end

