-- ==== Sys2Proof/Machine/Traversal.lean ====
section
/-! DEFINITION. The traversal units (R245 to R249): box and triangle tests, leaf programs, and the end of a ray. -/

namespace Sys2Proof.Machine

/-! ## Reading the hierarchy -/

/-- Why a ray's walk stops: its reads are held back, it ends with a status and a candidate's ids,
or it never ends (a hierarchy that contains itself). -/
inductive RayStop
  | held (x : Held1)
  | ends (status geo prim : Nat)
  | never

/-- Bytes of a hierarchy's buffer from its base (log entry 12). -/
def rayExtent (rcd : Nat) : Nat :=
  if recCounty rcd = 0 then 0
  else if recSwz rcd = 0 then (recCounty rcd - 1) * recStride rcd + recCountx rcd * recEsize rcd
  else roundUp (recCounty rcd) (swzTile (recSwz rcd)).1 * recStride rcd

/-- `n` bytes at a byte offset of the hierarchy, at the thread's tag (R245); `bad` where they lie outside the buffer. -/
def State.rayRead (s : State) (q : Req) (rcd off n : Nat) (bad : RayStop) : Except RayStop Nat :=
  if rayExtent rcd < off + n then .error bad
  else
    let ls : List Loc := (List.range n).map (fun i => ⟨0, recBase rcd + off + i⟩)
    match s.engineHeld q ls [] false with
    | some x => .error (.held x)
    | none => .ok (ofLe (ls.map (s.locRead q)))

/-! ## Tests (R246) -/

def f32At (x i : Nat) : Nat := bits x (32 * i + 31) (32 * i)

/-- A quotient rounded to f32 downward or upward; what is no number bounds nothing. -/
def slabRound (up : Bool) (a b : XR) : XR :=
  let x := XR.quo a b
  if x.isNan then .inf (!up) else fmtValue .f32 (roundTo .f32 (if up then .rup else .rdn) false 0 0 x).enc

/-- The distances at which a ray enters and leaves a slab; none where it runs beside it. -/
def slab (o d lo hi : XR) : Option (XR × XR) :=
  if d.isZero then (if XR.lt o lo || XR.lt hi o then none else some (.inf true, .inf false))
  else
    let a := XR.add .rne lo o.negate
    let b := XR.add .rne hi o.negate
    if d.neg? then some (slabRound false b d, slabRound true a d) else some (slabRound false a d, slabRound true b d)

def XR.maxOf (a b : XR) : XR := if XR.lt a b then b else a
def XR.minOf (a b : XR) : XR := if XR.lt b a then b else a

/-- The entry distance of a ray, of its block's values, into bounds (min xyz, max xyz), within [tmin, tmax]; none for a miss. -/
def boxEntry (ray bnd : List Nat) : Option XR := do
  let v (l : List Nat) (i : Nat) : XR := fmtValue .f32 (l.getD i 0)
  let sl (i : Nat) : Option (XR × XR) := slab (v ray i) (v ray (3 + i)) (v bnd i) (v bnd (3 + i))
  let x ← sl 0
  let y ← sl 1
  let z ← sl 2
  let near := XR.maxOf (XR.maxOf (XR.maxOf x.1 y.1) z.1) (v ray 6)
  let far := XR.minOf (XR.minOf (XR.minOf x.2 y.2) z.2) (v ray 7)
  if XR.lt far near then none else some near

/-- A finite f32 as an integer count of 2^-150. -/
def fixed150 (x : Nat) : Option Int :=
  match fmtValue .f32 x with
  | .fin s n d => let m : Int := (n * 2 ^ 150 / d : Nat); some (if s then -m else m)
  | _ => none

def sub3 (a b : List Int) : List Int := List.zipWith (· - ·) a b
def dot3 (a b : List Int) : Int := (List.zipWith (· * ·) a b).foldl (· + ·) 0
def cross3 (a b : List Int) : List Int :=
  let g (l : List Int) (i : Nat) : Int := l.getD i 0
  [g a 1 * g b 2 - g a 2 * g b 1, g a 2 * g b 0 - g a 0 * g b 2, g a 0 * g b 1 - g a 1 * g b 0]

/-- The quotient of two integers rounded to f32; zero is +0. -/
def ratio32 (a b : Int) : Nat := if a = 0 then 0 else roundRne .f32 (XR.quo (.ofInt a) (.ofInt b))

/-- The watertight test, made exactly with every edge included: t and the barycentric weights of the second and third vertex. The ray's interval may be unbounded. -/
def triangleHit (ray tri : List Nat) : Option (Nat × Nat × Nat) := do
  let r ← (ray.take 6).mapM fixed150
  let p ← tri.mapM fixed150
  let o := r.take 3
  let d := (r.drop 3).take 3
  let a := p.take 3
  let e1 := sub3 ((p.drop 3).take 3) a
  let e2 := sub3 ((p.drop 6).take 3) a
  let pv := cross3 d e2
  let det := dot3 e1 pv
  let tv := sub3 o a
  let u := dot3 tv pv
  let qv := cross3 tv e1
  let v := dot3 d qv
  let sg : Int := if det < 0 then -1 else 1
  if det = 0 ∨ u * sg < 0 ∨ v * sg < 0 ∨ det * sg < (u + v) * sg then none
  else some (ratio32 (dot3 e2 qv) det, ratio32 u det, ratio32 v det)

/-- A distance inside the ray's interval. -/
def inInterval (ray : List Nat) (t : Nat) : Bool :=
  let x := fmtValue .f32 t
  !x.isNan && !XR.lt x (fmtValue .f32 (ray.getD 6 0)) && !XR.lt (fmtValue .f32 (ray.getD 7 0)) x

/-! ## Candidates -/

/-- A candidate, and the hit it makes. -/
structure Hit where
  t : Nat
  u : Nat
  v : Nat
  geo : Nat
  prim : Nat
deriving DecidableEq, Repr

/-- The closest wins; at equal t the lower geometry id, then the lower primitive index. -/
def Hit.beats (a b : Hit) : Bool :=
  let x := fmtValue .f32 a.t
  let y := fmtValue .f32 b.t
  if XR.lt x y then true
  else if XR.lt y x then false
  else if a.geo != b.geo then decide (a.geo < b.geo)
  else decide (a.prim < b.prim)

def closer (best : Option Hit) (h : Hit) : Option Hit :=
  match best with
  | none => some h
  | some b => if h.beats b then some h else some b

/-- A leaf program's run: at most `fuel` instructions. None where the budget is reached without a return (R248). -/
def State.rvRun (s : State) (q : Req) (rcd col : Nat) (bad : RayStop) : Nat → Rv → Except RayStop (Option Rv)
  | 0, _ => .ok none
  | n + 1, r =>
    if 65536 < r.pc + 4 then .error bad
    else
      let w := ofLe ((List.range 4).map (fun i => FMap.get 0 (s.col col).istore (r.pc + i)))
      match rvStep r w with
      | .go r => State.rvRun s q rcd col bad n r
      | .ret r => .ok (some r)
      | .fault => .error bad
      | .load r off k sg fl d =>
        match s.rayRead q rcd off k bad with
        | .ok x => State.rvRun s q rcd col bad n (rvLoaded r k sg fl d x)
        | .error e => .error e

/-- A program's entry in the instruction store: the spec names programs by number and gives no place (log entry 12). -/
def programEntry (prog : Nat) : Nat := Config.programEntry prog % 65536 / 4 * 4

/-- Judge a candidate by its program, if it names one: the closest hit after it, and whether traversal ends. -/
def State.candidate (s : State) (q : Req) (y : Ray) (col prog off kind : Nat) (h : Hit) (best : Option Hit) :
    Except RayStop (Option Hit × Bool) :=
  let ray := y.block.map BitVec.toNat
  if !inInterval ray h.t then .ok (best, false)
  else if prog = 0 then .ok (closer best h, false)
  else do
    let bad := RayStop.ends 3 h.geo h.prim
    match ← s.rvRun q y.rcd col bad y.budget (rvEntry (programEntry prog) ray h.t h.geo h.prim off kind) with
    | none => .error (.ends 2 h.geo h.prim)
    | some r =>
      let a := (r.rd 10).toNat
      let h := { h with t := r.rdf 10 }
      let take := if inInterval ray h.t then closer best h else best
      if a = 0 then .ok (best, false) else if a = 1 then .ok (take, false) else if a = 2 then .ok (take, true) else .error bad

/-! ## Walking (R246) -/

def malformed : RayStop := .ends 4 0 0

/-- Children hit, by ascending entry distance and then slot. -/
def sortHits : List (XR × Nat) → List (XR × Nat) → List (XR × Nat)
  | [], acc => acc
  | x :: xs, acc => sortHits xs (acc.takeWhile (fun y => !XR.lt x.1 y.1) ++ [x] ++ acc.dropWhile (fun y => !XR.lt x.1 y.1))

/-- The references of a box node's children that the ray meets, in order. -/
def boxChildren (ray : List Nat) (node : Nat) : List Nat :=
  let one (k : Nat) : Option (XR × Nat) :=
    (boxEntry ray ((List.range 6).map (fun i => f32At node (4 + 6 * k + i)))).map (fun t => (t, f32At node k))
  (sortHits ((List.range 4).filterMap one) []).map (·.2)

/-- The closest hit so far and whether a program has ended the traversal. -/
abbrev RayAcc := Option Hit × Bool

/-- Visit a reference. The fuel is the depth of the walk: no hierarchy without a cycle is deeper than its buffer has units. A procedural leaf
whose program field is 0 names no program: the ray ends with status 4 (DESIGN CHOICE, log entry 12). -/
def State.rayWalk (s : State) (q : Req) (y : Ray) (col free : Nat) : Nat → Nat → RayAcc → Except RayStop RayAcc
  | 0, _, _ => .error .never
  | n + 1, ref, acc =>
    let ray := y.block.map BitVec.toNat
    let off := ref % 2 ^ 30 * 64
    if acc.2 then .ok acc
    else if ref / 2 ^ 30 = 3 then .ok acc
    else if ref / 2 ^ 30 = 0 then do
      let x ← s.rayRead q y.rcd off 128 malformed
      if bits x 1023 896 ≠ 0 then .error malformed
      (boxChildren ray x).foldlM (fun acc c => State.rayWalk s q y col free n c acc) acc
    else if ref / 2 ^ 30 = 1 then do
      let x ← s.rayRead q y.rcd off 64 malformed
      if bits x 511 360 ≠ 0 then .error malformed
      match triangleHit ray ((List.range 9).map (f32At x)) with
      | none => .ok acc
      | some h => s.candidate q y col (bits x 359 352) off 1 ⟨h.1, h.2.1, h.2.2, f32At x 9, f32At x 10⟩ acc.1
    else do
      let x ← s.rayRead q y.rcd off 64 malformed
      if bits x 511 264 ≠ 0 ∨ bits x 263 256 = 0 then .error malformed
      match boxEntry ray ((List.range 6).map (f32At x)) with
      | none => .ok acc
      | some t =>
        let u := (Config.freeWord (4 * free)).toNat
        let v := (Config.freeWord (4 * free + 1)).toNat
        s.candidate q y col (bits x 263 256) off 2 ⟨roundRne .f32 t, u, v, f32At x 6, f32At x 7⟩ acc.1

/-- The four words that a ray lands (R249); what the spec does not state is free. -/
def rayWords (free : Nat) (r : Except RayStop RayAcc) : Option (List Nat) :=
  let w (i : Nat) : Nat := (Config.freeWord (4 * free + i)).toNat
  match r with
  | .ok (some h, _) => some [h.t, h.u, h.v, 1 * 2 ^ 29 + h.prim % 2 ^ 24]
  | .ok (none, _) => some [0x7F800000, w 0, w 1, 0]
  | .error (.ends 4 _ _) => some [w 0, w 1, w 2, 4 * 2 ^ 29 + w 3 % 2 ^ 24]
  | .error (.ends st geo prim) => some [w 0, geo, w 1, st * 2 ^ 29 + prim % 2 ^ 24]
  | .error .never => none
  | .error (.held _) => none

/-! ## TRAVERSAL_RAY -/

/-- A ray leaves its unit. -/
def State.dropRay (s : State) (col ray : Nat) : State := s.modCol col (fun c => { c with rays := c.rays.erase ray })

/-- A ray ends in a terminal response: logged, its result never lands, and its thread traps with the PC of its TRACE (R86, R372). -/
def State.failRay (s : State) (col ray : Nat) (y : Ray) (core va sub : Nat) : State :=
  let s := s.logTerm sub y.part 3 (s.coreNum core) va (some (s.rawPa y.part va))
  let s := (s.dropRay col ray).modThread y.wk y.idx (fun t => { t with pend := t.pend.filter (fun e => e.id != y.id) })
  s.setTerm y.wk y.idx ⟨16, sub, s.failAddr y.part sub va, y.obj, y.off, 1, va, 0, true, false, false, y.word⟩

/-- TRAVERSAL_RAY: a ray of a column's unit walks its hierarchy and lands its four words; a fault parks it (R369). -/
def State.traverse (s : State) (col ray : Nat) : State :=
  match (s.col col).rays.find? ray with
  | none => s
  | some y =>
    match s.wgs.find? y.wk with
    | none => s.dropRay col ray
    | some w =>
      if y.parked then s
      else
        let q : Req := { w.reqOf y.wk with part := y.part, tag := y.tag }
        let r := s.rayWalk q y col s.fresh (rayExtent y.rcd / 64 + 2) 0 (none, false)
        match r with
        | .error (.held (.term va sub)) => s.failRay col ray y w.core va sub
        | .error (.held x) =>
          let t := s.engineWait q (.ray col ray) 8 x
          t.modCol col (fun c => { c with rays := c.rays.modify ray (fun z => { z with parked := true }) })
        | _ =>
          match rayWords s.fresh r with
          | none => s
          | some vals =>
            let t := ((s.dropRay col ray).bindPend y.wk y.idx y.id vals).modThread y.wk y.idx (fun t => t.land y.id)
            { t with fresh := t.fresh + 1 }

def execTraversalRay (col ray : Nat) (s : State) : Step1 := .next (s.traverse col ray)

/-- A ray's parked read is answered. -/
def State.rayAnswer (s : State) (col ray : Nat) (fail : Bool) (va : Nat) : State :=
  match (s.col col).rays.find? ray with
  | none => s
  | some y =>
    let s := s.modCol col (fun c => { c with rays := c.rays.modify ray (fun z => { z with parked := false }) })
    if fail then
      (match s.wgs.find? y.wk with
        | some w => s.failRay col ray y w.core va 3
        | none => s.dropRay col ray)
    else s

end Sys2Proof.Machine
end

