-- ==== Sys2Proof/Machine/Answers.lean ====
section
/-! DEFINITION. Faults gathered and answered (R369, R370), the host's answers to back-invalidations (R371), and the disposal of traps
(R374). -/

namespace Sys2Proof.Machine

/-! ## Answering one waiter -/

/-- A staged access is released by the ticket unit, not by an answer. -/
def State.stillStaged (s : State) (m : MemOp) : Bool :=
  match s.wgs.find? m.wk with
  | some w => w.stagedOps.any (fun x => decide (x = m))
  | none => false

/-- An access of a thread is still to be performed: it stands in the thread's queue. -/
def State.stillQueued (s : State) (m : MemOp) : Bool := (s.thread? m.wk m.idx).any (fun t => t.queue.contains m)

/-- An access gets the terminal response "translation refused". -/
def State.refuseOp (s : State) (m : MemOp) : State :=
  (s.failOp m 16 3).forgetOp m

/-- Threads parked at a fetch, or at a word that could not act, go on at the word they stand at. -/
def State.wake (s : State) (k : Nat) (idxs : List Nat) : State :=
  idxs.foldl (fun s i => s.modThread k i (fun t =>
    if t.st = .wait then { t with st := .ready, op := none, since := s.clock } else t)) s

/-- A thread stands where the answer to a fetch, or to a word that could not act, finds it: at the word, or resumed there (R358). -/
def Thread.awaitsFetch (t : Thread) : Bool := t.st == .wait || (t.st == .ended && t.op == some .again)

/-- Threads parked so take the trap of the answer: cause 17 for a fetch, else 16 (Table 19.10). -/
def State.refuseFetch (s : State) (k : Nat) (idxs : List Nat) (types va : Nat) : State :=
  match s.wgs.find? k with
  | none => s
  | some w =>
    let s := s.logTerm 3 w.part 0 (s.coreNum w.core) va none
    let reqs := idxs.filterMap (fun i => match w.threads.find? i with
      | some t => if t.awaitsFetch then
          some (⟨k, i, if types = 4 then 17 else 16, 3, 0, va, t.obj, t.off, s.wordsAt w t.obj t.off⟩ : TrapReq)
        else none
      | none => none)
    s.takeTraps reqs.length reqs

/-- A PHASE whose size word is refused traps every thread parked at it. -/
def State.refusePhase (s : State) (k va : Nat) : State :=
  match s.wgs.find? k with
  | none => s
  | some w =>
    let s := s.logTerm 3 w.part 0 (s.coreNum w.core) va none
    let reqs := (w.threads.filter (fun p => p.2.st == .phase)).map (fun p =>
      (⟨k, p.1, 16, 3, 0, va, p.2.obj, p.2.off, p.2.wlen⟩ : TrapReq))
    s.takeTraps reqs.length reqs

/-- The source bit of a waiter (Table 19.8). -/
def Waiter.src : Waiter → Nat
  | .copy _ _ => 2
  | .task _ _ _ => 4
  | .ray _ _ => 8
  | .pass _ _ => 16
  | .lease _ _ => 32
  | .front _ _ => 32
  | .graph _ _ => 32
  | .done _ _ => 32
  | _ => 1

/-- An access of a thread whose host response has come is performed at the place that it was translated to (R367, R371). -/
def State.grantOp (s : State) (m : MemOp) (pa : Nat) : State :=
  match s.wgs.find? m.wk with
  | none => s
  | some w =>
    if !s.stillQueued m then s
    else match s.performAt w m pa true with
      | .done s val line => s.complete m val line
      | _ => s

/-- Replay a waiter, or refuse it. `granted` gives the physical address of a write for which the host has answered. -/
def State.answer (s : State) (part : Nat) (who : Waiter) (types va : Nat) (fail : Bool) (granted : Option Nat) : State :=
  let logged : State := if fail then s.logTerm 3 part (srcCode who.src) (s.waiterCore who) va none else s
  match who with
  | .op m => if fail then s.refuseOp m else match granted with
      | some pa => s.grantOp m pa
      | none => if s.stillQueued m then s.retryOp m false else s
  | .fetch k idxs => if fail then s.refuseFetch k idxs types va else s.wake k idxs
  | .copy core chan => s.copyAnswer core chan fail va
  | .task p stream num => s.taskAnswer p stream num fail va
  | .ray col ray => s.rayAnswer col ray fail va
  | .pass p e => logged.passAnswer p e fail
  | .lease p e =>
    if fail then (logged.modLaunch p e (fun l => { l with status := some 5 })).tryComplete p e false
    else (s.acquireLease p e).tryComplete p e false
  | .front p q => if fail then logged.frontFail p q else s
  | .phase k => if fail then s.refusePhase k va else s
  | .graph p e => logged.graphAnswer p e fail
  | .graft set => if fail then logged.startGraft set true else s
  | .free k => if fail then logged.freeWg k true else s
  | .done p e => logged.tryComplete p e fail
  | .ticket p e => if fail then s.ticketFail p e else s

/-! ## TERMINAL_RESPONSE (R86, R372, R375, R376) -/

/-- An error response to an engine, or to a CXL agent: `unit` says which, and `who` which of its channels, engines or rays. `va` is the
address that it answers. The numbers are the model's own (log entry 26). A copy ends by R289, a task by R231 and a ray by R86; an agent's
request to the SRAM or the privileged window is logged as one to privileged space (R321, R375). -/
def State.engineResponse (s : State) (unit who va sub : Nat) : State :=
  let n := unit % 2 ^ 32
  let ended : Option State := match unit / 2 ^ 32 with
    | 1 => ((s.copyHead n who).filter (fun r => r.started && !r.parked)).map (fun r => s.terminateCopy n who r va sub)
    | 2 => ((s.col n).tasks.find? (fun t => t.eng == some who && !t.parked)).map (fun t => s.taskHeld t (.term va sub))
    | 3 => (((s.col n).rays.find? who).filter (fun y => !y.parked)).bind (fun y =>
        (s.wgs.find? y.wk).map (fun w => s.failRay n who y w.core va sub))
    | _ => none
  match ended with
  | some t => if sub = 1 then t.eccUnit else t
  | none => if unit / 2 ^ 32 = 4 ∧ sub = 5 then s.logErr 0 4 6 255 false va else s

def execTerminalResponse (wg tid idx sub : Nat) (s : State) : Step1 :=
  .next (if wg < 2 ^ 32 then s.terminalResponse wg tid idx sub
    else if 1 ≤ sub ∧ sub ≤ 5 then s.engineResponse wg tid idx sub
    else s)

/-! ## The fault queue (R369, R370) -/

/-- Waiters that a column's stage counts: one for each word of a core, whatever lanes of it fault, and one for each engine's access. -/
def waiterCount (l : List Parked) : Nat :=
  let words := l.filterMap (fun p => match p.who with
    | .op m => some m.word
    | _ => none)
  let fetches := l.filterMap (fun p => match p.who with
    | .fetch k _ => some (p.born, k / 32)
    | _ => none)
  let others := l.filter (fun p => match p.who with
    | .op _ => false
    | .fetch _ _ => false
    | _ => true)
  min 65535 (words.dedup.length + fetches.dedup.length + others.length)

/-- The union of fields. -/
def unionOf (f : Parked → Nat) (l : List Parked) : Nat := l.foldl (fun x p => x ||| f p) 0

/-- A fault-queue entry (Table 19.8) for reports merged at a column's stage, the first of them first. -/
def faultEntry (p : Parked) (l : List Parked) : Nat :=
  p.launch % 2 ^ 32 * 2 ^ 128 + waiterCount l * 2 ^ 96 + unionOf (·.src) l * 2 ^ 88 + p.column % 256 * 2 ^ 80 + p.cause * 2 ^ 76
    + unionOf (·.types) l * 2 ^ 72 + p.part * 2 ^ 64 + p.page * 2 ^ 15

/-- Write bytes of the management core's SRAM. -/
def sramWrite (m : FMap Byte) (off : Nat) : List Byte → FMap Byte
  | [] => m
  | b :: bs => sramWrite (FMap.set 0 m off b) (off + 1) bs

/-- Mark the reports of a page, of one column or of all, as attached to an entry. -/
def attach (m : FMap Parked) (part page : Nat) (column : Option Nat) (i : Nat) : FMap Parked :=
  m.map (fun p =>
    let here := match column with
      | some c => p.2.column == c
      | none => true
    if p.2.queued = none ∧ p.2.part = part ∧ p.2.page = page ∧ here = true then (p.1, { p.2 with queued := some i }) else p)

/-- The entry of a page that is appended and not yet answered (R369). -/
def Sys.openEntry (y : Sys) (part page : Nat) : Option Nat :=
  (y.fltOpen.find? (fun e => e.1 == part && e.2.1 == page)).map (·.2.2)

/-- Report one parked access with what its column has merged: attached to its page's entry that is not yet answered, or a new entry
while the queue has room, which raises the fault interrupt. -/
def State.reportOne (s : State) (p : Parked) : State :=
  match s.sys.openEntry p.part p.page with
  | some i => { s with parked := attach s.parked p.part p.page none i }
  | none =>
    let y := s.sys
    if 1024 ≤ (y.fltHead + 2 ^ 32 - y.fltTail) % 2 ^ 32 then s
    else
      let l := s.parked.vals.filter (fun x => x.queued == none && x.part == p.part && x.page == p.page && x.column == p.column)
      let s := { s with parked := attach s.parked p.part p.page (some p.column) y.fltHead }
      s.modSys (fun y =>
        { y with sram := sramWrite y.sram (0xF8000 + 32 * (y.fltHead % 1024)) (leBytes 32 (faultEntry p l))
                 fltHead := (y.fltHead + 1) % 2 ^ 32
                 fltOpen := y.fltOpen ++ [(p.part, p.page, y.fltHead)]
                 mirq := y.mirq ++ [0] })

/-- The column stages report what waits. The fuel is the number of parked accesses. -/
def State.reportAll : Nat → State → State
  | 0, s => s
  | n + 1, s =>
    match s.parked.vals.find? (fun x => x.queued == none) with
    | none => s
    | some p => State.reportAll n (s.reportOne p)

def State.reportFaults (s : State) : State := State.reportAll s.parked.length s

/-! ## FLT_RESP (R370, R371) -/

/-- The waiter's snoop, if it waits for the host. -/
def State.snoopOf (s : State) (who : Waiter) : Option (Nat × Snoop) := List.find? (fun p => decide (p.2.who = who)) s.snoops

/-- Answer one parked access: a write that the host has not answered is asked for again, or given up. -/
def State.answerParked (s : State) (key : Nat) (fail : Bool) : State :=
  match s.parked.find? key with
  | none => s
  | some p =>
    let s := { s with parked := s.parked.erase key }
    match s.snoopOf p.who with
    | some (i, x) =>
      if fail then ({ s with snoops := s.snoops.erase i }).answer p.part p.who p.types p.va true none
      else { s with snoops := s.snoops.put i { x with late := false } }
    | none => s.answer p.part p.who p.types p.va fail none

/-- Answer every access that waits on a page of a partition and that satisfies a test. -/
def State.answerPages (s : State) (sel : Parked → Bool) (fail : Bool) : State :=
  ((s.parked.filter (fun p => sel p.2)).map (·.1)).foldl (fun s k => s.answerParked k fail) s

/-- A write of FLT_RESP with go = 1. -/
def State.faultResp (s : State) (v : Nat) (fail : Bool) : State :=
  let part := bits v 44 42
  let page := bits v 41 0
  let s := s.modSys (fun y =>
    { y with fltResp := 2 ^ 62 + bnat fail * 2 ^ 61 + bits v 44 0
             fltOpen := y.fltOpen.filter (fun e => !(e.1 == part && e.2.1 == page)) })
  s.answerPages (fun p => p.part == part && p.page == page) fail

def execFaultRetry (value : BitVec 64) (s : State) : Step1 := .next (s.faultResp value.toNat false)
def execFaultFail (value : BitVec 64) (s : State) : Step1 := .next (s.faultResp value.toNat true)

/-! ## BACK_INVALIDATE_RESPONSE and BACK_INVALIDATE_TIMEOUT (R371, R87) -/

/-- The host answers a back-invalidate: it holds the line no longer, and the write goes on; a report of its lateness goes. What waits for a
port to host memory waits for no such answer. -/
def State.snoopAnswer (s : State) (i : Nat) : State :=
  match s.snoops.find? i with
  | none => s
  | some x =>
    if bit x.pa 51 then s
    else
      let s := { s with
        snoops := s.snoops.erase i
        shared := s.shared.filter (· != x.pa / 64)
        parked := s.parked.filter (fun p => !decide (p.2.who = x.who)) }
      s.answer x.part x.who 2 x.va false (some x.pa)

/-- What waited for a port to host memory is tried again once one runs (R384). -/
def State.linkAnswer (s : State) : State :=
  (s.snoops.filter (fun p => bit p.2.pa 51 && !s.linkHeld p.2.pa)).foldl
    (fun s p => State.answer { s with snoops := s.snoops.erase p.1 } p.2.part p.2.who 0 p.2.va false none) s

def execBackInvalidateResponse (idx : Nat) (s : State) : Step1 := .next (s.snoopAnswer idx)

/-- The types a late write reports: an atomic is one of its own (Table 19.8). -/
def Waiter.writeTypes : Waiter → Nat
  | .op m => m.faultTypes
  | _ => 2

/-- The launch number and column a waiter reports. -/
def State.waiterPlace (s : State) (who : Waiter) : Nat × Nat :=
  let ofWg (k : Nat) : Nat × Nat := (((s.wgs.find? k).map (·.launch)).getD 0, k / 256)
  let ofEntry (p e : Nat) : Nat × Nat := (((s.launch? p e).map (·.num)).getD 0, 255)
  match who with
  | .op m => ofWg m.wk
  | .fetch k _ => ofWg k
  | .phase k => ofWg k
  | .free k => ofWg k
  | .copy core chan => (((s.copyHead core chan).map (·.launch)).getD 0, core / 8)
  | .task p n num => match List.find? (fun t => t.num == num) (s.streamTasks p n ++ (s.stream p n).ran) with
    | some t => (t.launch, t.core / 8)
    | none => (0, 255)
  | .ray col _ => (0, col)
  | .pass p e => ofEntry p e
  | .lease p e => ofEntry p e
  | .front _ _ => (0, 255)
  | .graph p e => ofEntry p e
  | .done p e => ofEntry p e
  | .ticket p e => ofEntry p e
  | .graft set => match s.grafts.find? (fun g => g.set == set) with
    | some g => ofWg g.wk
    | none => (0, 255)

/-- A write that has waited 50 µs is reported as cause 5, and goes on waiting. -/
def State.snoopLate (s : State) (i : Nat) : State :=
  match s.snoops.find? i with
  | none => s
  | some x =>
    if x.late || bit x.pa 51 then s
    else
      let p := s.waiterPlace x.who
      ({ s with snoops := s.snoops.put i { x with late := true } }).parkFor x.who x.part x.va 5 x.who.writeTypes x.who.src p.1 p.2

def execBackInvalidateTimeout (idx : Nat) (s : State) : Step1 := .next (s.snoopLate idx)

/-! ## TRAP_CTL (R374) -/

/-- A trap record belongs to an image of a saved plot. -/
def imageOfTrap (bits1 : Nat) (img : List Byte) : Bool :=
  let h := imgHeader img
  hdLaunch h == bits bits1 95 64 && hdPlot h == bits bits1 159 128 && hdWgid h == bits bits1 101 99

/-- Change the images of the workgroup that a trap record names, wherever they are kept. -/
def State.patchImages (s : State) (part : Nat) (r : TrapRec) (f : List Byte → List Byte) : State :=
  let g (img : List Byte) : List Byte := if imageOfTrap r.bits img then f img else img
  let s := s.modPart part (fun p => { p with ltab := p.ltab.map (fun e =>
    (e.1, { e.2 with returned := e.2.returned.map (fun x => match x with
      | .saved plot imgs => .saved plot (imgs.map g)
      | y => y) })) })
  s.modSys (fun y => { y with images := y.images.modify part (fun l => l.map (fun x => { x with img := g x.img })) })

/-- The PC at which a record's threads go on. -/
def trapResumePc (r : TrapRec) (next : Bool) : Nat × Nat :=
  let f := bits r.bits 223 192
  (bits r.bits 312 256, if next then (f + 4 * r.len) % 2 ^ 32 else f)

/-- Whether an identifier names a held trap of a partition. -/
def State.heldTrap (s : State) (part id : Nat) : Option TrapRec :=
  ((s.part part).traps.find? id).filter (fun r => r.threads != [])

/-- A write of TRAP_CTL with go = 1. -/
def State.trapCtl (s : State) (v action : Nat) : State :=
  let part := bits v 34 32
  let id := bits v 31 0
  let set (s : State) (err : Bool) : State := s.modSys (fun y =>
    { y with trapCtl := 2 ^ 62 + bnat err * 2 ^ 61 + action % 4 * 2 ^ 59 + bits v 34 0 })
  match s.heldTrap part id with
  | none => set s true
  | some r =>
    if 3 ≤ action then set s true
    else
      let saved := r.wk == 2 ^ 32
      let drop (s : State) : State := s.modPart part (fun q => { q with traps := q.traps.erase id })
      if action = 2 then
        let s := if saved then
            (s.patchImages part r (fun img =>
              (List.range (hdTpw (imgHeader img) + 1)).foldl (fun img i => patchThread img i 6 none) img)).modPart part (fun p =>
                { p with ltab := p.ltab.map (fun e => if e.2.num = bits r.bits 95 64 ∧ e.2.kind = 0
                    then (e.1, { e.2 with status := some (e.2.status.getD 5) }) else e) })
          else s.endWg r.wk
        set (drop s) false
      else if saved then
        let s := s.patchImages part r (fun img => r.threads.foldl (fun img i => patchThread img i 0 (some (trapResumePc r (action == 1)))) img)
        set (drop s) false
      else set (s.resumeTrap part id (action == 1)) false

def execTrapResumeAtPc (value : BitVec 64) (s : State) : Step1 := .next (s.trapCtl value.toNat 0)
def execTrapResumeNext (value : BitVec 64) (s : State) : Step1 := .next (s.trapCtl value.toNat 1)
def execTrapEndWorkgroup (value : BitVec 64) (s : State) : Step1 := .next (s.trapCtl value.toNat 2)

end Sys2Proof.Machine
end

