-- ==== Sys2Proof/Machine/Xlat.lean ====
section
/-! DEFINITION. XLAT_CTL (R367, Table 19.6) and PAGE_MOVE (R368, Table 19.7). The model walks the tables at every access, so that it
holds no translation to drop (log entry 13). -/

namespace Sys2Proof.Machine

/-- A privileged write that a register's rules refuse: PRIV_ERR keeps the first one's offset and counts (R322). -/
def State.refuseWrite (s : State) (off : Nat) : State :=
  s.modSys (fun y =>
    let x := y.privErr
    let x := if bits x 63 32 = 0 then setBits x 31 0 off else x
    { y with privErr := setBits x 63 32 (satInc 32 (bits x 63 32)) })

/-! ## XLAT_CTL -/

/-- Whether a page of a range lies in a live lease that is not revoked. -/
def State.leaseLive (s : State) (part first n : Nat) : Bool :=
  (s.part part).ltab.any (fun e => e.2.lease.any (fun p =>
    let lo := max p.1 first
    let hi := min (p.1 + p.2) (first + n)
    (List.range (hi - lo)).any (fun i => !e.2.revoked.contains (lo + i))))

/-- Every lease that covers a page of a range stops covering it. -/
def Launch.revoke (l : Launch) (first n : Nat) : Launch :=
  let pages := l.lease.flatMap (fun p =>
    let lo := max p.1 first
    let hi := min (p.1 + p.2) (first + n)
    (List.range (hi - lo)).map (fun i => lo + i))
  { l with revoked := (l.revoked ++ pages).dedup }

/-- Every lease revoked over a range covers its pages again. -/
def Launch.reinstate (l : Launch) (first n : Nat) : Launch :=
  { l with revoked := l.revoked.filter (fun p => decide (p < first) || decide (first + n ≤ p)) }

def State.mapLaunches (s : State) (part : Nat) (f : Launch → Launch) : State :=
  s.modPart part (fun p => { p with ltab := p.ltab.map (fun e => (e.1, f e.2)) })

/-- The fault-queue entries of a page range whose every waiter has been answered are answered themselves. -/
def State.closeEntries (s : State) (part first n : Nat) : State :=
  s.modSys (fun y => { y with fltOpen := y.fltOpen.filter (fun e =>
    e.1 != part || decide (e.2.1 < first) || decide (first + n ≤ e.2.1) || s.parked.any (fun p => p.2.queued == some e.2.2)) })

/-- A write of XLAT_CTL at an offset with go = 1; one while an op is not done is refused. -/
def State.xlatWrite (s : State) (off v op : Nat) : State :=
  if !bit s.sys.xlatCtl 126 then s.refuseWrite off
  else
    let part := bits v 98 96
    let n := bits v 95 64
    let first := bits v 56 15
    let fields := op % 4 * 2 ^ 123 + part * 2 ^ 96 + n * 2 ^ 64 + first * 2 ^ 15
    let set (s : State) (done err : Bool) : State := s.modSys (fun y =>
      { y with xlatCtl := bnat done * 2 ^ 126 + bnat err * 2 ^ 125 + fields })
    match op with
    | 0 => if s.leaseLive part first n then set s true true else set s false false
    | 1 => set (s.mapLaunches part (fun l => l.revoke first n)) false false
    | 2 =>
      let s := set (s.mapLaunches part (fun l => l.reinstate first n)) false false
      (s.answerPages (fun p => p.part == part && p.cause == 4 && decide (first ≤ p.page) && decide (p.page < first + n)) false).closeEntries
        part first n
    | _ => set s true true

def execXlatInvalidate (value : BitVec 128) (s : State) : Step1 := .next (s.xlatWrite 0x880 value.toNat 0)
def execXlatRevoke (value : BitVec 128) (s : State) : Step1 := .next (s.xlatWrite 0x880 value.toNat 1)
def execXlatReinstate (value : BitVec 128) (s : State) : Step1 := .next (s.xlatWrite 0x880 value.toNat 2)

/-- Every access that a partition's threads have performed becomes globally performed: their cores' dirty lines go home (R83). -/
def State.performAll (s : State) (part : Nat) : State :=
  let lines := ((s.wgs.filter (fun p => p.2.part == part)).flatMap (fun p => p.2.threads.flatMap (fun t => t.2.chk.flatMap (·.lines)))).dedup
  let s := lines.foldl State.homeLine s
  { s with wgs := s.wgs.map (fun p =>
      if p.2.part = part then
        (p.1, { p.2 with threads := p.2.threads.map (fun t => (t.1, { t.2 with chk := t.2.chk.filter (fun c => c.parked != 0) })) })
      else p) }

/-- A write to a page of a range has been translated and waits for the host (R371). -/
def State.snoopIn (s : State) (part first n : Nat) : Bool :=
  s.snoops.any (fun p => p.2.part == part && decide (first ≤ p.2.va % 2 ^ 57 / 2 ^ 15) && decide (p.2.va % 2 ^ 57 / 2 ^ 15 < first + n))

/-- XLAT_CTL_DONE: once no write to the range waits for the host, what used the range before is globally performed, and done reads 1. -/
def State.xlatDone (s : State) : State :=
  let x := s.sys.xlatCtl
  if bit x 126 || s.snoopIn (bits x 98 96) (bits x 56 15) (bits x 95 64) then s
  else (s.performAll (bits x 98 96)).modSys (fun y => { y with xlatCtl := setBits y.xlatCtl 126 126 1 })

def execXlatCtlDone (s : State) : Step1 := .next s.xlatDone

/-! ## PAGE_MOVE -/

/-- Bytes of a frame by its size code; none for the reserved one. -/
def frameBytes (size : Nat) : Option Nat :=
  match size with
  | 0 => some (2 ^ 15)
  | 1 => some (2 ^ 21)
  | 2 => some (2 ^ 26)
  | _ => none

/-- A frame that an access of the mover reaches: device memory below dtop, or host memory that windows grant. -/
def State.frameReached (s : State) (pa n : Nat) (wr : Bool) : Bool :=
  if bit pa 51 then (List.range (n / 4096)).all (fun i => s.hostAllowed (pa + 4096 * i) (!wr) wr)
  else decide (pa + n ≤ Config.dtop)

/-- Shift the keys of a map that lie in [src, src + n) of their tag onto dst; what lay at dst goes. -/
def shiftKeys {α : Type} (m : FMap α) (unit src dst n : Nat) : FMap α :=
  let inSrc (k : Nat) : Bool := decide (src ≤ k % unit) && decide (k % unit < src + n)
  let inDst (k : Nat) : Bool := decide (dst ≤ k % unit) && decide (k % unit < dst + n)
  (m.filter (fun p => inSrc p.1)).foldl (fun a p => a.put (p.1 - src + dst) p.2) (m.filter (fun p => !inSrc p.1 && !inDst p.1))

/-- A breach by the management core is logged with no core; the spec gives its source no code: a free value (log entry 15). -/
def State.logMgmt (s : State) (sub pa : Nat) : State :=
  let src := Config.freeNat s.fresh % 16
  let s := { s with fresh := s.fresh + 1 }
  match sub with
  | 4 => s.logHwin 0 (if s.hostCovered pa then 2 else 1) src 255 (pa % 2 ^ 51)
  | 1 => (s.logEcc 2).logErr 0 1 src 255 false pa
  | _ => s.logErr 0 3 src 255 false pa

/-- The line versions, delta elements and marks of a frame move to another (R111). -/
def State.moveVersions (s : State) (src dst n : Nat) : State :=
  { s with
    vers := shiftKeys s.vers (2 ^ 52) src dst n
    deltas := shiftKeys s.deltas (2 ^ 52) src dst n
    versVa := shiftKeys s.versVa (2 ^ 44) (src / 256) (dst / 256) (n / 256)
    poison := shiftKeys s.poison (2 ^ 46) (src / 64) (dst / 64) (n / 64)
    sets := s.sets.map (fun p => (p.1, { p.2 with
      post := (p.2.post.filter (fun a => !(decide (dst ≤ a) && decide (a < dst + n)))).map (fun a => if src ≤ a ∧ a < src + n then a - src + dst else a) })) }

/-- Every tracked tile of the pages that a frame backs is stamped (R255). -/
def State.stampFrame (s : State) (src n : Nat) : State :=
  (s.parts.flatMap (fun p => s.regionsOf p.1)).foldl (fun s r =>
    let first := r.base / 2 ^ 15
    let pages := (List.range ((r.base + r.tiles * 2 ^ r.tlog - 1) / 2 ^ 15 + 1 - first)).map (fun j => (first + j) * 2 ^ 15)
    let tiles := (pages.flatMap (fun a => match s.leaf r.part a with
      | .ok l =>
        let frame := l.pa + a % 2 ^ l.shift
        if src ≤ frame ∧ frame < src + n then r.tilesOf a (2 ^ 15) else []
      | .error _ => [])).dedup
    tiles.foldl (fun s t => s.putStamp r t) s) s.noteRegionTables

/-- The committed bytes of a frame are copied, its versions move, and its tiles are stamped. No L1 keeps a line of the new frame from an
earlier use, since what follows is as if the page had never moved. -/
def State.moveFrame (s : State) (src dst n : Nat) : State :=
  let s := s.cleanLines (fun k => decide (dst ≤ lineAddr k ∧ lineAddr k < dst + n))
  let t := (List.range n).foldl (fun t i => t.commitRaw (dst + i) (s.base (src + i))) s
  (t.moveVersions src dst n).stampFrame src n

/-- A write of PAGE_MOVE at an offset with go = 1: refused while a move is not done; err for a bad size, alignment or overlap. -/
def State.pageMove (s : State) (off v : Nat) : State :=
  if !bit s.sys.pageMove 126 then s.refuseWrite off
  else
    let src := bits v 36 0 * 2 ^ 15
    let dst := bits v 114 78 * 2 ^ 15
    let fields := bits v 121 120 * 2 ^ 120 + bits v 114 78 * 2 ^ 78 + bits v 36 0
    let set (s : State) (done err : Bool) : State := s.modSys (fun y =>
      { y with pageMove := bnat done * 2 ^ 126 + bnat err * 2 ^ 125 + fields })
    match frameBytes (bits v 121 120) with
    | none => set s true true
    | some n =>
      if src % n ≠ 0 ∨ dst % n ≠ 0 ∨ (src < dst + n ∧ dst < src + n) then set s true true
      else if !s.frameReached src n false then set (s.logMgmt (if bit src 51 then 4 else 3) src) false false
      else if !s.frameReached dst n true then set (s.logMgmt (if bit dst 51 then 4 else 3) dst) false false
      else set (s.moveFrame src dst n) false false

def execPageMove (value : BitVec 128) (s : State) : Step1 := .next (s.pageMove 0x890 value.toNat)

/-- PAGE_MOVE_DONE: the move has finished. -/
def execPageMoveDone (s : State) : Step1 :=
  .next (s.modSys (fun y => { y with pageMove := setBits y.pageMove 126 126 1 }))

end Sys2Proof.Machine
end

