-- ==== Sys2Proof/Machine/Hosts.lean ====
section
/-! DEFINITION. Accesses from outside the cores: the host and CXL peers (R111, R371, R377, R378), the management core's untranslated
port (R321), and a port that goes down. -/

namespace Sys2Proof.Machine

/-- A write not made by any launch marks the regions it stamps (R256). -/
def State.markQuiet (s : State) (pa : Nat) : State :=
  (s.tilesAt pa).foldl (fun s p => s.modPart p.1.part (fun q => { q with quiet := q.quiet.put p.1.id true })) s

/-- Tag-0 bytes written by an agent that no launch works for. -/
def State.foreignWrite (s : State) (pa : Nat) : List Byte → State
  | [] => s
  | b :: bs => State.foreignWrite ((s.markQuiet pa).commit pa b) (pa + 1) bs

/-- The 64-byte lines of `n` bytes. -/
def linesOver (pa n : Nat) : List Nat := ((List.range n).map (fun i => (pa + i) / 64)).dedup

/-- The host may hold the lines from now on (R371). -/
def State.share (s : State) (pa n : Nat) : State := { s with shared := (s.shared ++ linesOver pa n).dedup }

/-- Every L1's tag-0 copy of a line goes home and is dropped: L2 includes each L1, and a host snoop empties both (R61, R371). -/
def State.recallLine (s : State) (line : Nat) : State :=
  ((s.l1.filter (fun e => lineTag e.1 == 0 && lineAddr e.1 == 64 * line)).map (·.1)).foldl
    (fun s k => (s.writeBackLine k).setLine k none) s

/-- An access from outside waits for the port that retrains (R384). -/
def State.waitLink (s : State) (write : Bool) (addr : Nat) (data : List Byte) : State :=
  s.modSys (fun y => { y with hostWaits := y.hostWaits ++ [(write, addr, data)] })

/-- An access by the host or a peer, as a tag-0 agent, through the port of its address or the other (R378): while none runs it waits
(R384). With no link that carries CXL the host reaches nothing. Its accesses to its own memory find the lines given back. -/
def State.hostAccess (s : State) (write : Bool) (addr : Nat) (data : List Byte) : State :=
  let n := data.length
  let a := addr % 2 ^ 52
  if !s.portCxl 0 && !s.portCxl 1 then s
  else if (s.hostPort a).isNone then s.waitLink write addr data
  else if bit a 51 then
    let s := (linesOver a n).foldl State.recallLine s
    if write then s.foreignWrite a data else s.modSys (fun y => { y with hostRead := s.baseNat a n })
  else if Config.dtop < a + n then s.logErr 0 3 6 255 false (max a Config.dtop)
  else if write then (s.foreignWrite a data).share a n
  else if s.poisoned a n then (s.logEcc 2).logErr 0 1 6 255 false a
  else (s.modSys (fun y => { y with hostRead := s.baseNat a n })).share a n

/-- HOST_SNOOP: a host line leaves the device's caches, its dirty bytes with it. Where no port runs CXL.cache no snoop arrives (R378). -/
def execHostSnoop (line : Nat) (s : State) : Step1 :=
  .next (if bit (64 * line) 51 && (s.hostPort (64 * line)).isSome then s.recallLine line else s)

/-! ## The untranslated port (R321) -/

/-- The first byte of an untranslated access that it may not make, with its sub-cause. -/
def State.portRefusal (s : State) (pa n : Nat) (write : Bool) : Option (Nat × Nat) :=
  (List.range n).findSome? (fun i =>
    match s.physical ((pa + i) % 2 ^ 52) (!write) write false with
    | .term sub => some (sub, pa + i)
    | _ => none)

/-- The reserved bits of a tensor-table entry (Table 3.4) read as zero. -/
def tensorMask (v : Nat) : Nat := bits v 127 36 * 2 ^ 36 + bits v 14 8 * 2 ^ 8 + bits v 6 0

/-- The management core's own SRAM (R321, R334): a write to the fault queue's area is ignored. -/
def State.sramAccess (s : State) (write : Bool) (off : Nat) (data : List Byte) : State :=
  if 2 ^ 20 < off + data.length then s
  else if write then s.modSys (fun y => { y with sram := sramWrite y.sram off (data.take (0xF8000 - off)) })
  else s.modSys (fun y => { y with lastRead := ofLe ((List.range data.length).map (fun i => FMap.get 0 y.sram (off + i))) })

/-- The management core reads or writes an entry of a partition's tensor table (R59): 32 bytes at 32 times the handle, the tables of the
partitions one after another. -/
def State.tensorAccess (s : State) (write : Bool) (off : Nat) (data : List Byte) : State :=
  let n := off / 2 ^ 17
  let h := off / 32 % 4096
  if 8 ≤ n ∨ off % 32 ≠ 0 ∨ data.length ≠ 32 then s
  else if write then s.modPart n (fun p => { p with tensors := FMap.set 0 p.tensors h (tensorMask (ofLe data)) })
  else s.modSys (fun y => { y with lastRead := FMap.get 0 (s.part n).tensors h })

/-- Every context image of a partition. -/
def State.allImages (s : State) (n : Nat) : List (List Byte) :=
  (s.sys.images.get [] n).map (·.img) ++ ((s.part n).ltab.flatMap (fun e => e.2.returned)).flatMap (fun r => match r with
    | .saved _ imgs => imgs
    | .flushed _ => []) ++ s.sys.restored.get [] n

/-- The management core reads the context images of a partition in shadow storage, one after another (R352): the partition's number stands
at bit 48 of the offset. It writes none: an image that it moves to memory and back is the one that shadow storage keeps. -/
def State.shadowAccess (s : State) (write : Bool) (off : Nat) (data : List Byte) : State :=
  if write then s
  else
    let l := (s.allImages (off / 2 ^ 48)).flatten
    s.modSys (fun y => { y with lastRead := ofLe ((l.drop (off % 2 ^ 48)).take data.length) })

/-- The management core reads or writes physical memory through its untranslated port, and, at addresses above those of memory, its SRAM at
2^52, the tensor tables at 2^53 and the images in shadow storage at 2^55: where they stand in its address space is not in the spec (log
entry 47). An access to host memory waits for a port, as the host's do (R384). -/
def State.portAccess (s : State) (write : Bool) (addr : Nat) (data : List Byte) : State :=
  let n := data.length
  let a := addr % 2 ^ 52
  if 2 ^ 55 ≤ addr then s.shadowAccess write (addr - 2 ^ 55) data
  else if 2 ^ 53 ≤ addr then s.tensorAccess write (addr - 2 ^ 53) data
  else if 2 ^ 52 ≤ addr then s.sramAccess write a data
  else
    match s.portRefusal a n write with
    | some (sub, x) => s.logMgmt sub x
    | none =>
      if s.linkHeld a then s.waitLink write (2 ^ 60 + a) data
      else if write then s.foreignWrite a data
      else if s.poisoned a n then s.logMgmt 1 a
      else s.modSys (fun y => { y with lastRead := s.baseNat a n })

/-! ## Ports (R378) -/

/-- LINK_DOWN: host accesses use the other port; the capability table is not rewritten (R381). -/
def execLinkDown (port : Nat) (s : State) : Step1 := .next (s.modSys (fun y => { y with portUp := y.portUp.set port false }))

end Sys2Proof.Machine
end

