-- ==== Sys2Proof/Machine/Parts.lean ====
section
/-! DEFINITION. Privileged registers of partitions, columns and launches: PART_CFG and halting (R323, R324), rebinds (R326), bind
records (R345), power requests (R330, R382), the watchdog register (R332) and the logs that a read clears (R322, R329, R362, R375, R376). -/

namespace Sys2Proof.Machine

/-! ## PART_CFG (R323, Table 17.2) -/

def cfgCols (x : Nat) : Nat := bits x 33 0
def cfgEnable (x : Nat) : Bool := bit x 34
def cfgHalt (x : Nat) : Bool := bit x 35
def cfgHalted (x : Nat) : Bool := bit x 36

/-- Physical columns that a partition names. -/
def State.partCols (s : State) (n : Nat) : List Nat := ones Config.columns (cfgCols (s.part n).cfg)

/-- A column that another enabled partition holds. -/
def State.colTaken (s : State) (n c : Nat) : Bool :=
  (List.range 8).any (fun m => m != n && cfgEnable (s.part m).cfg && bit (s.part m).cfg c)

/-- Whether a write that changes cols or enable is refused. -/
def State.cfgRefused (s : State) (n v : Nat) : Bool :=
  let old := (s.part n).cfg
  (cfgCols v != cfgCols old || cfgEnable v != cfgEnable old)
    && ((!cfgHalted old && cfgEnable old)
      || (ones Config.columns (cfgCols v)).any (fun c => s.colTaken n c || (s.col c).retired || !(s.col c).enabled))

/-- A write of PART_CFG_n. Enabling starts the launch numbers at 1 (R342); halted reads 0 from the write of halt = 0 on (R324). The counters
of its streams and engine contexts stand: the spec does not say when a partition counts as created (R226, R68), and this model takes reset
for it (log entry 46). -/
def State.partCfg (s : State) (n v : Nat) : State :=
  if s.cfgRefused n v then s.refuseWrite (0x100 + 8 * n)
  else
    s.modPart n (fun p =>
      let cfg := setBits (bits v 37 0) 36 36 (if cfgHalt v then bnat (cfgHalted p.cfg) else 0)
      { p with cfg := cfg, nextNum := if cfgEnable v && !cfgEnable p.cfg then 1 else p.nextNum })

def execPartCfgWrite (part : Nat) (value : BitVec 64) (s : State) : Step1 := .next (s.partCfg (part % 8) value.toNat)
def execPartitionHalt (part : Nat) (s : State) : Step1 :=
  .next (s.partCfg (part % 8) (setBits (s.part (part % 8)).cfg 35 35 1))
def execPartitionUnhalt (part : Nat) (s : State) : Step1 :=
  .next (s.partCfg (part % 8) (setBits (s.part (part % 8)).cfg 35 35 0))

/-! ## Halted (R324) -/

/-- The engines of a column have stopped: no ray in flight, no task between its start and its end but parked ones. -/
def Col.stopped (c : Col) : Bool := c.rays == [] && c.tasks.all (fun t => t.eng.isNone || t.parked)

/-- No copy channel of a core is delivering a request. -/
def Core.stopped (c : Core) : Bool := c.chans.all (fun n => n.2.reqs.all (fun r => !r.started))

/-- Every core and engine of a partition stands at its boundary. -/
def State.partStopped (s : State) (n : Nat) : Bool :=
  (s.partCols n).all (fun c => (s.col c).stopped && (List.range Config.coresPerColumn).all (fun k => (s.core (8 * c + k)).stopped))
    && s.passes.all (fun p => p.2.part != n || p.2.held.isNone)
    && s.group.all (fun g => match s.wgs.find? g.1 with
      | some w => w.part != n
      | none => true)

/-- PARTITION_HALTED: halted reads 1. -/
def State.setHalted (s : State) (n : Nat) : State :=
  if cfgHalt (s.part n).cfg && s.partStopped n then s.modPart n (fun p => { p with cfg := setBits p.cfg 36 36 1 }) else s

def execPartitionHalted (part : Nat) (s : State) : Step1 := .next (s.setHalted (part % 8))

/-! ## Rebinds (R326, Table 17.3) -/

/-- The launch-table entry of an accepted, incomplete launch by its number. -/
def Part.entryOf (p : Part) (num : Nat) : Option (Nat × Launch) := List.find? (fun e => e.2.num == num && e.2.kind == 0) p.ltab

/-- The 32 bytes of the new record, none where the read fails. -/
def State.rebindRecord (s : State) : Except State Nat :=
  let a := bits s.sys.rebindAddr 51 5 * 32
  match s.portRefusal a 32 false with
  | some (sub, x) => .error (s.logMgmt sub x)
  | none => if s.poisoned a 32 then .error (s.logMgmt 1 a) else .ok (s.baseNat a 32)

/-- A write of REBIND_CTL with go = 1: the record is checked, then waits for the cores' acknowledgement, before which no thread sees
it (R321, R54). -/
def State.startRebind (s : State) (v : Nat) : State :=
  if !bit s.sys.rebindCtl 62 then s.refuseWrite 0x408
  else
    let part := bits v 38 36
    let num := bits v 35 4
    let set (s : State) (done err : Bool) (p : Option (Nat × Nat × Nat × Nat)) : State := s.modSys (fun y =>
      { y with rebindCtl := bnat done * 2 ^ 62 + bnat err * 2 ^ 61 + bits v 38 0, rebindPend := p })
    match s.rebindRecord with
    | .error t => set t true true none
    | .ok r =>
      if !s.bindOk part r || ((s.part part).entryOf num).isNone then set s true true none
      else set s false false (some (part, num, bits v 3 0, r))

def execRebind (value : BitVec 64) (s : State) : Step1 := .next (s.startRebind value.toNat)

/-- REBIND_DONE: every core has acknowledged; the record is bound. -/
def State.endRebind (s : State) : State :=
  match s.sys.rebindPend with
  | none => s
  | some (part, num, slot, r) =>
    let s := match (s.part part).entryOf num with
      | some (e, _) => s.modLaunch part e (fun l => { l with q := FMap.set 0 l.q slot r })
      | none => s
    s.modSys (fun y => { y with rebindCtl := setBits y.rebindCtl 62 62 1, rebindPend := none })

def execRebindDone (s : State) : Step1 := .next s.endRebind

/-! ## Power (R330, R382, Table 20.5) -/

/-- Supply of a request in mV: codes above 100 act as 100, so that it lies in the fused 450 to 650 mV. -/
def reqMv (v : Nat) : Nat := 450 + 2 * min (bits v 15 8) 100

/-- Clock of a request in MHz: at most the fused clock, and that of the supply. -/
def reqMhz (v : Nat) : Nat := min (min (bits v 27 16) 1350) (Config.fusedMhz (reqMv v))

/-- A column takes a new target and meanwhile runs at the lower clock. -/
def Col.request (c : Col) (mv mhz : Nat) : Col := { c with want := some (mv, mhz), mhz := min c.mhz mhz }

/-- Effective power cap in W: the least of the fuse's, the host's (0 none, 1 to 299 act as 300) and the firmware's (0 none). -/
def State.powerCap (s : State) : Nat :=
  let host := bits s.sys.hostPcap 15 0
  let fw := bits s.sys.pwrReq 63 48
  min 825 (min (if host = 0 then 825 else max host 300) (if fw = 0 then 825 else fw))

/-- A write of PWR_REQ. -/
def State.power (s : State) (v : Nat) : State :=
  let cols := if bit v 6 then List.range Config.columns else [bits v 5 0]
  let s := s.modSys (fun y => { y with pwrReq :=
    (if bit v 7 then bits v 63 48 else bits y.pwrReq 63 48) * 2 ^ 48 + bits v 27 8 * 2 ^ 8 + bits v 5 0 })
  (cols.filter (fun c => decide (c < Config.columns) && (s.col c).enabled)).foldl
    (fun s c => s.modCol c (fun x => x.request (reqMv v) (reqMhz v))) s

def execPwrReq (value : BitVec 64) (s : State) : Step1 := .next (s.power value.toNat)

/-- VOLTAGE_SETTLED: the column's supply and clock stand at their targets. -/
def Col.settleSupply (c : Col) : Col := match c.want with
  | some (mv, mhz) => { c with mv := mv, mhz := mhz, want := none }
  | none => c

def execVoltageSettled (col : Nat) (s : State) : Step1 := .next (s.modCol col Col.settleSupply)

/-! ## The watchdog register (R332) -/

/-- A write of WDOG: 0x5A in its low byte restarts the period; the expiry count stands. -/
def State.wdogWrite (s : State) (v : Nat) : State :=
  s.modSys (fun y => { y with wdog := setBits y.wdog 7 0 (bits v 7 0), kicked := y.kicked || bits v 7 0 == 0x5A })

def execWdogKick (s : State) : Step1 := .next (s.wdogWrite 0x5A)

/-! ## Engine error logs (R329) -/

/-- The physical core of an S_CORE number (R315). -/
def State.physCore (s : State) (k : Nat) : Option Nat :=
  ((List.range Config.columns).find? (fun c => (s.col c).enabled && (s.col c).num == k / 8)).map (fun c => 8 * c + k % 8)

/-- A privileged write of any value to the low half clears the register. -/
def State.clearEngine (s : State) (k : Nat) : State :=
  match s.physCore k with
  | some c => s.modCore c (fun x => { x with err := 0 })
  | none => s.refuseWrite (0x1000000 + 0x1000 * k)

def execCoreEngineErrClear (core : Nat) (s : State) : Step1 := .next (s.clearEngine core)

/-! ## Bind records (R345, Table 18.6) -/

/-- The bits of a bind record that hold something. -/
def slotMask (v : Nat) : Nat := bits v 63 63 * 2 ^ 63 + bits v 60 41 * 2 ^ 41 + bits v 32 22 * 2 ^ 22

/-- Whether a record with valid = 1 is refused: the slot is valid, the entry holds no incomplete launch, the partition does not hold
the column, or it is disabled (R323). -/
def State.slotRefused (s : State) (col slot v : Nat) : Bool :=
  let p := s.part (slPart v)
  bit v 63 && (bit (FMap.get 0 (s.col col).slots slot) 63
    || (match p.launch? (slLtab v) with
      | some l => l.kind != 0
      | none => true)
    || !bit p.cfg col || !cfgEnable p.cfg)

/-- A write of SLOT_c_s; a record is fresh until the column's dispatcher has next examined its slots (R332). -/
def State.slotWrite (s : State) (col slot v : Nat) : State :=
  if s.slotRefused col slot v then s.refuseWrite (0x2000000 + 0x1000 * col + 8 * slot)
  else
    s.modCol col (fun c =>
      { c with slots := FMap.set 0 c.slots slot (slotMask v)
               fresh := if bit v 63 then (slot :: c.fresh).dedup else c.fresh.filter (· != slot) })

def execBindSlotWrite (col slot : Nat) (value : BitVec 64) (s : State) : Step1 :=
  .next (if col < Config.columns ∧ slot < 16 then s.slotWrite col slot value.toNat
    else s.refuseWrite (0x2000000 + 0x1000 * col + 8 * slot))

/-! ## Reads that clear -/

def execPrivErrRead (s : State) : Step1 := .next (s.modSys (fun y => { y with lastRead := y.privErr, privErr := 0 }))

/-- SCHED_LOG_n (R362). -/
def execSchedLogRead (part : Nat) (s : State) : Step1 :=
  .next ((s.modSys (fun y => { y with lastRead := (s.part (part % 8)).schedLog })).modPart (part % 8) (fun p => { p with schedLog := 0 }))

/-- The low half: a snapshot of the register, which clears (R375). -/
def execErrLogLowRead (hwin : Bool) (s : State) : Step1 :=
  .next (s.modSys (fun y =>
    if hwin then { y with lastRead := bits y.hwinLog 63 0, hwinSnap := y.hwinLog, hwinLog := 0 }
    else { y with lastRead := bits y.errLog 63 0, errSnap := y.errLog, errLog := 0 }))

/-- The high half: of the latest snapshot (R375). -/
def execErrLogHighRead (hwin : Bool) (s : State) : Step1 :=
  .next (s.modSys (fun y => { y with lastRead := bits (if hwin then y.hwinSnap else y.errSnap) 127 64 }))

/-- ECC_LOG (R376). -/
def execEccLogRead (s : State) : Step1 := .next (s.modSys (fun y => { y with lastRead := y.eccLog, eccLog := 0 }))

end Sys2Proof.Machine
end

