-- ==== Sys2Proof/Machine/Swap.lean ====
section
/-! DEFINITION. Partition swaps (R361, Table 18.13). -/

namespace Sys2Proof.Machine

def State.setSwap (s : State) (n : Nat) (done err out : Bool) (op : Nat) : State :=
  s.modPart n (fun p => { p with swapCtl := bnat done * 2 ^ 62 + bnat err * 2 ^ 61 + bnat out * 2 ^ 60 + op })

/-- A swap starts: done and err read 0, and its op is kept. -/
def State.runSwap (s : State) (n : Nat) (out : Bool) (op : Nat) : State :=
  (s.setSwap n false false out op).modPart n (fun p => { p with swapRun := op })

/-- The partition's resident and draining workgroups. -/
def State.partWgs (s : State) (n : Nat) : List (Nat × Wg) := s.wgs.filter (fun p => p.2.part == n)

/-- SWAP_OUT: a halted partition's workgroups stop for their images; refused where it is not halted or is out already. -/
def State.startSwapOut (s : State) (n : Nat) : State :=
  let x := (s.part n).swapCtl
  if !bit x 62 then s.refuseWrite (0x780 + 8 * n)
  else if !cfgHalted (s.part n).cfg || bit x 60 then s.setSwap n true true (bit x 60) 0
  else (s.stopForSave ((s.partWgs n).map (·.1)) false).runSwap n false 0

def execSwapOut (part : Nat) (s : State) : Step1 := .next (s.startSwapOut (part % 8))

/-- Columns of a die among a list, ascending. -/
def onDie (d : Nat) (cols : List Nat) : List Nat := cols.filter (fun c => c / 17 == d)

/-- A column's place among the named ones of its die. -/
def rankOf (cols : List Nat) (c : Nat) : Nat := ((onDie (c / 17) cols).filter (fun x => decide (x < c))).length

/-- No engine of a partition's columns holds a request. -/
def State.enginesEmpty (s : State) (n : Nat) : Bool :=
  (s.partCols n).all (fun c => (s.col c).tasks == [] && (s.col c).rays == []
    && (List.range Config.coresPerColumn).all (fun k => (s.core (8 * c + k)).chans.all (fun x => x.2.reqs == [])))

/-- The L1 lines of a column's cores go home. -/
def State.cleanColumn (s : State) (c : Nat) : State := s.cleanLines (fun k => !isBuf (lineUnit k) && unitCore (lineUnit k) / 8 == c)

/-- The lines that the plots of a partition hold go home. -/
def State.cleanPlots (s : State) (n : Nat) : State := s.cleanLines (fun k => isBuf (lineUnit k) && lineUnit k / 2 ^ 62 == n)

/-- Complete a swap-out once every workgroup has settled and none is draining: the images, slot tables, weight buffers and
instruction stores are kept, dirty lines go home and the locks clear. The counters and the launch table stay with the partition. -/
def State.endSwapOut (s : State) (n : Nat) : State :=
  let s := (s.partWgs n).foldl (fun s p => if p.2.flushing && s.quietWg p.1 then s.flushPlot p.2.part p.2.ltab p.2.plot else s) s
  let s := (s.partWgs n).foldl (fun s p => p.2.threads.foldl (fun s t => s.exitForSave p.1 t.1) s) s
  let ws := s.partWgs n
  if !s.enginesEmpty n || !ws.all (fun p => !p.2.draining && s.savable p.1 p.2) then s
  else
    let cols := s.partCols n
    let imgs := ws.map (fun p =>
      let c := p.2.core / 8
      (⟨c / 17, rankOf cols c, p.2.core % 8, p.2.slot, p.2.bslot, s.image { s.withTasks p.1 p.2 with nptime := s.npLeft p.2 }⟩ : SwapImg))
    let s := (ws.foldl State.putAway s).cleanPlots n
    let s := s.modSys (fun y => { y with images := y.images.put n imgs, savedCols := y.savedCols.put n (cols.map (fun c => (c, s.col c))) })
    let s := cols.foldl (fun s c => (s.cleanColumn c).modCol c (fun x =>
      { x with slots := [], fresh := [], kept := [], cfg := setBits x.cfg 17 17 0 })) s
    ({ s with fresh := s.fresh + 1 }).setSwap n true false true 0

/-- The columns of the saved set, as they were numbered. -/
def State.savedOf (s : State) (n : Nat) : List (Nat × Col) := s.sys.savedCols.get [] n

/-- The named column that takes the saved column at a place of a die. -/
def State.swapTarget (s : State) (n d r : Nat) : Nat := (onDie d (s.partCols n)).getD r 0

/-- SWAP_IN: refused where the partition is not out or its columns number differently on a die than at the swap-out. -/
def State.startSwapIn (s : State) (n : Nat) : State :=
  let x := (s.part n).swapCtl
  let count (d : Nat) : Bool := (onDie d (s.partCols n)).length == (onDie d ((s.savedOf n).map (·.1))).length
  if !bit x 62 then s.refuseWrite (0x780 + 8 * n)
  else if !bit x 60 || !count 0 || !count 1 then s.setSwap n true true (bit x 60) 1
  else s.runSwap n true 1

def execSwapIn (part : Nat) (s : State) : Step1 := .next (s.startSwapIn (part % 8))

/-- Restore one workgroup from shadow storage. -/
def State.swapWg (s : State) (n : Nat) (x : SwapImg) : State :=
  match (s.part n).entryOf (hdLaunch (imgHeader x.img)) with
  | none => s
  | some (e, l) => s.resumeWg n e l x.img (8 * s.swapTarget n x.die x.rank + x.core) x.bslot

/-- Complete a swap-in: the saved columns' slot tables, weight buffers and instruction stores, then the workgroups. -/
def State.endSwapIn (s : State) (n : Nat) : State :=
  let saved := s.savedOf n
  let s := saved.foldl (fun s p =>
    s.modCol (s.swapTarget n (p.1 / 17) (rankOf (saved.map (·.1)) p.1)) (fun x =>
      { x with slots := p.2.slots, weight := p.2.weight, istore := p.2.istore, fresh := [], kept := [] })) s
  let s := (s.sys.images.get [] n).foldl (fun s x => s.swapWg n x) s
  (s.modSys (fun y => { y with images := y.images.erase n, savedCols := y.savedCols.erase n })).setSwap n true false false 1

/-- SWAP_DONE: the swap in progress ends, if one is. -/
def State.swapEnd (s : State) (n : Nat) : State :=
  if bit (s.part n).swapCtl 62 then s else if (s.part n).swapRun = 0 then s.endSwapOut n else s.endSwapIn n

def execSwapDone (part : Nat) (s : State) : Step1 := .next (s.swapEnd (part % 8))

end Sys2Proof.Machine
end

