-- ==== Sys2Proof/Machine/Service.lean ====
section
/-! DEFINITION. Service operations (R384, R385, Tables 20.6 and 20.7), the capability table (R381, Table 20.3) and column resets
(R357). -/

namespace Sys2Proof.Machine

/-! ## The capability table -/

/-- The bits of the physical columns that satisfy a test. -/
def State.colMask (s : State) (f : Col → Bool) : Nat := maskOf ((List.range Config.columns).filter (fun c => f (s.col c)))

/-- The table's column fields as the columns stand. -/
def State.colFields (s : State) (cap : Nat) : Nat :=
  let spares := maskOf ([16, 33].filter (fun c => !(s.col c).enabled))
  setBits (setBits (setBits cap 133 100 (s.colMask (·.enabled))) 167 134 spares) 201 168 (s.colMask (·.retired))

/-! ## Operations -/

/-- COL_CFG.empty (Table 18.7): no resident or draining workgroup, and no task or ray in flight. -/
def State.colEmpty (s : State) (c : Nat) : Bool :=
  !s.wgs.any (fun p => p.2.core / 8 == c) && (s.col c).tasks == [] && (s.col c).rays == []

/-- A go of SVC_CTL: refused while an op is not done; one that breaks its rules sets err and changes nothing. The op in progress is the one
that go started, whatever is written to the fields meanwhile. -/
def State.service (s : State) (op arg : Nat) (ok : Bool) (f : State → State) : State :=
  if !bit s.sys.svc 62 then s.refuseWrite 0x620
  else
    let fields := op * 2 ^ 52 + arg
    if !ok then s.modSys (fun y => { y with svc := 2 ^ 62 + 2 ^ 61 + fields })
    else (f s).modSys (fun y => { y with svc := fields, svcRun := fields })

/-- Add to the module's repair record. -/
def State.recordRepair (s : State) (op arg : Nat) : State :=
  { s with boot := { s.boot with repairs := s.boot.repairs ++ [op * 2 ^ 52 + arg] } }

def Col.retire (c : Col) : Col := { c with enabled := false, retired := true, mv := 0, mhz := 0, want := none }

/-- The column a spare of a die would replace: the lowest-numbered retired one that no enabled spare replaces. -/
def State.replaced (s : State) (d : Nat) : Option Nat :=
  (List.range 17).map (fun i => 17 * d + i) |>.find? (fun c =>
    (s.col c).retired && !(s.col c).enabled && !(c == 16 || c == 33)
      && !([16, 33].any (fun x => (s.col x).enabled && (s.col x).num == (s.col c).num)))

/-- The spare column of a die (R323). -/
def spareOf (d : Nat) : Nat := if d = 0 then 16 else 33

/-- RETIRE_COLUMN. -/
def State.retireCol (s : State) (arg : Nat) : State :=
  let c := bits arg 5 0
  s.service 0 arg (decide (c < Config.columns) && !(List.range 8).any (fun n => bit (s.part n).cfg c) && s.colEmpty c)
    (fun s => ((s.cleanColumn c).modCol c Col.retire).recordRepair 0 arg)

/-- ENABLE_SPARE. -/
def State.enableSpareCol (s : State) (arg : Nat) : State :=
  let d := bits arg 0 0
  let c := spareOf d
  let t := s.replaced d
  s.service 1 arg (!(s.col c).enabled && !(s.col c).retired && t.isSome)
    (fun s => (s.setCol c { Col.start c with enabled := true, num := (s.col (t.getD 0)).num, base := s.clock }).recordRepair 1 arg)

/-- ROW_REPAIR: the contents stand; whether a spare row is left is not in the spec: a free value (log entry 17). -/
def State.repairRow (s : State) (arg : Nat) : State :=
  s.service 2 arg (Config.rowLeft s.boot.repairs arg) (fun s => s.recordRepair 2 arg)

/-- LANE_REPAIR: no access is lost. -/
def State.repairLane (s : State) (arg : Nat) : State := s.service 3 arg true (fun s => s.recordRepair 3 arg)

/-- A port's width field in the capability table. -/
def portWidth (cap port : Nat) : Nat := bits cap (387 + 4 * port) (384 + 4 * port)

/-- LINK_DEGRADE: to a narrower width, above down. -/
def State.degrade (s : State) (arg : Nat) : State :=
  s.service 4 arg (decide (bits arg 2 1 < portWidth s.boot.captab (bits arg 0 0)) && bits arg 2 1 != 0) id

def execRetireColumn (arg : BitVec 52) (s : State) : Step1 := .next (s.retireCol arg.toNat)
def execEnableSpare (arg : BitVec 52) (s : State) : Step1 := .next (s.enableSpareCol arg.toNat)
def execRowRepair (arg : BitVec 52) (s : State) : Step1 := .next (s.repairRow arg.toNat)
def execLaneRepair (arg : BitVec 52) (s : State) : Step1 := .next (s.repairLane arg.toNat)
def execLinkDegrade (arg : BitVec 52) (s : State) : Step1 := .next (s.degrade arg.toNat)

/-- COLUMN_RESET of an empty column: its lines go home, its cycle counters restart and its lock clears (R32, R357). -/
def State.resetColumn (s : State) (c : Nat) : State :=
  if s.colEmpty c then (s.cleanColumn c).modCol c (fun x => { x with base := s.clock, cfg := setBits x.cfg 17 17 0 }) else s

def execColumnReset (col : Nat) (s : State) : Step1 := .next (s.resetColumn col)

end Sys2Proof.Machine
end

