-- ==== Sys2Proof/Machine/Sha.lean ====
section
/-! DEFINITION. SHA-256, MGF1 and the verification of RSASSA-PSS signatures, as R333 names them. -/

namespace Sys2Proof.Machine

/-! ## SHA-256 -/

def shaK : List Word :=
  [0x428A2F98, 0x71374491, 0xB5C0FBCF, 0xE9B5DBA5, 0x3956C25B, 0x59F111F1, 0x923F82A4, 0xAB1C5ED5,
   0xD807AA98, 0x12835B01, 0x243185BE, 0x550C7DC3, 0x72BE5D74, 0x80DEB1FE, 0x9BDC06A7, 0xC19BF174,
   0xE49B69C1, 0xEFBE4786, 0x0FC19DC6, 0x240CA1CC, 0x2DE92C6F, 0x4A7484AA, 0x5CB0A9DC, 0x76F988DA,
   0x983E5152, 0xA831C66D, 0xB00327C8, 0xBF597FC7, 0xC6E00BF3, 0xD5A79147, 0x06CA6351, 0x14292967,
   0x27B70A85, 0x2E1B2138, 0x4D2C6DFC, 0x53380D13, 0x650A7354, 0x766A0ABB, 0x81C2C92E, 0x92722C85,
   0xA2BFE8A1, 0xA81A664B, 0xC24B8B70, 0xC76C51A3, 0xD192E819, 0xD6990624, 0xF40E3585, 0x106AA070,
   0x19A4C116, 0x1E376C08, 0x2748774C, 0x34B0BCB5, 0x391C0CB3, 0x4ED8AA4A, 0x5B9CCA4F, 0x682E6FF3,
   0x748F82EE, 0x78A5636F, 0x84C87814, 0x8CC70208, 0x90BEFFFA, 0xA4506CEB, 0xBEF9A3F7, 0xC67178F2]

def shaInit : List Word :=
  [0x6A09E667, 0xBB67AE85, 0x3C6EF372, 0xA54FF53A, 0x510E527F, 0x9B05688C, 0x1F83D9AB, 0x5BE0CD19]

/-- A number from big-endian bytes. -/
def ofBe (l : List Byte) : Nat := l.foldl (fun x b => 256 * x + b.toNat) 0

/-- The low `n` bytes of a number, most significant first. -/
def beBytes (n x : Nat) : List Byte := (leBytes n x).reverse

/-- The padded message. -/
def shaPad (l : List Byte) : List Byte :=
  l ++ [(0x80 : Byte)] ++ List.replicate ((119 - l.length % 64) % 64) (0 : Byte) ++ beBytes 8 (8 * l.length)

/-- Extend a schedule, latest word first. -/
def shaExtend : Nat → List Word → List Word
  | 0, l => l
  | n + 1, l =>
    let a := l.getD 14 0
    let b := l.getD 1 0
    let s0 := a.rotateRight 7 ^^^ a.rotateRight 18 ^^^ (a >>> 3)
    let s1 := b.rotateRight 17 ^^^ b.rotateRight 19 ^^^ (b >>> 10)
    shaExtend n ((l.getD 15 0 + s0 + l.getD 6 0 + s1) :: l)

/-- One round on the eight working words. -/
def shaRound (w : List Word) (kw : Word × Word) : List Word :=
  match w with
  | [a, b, c, d, e, f, g, h] =>
    let s1 := e.rotateRight 6 ^^^ e.rotateRight 11 ^^^ e.rotateRight 25
    let t1 := h + s1 + ((e &&& f) ^^^ (~~~ e &&& g)) + kw.1 + kw.2
    let s0 := a.rotateRight 2 ^^^ a.rotateRight 13 ^^^ a.rotateRight 22
    let t2 := s0 + ((a &&& b) ^^^ (a &&& c) ^^^ (b &&& c))
    [t1 + t2, a, b, c, d + t1, e, f, g]
  | l => l

/-- The hash after a block of sixteen words. -/
def shaBlock (h : List Word) (block : List Word) : List Word :=
  let w := (shaExtend 48 block.reverse).reverse
  List.zipWith (· + ·) h ((List.zip shaK w).foldl shaRound h)

/-- The SHA-256 digest of bytes. -/
def sha256 (l : List Byte) : List Byte :=
  let p := shaPad l
  let words := (List.range (p.length / 4)).map (fun i => BitVec.ofNat 32 (ofBe ((p.drop (4 * i)).take 4)))
  let h := (List.range (words.length / 16)).foldl (fun h i => shaBlock h ((words.drop (16 * i)).take 16)) shaInit
  h.flatMap (fun w => beBytes 4 w.toNat)

/-! ## RSASSA-PSS with SHA-256, MGF1-SHA-256 and a 32-byte salt, exponent 65,537 -/

/-- MGF1: `n` bytes of mask. -/
def mgf1 (seed : List Byte) (n : Nat) : List Byte :=
  ((List.range ((n + 31) / 32)).flatMap (fun i => sha256 (seed ++ beBytes 4 i))).take n

/-- x to the 65,537 modulo n. -/
def pow65537 (x n : Nat) : Nat := (List.range 16).foldl (fun y _ => y * y % n) (x % n) * x % n

def xorBytes (a b : List Byte) : List Byte := List.zipWith (· ^^^ ·) a b

/-- The encoded message of 384 bytes is a PSS encoding of a message. -/
def pssOk (msg em : List Byte) : Bool :=
  let masked := em.take 351
  let h := (em.drop 351).take 32
  let db := match xorBytes masked (mgf1 h 351) with
    | b :: bs => (b &&& 0x7F) :: bs
    | [] => []
  let salt := db.drop 319
  em.length == 384 && em.drop 383 == [(0xBC : Byte)] && decide ((masked.headD 0).toNat < 128)
    && db.take 318 == List.replicate 318 (0 : Byte) && (db.drop 318).headD 0 == (1 : Byte)
    && h == sha256 (List.replicate 8 (0 : Byte) ++ sha256 msg ++ salt)

/-- A signature of a message under an RSA-3072 modulus. -/
def signatureOk (modulus sig msg : List Byte) : Bool :=
  let n := ofBe modulus
  let x := ofBe sig
  decide (2 ^ 3071 ≤ n) && decide (x < n) && pssOk msg (beBytes 384 (pow65537 x n))

end Sys2Proof.Machine
end

