-- ==== Sys2Proof/Machine/Boot.lean ====
section
/-! DEFINITION. Starts (R388, R389, Table 20.8), firmware verification and loading (R333, R334), and the watchdog (R332). -/

namespace Sys2Proof.Machine

/-! ## Firmware images (R333, Table 17.6) -/

def imgField (img : List Byte) (off n : Nat) : Nat := ofLe ((img.drop off).take n)
def fwSvn (img : List Byte) : Nat := imgField img 8 8
def fwSize (img : List Byte) : Nat := imgField img 20 4
def fwDigest (img : List Byte) : List Byte := (img.drop 32).take 32
def fwBody (img : List Byte) : List Byte := (img.drop 832).take (fwSize img)

/-- The checks of R333 on an image's bytes. -/
def imageVerifies (svn : Nat) (img : List Byte) : Bool :=
  let key := (img.drop 64).take 384
  imgField img 0 4 == 0x4C4E5232 && imgField img 4 4 == 1 && decide (fwSize img ≤ 960 * 1024)
    && decide (832 + fwSize img ≤ img.length) && ofBe (sha256 key) == Config.rootKeyHash
    && signatureOk key ((img.drop 448).take 384) (img.take 448) && sha256 (fwBody img) == fwDigest img && decide (svn ≤ fwSvn img)

def ImageSlot.verifies (svn : Nat) : ImageSlot → Bool
  | .empty => false
  | .factory => decide (svn ≤ Config.factorySvn)
  | .image img => imageVerifies svn img

def ImageSlot.digest : ImageSlot → Nat
  | .empty => 0
  | .factory => Config.factoryDigest
  | .image img => ofBe (fwDigest img)

/-- Two slots whose images have one digest. -/
def ImageSlot.sameDigest (a b : ImageSlot) : Bool := decide (a = b) || a.digest == b.digest

/-- The image that a start accepts, slot A before slot B, and the capability table's fwst. -/
def Boot.choose (b : Boot) : ImageSlot × Nat :=
  if b.slotA.verifies b.svn then (b.slotA, 1) else if b.slotB.verifies b.svn then (b.slotB, 2) else (.empty, 0)

/-- The fused counter after an image is accepted: raised where its flag asks for it, never lowered. -/
def ImageSlot.raise (svn : Nat) : ImageSlot → Nat
  | .image img => if bit (imgField img 16 4) 0 then max svn (fwSvn img) else svn
  | _ => svn

/-- FIRMWARE_VERIFY within a start. -/
def Boot.verify (b : Boot) : Boot := let x := b.choose; { b with accepted := x.1, svn := x.1.raise b.svn }

/-- The SRAM after a load (R334): the body from offset 0 and zeros up to 0xF_7FFF; the fault queue's area stands. The body of the
image of manufacture is not in the spec, and no part of the machine but the management core reads it (log entry 6). -/
def loadSram (m : FMap Byte) (slot : ImageSlot) : FMap Byte :=
  let rest := m.filter (fun p => decide (0xF8000 ≤ p.1))
  match slot with
  | .image img => sramWrite rest 0 (fwBody img)
  | _ => rest

/-! ## Columns and the capability table at a start -/

/-- A column as the fuses and one entry of the repair record leave it. -/
def replay (s : State) (r : Nat) : State :=
  match r / 2 ^ 52 with
  | 0 => s.modCol (bits r 5 0) Col.retire
  | 1 =>
    let d := bits r 0 0
    (match s.replaced d with
      | some c => s.modCol (spareOf d) (fun x => { x with enabled := true, num := (s.col c).num })
      | none => s)
  | _ => s

/-- Every column at reset, then repaired; none is enabled where no image was accepted. -/
def State.startColumns (s : State) (clock : Nat) (none : Bool) : State :=
  let s := { s with cols := (List.range Config.columns).map (fun c => (c, { Col.start c with base := clock })) }
  let s := s.boot.repairs.foldl replay s
  if none then { s with cols := s.cols.map (fun c => (c.1, { c.2 with enabled := false })) } else s

/-- Where the management core starts: the header's entry offset, or nowhere without an image (R334). -/
def ImageSlot.entry : ImageSlot → Nat
  | .empty => 0
  | .factory => Config.factoryEntry
  | .image img => imgField img 24 8

/-- What a cold or warm start leaves (R388): everything at reset but the module's own record, its images, the memory and tensor store
given, and the model's own fields. Link training finds by free values which ports run CXL, and the capability table shows it (R378; log
entry 30). -/
def State.restart (s : State) (b : Boot) (fwst : Nat) (mem : List Host.Cell) (tstore : FMap Byte) (poison : FMap (List Nat)) : State :=
  let t : State := { State.reset with
    clock := s.clock, fresh := s.fresh + 2, agenda := s.agenda, turn := s.turn, mem := mem, tstore := tstore, poison := poison, boot := b }
  let t := t.startColumns s.clock (fwst == 0)
  let ports := [Config.freeBit s.fresh, Config.freeBit (s.fresh + 1)]
  let cap := setBits (setBits captabStart 63 60 fwst) 296 295 (if ports.all id then 3 else 0)
  let t := { t with boot := { b with captab := t.colFields cap } }
  t.modSys (fun y => { y with sram := loadSram [] b.accepted, mgmtPc := b.accepted.entry, portCxl := ports })

/-! ## Cold and warm starts -/

/-- Key derivation (R335): the alias key is that of the accepted image's digest; then the secret is locked until the next reset. -/
def Boot.derive (b : Boot) : Boot := if b.locked then b else { b with keysFor := b.accepted, locked := true }

/-- What the repair scan adds to the module's record: rows and lanes it repairs (R384). -/
def scanned (n : Nat) : List Nat := (Config.scanRepairs n).filter (fun r => r / 2 ^ 52 == 2 || r / 2 ^ 52 == 3)

/-- COLD_START: keys are derived for the image accepted, the repair scan adds to the record, and device memory is written to zero; the host's
own memory is not the module's. -/
def State.coldStart (s : State) : State :=
  let b := ({ s.boot.verify with locked := false }).derive
  ({ s with fresh := s.fresh + 1 }).restart { b with repairs := b.repairs ++ scanned s.fresh } s.boot.choose.2
    (s.mem.filter (fun p => decide (2 ^ 51 ≤ p.1))) [] []

def execColdStart (s : State) : Step1 := .next s.coldStart

/-- Every dirty tag-0 line is written back, and every range-format byte not yet quantised is (R389, R63). -/
def State.flushCommitted (s : State) : State :=
  let s := ((s.l1.filter (fun e => lineTag e.1 == 0)).map (·.1)).foldl State.writeBackLine s
  (s.expanded.map (·.1)).foldl (fun s a =>
    if (s.expanded.find? a).isSome then
      (match s.window? a with
        | some (n, r) => s.rangeWriteback (ctlOf a) n ((a - rfBase r) / rfExpBytes r / rfBlock r)
        | none => s)
    else s) s

/-- WARM_START: keys and device memory are kept; a verified image with another digest than the keys' falls back to a cold start. -/
def State.warmStart (s : State) : State :=
  let b := s.boot.verify
  if b.accepted ≠ .empty ∧ b.accepted.sameDigest b.keysFor = false then s.coldStart
  else
    let t := s.flushCommitted
    s.restart b s.boot.choose.2 t.mem t.tstore (t.poison.filter (fun p => decide (p.1 < 2 ^ 46)))

def execWarmStart (s : State) : Step1 := .next s.warmStart

/-! ## The watchdog (R332) -/

/-- WATCHDOG_EXPIRY: after a period without a kick the management core starts again with its image verified; bind records not yet
installed are dropped, the expiry is counted, and the host gets an interrupt whose vector the spec does not give (log entry 18). -/
def State.watchdog (s : State) : State :=
  if s.sys.kicked then s.modSys (fun y => { y with kicked := false })
  else
    let s := { s with
      boot := s.boot.verify
      cols := s.cols.map (fun (c : Nat × Col) => (c.1, { c.2 with slots := c.2.slots.filter (fun x => !c.2.fresh.contains x.1), fresh := [] })) }
    { s.modSys (fun y => { y with
        wdog := setBits y.wdog 63 32 (satInc 32 (bits y.wdog 63 32))
        msix := y.msix ++ [Config.freeNat s.fresh % 64]
        sram := loadSram y.sram s.boot.accepted
        mgmtPc := s.boot.accepted.entry }) with fresh := s.fresh + 1 }

def execWatchdogExpiry (s : State) : Step1 := .next s.watchdog

end Sys2Proof.Machine
end

