-- ==== Sys2Proof/Machine/Mailbox.lean ====
section
/-! DEFINITION. The host mailbox (R380, R386, R387, Table 20.4). The firmware carries a command out; each command here is one step. -/

namespace Sys2Proof.Machine

/-- A command submitted: ignored while one is not done, else carried out and finished, with err where it fails. All but an image load
need firmware. `f` gives the state after the command and whether it succeeds. -/
def State.mailbox (s : State) (op arg : Nat) (f : State → State × Bool) : State :=
  if !bit s.sys.mboxCmd 62 then s
  else
    let r := if op ≠ 1 ∧ s.boot.accepted = .empty then (s, false) else f s
    r.1.modSys (fun y => { y with mboxCmd := 2 ^ 62 + bnat (!r.2) * 2 ^ 61 + op % 256, mboxArg := arg })

/-- A command that leaves the rest to the firmware. -/
def done1 (s : State) : State × Bool := (s, true)

/-- Host memory that windows grant, as the firmware reaches it: the address with bit 51 set (R363). -/
def hostPa (arg : Nat) : Nat := 2 ^ 51 + arg % 2 ^ 51

/-- Bytes of host memory, within the windows; the state with the breach logged where a byte is outside them (R331). -/
def State.hostBytes (s : State) (pa n : Nat) : Except State (List Byte) :=
  match s.portRefusal pa n false with
  | some (sub, a) => .error (s.logMgmt sub a)
  | none => .ok ((List.range n).map (fun i => s.base (pa + i)))

/-- Bytes of host memory for a command, which fails where they are refused. -/
def State.withHost (s : State) (pa n : Nat) (f : List Byte → State × Bool) : State × Bool :=
  match s.hostBytes pa n with
  | .error t => (t, false)
  | .ok l => f l

/-- MBOX_LOAD_IMAGE: header and body go into slot A where bit 0 of the argument is 1, else into slot B; verified at the next start. -/
def State.loadImage (s : State) (arg : Nat) : State :=
  s.mailbox 1 arg (fun s =>
    let pa := hostPa (arg / 2 * 2)
    s.withHost pa 832 (fun hd => s.withHost pa (832 + min (fwSize hd) (960 * 1024)) (fun img =>
      ({ s with boot := if bit arg 0 then { s.boot with slotA := .image img } else { s.boot with slotB := .image img } }, true))))

def execMboxLoadImage (arg : BitVec 64) (s : State) : Step1 := .next (s.loadImage arg.toNat)

/-- MBOX_PAGE_DEMAND: the firmware answers by the register writes of R368, each an event of its own. -/
def execMboxPageDemand (arg : BitVec 64) (s : State) : Step1 := .next (s.mailbox 2 arg.toNat done1)

/-- MBOX_SERVICE: the repair it triggers is the firmware's own choice, by an event of its own. -/
def execMboxService (arg : BitVec 64) (s : State) : Step1 := .next (s.mailbox 5 arg.toNat done1)

/-! ## Evacuation (R386) -/

/-- The partition evacuated: the lowest that is halted and swapped out (log entry 20). -/
def State.evacuee (s : State) : Option Nat :=
  (List.range 8).find? (fun n => cfgHalted (s.part n).cfg && bit (s.part n).swapCtl 60)

/-- The counters a record holds: streams 0 to 63, then engine contexts, each by its number and value. -/
def Part.counters (p : Part) : List (Nat × Nat) :=
  p.streams.map (fun x => (x.1 % 64, x.2.counter)) ++ p.ectr.map (fun x => (64 + x.1 % 256, x.2))

/-- The 64-bit fields of a record before its images: W, the contract level, the counters, and the number of images and their sizes. -/
def recordHead (cs : List (Nat × Nat)) (imgs : List (List Byte)) : List Nat :=
  [Config.lwlog, 1, cs.length] ++ cs.flatMap (fun c => [c.1, c.2]) ++ [imgs.length] ++ imgs.map List.length

/-- Bytes of a record as the firmware lays them out, from byte `i` on, and back (R386; log entry 20). -/
def masked (i : Nat) (l : List Byte) : List Byte := ((List.range l.length).zip l).map (fun p => p.2 ^^^ Config.evacuationMask (i + p.1))

/-- An evacuation record's bytes. -/
def State.evacuation (s : State) (n : Nat) : List Byte :=
  masked 0 ((recordHead (s.part n).counters (s.allImages n)).flatMap (leBytes 8) ++ (s.allImages n).flatten)

/-- MBOX_EVACUATE: the record is written within a host window. -/
def State.evacuate (s : State) (arg : Nat) : State :=
  s.mailbox 3 arg (fun s =>
    match s.evacuee with
    | none => (s, false)
    | some n =>
      let l := s.evacuation n
      match s.portRefusal (hostPa arg) l.length true with
      | some (sub, a) => (s.logMgmt sub a, false)
      | none => (s.foreignWrite (hostPa arg) l, true))

def execMboxEvacuate (arg : BitVec 64) (s : State) : Step1 := .next (s.evacuate arg.toNat)

/-! ## Restoring (R387) -/

/-- The partition restored into: the lowest that is enabled, halted and has accepted no launch (log entry 20). -/
def State.restoree (s : State) : Option Nat :=
  (List.range 8).find? (fun n => let p := s.part n; cfgEnable p.cfg && cfgHalted p.cfg && p.nextNum == 1 && p.ltab == [])

/-- Load one counter: streams 0 to 63, then engine-context counters. -/
def Part.loadCounter (p : Part) (c : Nat × Nat) : Part :=
  if c.1 < 64 then { p with streams := p.streams.put c.1 ⟨c.2, c.2, [], false, []⟩ }
  else
    let k := (c.1 - 64) % 256
    { p with ectr := FMap.set 0 p.ectr k c.2, ectrNum := FMap.set 0 p.ectrNum k c.2, ectrDone := p.ectrDone.erase k }

/-- Field `i` of a record's bytes. -/
def recordField (l : List Byte) (i : Nat) : Nat := ofLe ((masked 0 l).drop (8 * i) |>.take 8)

/-- Bytes cut into pieces of given sizes. -/
def cutBy : List Nat → List Byte → List (List Byte)
  | [], _ => []
  | n :: ns, l => l.take n :: cutBy ns (l.drop n)

/-- The counters of a record of `k` of them. -/
def recordCounters (l : List Byte) (k : Nat) : List (Nat × Nat) := (List.range k).map (fun i => (recordField l (3 + 2 * i), recordField l (4 + 2 * i)))

/-- The counters of a record are loaded first, then its images are put into shadow storage, from where the management core moves them to
memory (R352, R387). -/
def State.loadRecord (s : State) (n k m : Nat) (l : List Byte) : State :=
  let sizes := (List.range m).map (fun i => recordField l (4 + 2 * k + i))
  (s.modPart n (fun p => (recordCounters l k).foldl Part.loadCounter p)).modSys (fun y =>
    { y with restored := y.restored.put n (cutBy sizes ((masked 0 l).drop (32 + 16 * k + 8 * m))) })

/-- MBOX_RESTORE: a record whose W and contract level are the module's own is loaded; any other is refused. A record of more counters than a
partition has, of more than 65,536 images or of an image larger than 2 MiB is no record. -/
def State.restore (s : State) (arg : Nat) : State :=
  let pa := hostPa arg
  s.mailbox 4 arg (fun s =>
    match s.restoree with
    | none => (s, false)
    | some n => s.withHost pa 24 (fun hd =>
      let k := recordField hd 2
      if recordField hd 0 ≠ Config.lwlog ∨ recordField hd 1 ≠ 1 ∨ 320 < k then (s, false)
      else s.withHost pa (32 + 16 * k) (fun hd =>
        let m := recordField hd (3 + 2 * k)
        if 2 ^ 16 < m then (s, false)
        else s.withHost pa (32 + 16 * k + 8 * m) (fun hd =>
          let sizes := (List.range m).map (fun i => recordField hd (4 + 2 * k + i))
          if sizes.any (fun x => decide (2 ^ 21 < x)) then (s, false)
          else s.withHost pa (32 + 16 * k + 8 * m + sizes.foldl (· + ·) 0) (fun l => (s.loadRecord n k m l, true))))))

def execMboxRestore (arg : BitVec 64) (s : State) : Step1 := .next (s.restore arg.toNat)

end Sys2Proof.Machine
end

