-- ==== Sys2Proof/Machine/Regs.lean ====
section
/-! DEFINITION. The privileged window and BAR0 as registers at offsets (R321, R322, Tables 17.1, 18.1, 19.3 and 20.2): what a write of 64
bits does and what a read returns. An offset of REGISTER_WRITE at or above 2^32 is a BAR0 offset plus 2^32 (log entry 14). -/

namespace Sys2Proof.Machine

/-- The registers of the privileged window; `h` is the 64-bit piece of a wider register. -/
inductive Reg
  | privErr | partCfg (n : Nat) | versPart (n : Nat) | versStat (n : Nat) | trkTable (n : Nat) | lodTable (n : Nat)
  | rebindAddr | rebindCtl | pwrReq | wdog | svcCtl | capTable (h : Nat) | rangeFmt (c n h : Nat) | coreErr (k h : Nat)
  | dispCfg (y : Nat) | dispTime (y : Nat) | dispStat (y h : Nat) | ringTable (n : Nat) | schedLog (n : Nat) | swapCtl (n : Nat)
  | slot (c n : Nat) | colCfg (c : Nat) | istore (c off : Nat) | queueCfg (n g : Nat) | xlatRoot (n : Nat) | trapRing (n : Nat)
  | xlatCtl (h : Nat) | pageMove (h : Nat) | fltQ | fltResp | trapCtl | errLog (h : Nat) | hwinLog (h : Nat) | eccLog
deriving DecidableEq, Repr

/-- The index of an offset in an array of registers. -/
def idxAt (off start stride n : Nat) : Option Nat :=
  if start ≤ off ∧ (off - start) / stride < n ∧ (off - start) % stride = 0 then some ((off - start) / stride) else none

/-- The registers below 0x1000 of the window. -/
def regLow (off : Nat) : Option Reg :=
  let arr (start n : Nat) (f : Nat → Reg) : Option Reg := (idxAt off start 8 n).map f
  let one (start : Nat) (r : Reg) : Option Reg := if off = start then some r else none
  [one 0x8 .privErr, arr 0x100 8 .partCfg, arr 0x200 8 .versPart, arr 0x240 8 .versStat, arr 0x300 8 .trkTable, arr 0x340 8 .lodTable,
   one 0x400 .rebindAddr, one 0x408 .rebindCtl, one 0x600 .pwrReq, one 0x610 .wdog, one 0x620 .svcCtl, arr 0x700 8 .ringTable,
   arr 0x740 8 .schedLog, arr 0x780 8 .swapCtl, arr 0x800 8 .xlatRoot, arr 0x840 8 .trapRing, arr 0x880 2 .xlatCtl,
   arr 0x890 2 .pageMove, one 0x8A0 .fltQ, one 0x8A8 .fltResp, one 0x8B0 .trapCtl, arr 0x8C0 2 .errLog, arr 0x8D0 2 .hwinLog,
   one 0x8E0 .eccLog, arr 0xA00 16 .capTable].findSome? id

/-- The register at an offset of the window. -/
def regAt (off : Nat) : Option Reg :=
  let r := off % 0x1000
  let b := off / 0x1000
  if off % 8 ≠ 0 then none
  else if off < 0x1000 then regLow off
  else if 0x10 ≤ b ∧ b < 0x10 + Config.controllers then (if r < 0x200 then some (.rangeFmt (b - 0x10) (r / 32) (r / 8 % 4)) else none)
  else if 0x1000 ≤ b ∧ b < 0x1100 then (if r < 16 then some (.coreErr (b - 0x1000) (r / 8)) else none)
  else if 0x2000 ≤ b ∧ b < 0x2000 + Config.columns then
    (if r < 0x80 then some (.slot (b - 0x2000) (r / 8)) else if r = 0x80 then some (.colCfg (b - 0x2000)) else none)
  else if 0x2800 ≤ b ∧ b < 0x2800 + 16 * Config.columns then some (.istore ((b - 0x2800) / 16) (off % 0x10000))
  else if 0x3000 ≤ b ∧ b < 0x3001 then
    (match r % 0x100 with
      | 0 => some (.dispCfg (r / 0x100))
      | 8 => some (.dispTime (r / 0x100))
      | 0x10 => some (.dispStat (r / 0x100) 0)
      | 0x18 => some (.dispStat (r / 0x100) 1)
      | _ => none)
  else if 0x4000 ≤ b ∧ b < 0x4008 then (if r < 0x200 then some (.queueCfg (b - 0x4000) (r / 8)) else none)
  else none

/-! ## Writes -/

/-- A wide register with one 64-bit piece replaced. -/
def piece (old h v : Nat) : Nat := setBits old (64 * h + 63) (64 * h) v

/-- base [51:12] and count [11:0]. -/
def tableMask (v : Nat) : Nat := bits v 51 0

/-- VERS_PART_n: a change of the spill log while any tag of the partition is in use is refused (R108). -/
def State.versWrite (s : State) (n v : Nat) : State :=
  let old := (s.part n).vers
  let new := bits v 63 21 * 2 ^ 21 + bits v 16 7 * 2 ^ 7 + bits v 0 0
  if bits new 63 21 ≠ bits old 63 21 ∧ s.tags.any (fun t => t.2.state != 0 && t.2.part == n) = true then s.refuseWrite (0x200 + 8 * n)
  else s.modPart n (fun p => { p with vers := new })

/-- XLAT_ROOT_n: refused while the partition is enabled and not halted (Table 19.4). -/
def State.rootWrite (s : State) (n v : Nat) : State :=
  let cfg := (s.part n).cfg
  if cfgEnable cfg && !cfgHalted cfg then s.refuseWrite (0x800 + 8 * n)
  else s.modPart n (fun p => { p with xroot := bits v 51 14 * 2 ^ 14 + bits v 0 0 })

/-- RANGE_FMT_n: full clears where a 1 is written, dropped is read-only; a write that leaves the window enabled with a reserved code is
ignored entirely (R62). -/
def State.rangeWrite (s : State) (c n h v : Nat) : State :=
  let old := FMap.get 0 s.sys.rangeFmt (16 * c + n)
  let x := piece old h v
  let full := bits old 255 255 * (1 - (if h = 3 then bits v 63 63 else 0))
  let new := full * 2 ^ 255 + bits old 254 236 * 2 ^ 236 + bits x 235 128 * 2 ^ 128 + bits x 115 64 * 2 ^ 64 + bits x 62 0
  if bit new 31 && (decide (7 ≤ bits new 111 108) || bits new 113 112 == 3) then s
  else s.modSys (fun y => { y with rangeFmt := FMap.set 0 y.rangeFmt (16 * c + n) new })

/-- The write fields of XLAT_CTL, and of PAGE_MOVE. -/
def xlatFields (x : Nat) : Nat := bits x 124 123 * 2 ^ 123 + bits x 98 64 * 2 ^ 64 + bits x 56 15 * 2 ^ 15
def moveFields (x : Nat) : Nat := bits x 121 120 * 2 ^ 120 + bits x 114 78 * 2 ^ 78 + bits x 36 0

def State.xlatPiece (s : State) (h v : Nat) : State :=
  let x := piece s.sys.xlatCtl h v
  if h = 1 ∧ bit v 63 = true then s.xlatWrite 0x888 x (bits x 124 123)
  else s.modSys (fun y => { y with xlatCtl := bits y.xlatCtl 126 125 * 2 ^ 125 + xlatFields x })

def State.movePiece (s : State) (h v : Nat) : State :=
  let x := piece s.sys.pageMove h v
  if h = 1 ∧ bit v 63 = true then s.pageMove 0x898 x
  else s.modSys (fun y => { y with pageMove := bits y.pageMove 126 125 * 2 ^ 125 + moveFields x })

/-- SVC_CTL: go starts the op; 5 to 15 are reserved. -/
def State.svcWrite (s : State) (v : Nat) : State :=
  let arg := bits v 51 0
  if bit v 63 then
    (match bits v 55 52 with
      | 0 => s.retireCol arg
      | 1 => s.enableSpareCol arg
      | 2 => s.repairRow arg
      | 3 => s.repairLane arg
      | 4 => s.degrade arg
      | op => s.service op arg false id)
  else s.modSys (fun y => { y with svc := bits y.svc 62 61 * 2 ^ 61 + bits v 55 0 })

def State.swapWrite (s : State) (n v : Nat) : State :=
  if bit v 63 then (if bit v 0 then s.startSwapIn n else s.startSwapOut n)
  else s.modPart n (fun p => { p with swapCtl := bits p.swapCtl 62 60 * 2 ^ 60 + bits v 0 0 })

/-- The instruction store of a column: a write while it is locked is ignored, and logged in the log of the column's core 0 (R247; log
entry 14). -/
def State.istoreWrite (s : State) (c off v : Nat) : State :=
  if bit (s.col c).cfg 17 then s.logEngine (8 * c) 6 (0x2800000 + 0x10000 * c + off) 0
  else s.modCol c (fun x => { x with istore := sramWrite x.istore off (leBytes 8 v) })

/-- A privileged write of 64 bits. A register that is wholly read-only refuses it (log entry 14). -/
def State.regWrite (s : State) (off v : Nat) (r : Reg) : State :=
  match r with
  | .partCfg n => s.partCfg n v
  | .versPart n => s.versWrite n v
  | .trkTable n => s.modPart n (fun p => { p with trk := tableMask v })
  | .lodTable n => s.modPart n (fun p => { p with lod := tableMask v })
  | .ringTable n => s.modPart n (fun p => { p with ringTable := tableMask v })
  | .rebindAddr => s.modSys (fun y => { y with rebindAddr := bits v 51 5 * 32 })
  | .rebindCtl =>
    if bit v 63 then s.startRebind v
    else s.modSys (fun y => { y with rebindCtl := bits y.rebindCtl 62 61 * 2 ^ 61 + bits v 38 0 })
  | .pwrReq => s.power v
  | .wdog => s.wdogWrite v
  | .svcCtl => s.svcWrite v
  | .rangeFmt c n h => s.rangeWrite c n h v
  | .coreErr k 0 => s.clearEngine k
  | .dispCfg y => s.setDisp y { s.disp y with cfg := bits v 51 12 * 4096 + bits v 7 4 * 16 }
  | .dispTime y => s.setDisp y { s.disp y with time := bits v 33 0 }
  | .swapCtl n => s.swapWrite n v
  | .slot c n => s.slotWrite c n v
  | .colCfg c => s.modCol c (fun x => { x with cfg := bits v 8 0 + max (bits x.cfg 17 17) (bits v 17 17) * 2 ^ 17 })
  | .istore c o => s.istoreWrite c o v
  | .queueCfg n g => s.modPart n (fun p => { p with queues := FMap.set 0 p.queues g (bits v 7 2 * 4 + bits v 0 0) })
  | .xlatRoot n => s.rootWrite n v
  | .trapRing n => (s.modPart n (fun p => { p with trapRing := bits v 51 12 * 4096 + bits v 4 0 })).flushTraps n
  | .xlatCtl h => s.xlatPiece h v
  | .pageMove h => s.movePiece h v
  | .fltQ => s.modSys (fun y =>
    { y with fltTail := bits v 63 32, mirq := if y.fltHead ≠ bits v 63 32 then y.mirq ++ [0] else y.mirq })
  | .fltResp =>
    if bit v 63 then s.faultResp v (bit v 61)
    else s.modSys (fun y => { y with fltResp := 2 ^ 62 + bits v 61 61 * 2 ^ 61 + bits v 44 0 })
  | .trapCtl =>
    if bit v 63 then s.trapCtl v (bits v 60 59)
    else s.modSys (fun y => { y with trapCtl := bits y.trapCtl 62 61 * 2 ^ 61 + bits v 60 59 * 2 ^ 59 + bits v 34 0 })
  | _ => s.refuseWrite off

/-- A host's write of 64 bits to BAR0 (Table 20.2): host windows, the host cap, the mailbox and display events. -/
def State.barWrite (s : State) (off v : Nat) : State :=
  if 0x100 ≤ off ∧ off < 0x200 ∧ off % 8 = 0 then
    let n := (off - 0x100) / 16
    let m := if off % 16 = 0 then bits v 63 12 * 4096 + bits v 2 0 else bits v 51 0
    s.modSys (fun y => { y with hostWin := FMap.set 0 y.hostWin n (piece (FMap.get 0 y.hostWin n) (off % 16 / 8) m) })
  else if off = 0x200 then s.modSys (fun y => { y with hostPcap := bits v 15 0 })
  else if off = 0x210 then
    if !bit v 63 then
      s.modSys (fun y => { y with mboxCmd := bits y.mboxCmd 62 61 * 2 ^ 61 + bits v 7 0 })
    else
      let a := s.sys.mboxArg
      (match bits v 7 0 with
        | 1 => s.loadImage a
        | 2 => s.mailbox 2 a done1
        | 3 => s.evacuate a
        | 4 => s.restore a
        | 5 => s.mailbox 5 a done1
        | op => s.mailbox op a (fun s => (s, false)))
  else if off = 0x218 then s.modSys (fun y => { y with mboxArg := v })
  else if 0x400 ≤ off ∧ off < 0x480 ∧ off % 8 = 0 ∧ bit v 0 = true ∧ bit (s.disp ((off - 0x400) / 8)).time 32 = true then
    s.present ((off - 0x400) / 8)
  else s

/-- A 64-bit register of BAR0 as the host reads it (Table 20.2); an offset that holds none reads as zero. -/
def State.barReg (s : State) (off : Nat) : Nat :=
  if off < 0x80 then bits s.boot.captab (8 * off + 63) (8 * off)
  else if 0x100 ≤ off ∧ off < 0x200 then let h := off % 16 / 8; bits (FMap.get 0 s.sys.hostWin ((off - 0x100) / 16)) (64 * h + 63) (64 * h)
  else if off = 0x200 then s.sys.hostPcap
  else if off = 0x210 then s.sys.mboxCmd
  else if off = 0x218 then s.sys.mboxArg
  else 0

/-- `n` bytes of BAR0. -/
def State.barRead (s : State) (off n : Nat) : Nat :=
  ofLe ((List.range n).map (fun i => BitVec.ofNat 8 (s.barReg ((off + i) / 8 * 8) / 256 ^ ((off + i) % 8))))

/-- A port whose link is up and does not retrain. -/
def State.portLive (s : State) (p : Nat) : Bool := s.sys.portUp.getD p false && s.retraining != some p

/-- The host reads or writes BAR0 through CXL.io, which a port that is up carries whatever it trained to; a write takes 64 bits (R377,
R379). While the only port that is up retrains the access waits (R384). -/
def State.barAccess (s : State) (write : Bool) (off : Nat) (data : List Byte) : State :=
  if !s.sys.portUp.any id then s
  else if !s.portLive 0 && !s.portLive 1 then s.waitLink write (2 ^ 52 + off) data
  else if write then (if data.length = 8 ∧ off % 8 = 0 then s.barWrite off (ofLe data) else s)
  else s.modSys (fun y => { y with hostRead := s.barRead off data.length })

/-- An access of the host or a peer by address. One at or above 2^52 is an offset of BAR0 plus 2^52 (log entry 14). -/
def State.outerAccess (s : State) (write : Bool) (addr : Nat) (data : List Byte) : State :=
  if 2 ^ 52 ≤ addr then s.barAccess write (addr - 2 ^ 52) data else s.hostAccess write addr data

def execHostMemAccess (write : Bool) (addr : Nat) (data : List Byte) (s : State) : Step1 := .next (s.outerAccess write addr data)

/-! ## SERVICE_OP_DONE -/

/-- SERVICE_OP_DONE: done reads 1, the capability table shows what has changed (R381), and accesses that waited for a port are performed
(R384). -/
def State.serviceDone (s : State) : State :=
  if bit s.sys.svc 62 then s
  else
    let x := s.sys.svcRun
    let cap := s.colFields s.boot.captab
    let port := bits x 0 0
    let cap := if bits x 55 52 = 4 then setBits cap (387 + 4 * port) (384 + 4 * port) (bits x 2 1) else cap
    let t := ({ s with boot := { s.boot with captab := cap } }).modSys (fun y =>
      { y with svc := setBits y.svc 62 62 1, hostWaits := [] })
    (s.sys.hostWaits.foldl (fun t a =>
      if 2 ^ 60 ≤ a.2.1 then t.portAccess a.1 (a.2.1 - 2 ^ 60) a.2.2 else t.outerAccess a.1 a.2.1 a.2.2) t).linkAnswer

def execServiceOpDone (s : State) : Step1 := .next s.serviceDone

/-! ## Reads without a row of their own -/

/-- VERS_STAT_n (Table 5.8). -/
def State.versStat (s : State) (n : Nat) : Nat :=
  let count (st : Nat) : Nat := (s.tags.filter (fun t => t.2.state == st && t.2.part == n)).length
  (s.part n).exhaust * 2 ^ 48 + (s.spilled n * 256 + 2 ^ 20 - 1) / 2 ^ 20 * 2 ^ 37 + count 2 * 2 ^ 24 + count 1 * 2 ^ 18
    + (s.sets.filter (fun x => x.2.part == n)).length * 2 ^ 14

/-- What a privileged register holds for a read. -/
def State.regRead (s : State) (r : Reg) : Nat :=
  let y := s.sys
  let half (x h : Nat) : Nat := bits x (64 * h + 63) (64 * h)
  match r with
  | .privErr => y.privErr
  | .partCfg n => (s.part n).cfg
  | .versPart n => (s.part n).vers
  | .versStat n => s.versStat n
  | .trkTable n => (s.part n).trk
  | .lodTable n => (s.part n).lod
  | .rebindAddr => y.rebindAddr
  | .rebindCtl => y.rebindCtl
  | .pwrReq => y.pwrReq
  | .wdog => y.wdog
  | .svcCtl => y.svc
  | .capTable h => half s.boot.captab h
  | .rangeFmt c n h => half (FMap.get 0 y.rangeFmt (16 * c + n)) h
  | .coreErr k h => match s.physCore k with
    | some c => half (s.core c).err h
    | none => 0
  | .dispCfg d => (s.disp d).cfg
  | .dispTime d => (s.disp d).time
  | .dispStat d h => half (s.disp d).stat h
  | .ringTable n => (s.part n).ringTable
  | .schedLog n => (s.part n).schedLog
  | .swapCtl n => (s.part n).swapCtl
  | .slot c n => FMap.get 0 (s.col c).slots n
  | .colCfg c => (s.col c).cfg + bnat (s.colEmpty c) * 2 ^ 16
  | .istore c o => ofLe ((List.range 8).map (fun i => FMap.get 0 (s.col c).istore (o + i)))
  | .queueCfg n g => s.queueCfg n g
  | .xlatRoot n => (s.part n).xroot
  | .trapRing n => (s.part n).trapRing
  | .xlatCtl h => half y.xlatCtl h
  | .pageMove h => half y.pageMove h
  | .fltQ => y.fltTail * 2 ^ 32 + y.fltHead
  | .fltResp => y.fltResp
  | .trapCtl => y.trapCtl
  | .errLog h => if h = 0 then half y.errLog 0 else half y.errSnap 1
  | .hwinLog h => if h = 0 then half y.hwinLog 0 else half y.hwinSnap 1
  | .eccLog => y.eccLog

/-- What a privileged offset holds for a read; one that names no register reads as zero (R322). -/
def State.privRead (s : State) (off : Nat) : Nat := match regAt off with
  | some r => s.regRead r
  | none => 0

/-- A register that a read clears, or whose low half takes a snapshot (R322, R362, R375, R376). -/
def State.readClears (s : State) (r : Reg) : State :=
  match r with
  | .privErr => s.modSys (fun y => { y with privErr := 0 })
  | .schedLog n => s.modPart n (fun p => { p with schedLog := 0 })
  | .errLog 0 => s.modSys (fun y => { y with errSnap := y.errLog, errLog := 0 })
  | .hwinLog 0 => s.modSys (fun y => { y with hwinSnap := y.hwinLog, hwinLog := 0 })
  | .eccLog => s.modSys (fun y => { y with eccLog := 0 })
  | _ => s

/-- A privileged read by the management core: its value, and what it clears. -/
def State.windowRead (s : State) (off : Nat) : State :=
  let s' := s.modSys (fun y => { y with lastRead := s.privRead off })
  match regAt off with
  | some r => s'.readClears r
  | none => s'

/-- A privileged write of 64 bits (R322). -/
def State.windowWrite (s : State) (off v : Nat) : State :=
  match regAt off with
  | some r => s.regWrite off v r
  | none => s.refuseWrite off

/-- REGISTER_WRITE. -/
def execRegisterWrite (off : Nat) (value : Nat) (s : State) : Step1 :=
  let v := value % 2 ^ 64
  .next (if 2 ^ 32 ≤ off then s.barWrite (off - 2 ^ 32) v else s.windowWrite off v)

/-- UNTRANSLATED_PORT_ACCESS: an access of the management core. At 2^54 and above it is one of 64 bits to its privileged window (R321; log
entry 47). -/
def execUntranslatedPortAccess (write : Bool) (addr : Nat) (data : List Byte) (s : State) : Step1 :=
  .next (if addr / 2 ^ 54 ≠ 1 then s.portAccess write addr data
    else if data.length ≠ 8 then s
    else if write then s.windowWrite (addr - 2 ^ 54) (ofLe data)
    else s.windowRead (addr - 2 ^ 54))

end Sys2Proof.Machine
end

