-- ==== Sys2Proof/Machine/Spdm.lean ====
section
/-! DEFINITION. SPDM requests (R335, R336). The response codes are those of the DMTF SPDM specification (PRESUMED, log entry 19). Keys and
signatures are named by what they are made of: their bits are not in the spec. -/

namespace Sys2Proof.Machine

/-- The alias key: derived from the fused secret and the digest of the image the keys were derived for, so that another digest gives
another key (R335). -/
def State.aliasKey (s : State) : Key := .ofImage s.boot.keysFor.digest

/-- The certificate chain: the root certifies the identity key, and the identity key the alias key (R335, R336). -/
def State.chain (s : State) : List Cert := [⟨.root, .root⟩, ⟨.identity, .root⟩, ⟨s.aliasKey, .identity⟩]

/-- The bytes in which the chain is sent. -/
def State.chainBytes (s : State) : List Byte := Config.chainBytes s.boot.keysFor.digest

/-- Send a response. -/
def State.reply (s : State) (r : Reply) : State := s.modSys (fun y => { y with spdm := y.spdm ++ [r] })

/-- Send a response without a chain or a signature. -/
def State.respond (s : State) (code value : Nat) : State := s.reply ⟨code, value, [], none⟩

/-- Send a response signed with the alias key: the signature covers the request's code and nonce, the response's code, nonce and fields, and
the digest of the chain (R336). The nonces are free values. -/
def State.respondSigned (s : State) (request code value : Nat) (chain : List Cert) : State :=
  let msg := [request, Config.freeNat s.fresh, code, Config.freeNat (s.fresh + 1), value, ofBe (sha256 s.chainBytes)]
  { s.reply ⟨code, value, chain, some ⟨s.aliasKey, msg⟩⟩ with fresh := s.fresh + 2 }

/-- Measurement blocks 1 to 4, 256 bits each, block 1 lowest: boot ROM digest, image digest, fused bounds and svn, capability
table. -/
def State.measurements (s : State) : Nat :=
  let bounds := 450 + 650 * 2 ^ 16 + 56 * 2 ^ 32 + 1350 * 2 ^ 48 + 825 * 2 ^ 64 + 100 * 2 ^ 80 + s.boot.svn * 2 ^ 128
  Config.bootRomDigest % 2 ^ 256 + s.boot.accepted.digest % 2 ^ 256 * 2 ^ 256 + bounds % 2 ^ 256 * 2 ^ 512
    + ofBe (sha256 (leBytes 128 s.boot.captab)) * 2 ^ 768

/-- VERSION: 1.2 and 1.3. -/
def execGetVersion (s : State) : Step1 := .next ((s.respond 0x04 0x1312).modSys (fun y => { y with spdmVer := 0 }))

/-- CAPABILITIES: the flags are not in the spec. -/
def execGetCapabilities (s : State) : Step1 := .next { s.respond 0x61 (Config.freeNat s.fresh) with fresh := s.fresh + 1 }

/-- ALGORITHMS: RSASSA-3072 and SHA-256 only; of the versions offered, the one agreed is the requester's choice. -/
def execNegotiateAlgorithms (s : State) : Step1 :=
  .next { (s.respond 0x63 (0x4 + 0x1 * 2 ^ 32)).modSys (fun y => { y with spdmVer := if Config.freeBit s.fresh then 0x13 else 0x12 }) with
    fresh := s.fresh + 1 }

/-- DIGESTS of the one chain. -/
def execGetDigests (s : State) : Step1 := .next (s.reply ⟨0x01, ofBe (sha256 s.chainBytes), s.chain, none⟩)

/-- CERTIFICATE: the chain. -/
def execGetCertificate (s : State) : Step1 := .next (s.reply ⟨0x02, ofBe s.chainBytes, s.chain, none⟩)

/-- CHALLENGE_AUTH: signed with the alias key. -/
def execChallenge (s : State) : Step1 := .next (s.respondSigned 0x83 0x03 0 s.chain)

/-- MEASUREMENTS: signed with the alias key. -/
def execGetMeasurements (s : State) : Step1 := .next (s.respondSigned 0xE0 0x60 s.measurements [])

/-- KEY_EXCHANGE: the error UnsupportedRequest. -/
def execKeyExchange (s : State) : Step1 := .next (s.respond 0x7F 0x07)

end Sys2Proof.Machine
end

