-- ==== Sys2Proof/Machine/Auto.lean ====
section
/-! DEFINITION. What the device does of itself when no agenda names an event: the internal events that are due, of which a free choice
takes one (the spec orders none of them against another; log entry 1), and the end of every step. -/

namespace Sys2Proof.Machine

/-- Results that may land, loads and atomics that may be performed, stores that may be, and words that may become globally performed. -/
def State.dueResults (s : State) : List Instr :=
  s.wgs.flatMap (fun w => w.2.threads.flatMap (fun t =>
    let ready := if t.2.queue = [] then [] else s.readyOps w.1 t.1
    (t.2.pend.filter (fun e => canLand t.2.pend e || ready.any (fun m => m.id == e.id && m.reads))).map (fun e => Instr.resultLand w.1 t.1 e.id)
      ++ (t.2.chk.filter (fun c => c.parked == 0 || ready.any (fun m => m.id == c.id && m.kind == 1))).map (fun c =>
        Instr.storeGloballyPerformed w.1 t.1 c.id)))

/-- Lines that an L1 writes back or drops of itself, so that every write reaches its home and every copy that a load filled goes (R82); and
lines that one takes early, of which a free number says which (log entry 21). -/
def State.dueLines (s : State) : List Instr :=
  s.l1.map (fun e => Instr.dirtyLineWriteBack (2 ^ 17 + lineUnit e.1) (lineTag e.1) (lineAddr e.1 / 64))
    ++ s.wgs.map (fun w => Instr.dirtyLineWriteBack (2 ^ 17 + w.2.unit) w.2.tag (Config.freeNat (2 ^ 66 + s.clock) % 2 ^ 46))

/-- Workgroups that may leave. -/
def State.dueWgs (s : State) : List Instr :=
  s.wgs.flatMap (fun w =>
    (if w.2.draining && s.settledWg w.1 w.2 && !s.waits w.1 then [Instr.workgroupFree w.1] else [])
      ++ (if w.2.saving then [Instr.workgroupSave w.1] else []))

/-- Copy channels with work; how much of a request arrives at once is free (R81). -/
def State.dueCopies (s : State) : List Instr :=
  s.cores.flatMap (fun c => c.2.chans.flatMap (fun n => match n.2.reqs with
    | [] => []
    | r :: _ =>
      if r.parked then []
      else if r.started then [Instr.copyArrival c.1 n.1 (1 + Config.freeNat (2 ^ 64 + s.clock) % max (r.total - r.done) 1)]
      else [Instr.copyRequestStart c.1 n.1]))

/-- Matrix engines, traversal units and regulators with work, and slots with plots to place. -/
def State.dueCols (s : State) : List Instr :=
  s.cols.flatMap (fun c =>
    (match (List.range 4).find? (fun e => !c.2.tasks.any (fun t => t.eng == some e)) with
      | some e => if (s.nextTask c.1).isSome then [Instr.taskStart c.1 e] else []
      | none => [])
      ++ (c.2.tasks.filter (fun t => !t.parked)).filterMap (fun t => t.eng.map (fun e => Instr.taskBlockComplete c.1 e))
      ++ (c.2.rays.filter (fun r => !r.2.parked)).map (fun r => Instr.traversalRay c.1 r.1)
      ++ (if c.2.want.isSome then [Instr.voltageSettled c.1] else [])
      ++ (if c.2.slots.any (fun x => bit x.2 63) then [Instr.plotDispatch c.1] else []))

/-- The queue that a partition's front end serves next, and rings whose wr it has not seen. -/
def State.dueFront (s : State) : List Instr :=
  s.parts.flatMap (fun p =>
    let n := p.1
    (match s.nextQueue n with
      | none => []
      | some g => match s.queueHead n g with
        | none => []
        | some r => [match r.kind with
          | 0 => Instr.launchAccept n g
          | 1 => Instr.rasterPassAccept n g
          | _ => Instr.frameGraphAccept n g])
      ++ (if !p.2.enabled then []
          else (List.range (bits p.2.ringTable 11 0)).filterMap (fun i => match s.ring? n i with
            | some r => if r.valid && !r.dev && p.2.observed.find? i != some r.wr then some (Instr.frontEndObserveWr n i) else none
            | none => none))
      ++ (p.2.ltab.filter (fun e => s.requests n e.1 && !s.leaving n e.1)).map (fun e => Instr.preemptionRequest n e.1)
      ++ (p.2.ltab.filter (fun e => match s.ticketTurn n e.1 with
          | some (_, w) => w.staging != []
          | none => false)).map (fun e => Instr.ticketRelease n e.1))

/-- Raster passes and frame graphs. -/
def State.dueGraphics (s : State) : List Instr :=
  (s.passes.filter (fun p => !p.2.parked)).flatMap (fun p =>
      (p.2.held.elim (p.2.bins.take 1) (fun b => [b])).map (fun b => Instr.rasterBin p.2.part p.1 b))
    ++ s.graphs.flatMap (fun g =>
      ((List.range g.2.nodes.length).filter (fun n => g.2.nodes.getD n 2 == 0)).map (fun n => Instr.frameNodeReady g.2.part g.1 n))

/-- Grafts, scrubs and feedback filters. -/
def State.dueVersions (s : State) : List Instr :=
  s.grafts.map (fun g => Instr.graftStart g.set)
    ++ (s.tags.filter (fun t => t.2.state == 2)).map (fun t => Instr.scrubTagClean t.1)
    ++ s.cores.flatMap (fun c => ((List.range c.2.filter.length).filter (fun i => match c.2.filter[i]? with
        | some f => decide (f.born + 1024 ≤ s.clock)
        | none => false)).map (fun i => Instr.feedbackFilterTimeout c.1 i))

/-- Operations of the management core that finish. -/
def State.dueSystem (s : State) : List Instr :=
  let y := s.sys
  s.parts.flatMap (fun p =>
    (if cfgHalt p.2.cfg && !cfgHalted p.2.cfg then [Instr.partitionHalted p.1] else [])
      ++ (if !bit p.2.swapCtl 62 then [Instr.swapDone p.1] else []))
    ++ (if y.rebindPend.isSome then [Instr.rebindDone] else [])
    ++ (if !bit y.xlatCtl 126 then [Instr.xlatCtlDone] else [])
    ++ (if !bit y.pageMove 126 then [Instr.pageMoveDone] else [])
    ++ (if !bit y.svc 62 then [Instr.serviceOpDone] else [])

/-- Every internal event that is due. -/
def State.dueEvents (s : State) : List Instr :=
  s.dueResults ++ s.dueLines ++ s.dueWgs ++ s.dueCopies ++ s.dueCols ++ s.dueFront ++ s.dueGraphics ++ s.dueVersions ++ s.dueSystem

/-- The internal event that occurs now, if any is due: any of them may. -/
def State.autoEvent (s : State) : Option Instr :=
  let l := s.dueEvents
  l[(Config.freeNat s.clock + s.clock / 2) % max l.length 1]?

/-- Trap records that a full ring has kept back go to it once it has room (R373). -/
def State.offerTraps (s : State) : State :=
  (s.parts.filter (fun p => p.2.traps.any (fun t => !t.2.stored))).foldl (fun s p => s.flushTraps p.1) s

/-- Words that waited at issue are looked at again: an event may have ended what they wait for (log entry 39). -/
def State.unstall (s : State) : State :=
  if s.wgs.all (fun w => w.2.threads.all (fun t => !t.2.waits)) then s
  else { s with wgs := s.wgs.map (fun w => (w.1, { w.2 with threads := w.2.threads.map (fun t => (t.1, { t.2 with waits := false })) })) }

/-- The end of a step: the values that registers hold are noted, finished launches complete, stretching may end, what is kept for a request
that has ceased is freed, the scrub goes on, faults and traps are reported, terminal responses are taken, and waiting threads are looked
at. -/
def State.finishStep (s : State) : State :=
  s.noteCells.reap.relax.dropKept.scrubStep.reportFaults.offerTraps.deliverTerms.tick

end Sys2Proof.Machine
end

