-- ==== Sys2Proof/Machine/CtlWords.lean ====
section
/-! DEFINITION. The control words of pipe C: branches, calls, EXIT, TRAIL, PHASE, REQUOTA, TRAP and BPT (spec/08, Table 8.3). -/

namespace Sys2Proof.Machine

/-! ## Branches (R179) -/

/-- The byte offset a word offset names, from the word's own address. -/
def branchTo (off : Nat) (w : Nat) (imm : Nat) : Nat := ((off : Int) + 4 * sInt w imm) % 2 ^ 32 |>.toNat

def execBra (h : Hdr) (off : BitVec 21) (s : State) : Step1 :=
  .next (runWord h 1 (fun c s => .goto s c.th.obj (branchTo c.th.off 21 off.toNat)) s)

def execBrc (h : Hdr) (cond : Cond) (off : BitVec 17) (s : State) : Step1 :=
  .next (runWord h 1 (fun c s =>
    if condHolds cond c.view.cc then .goto s c.th.obj (branchTo c.th.off 17 off.toNat) else .next s) s)

/-! ## Calls (R180 to R182, R30, R31) -/

/-- The budget an entry NOP declares (R141). A call looks at the target word alone: one with chain or sw set, or whose ver differs from
that of word 0 of its packet, counts as an entry NOP here, which the spec leaves open (log entry 22). -/
def entryBudget (w : Nat) : Option Nat :=
  if verOf w ≤ 1 ∧ !isExt w ∧ opOf w = 0 ∧ w / 2 ^ 9 % 2 ^ 12 = 0 ∧ w % 2 ^ 9 ≠ 0 ∧ budOk (BitVec.ofNat 9 w) then
    some (w % 2 ^ 9)
  else none

/-- A call to a byte offset of the object that holds it, with the checks of R181; `a` is the flag of a pattern read. A target that cannot
be fetched parks the thread at the call, or traps with cause 17, before any other check. Once the fault is answered by retry the call
issues again as a whole word, its pattern read and its wait for partners anew (log entry 22). -/
def callTo (c : Ctx) (s : State) (a : Option Bool) (target : Nat) : Out :=
  match s.fetchWord c.wg (c.th.obj + target) with
  | .fault va cause =>
    let s := s.modThread c.wk c.idx (fun t => { t with st := .wait, op := some .again })
    .held (s.parkFor (.fetch c.wk [c.idx]) c.wg.part va cause 4 1 c.wg.launch (c.wg.core / 8))
  | .term va sub =>
    .trapAt (s.logTerm sub c.wg.part 0 (s.coreNum c.wg.core) va (some (s.rawPa c.wg.part va))) 17 sub (s.failAddr c.wg.part sub va)
  | .word w =>
    if target % 4 ≠ 0 then .trap 2 0 0
    else
      match entryBudget w.toNat with
      | none => .trap 4 0 0
      | some q =>
        if c.wg.budget c.idx < q then .trap 4 0 0
        else if 32 ≤ c.th.calls.length then .trap 5 0 0
        else
          .goto (s.modThread c.wk c.idx (fun t =>
            { (match a with
                | some x => t.putA x
                | none => t) with calls := ⟨c.th.obj, (c.th.off + 4) % 2 ^ 32⟩ :: t.calls })) c.th.obj target

def execCall (h : Hdr) (off : BitVec 21) (s : State) : Step1 :=
  .next (runWord h 1 (fun c s => callTo c s none (branchTo c.th.off 21 off.toNat)) s)

def execCalli (h : Hdr) (a : Opnd) (b : Option Pat) (s : State) : Step1 :=
  .next (runWord h 1 (fun c s =>
    match c.read1 (.int 32) false a b with
    | .error e => .trap e 0 0
    | .ok r => callTo c s r.a r.x) s)

def execRet (h : Hdr) (s : State) : Step1 :=
  .next (runWord h 1 (fun c s =>
    match c.th.calls with
    | [] => .trap 5 0 0
    | r :: rs => .goto (s.modThread c.wk c.idx (fun t => { t with calls := rs })) r.obj r.off) s)

/-! ## EXIT and TRAIL (R183, R184) -/

def execExit (h : Hdr) (s : State) : Step1 := .next (runWord h 1 (fun _ s => .ends s .exit) s)

/-- A TRAIL name that no register of the thread has: a bad code (R140), or a register above the budget (R33). -/
def TrailName.isBad (budget : Nat) : TrailName → Bool
  | .bad _ => true
  | .v n => decide (budget ≤ n.val)
  | _ => false

def execTrail (h : Hdr) (g0 g1 g2 : TrailName) (s : State) : Step1 :=
  .next (runTrail h 1 (some [g0, g1, g2]) (fun c s =>
    if [g0, g1, g2].any (TrailName.isBad (c.wg.budget c.idx)) then .trap 2 0 0 else .next s) s)

/-! ## PHASE, REQUOTA, TRAP and BPT (R185 to R188, R22, R29) -/

def execPhase (h : Hdr) (n : BitVec 4) (s : State) : Step1 :=
  .next (runWord h 1 (fun c s =>
    let nvar := match s.launch? c.wg.part c.wg.ltab with
      | some l => l.vtab.length
      | none => 0
    if n.toNat = 0 ∨ nvar = 0 then .trap 2 0 0 else .ends s (.phase n.toNat)) s)

def execRequota (h : Hdr) (q : BitVec 9) (s : State) : Step1 :=
  .next (runWord h 1 (fun c s =>
    if q.toNat % 8 ≠ 0 ∨ q.toNat < 16 ∨ c.wg.ceil < q.toNat then .trap 2 0 0 else .ends s (.requota q.toNat)) s)

def execTrap (h : Hdr) (code : BitVec 14) (s : State) : Step1 := .next (runWord h 1 (fun _ _ => .trap 12 0 code.toNat) s)

def execBpt (h : Hdr) (code : BitVec 14) (s : State) : Step1 :=
  .next (runWord h 1 (fun c s => if bit (s.part c.wg.part).cfg 37 then .trap 13 0 code.toNat else .next s) s)

end Sys2Proof.Machine
end

