-- ==== Sys2Proof/Machine/EngineWords.lean ====
section
/-! DEFINITION. The words that hand work to the matrix and traversal engines, MTASK and TRACE (R293, R294), and the shadow words of
Linroth 1 (R233 to R235). -/

namespace Sys2Proof.Machine

/-! ## MTASK (R293) -/

def execMtask (h : Hdr) (d a : Opnd) (s : State) : Step1 :=
  .next (runWord h 1 (fun c s =>
    match (do
      let rs ← c.longDest d 2 2
      let x ← c.src (.int 32) a
      let o ← c.spadOff x 64 64
      pure (rs, o) : Except Nat (List Nat × Nat)) with
    | .error e => .trap e 0 0
    | .ok p =>
      if 8 ≤ c.th.longCount ∨ 256 ≤ (s.col (c.wg.core / 8)).tasks.length then .stall
      else
        releaseFirst c s 3 (fun s =>
          let r := s.acceptTask c.wk c.wg (s.spadGet c.wk p.2 64)
          .next (longPut c r.1 p.1 (halves r.2)))) s)

/-! ## TRACE (R294, R245, R249) -/

/-- The words of a miss: t = +∞ and status 0; u and v of a miss are not stated (R249): free values. -/
def missWords (fresh : Nat) : List Nat :=
  [0x7F800000, (Config.freeWord (2 * fresh)).toNat, (Config.freeWord (2 * fresh + 1)).toNat, 0]

/-- A draw for a thread's word. -/
def drawIndex (c : Ctx) (j : Nat) : Nat := ((c.pre.fresh * 2 ^ 14 + c.wk) * 2 ^ 10 + c.idx) * 8 + j

/-- The words of a ray that an unlocked instruction store ends, one that would miss at once among them (R247): status 3; the other words name no candidate and are free. -/
def unlockedWords (c : Ctx) : List Nat :=
  [(Config.freeWord (drawIndex c 2)).toNat, (Config.freeWord (drawIndex c 3)).toNat, (Config.freeWord (drawIndex c 4)).toNat,
   3 * 2 ^ 29 + (Config.freeWord (drawIndex c 5)).toNat % 2 ^ 24]

/-- A ray that misses at once: a NaN in its block, or tmin above tmax. -/
def rayMisses (block : List Nat) : Bool :=
  block.any (fun x => (fmtValue .f32 x).isNan) || XR.lt (fmtValue .f32 (block.getD 7 0)) (fmtValue .f32 (block.getD 6 0))

def execTrace (h : Hdr) (d a b : Opnd) (s : State) : Step1 :=
  .next (runWord h 1 (fun c s =>
    match (do
      let rs ← c.longDest d 4 4
      let bs ← c.longDest a 8 1
      let vs ← bs.mapM c.readV
      let x ← c.src (.int 32) b
      if x / 2 ^ 16 ≠ 0 then .error 2
      pure (rs, vs.map BitVec.toNat, x) : Except Nat (List Nat × List Nat × Nat)) with
    | .error e => .trap e 0 0
    | .ok p =>
      let rcd := s.slot c.wg (bits p.2.2 3 0)
      if !bit (recRights rcd) 0 then .trap 7 0 0
      else if 8 ≤ c.th.longCount then .stall
      else
        match c.engineGate with
        | .wait => .stall
        | .discard => .next s
        | .go =>
          if !bit (s.col (c.wg.core / 8)).cfg 17 then .next (longPut c s p.1 (unlockedWords c))
          else if rayMisses p.2.1 then .next (longPut c s p.1 (missWords (drawIndex c 0)))
          else
            let e := pendOf c.th.freshId false p.1 []
            let s := s.modThread c.wk c.idx (fun t => t.addPend { e with vals := none })
            let r : Ray := ⟨c.wk, c.idx, c.th.freshId, c.wg.part, c.wg.tag, rcd, p.2.1.map (BitVec.ofNat 32),
              bits p.2.2 15 4 + 1, false, c.th.obj, c.th.off, c.pre.fresh⟩
            .next (s.modCol (c.wg.core / 8) (fun k =>
              { k with rays := k.rays.put (k.rays.freshKey (k.rays.length + 1) 0) r }))) s)

/-! ## Shadow words (R233 to R235) -/

/-- The stream that a shadow word names. -/
def Ctx.shadowStream (c : Ctx) (a : Opnd) : Except Nat Nat := do
  let x ← c.src (.int 32) a
  if 63 < x then .error 2
  pure x

def execShbegin (h : Hdr) (a : Opnd) (s : State) : Step1 :=
  .next (runWord h 1 (fun c s =>
    match c.shadowStream a with
    | .error e => .trap e 0 0
    | .ok n =>
      let x := s.stream c.wg.part n
      if x.shadow then .trap 2 0 0 else .next (s.setStream c.wg.part n { x with shadow := true })) s)

/-- A commit waits at issue for the fault or the host that a result of the shadow meets: the access is the task's (R231, R235). -/
def State.holdCommit (s : State) (c : Ctx) (t : Task) (h : Held1) : State :=
  let who : Waiter := .task t.part (tkStream t.rcd) t.num
  let s := if s.parked.any (fun p => decide (p.2.who = who)) || s.snoops.any (fun p => decide (p.2.who = who)) then s
    else s.engineWait t.req who 4 h
  s.modThread c.wk c.idx Thread.stalled

/-- SHCOMMIT. It waits at issue until every shadowed task has run and every result can be written: what other threads hand in meanwhile is
shadowed too, since the spec does not say when the commit counts as accepted (DESIGN CHOICE, log entry 49). -/
def execShcommit (h : Hdr) (a : Opnd) (s : State) : Step1 :=
  .next (runWord h 1 (fun c s =>
    match c.shadowStream a with
    | .error e => .trap e 0 0
    | .ok n =>
      releaseFirst c s 3 (fun s =>
        let x := s.stream c.wg.part n
        if !x.shadow then .next s
        else if s.shadowWaiting c.wg.part n != [] then .stall
        else
          match s.shadowHeld x with
          | some (t, h) => .held (s.holdCommit c t h)
          | none => .next (s.shadowCommit c.wg.part n))) s)

def execShdrop (h : Hdr) (a : Opnd) (s : State) : Step1 :=
  .next (runWord h 1 (fun c s =>
    match c.shadowStream a with
    | .error e => .trap e 0 0
    | .ok n =>
      releaseFirst c s 3 (fun s => .next (if (s.stream c.wg.part n).shadow then s.shadowDrop c.wg.part n else s))) s)

end Sys2Proof.Machine
end

