-- ==== Sys2Proof/Machine/FloatWords.lean ====
section
/-! DEFINITION. The scalar floating-point words, the special functions and the conversions (spec/09, R190 to R203). -/

namespace Sys2Proof.Machine

/-- The format of a scalar or packed float type. -/
def fmtOf (t : Ty) : FFmt :=
  match t with
  | .f16 => .f16
  | .bf16 => .bf16
  | .e4m3 => .e4m3
  | .e5m2 => .e5m2
  | _ => .f32

def rmOf (m : Option Mod) : Rm :=
  match m with
  | some x => x.rm
  | none => .rne

/-- A type and .sat that the word's row accepts, else the illegal-operand trap (Table 9.2). -/
def floatCheck (row : FloatRow) (m : Option Mod) : Except Nat Unit :=
  match m with
  | some x => if row.tyOk x then .ok () else .error 2
  | none => .ok ()

/-- The random operand of .sr, read as bits (R119, R192); zero in the other modes. -/
def Ctx.random (c : Ctx) (m : Option Mod) : Except Nat Nat :=
  match m with
  | some x => if x.rm = .sr then c.src (.int 32) x.c else .ok 0
  | none => .ok 0

/-- The addend: c where cuse is set, else the old value of d (R192). -/
def Ctx.addend (c : Ctx) (e : Elem) (d : Opnd) (m : Option Mod) : Except Nat Nat := c.third e d m

/-- A float result of a word, with the flags of R123 where it is a .cc form. -/
def floatResult (f : FFmt) (enc : Nat) (v cc : Bool) (a : Option Bool) : Result :=
  ⟨some enc, if cc then some (flagsFloat f enc v) else none, a⟩

/-! ## Arithmetic (R195 to R198) -/

/-- The exact value of an arithmetic word from its operands and addend. -/
abbrev Exact := Rm → XR → XR → XR → XR

def exactAdd : Exact := fun rm x y _ => XR.add rm x y
def exactSub : Exact := fun rm x y _ => XR.add rm x y.negate
def exactMul : Exact := fun _ x y _ => XR.mul x y
def exactFma : Exact := fun rm x y z => XR.add rm (XR.mul x y) z

/-- One rounded arithmetic result in a format, with V (R195, R123). `ops` lists the operands the word reads. -/
def arith1 (f : FFmt) (rm : Rm) (sat : Bool) (rnd k : Nat) (e : XR) (ops : List XR) : Nat × Bool :=
  let r := roundTo f rm sat rnd k e
  (r.enc, arithV r.ovf ops e (fmtValue f r.enc))

/-- FADD, FSUB, FMUL and FMA. -/
def arithWord (row : FloatRow) (fma : Bool) (g : Exact) (h : Hdr) (d a b : Opnd) (m : Option Mod) (s : State) : State :=
  let f := fmtOf (tyOf m .f32)
  runWord h (lenOf m) (shortWord (some d) false (fun c => do
    floatCheck row m
    let r ← c.read2 (.flt f) false a b
    let z ← if fma then c.addend (.flt f) d m else .ok 0
    let rnd ← c.random m
    let x := fmtValue f r.1
    let y := fmtValue f r.2.1
    let w := fmtValue f z
    let q := arith1 f (rmOf m) (satOf m) (rnd % 2 ^ 16) 16 (g (rmOf m) x y w) (if fma then [x, y, w] else [x, y])
    pure (floatResult f q.1 q.2 (ccOf m) r.2.2))) s

def execFadd (h : Hdr) (d a b : Opnd) (m : Option Mod) (s : State) : Step1 :=
  .next (arithWord .arith false exactAdd h d a b m s)

def execFsub (h : Hdr) (d a b : Opnd) (m : Option Mod) (s : State) : Step1 :=
  .next (arithWord .arith false exactSub h d a b m s)

def execFmul (h : Hdr) (d a b : Opnd) (m : Option Mod) (s : State) : Step1 :=
  .next (arithWord .arith false exactMul h d a b m s)

def execFma (h : Hdr) (d a b : Opnd) (m : Option Mod) (s : State) : Step1 :=
  .next (arithWord .fma true exactFma h d a b m s)

/-- FMIN and FMAX. V is 0, as R196 says of these words, also where a NaN operand gives a number (log entry 41). -/
def minmaxWord (isMax : Bool) (h : Hdr) (d a b : Opnd) (m : Option Mod) (s : State) : State :=
  let f := fmtOf (tyOf m .f32)
  runWord h (lenOf m) (shortWord (some d) false (fun c => do
    floatCheck .plain m
    let r ← c.read2 (.flt f) false a b
    let w := 2 ^ fmtWidth f
    pure (floatResult f (fminmax f isMax (r.1 % w) (r.2.1 % w)) false (ccOf m) r.2.2))) s

def execFmin (h : Hdr) (d a b : Opnd) (m : Option Mod) (s : State) : Step1 := .next (minmaxWord false h d a b m s)
def execFmax (h : Hdr) (d a b : Opnd) (m : Option Mod) (s : State) : Step1 := .next (minmaxWord true h d a b m s)

def execFcmp (h : Hdr) (ty : Ty) (a b : Opnd) (s : State) : Step1 :=
  let f := fmtOf ty
  .next (runWord h 1 (shortWord none false (fun c => do
    modCheck Ty.floats [] ty false
    let r ← c.read2 (.flt f) false a b
    pure ⟨none, some (fcmpFlags (fmtValue f r.1) (fmtValue f r.2.1)), r.2.2⟩)) s)

/-- A one-source short word of a float format, from encoding to encoding, with V = 0 (R197, R203). -/
def floatOne (row : FloatRow) (g : FFmt → Rm → Nat → Nat) (h : Hdr) (d a : Opnd) (b : Option Pat) (m : Option Mod) (s : State) :
    State :=
  let f := fmtOf (tyOf m .f32)
  runWord h (lenOf m) (shortWord (some d) false (fun c => do
    floatCheck row m
    let r ← c.read1 (.flt f) false a b
    pure (floatResult f (g f (rmOf m) (r.x % 2 ^ fmtWidth f)) false (ccOf m) r.a))) s

def execFabs (h : Hdr) (d a : Opnd) (b : Option Pat) (m : Option Mod) (s : State) : Step1 :=
  .next (floatOne .plain (fun f _ x => x % 2 ^ (fmtWidth f - 1)) h d a b m s)

def execFneg (h : Hdr) (d a : Opnd) (b : Option Pat) (m : Option Mod) (s : State) : Step1 :=
  .next (floatOne .plain (fun f _ x => x ^^^ 2 ^ (fmtWidth f - 1)) h d a b m s)

/-- FRND: an integral value in the same format (R203). -/
def frnd (f : FFmt) (rm : Rm) (x : Nat) : Nat :=
  match fmtValue f x with
  | .nan => (fmtNan f).getD 0
  | .inf _ => x
  | .fin n p q =>
    if p ≥ q * 2 ^ fmtMant f then x
    else
      let i := (roundInt rm 0 0 (.fin n p q)).natAbs
      if i = 0 then fmtSign f n else roundRne f (.fin n i 1)

def execFrnd (h : Hdr) (d a : Opnd) (b : Option Pat) (m : Option Mod) (s : State) : Step1 :=
  .next (floatOne .fsqrt frnd h d a b m s)

/-! ## Special functions (R199, R200): class L -/

/-- A word that reads partners issues for whole teams (R12): it waits at issue while a thread of the team in the group holds as many
outstanding words as it may (R137). -/
def Ctx.teamStalls (c : Ctx) : Bool :=
  c.pre.group.any (fun id => id.1 == c.wk && teamOf id.2 == teamOf c.idx
    && (c.wg.threads.find? id.2).any (fun t => decide (8 ≤ t.longCount)))

/-- A long word of one register whose value, flags and A are known at issue; it lands as one unit (R137, R138). -/
def longWord (d : Opnd) (f : Ctx → Except Nat Result) (c : Ctx) (s : State) : Out :=
  match (do
    let rs ← c.longDest d 1 1
    let x ← f c
    pure (rs, x) : Except Nat (List Nat × Result)) with
  | .error e => .trap e 0 0
  | .ok p =>
    if 8 ≤ c.th.longCount ∨ (p.2.a.isSome ∧ c.teamStalls = true) then .stall
    else
      let e := pendOf c.th.freshId false p.1 [p.2.val.getD 0]
      let fl := p.2.flags.getD ⟨false, false, false, false⟩
      .next (s.modThread c.wk c.idx (fun t => t.addPend
        { e with ccDest := p.2.flags.isSome || p.2.a.isSome, ccF := p.2.flags.isSome, ccA := p.2.a.isSome,
                 ccVal := some ⟨fl.c, fl.z, fl.n, fl.v, p.2.a.getD false⟩ }))

/-- A special-function word. V is 1 only on overflow, as R199 says of these words, so an invalid source leaves it 0 (log entry 41). -/
def specialWord (row : FloatRow) (g : SFn) (h : Hdr) (d a : Opnd) (b : Option Pat) (m : Option Mod) (s : State) : State :=
  let f := fmtOf (tyOf m .f32)
  runWord h (lenOf m) (longWord d (fun c => do
    floatCheck row m
    let r ← c.read1 (.flt f) false a b
    let q := special g f (rmOf m) (fmtValue f r.x)
    pure (floatResult f q.enc q.ovf (ccOf m) r.a))) s

def execFrcp (h : Hdr) (d a : Opnd) (b : Option Pat) (m : Option Mod) (s : State) : Step1 :=
  .next (specialWord .plain .rcp h d a b m s)

def execFrsq (h : Hdr) (d a : Opnd) (b : Option Pat) (m : Option Mod) (s : State) : Step1 :=
  .next (specialWord .plain .rsq h d a b m s)

def execFsqrt (h : Hdr) (d a : Opnd) (b : Option Pat) (m : Option Mod) (s : State) : Step1 :=
  .next (specialWord .fsqrt .sqrt h d a b m s)

def execFexp2 (h : Hdr) (d a : Opnd) (b : Option Pat) (m : Option Mod) (s : State) : Step1 :=
  .next (specialWord .plain .exp2 h d a b m s)

def execFlog2 (h : Hdr) (d a : Opnd) (b : Option Pat) (m : Option Mod) (s : State) : Step1 :=
  .next (specialWord .plain .log2 h d a b m s)

def execFsin (h : Hdr) (d a : Opnd) (b : Option Pat) (m : Option Mod) (s : State) : Step1 :=
  .next (specialWord .plain .sin h d a b m s)

def execFcos (h : Hdr) (d a : Opnd) (b : Option Pat) (m : Option Mod) (s : State) : Step1 :=
  .next (specialWord .plain .cos h d a b m s)

/-! ## Conversions (R201, R202) -/

/-- The slot an integer format's element takes in a register. -/
def intSlot (f : IFmt) : Nat := intWidth f

/-- The element kind of a conversion's source (R201). -/
def srcElemF (f : FFmt) : Elem := if slotWidth f = 32 then .flt f else .packFlt f
def srcElemI (f : IFmt) : Elem := if intWidth f = 32 then .int 32 else .packInt (intWidth f)

/-- The sub-element index of a conversion. -/
def indexOf (m : Option Mod) : Nat := (m.map (fun x => x.cond.val)).getD 0

/-- The index is below the sub-element count of a side whose elements take `w` bits, when the side is narrow (R201). -/
def indexOk (i w : Nat) : Bool := w == 32 || decide (i < 32 / w)

/-- A conversion: `src` gives the exact value of the source register's element, `conv` the encoding and V. -/
def convWord (se : Elem) (sw dw : Nat) (src : Nat → XR) (conv : Nat → XR → Except Nat Converted) (flags : Converted → Flags4)
    (h : Hdr) (d a : Opnd) (m : Option Mod) (s : State) : State :=
  let i := indexOf m
  runWord h (lenOf m) (shortWord (some d) false (fun c => do
    floatCheck .cvt m
    if !(indexOk i sw && indexOk i dw) then .error 2
    let x ← c.src se a
    let rnd ← c.random m
    let old ← if dw = 32 then .ok 0 else c.src (.int 32) d
    let y ← conv (rnd % 2 ^ 16) (src (if sw = 32 then x else x / 2 ^ (sw * i) % 2 ^ sw))
    let res := if dw = 32 then y.enc else setBits old (dw * i + dw - 1) (dw * i) y.enc
    pure ⟨some res, if ccOf m then some (flags y) else none, none⟩)) s

/-- Conversion into a float format; into e8m0 under .rtz or .rup only (R122). A value already of the format is exact; an e4m3
NaN of the same format stays a NaN (R202). -/
def convFloat (same : Bool) (df : FFmt) (rm : Rm) (sat : Bool) (rnd : Nat) (x : XR) : Except Nat Converted :=
  if df = .e8m0 then
    (match rm with
      | .rtz => .ok (toE8m0 false sat x)
      | .rup => .ok (toE8m0 true sat x)
      | _ => .error 2)
  else if same && x.isNan then .ok ⟨(fmtNan df).getD 0, false⟩
  else .ok (toFloat df rm sat rnd x)

/-- Z, N and C from a converted float. -/
def convFlagsF (df : FFmt) (y : Converted) : Flags4 := flagsFloat df y.enc y.v

/-- Z and N from a converted integer: negative only in a signed format (R123). -/
def convFlagsI (df : IFmt) (y : Converted) : Flags4 :=
  ⟨false, y.enc == 0, intSigned df && bit y.enc (intWidth df - 1), y.v⟩

def execFcvt (h : Hdr) (d a : Opnd) (df sf : FFmt) (m : Option Mod) (s : State) : Step1 :=
  .next (convWord (srcElemF sf) (slotWidth sf) (slotWidth df) (fmtValue sf)
    (convFloat (df == sf) df (rmOf m) (satOf m)) (convFlagsF df) h d a m s)

def execI2f (h : Hdr) (d a : Opnd) (df : FFmt) (sf : IFmt) (m : Option Mod) (s : State) : Step1 :=
  .next (convWord (srcElemI sf) (intSlot sf) (slotWidth df) (fun x => .ofInt (intValue sf x))
    (convFloat false df (rmOf m) (satOf m)) (convFlagsF df) h d a m s)

def execF2i (h : Hdr) (d a : Opnd) (df : IFmt) (sf : FFmt) (m : Option Mod) (s : State) : Step1 :=
  .next (convWord (srcElemF sf) (slotWidth sf) (intSlot df) (fmtValue sf)
    (fun rnd x => .ok (toInteger df (rmOf m) rnd x)) (convFlagsI df) h d a m s)

end Sys2Proof.Machine
end

