-- ==== Sys2Proof/Machine/LaneWords.lean ====
section
/-! DEFINITION. The cross-lane words RED, SCAN, BALLOT and MATCH (spec/09, R208 to R213, R128). -/

namespace Sys2Proof.Machine

/-- The context of a team partner in a lane; none where it has exited or is missing. -/
def Ctx.partnerCtx (c : Ctx) (lane : Nat) : Option Ctx :=
  (c.partner lane).map (fun t => { c with idx := teamOf c.idx * Config.laneWidth + lane, th := t })

/-- Every lane's operand, zero from a lane that is not live (R209), and whether every lane is live. -/
def Ctx.teamRead (c : Ctx) (f : Ctx → Except Nat Nat) : Except Nat (List Nat × Bool) :=
  (List.range Config.laneWidth).foldlM (fun (p : List Nat × Bool) l =>
    match c.partnerCtx l with
    | some q => (f q).map (fun x => (p.1 ++ [x], p.2))
    | none => .ok (p.1 ++ [0], false)) ([], true)

/-- op_ty of R210. -/
def redOp (fn : RedFn) (ty : RedTy) (x y : Nat) : Nat :=
  match fn, ty with
  | .add, .f32 => roundRne .f32 (XR.add .rne (fmtValue .f32 x) (fmtValue .f32 y))
  | .add, _ => (x + y) % 2 ^ 32
  | .min, .f32 => fminmax .f32 false x y
  | .min, .s32 => if sInt 32 y < sInt 32 x then y else x
  | .min, _ => min x y
  | .max, .f32 => fminmax .f32 true x y
  | .max, .s32 => if sInt 32 x < sInt 32 y then y else x
  | .max, _ => max x y
  | .maxi, .f32 => maxi .f32 x y
  | .maxi, .s32 => maxi .s32 x y
  | .maxi, _ => maxi .z32 x y
  | .and, _ => x &&& y
  | .or, _ => x ||| y

/-- The tree of R128 over the team's values. -/
def redTree (op : Nat → Nat → Nat) (xs : List Nat) : List Nat :=
  (List.range Config.lwlog).foldl (fun xs j =>
    xs.zipIdx.map (fun p => op p.1 (xs.getD (p.2 ^^^ (Config.laneWidth / 2 ^ (j + 1))) 0))) xs

/-- The prefixes of R211, inclusive. -/
def scanTree (op : Nat → Nat → Nat) (xs : List Nat) : List Nat :=
  (List.range Config.lwlog).foldl (fun xs j =>
    xs.zipIdx.map (fun p => if 2 ^ j ≤ p.2 then op (xs.getD (p.2 - 2 ^ j) 0) p.1 else p.1)) xs

/-- The identities of R211. -/
def scanId (fn : RedFn) (ty : RedTy) : Nat :=
  match fn, ty with
  | .min, .s32 => 0x7FFFFFFF
  | .min, .z32 => 0xFFFFFFFF
  | .min, _ => 0x7FC00000
  | .max, .s32 => 0x80000000
  | .max, .z32 => 0
  | .max, _ => 0x7FC00000
  | .and, _ => 0xFFFFFFFF
  | _, _ => 0

/-- The element kind of operand a. -/
def redElem (ty : RedTy) : Elem := if ty = .f32 then .flt .f32 else .int 32

/-- A cross-lane word: `n` destination registers, the value, and whether a lane was not live (R43, R208). -/
def laneWord (d : Opnd) (n : Nat) (f : Ctx → Except Nat (Nat × Bool)) (c : Ctx) (s : State) : Out :=
  match (do
    let rs ← c.longDest d n n
    let x ← f c
    pure (rs, x) : Except Nat (List Nat × Nat × Bool)) with
  | .error e => .trap e 0 0
  | .ok p =>
    if 8 ≤ c.th.longCount ∨ c.teamStalls = true then .stall
    else
      let e := pendOf c.th.freshId false p.1 [p.2.1 % 2 ^ 32, p.2.1 / 2 ^ 32]
      .next (s.modThread c.wk c.idx (fun t => t.addPend
        { e with ccDest := true, ccA := true, ccVal := some ⟨false, false, false, false, p.2.2⟩ }))

/-- RED (R210). An inline constant named as the key pair of .maxi is the 64-bit two's-complement integer of Table 2.5 for every type: R46
gives no key form for it (log entry 42). -/
def execRed (h : Hdr) (d a : Opnd) (fn : RedFn) (ty : RedTy) (s : State) : Step1 :=
  let n := if fn = .maxi then 2 else 1
  .next (runWord h 1 (laneWord d n (fun c => do
    let r ← c.teamRead (fun q => if fn = .maxi then q.src64 a else q.src (redElem ty) a)
    pure ((redTree (redOp fn ty) r.1).getD (laneOf c.idx) 0, !r.2))) s)

def execScan (h : Hdr) (d a : Opnd) (fn : RedFn) (excl : Bool) (ty : RedTy) (s : State) : Step1 :=
  .next (runWord h 1 (laneWord d 1 (fun c => do
    let r ← c.teamRead (fun q => q.src (redElem ty) a)
    let xs := scanTree (redOp fn ty) r.1
    let l := laneOf c.idx
    pure (if !excl then xs.getD l 0 else if l = 0 then scanId fn ty else xs.getD (l - 1) 0, !r.2))) s)

/-- The lane group of a thread: 64 lanes, or the whole team (R208). -/
def laneGroup (idx : Nat) : List Nat := (List.range Config.laneWidth).filter (fun l => l / 64 == laneOf idx / 64)

/-- The mask of the lane group's live lanes that meet a test, and whether a lane is not live. -/
def Ctx.groupMask (c : Ctx) (p : Ctx → Except Nat Bool) : Except Nat (Nat × Bool) :=
  (laneGroup c.idx).foldlM (fun (r : Nat × Bool) l =>
    match c.partnerCtx l with
    | some q => (p q).map (fun b => (r.1 + bnat b * 2 ^ (l % 64), r.2))
    | none => .ok (r.1, true)) (0, false)

def execBallot (h : Hdr) (d : Opnd) (cond : Cond) (s : State) : Step1 :=
  .next (runWord h 1 (laneWord d 2 (fun c => c.groupMask (fun q => .ok (condHolds cond q.view.cc)))) s)

def execMatchLanes (h : Hdr) (d a : Opnd) (s : State) : Step1 :=
  .next (runWord h 1 (laneWord d 2 (fun c => do
    let own ← c.src (.int 32) a
    c.groupMask (fun q => (q.src (.int 32) a).map (fun x => x == own)))) s)

end Sys2Proof.Machine
end

