-- ==== Sys2Proof/Machine/PackWords.lean ====
section
/-! DEFINITION. The packed words and the dot products (spec/09, R204 to R207). -/

namespace Sys2Proof.Machine

/-- Sub-element `j` of width `w`. -/
def sub (w x j : Nat) : Nat := x / 2 ^ (w * j) % 2 ^ w

/-- `n` sub-elements of width `w`, each with its flags: the register and the merged flags (R124). -/
def packed (w n : Nat) (g : Nat → Nat × Flags4) : Nat × Flags4 :=
  let l := (List.range n).map g
  ((l.zipIdx.map (fun p => p.1.1 % 2 ^ w * 2 ^ (w * p.2))).foldl (· + ·) 0, flagsOr (l.map (·.2)))

/-- A float sub-element's result with its flags. -/
def floatSub (f : FFmt) (q : Nat × Bool) : Nat × Flags4 := (q.1, flagsFloat f q.1 q.2)

/-- HADD2, HMUL2 and HFMA2 (R204). -/
def halfWord (row : FloatRow) (fma : Bool) (g : Exact) (h : Hdr) (d a b : Opnd) (m : Option Mod) (s : State) : State :=
  let f := fmtOf (tyOf m .f16)
  runWord h (lenOf m) (shortWord (some d) false (fun c => do
    floatCheck row m
    let r ← c.read2 (.packFlt f) false a b
    let z ← if fma then c.addend (.packFlt f) d m else .ok 0
    let rnd ← c.random m
    let p := packed 16 2 (fun j =>
      let x := fmtValue f (sub 16 r.1 j)
      let y := fmtValue f (sub 16 r.2.1 j)
      let w := fmtValue f (sub 16 z j)
      floatSub f (arith1 f (rmOf m) (satOf m) (sub 16 rnd j) 16 (g (rmOf m) x y w) (if fma then [x, y, w] else [x, y])))
    pure ⟨some p.1, if ccOf m then some p.2 else none, r.2.2⟩)) s

def execHadd2 (h : Hdr) (d a b : Opnd) (m : Option Mod) (s : State) : Step1 :=
  .next (halfWord .half false exactAdd h d a b m s)

def execHmul2 (h : Hdr) (d a b : Opnd) (m : Option Mod) (s : State) : Step1 :=
  .next (halfWord .half false exactMul h d a b m s)

def execHfma2 (h : Hdr) (d a b : Opnd) (m : Option Mod) (s : State) : Step1 :=
  .next (halfWord .halfAdd true exactFma h d a b m s)

/-- FDOT2: one rounding of the exact a0·b0 + a1·b1 + acc (R205). -/
def execFdot2 (h : Hdr) (d a b : Opnd) (m : Option Mod) (s : State) : Step1 :=
  let f := fmtOf (tyOf m .f16)
  .next (runWord h (lenOf m) (shortWord (some d) false (fun c => do
    floatCheck .halfAdd m
    let r ← c.read2 (.packFlt f) false a b
    let z ← c.addend (.flt .f32) d m
    let rnd ← c.random m
    let v (x j : Nat) : XR := fmtValue f (sub 16 x j)
    let acc := fmtValue .f32 z
    let e := xsum (rmOf m) [XR.mul (v r.1 0) (v r.2.1 0), XR.mul (v r.1 1) (v r.2.1 1), acc]
    let q := arith1 .f32 (rmOf m) (satOf m) (rnd % 2 ^ 16) 16 e [v r.1 0, v r.2.1 0, v r.1 1, v r.2.1 1, acc]
    pure (floatResult .f32 q.1 q.2 (ccOf m) r.2.2))) s)

/-! ## Four 8-bit sub-elements (R206) -/

/-- The format of a packed integer type. -/
def packInt (t : Ty) : Option IFmt :=
  match t with
  | .s8 => some .s8
  | .z8 => some .z8
  | _ => none

/-- An exact integer into an 8-bit format: modulo 256, or clamped, with V. -/
def packFit (f : IFmt) (sat : Bool) (e : Int) : Nat × Flags4 :=
  let c := clampInt (intMin f) (intMax f) e
  let r := wrapInt 8 (if sat then c else e)
  (r, ⟨false, r == 0, intSigned f && bit r 7, decide (c ≠ e)⟩)

/-- A word of four 8-bit sub-elements: `fi` on integers, `ff` on floats. -/
def pack4Word (row : FloatRow) (fi : IFmt → Int → Int → Int) (ff : FFmt → Nat → Nat → Nat → Nat × Bool) (h : Hdr) (d a b : Opnd)
    (m : Option Mod) (s : State) : State :=
  let t := tyOf m .e4m3
  runWord h (lenOf m) (shortWord (some d) false (fun c => do
    floatCheck row m
    let e : Elem := match packInt t with
      | some _ => .packInt 8
      | none => .packFlt (fmtOf t)
    let r ← c.read2 e false a b
    let rnd ← c.random m
    let p := packed 8 4 (fun j =>
      let x := sub 8 r.1 j
      let y := sub 8 r.2.1 j
      match packInt t with
      | some f => packFit f (satOf m) (fi f (intValue f x) (intValue f y))
      | none => floatSub (fmtOf t) (ff (fmtOf t) (sub 8 rnd j) x y))
    pure ⟨some p.1, if ccOf m then some p.2 else none, r.2.2⟩)) s

/-- Float arithmetic on two 8-bit sub-elements with 8 random bits. -/
def packArith (g : Exact) (m : Option Mod) (f : FFmt) (rnd x y : Nat) : Nat × Bool :=
  let u := fmtValue f x
  let w := fmtValue f y
  arith1 f (rmOf m) (satOf m) rnd 8 (g (rmOf m) u w .zero) [u, w]

def execPadd4 (h : Hdr) (d a b : Opnd) (m : Option Mod) (s : State) : Step1 :=
  .next (pack4Word .pack (fun _ x y => x + y) (packArith exactAdd m) h d a b m s)

def execPmul4 (h : Hdr) (d a b : Opnd) (m : Option Mod) (s : State) : Step1 :=
  .next (pack4Word .pack (fun _ x y => x * y) (packArith exactMul m) h d a b m s)

/-- PMIN4: V is 0 in each float sub-element, as R196 says; the table of R206 names R123 (log entry 41). -/
def execPmin4 (h : Hdr) (d a b : Opnd) (m : Option Mod) (s : State) : Step1 :=
  .next (pack4Word .packMin (fun _ x y => min x y) (fun f _ x y => (fminmax f false x y, false)) h d a b m s)

/-- PMAX4: V as for PMIN4. -/
def execPmax4 (h : Hdr) (d a b : Opnd) (m : Option Mod) (s : State) : Step1 :=
  .next (pack4Word .packMin (fun _ x y => max x y) (fun f _ x y => (fminmax f true x y, false)) h d a b m s)

/-! ## Integer dot products (R207, R125, R148) -/

/-- Element `j` of width `w`, signed or not. -/
def dotElem (w : Nat) (signed : Bool) (x j : Nat) : Int := if signed then sInt w (sub w x j) else sub w x j

/-- DOT4 and DOT8: the pair code stands in MOD.type. -/
def dotWord (w : Nat) (h : Hdr) (d a b : Opnd) (m : Option Mod) (s : State) : State :=
  let pc := (tyOf m .b32).code
  let sa := pc == 0 || pc == 1
  let sb := pc == 0 || pc == 2
  runWord h (lenOf m) (shortWord (some d) false (fun c => do
    let r ← c.read2 (.packInt w) false a b
    let acc ← c.src (.int 32) d
    let prods := (List.range (32 / w)).map (fun j => dotElem w sa r.1 j * dotElem w sb r.2.1 j)
    let q := dotAcc (satOf m) acc prods
    pure ⟨some q.1, if ccOf m then some (flagsOf 32 q.1 false q.2) else none, r.2.2⟩)) s

def execDot4 (h : Hdr) (d a b : Opnd) (m : Option Mod) (s : State) : Step1 := .next (dotWord 8 h d a b m s)
def execDot8 (h : Hdr) (d a b : Opnd) (m : Option Mod) (s : State) : Step1 := .next (dotWord 4 h d a b m s)

end Sys2Proof.Machine
end

