-- ==== Sys2Proof/Machine/Dispatch.lean ====
section
/-! DEFINITION. One arm per instruction: each is the meaning of its own definition. -/

namespace Sys2Proof.Machine

/-- What an instruction does. -/
def exec (i : Instr) (s : State) : Host.Outcome State Fault Refusal :=
  match i with
  | .nop h bud => Sys2Proof.Machine.execNop h bud s
  | .add h d a b m => Sys2Proof.Machine.execAdd h d a b m s
  | .sub h d a b m => Sys2Proof.Machine.execSub h d a b m s
  | .addc h d a b m => Sys2Proof.Machine.execAddc h d a b m s
  | .subb h d a b m => Sys2Proof.Machine.execSubb h d a b m s
  | .mul h d a b m => Sys2Proof.Machine.execMul h d a b m s
  | .mulhiS32 h d a b m => Sys2Proof.Machine.execMulhiS32 h d a b m s
  | .mulhiZ32 h d a b m => Sys2Proof.Machine.execMulhiZ32 h d a b m s
  | .mad h d a b m => Sys2Proof.Machine.execMad h d a b m s
  | .shl h d a b m => Sys2Proof.Machine.execShl h d a b m s
  | .shr h d a b m => Sys2Proof.Machine.execShr h d a b m s
  | .sar h d a b m => Sys2Proof.Machine.execSar h d a b m s
  | .rot h d a b m => Sys2Proof.Machine.execRot h d a b m s
  | .and h d a b m => Sys2Proof.Machine.execAnd h d a b m s
  | .or h d a b m => Sys2Proof.Machine.execOr h d a b m s
  | .xor h d a b m => Sys2Proof.Machine.execXor h d a b m s
  | .andn h d a b m => Sys2Proof.Machine.execAndn h d a b m s
  | .minS32 h d a b m => Sys2Proof.Machine.execMinS32 h d a b m s
  | .minZ32 h d a b m => Sys2Proof.Machine.execMinZ32 h d a b m s
  | .maxS32 h d a b m => Sys2Proof.Machine.execMaxS32 h d a b m s
  | .maxZ32 h d a b m => Sys2Proof.Machine.execMaxZ32 h d a b m s
  | .sel h d a b m => Sys2Proof.Machine.execSel h d a b m s
  | .cmp h ty a b => Sys2Proof.Machine.execCmp h ty a b s
  | .tst h ty a b => Sys2Proof.Machine.execTst h ty a b s
  | .clz h d a b m => Sys2Proof.Machine.execClz h d a b m s
  | .popc h d a b m => Sys2Proof.Machine.execPopc h d a b m s
  | .brev h d a b m => Sys2Proof.Machine.execBrev h d a b m s
  | .bfx h d a b m => Sys2Proof.Machine.execBfx h d a b m s
  | .bfi h d a b m => Sys2Proof.Machine.execBfi h d a b m s
  | .abs h d a b m => Sys2Proof.Machine.execAbs h d a b m s
  | .neg h d a b m => Sys2Proof.Machine.execNeg h d a b m s
  | .mov h d a b m => Sys2Proof.Machine.execMov h d a b m s
  | .movi h d imm => Sys2Proof.Machine.execMovi h d imm s
  | .moviImm h d imm hi => Sys2Proof.Machine.execMoviImm h d imm hi s
  | .movhi h d imm => Sys2Proof.Machine.execMovhi h d imm s
  | .xset h j len base => Sys2Proof.Machine.execXset h j len base s
  | .xld h d j idx => Sys2Proof.Machine.execXld h d j idx s
  | .xst h src j idx => Sys2Proof.Machine.execXst h src j idx s
  | .kset h d a b => Sys2Proof.Machine.execKset h d a b s
  | .sread h d n => Sys2Proof.Machine.execSread h d n s
  | .bra h off => Sys2Proof.Machine.execBra h off s
  | .brc h cond off => Sys2Proof.Machine.execBrc h cond off s
  | .call h off => Sys2Proof.Machine.execCall h off s
  | .calli h a b => Sys2Proof.Machine.execCalli h a b s
  | .ret h => Sys2Proof.Machine.execRet h s
  | .exit h => Sys2Proof.Machine.execExit h s
  | .trail h g0 g1 g2 => Sys2Proof.Machine.execTrail h g0 g1 g2 s
  | .phase h n => Sys2Proof.Machine.execPhase h n s
  | .requota h q => Sys2Proof.Machine.execRequota h q s
  | .trap h code => Sys2Proof.Machine.execTrap h code s
  | .bpt h code => Sys2Proof.Machine.execBpt h code s
  | .fadd h d a b m => Sys2Proof.Machine.execFadd h d a b m s
  | .fsub h d a b m => Sys2Proof.Machine.execFsub h d a b m s
  | .fmul h d a b m => Sys2Proof.Machine.execFmul h d a b m s
  | .fma h d a b m => Sys2Proof.Machine.execFma h d a b m s
  | .fmin h d a b m => Sys2Proof.Machine.execFmin h d a b m s
  | .fmax h d a b m => Sys2Proof.Machine.execFmax h d a b m s
  | .fcmp h ty a b => Sys2Proof.Machine.execFcmp h ty a b s
  | .fabs h d a b m => Sys2Proof.Machine.execFabs h d a b m s
  | .fneg h d a b m => Sys2Proof.Machine.execFneg h d a b m s
  | .frcp h d a b m => Sys2Proof.Machine.execFrcp h d a b m s
  | .frsq h d a b m => Sys2Proof.Machine.execFrsq h d a b m s
  | .fsqrt h d a b m => Sys2Proof.Machine.execFsqrt h d a b m s
  | .fexp2 h d a b m => Sys2Proof.Machine.execFexp2 h d a b m s
  | .flog2 h d a b m => Sys2Proof.Machine.execFlog2 h d a b m s
  | .fsin h d a b m => Sys2Proof.Machine.execFsin h d a b m s
  | .fcos h d a b m => Sys2Proof.Machine.execFcos h d a b m s
  | .fcvt h d a df sf m => Sys2Proof.Machine.execFcvt h d a df sf m s
  | .i2f h d a df sf m => Sys2Proof.Machine.execI2f h d a df sf m s
  | .f2i h d a df sf m => Sys2Proof.Machine.execF2i h d a df sf m s
  | .frnd h d a b m => Sys2Proof.Machine.execFrnd h d a b m s
  | .hadd2 h d a b m => Sys2Proof.Machine.execHadd2 h d a b m s
  | .hmul2 h d a b m => Sys2Proof.Machine.execHmul2 h d a b m s
  | .hfma2 h d a b m => Sys2Proof.Machine.execHfma2 h d a b m s
  | .fdot2 h d a b m => Sys2Proof.Machine.execFdot2 h d a b m s
  | .padd4 h d a b m => Sys2Proof.Machine.execPadd4 h d a b m s
  | .pmul4 h d a b m => Sys2Proof.Machine.execPmul4 h d a b m s
  | .pmin4 h d a b m => Sys2Proof.Machine.execPmin4 h d a b m s
  | .pmax4 h d a b m => Sys2Proof.Machine.execPmax4 h d a b m s
  | .dot4 h d a b m => Sys2Proof.Machine.execDot4 h d a b m s
  | .dot8 h d a b m => Sys2Proof.Machine.execDot8 h d a b m s
  | .red h d a fn ty => Sys2Proof.Machine.execRed h d a fn ty s
  | .scan h d a fn excl ty => Sys2Proof.Machine.execScan h d a fn excl ty s
  | .ballot h d cond => Sys2Proof.Machine.execBallot h d cond s
  | .matchLanes h d a => Sys2Proof.Machine.execMatchLanes h d a s
  | .ld h d slot idx mt x => Sys2Proof.Machine.execLd h d slot idx mt x s
  | .st h data slot idx mt x => Sys2Proof.Machine.execSt h data slot idx mt x s
  | .lds h d adr mt x => Sys2Proof.Machine.execLds h d adr mt x s
  | .sts h data adr mt x => Sys2Proof.Machine.execSts h data adr mt x s
  | .ldlod h d slot idx mt x => Sys2Proof.Machine.execLdlod h d slot idx mt x s
  | .atom h d slot idx x => Sys2Proof.Machine.execAtom h d slot idx x s
  | .atoms h d adr x => Sys2Proof.Machine.execAtoms h d adr x s
  | .fence h kind scope => Sys2Proof.Machine.execFence h kind scope s
  | .fenceOob h d => Sys2Proof.Machine.execFenceOob h d s
  | .resfence h a => Sys2Proof.Machine.execResfence h a s
  | .bar h id plot kind => Sys2Proof.Machine.execBar h id plot kind s
  | .trinit h a b imm => Sys2Proof.Machine.execTrinit h a b imm s
  | .trwait h a => Sys2Proof.Machine.execTrwait h a s
  | .kick h a b => Sys2Proof.Machine.execKick h a b s
  | .wpwait h a b imm => Sys2Proof.Machine.execWpwait h a b imm s
  | .tlwait h a b imm => Sys2Proof.Machine.execTlwait h a b imm s
  | .tlread h d a => Sys2Proof.Machine.execTlread h d a s
  | .mtask h d a => Sys2Proof.Machine.execMtask h d a s
  | .trace h d a b => Sys2Proof.Machine.execTrace h d a b s
  | .fork h d a => Sys2Proof.Machine.execFork h d a s
  | .graft h d a b => Sys2Proof.Machine.execGraft h d a b s
  | .prune h d a b => Sys2Proof.Machine.execPrune h d a b s
  | .present h d a b => Sys2Proof.Machine.execPresent h d a b s
  | .launch h d a b => Sys2Proof.Machine.execLaunch h d a b s
  | .relaunch h d a b => Sys2Proof.Machine.execRelaunch h d a b s
  | .shbegin h a => Sys2Proof.Machine.execShbegin h a s
  | .shcommit h a => Sys2Proof.Machine.execShcommit h a s
  | .shdrop h a => Sys2Proof.Machine.execShdrop h a s
  | .resultLand wg tid idx => Sys2Proof.Machine.execResultLand wg tid idx s
  | .terminalResponse wg tid idx sub => Sys2Proof.Machine.execTerminalResponse wg tid idx sub s
  | .rangeFmtWriteback ctl win blk => Sys2Proof.Machine.execRangeFmtWriteback ctl win blk s
  | .frontEndObserveWr part ring => Sys2Proof.Machine.execFrontEndObserveWr part ring s
  | .launchAccept part queue => Sys2Proof.Machine.execLaunchAccept part queue s
  | .rasterPassAccept part queue => Sys2Proof.Machine.execRasterPassAccept part queue s
  | .frameGraphAccept part queue => Sys2Proof.Machine.execFrameGraphAccept part queue s
  | .plotDispatch col => Sys2Proof.Machine.execPlotDispatch col s
  | .workgroupFree wg => Sys2Proof.Machine.execWorkgroupFree wg s
  | .preemptionRequest part ltab => Sys2Proof.Machine.execPreemptionRequest part ltab s
  | .workgroupSave wg => Sys2Proof.Machine.execWorkgroupSave wg s
  | .npRegionOverrun wg => Sys2Proof.Machine.execNpRegionOverrun wg s
  | .thermalLimit col => Sys2Proof.Machine.execThermalLimit col s
  | .thermalSaveTimeout col => Sys2Proof.Machine.execThermalSaveTimeout col s
  | .supplyDroop col => Sys2Proof.Machine.execSupplyDroop col s
  | .copyRequestStart core chan => Sys2Proof.Machine.execCopyRequestStart core chan s
  | .copyArrival core chan n => Sys2Proof.Machine.execCopyArrival core chan n s
  | .taskStart col eng => Sys2Proof.Machine.execTaskStart col eng s
  | .taskBlockComplete col eng => Sys2Proof.Machine.execTaskBlockComplete col eng s
  | .taskShadowSpill col eng => Sys2Proof.Machine.execTaskShadowSpill col eng s
  | .rasterBin part pass bin => Sys2Proof.Machine.execRasterBin part pass bin s
  | .traversalRay col ray => Sys2Proof.Machine.execTraversalRay col ray s
  | .frameNodeReady part graph node => Sys2Proof.Machine.execFrameNodeReady part graph node s
  | .presentationEvent disp => Sys2Proof.Machine.execPresentationEvent disp s
  | .dispEvtFire disp => Sys2Proof.Machine.execDispEvtFire disp s
  | .feedbackFilterTimeout core idx => Sys2Proof.Machine.execFeedbackFilterTimeout core idx s
  | .scrubTagClean tag => Sys2Proof.Machine.execScrubTagClean tag s
  | .graftStart set => Sys2Proof.Machine.execGraftStart set s
  | .ticketRelease part ltab => Sys2Proof.Machine.execTicketRelease part ltab s
  | .backInvalidateResponse idx => Sys2Proof.Machine.execBackInvalidateResponse idx s
  | .backInvalidateTimeout idx => Sys2Proof.Machine.execBackInvalidateTimeout idx s
  | .hostMemAccess write addr data => Sys2Proof.Machine.execHostMemAccess write addr data s
  | .watchdogExpiry => Sys2Proof.Machine.execWatchdogExpiry s
  | .coldStart => Sys2Proof.Machine.execColdStart s
  | .warmStart => Sys2Proof.Machine.execWarmStart s
  | .getVersion => Sys2Proof.Machine.execGetVersion s
  | .getCapabilities => Sys2Proof.Machine.execGetCapabilities s
  | .negotiateAlgorithms => Sys2Proof.Machine.execNegotiateAlgorithms s
  | .getDigests => Sys2Proof.Machine.execGetDigests s
  | .getCertificate => Sys2Proof.Machine.execGetCertificate s
  | .challenge => Sys2Proof.Machine.execChallenge s
  | .getMeasurements => Sys2Proof.Machine.execGetMeasurements s
  | .keyExchange => Sys2Proof.Machine.execKeyExchange s
  | .registerWrite off value => Sys2Proof.Machine.execRegisterWrite off value s
  | .privErrRead => Sys2Proof.Machine.execPrivErrRead s
  | .partCfgWrite part value => Sys2Proof.Machine.execPartCfgWrite part value s
  | .partitionHalt part => Sys2Proof.Machine.execPartitionHalt part s
  | .partitionUnhalt part => Sys2Proof.Machine.execPartitionUnhalt part s
  | .partitionHalted part => Sys2Proof.Machine.execPartitionHalted part s
  | .rebind value => Sys2Proof.Machine.execRebind value s
  | .rebindDone => Sys2Proof.Machine.execRebindDone s
  | .pwrReq value => Sys2Proof.Machine.execPwrReq value s
  | .voltageSettled col => Sys2Proof.Machine.execVoltageSettled col s
  | .wdogKick => Sys2Proof.Machine.execWdogKick s
  | .coreEngineErrClear core => Sys2Proof.Machine.execCoreEngineErrClear core s
  | .retireColumn arg => Sys2Proof.Machine.execRetireColumn arg s
  | .enableSpare arg => Sys2Proof.Machine.execEnableSpare arg s
  | .rowRepair arg => Sys2Proof.Machine.execRowRepair arg s
  | .laneRepair arg => Sys2Proof.Machine.execLaneRepair arg s
  | .linkDegrade arg => Sys2Proof.Machine.execLinkDegrade arg s
  | .serviceOpDone => Sys2Proof.Machine.execServiceOpDone s
  | .bindSlotWrite col slot value => Sys2Proof.Machine.execBindSlotWrite col slot value s
  | .swapOut part => Sys2Proof.Machine.execSwapOut part s
  | .swapIn part => Sys2Proof.Machine.execSwapIn part s
  | .swapDone part => Sys2Proof.Machine.execSwapDone part s
  | .schedLogRead part => Sys2Proof.Machine.execSchedLogRead part s
  | .xlatInvalidate value => Sys2Proof.Machine.execXlatInvalidate value s
  | .xlatRevoke value => Sys2Proof.Machine.execXlatRevoke value s
  | .xlatReinstate value => Sys2Proof.Machine.execXlatReinstate value s
  | .xlatCtlDone => Sys2Proof.Machine.execXlatCtlDone s
  | .pageMove value => Sys2Proof.Machine.execPageMove value s
  | .pageMoveDone => Sys2Proof.Machine.execPageMoveDone s
  | .faultRetry value => Sys2Proof.Machine.execFaultRetry value s
  | .faultFail value => Sys2Proof.Machine.execFaultFail value s
  | .trapResumeAtPc value => Sys2Proof.Machine.execTrapResumeAtPc value s
  | .trapResumeNext value => Sys2Proof.Machine.execTrapResumeNext value s
  | .trapEndWorkgroup value => Sys2Proof.Machine.execTrapEndWorkgroup value s
  | .errLogLowRead hwin => Sys2Proof.Machine.execErrLogLowRead hwin s
  | .errLogHighRead hwin => Sys2Proof.Machine.execErrLogHighRead hwin s
  | .eccLogRead => Sys2Proof.Machine.execEccLogRead s
  | .mboxLoadImage arg => Sys2Proof.Machine.execMboxLoadImage arg s
  | .mboxPageDemand arg => Sys2Proof.Machine.execMboxPageDemand arg s
  | .mboxEvacuate arg => Sys2Proof.Machine.execMboxEvacuate arg s
  | .mboxRestore arg => Sys2Proof.Machine.execMboxRestore arg s
  | .mboxService arg => Sys2Proof.Machine.execMboxService arg s
  | .columnReset col => Sys2Proof.Machine.execColumnReset col s
  | .storeGloballyPerformed wg tid idx => Sys2Proof.Machine.execStoreGloballyPerformed wg tid idx s
  | .dirtyLineWriteBack core tag line => Sys2Proof.Machine.execDirtyLineWriteBack core tag line s
  | .hostSnoop line => Sys2Proof.Machine.execHostSnoop line s
  | .untranslatedPortAccess write addr data => Sys2Proof.Machine.execUntranslatedPortAccess write addr data s
  | .linkDown port => Sys2Proof.Machine.execLinkDown port s
  | .supplyRecovery col => Sys2Proof.Machine.execSupplyRecovery col s
  | .columnCurrentLimit col => Sys2Proof.Machine.execColumnCurrentLimit col s
  | .powerCapExceeded => Sys2Proof.Machine.execPowerCapExceeded s
  | .temperatureBelowLimit col => Sys2Proof.Machine.execTemperatureBelowLimit col s

end Sys2Proof.Machine
end

