-- ==== Sys2Proof/Machine/Loader.lean ====
section
/-! DEFINITION. Placing one instruction where the next step fetches: where no thread is ready, a partition, its translation
tables, a launch and a workgroup of one thread are set up as a load from outside the machine would leave them (log entry 7). -/

namespace Sys2Proof.Machine

/-- A valid translation entry (Table 19.2): a table, or a leaf with every right. -/
def tableEntry (pa : Nat) (leaf : Bool) : Nat := if leaf then pa + 0x1F else pa + 1

/-- Physical places of the loader's tables and of its code page. -/
def loaderTables : List (Nat × Nat) :=
  [(0x10000, tableEntry 0x14000 false), (0x14000, tableEntry 0x16000 false), (0x16000, tableEntry 0x18000 false),
   (0x18000, tableEntry 0x18200 false), (0x18200, tableEntry 0x20000 true)]

/-- The launch of the loader: one workgroup of one thread, ceiling 64, code object 0. -/
def loaderLaunch : Launch :=
  { num := 1, kind := 0, rcd := 8 * 2 ^ 192, queue := 0, q := [], variant := none, vtab := [], ticket := 1, returned := [],
    avg := none, plotsFree := 0, members := [], errs := 0, status := none, lease := [], revoked := [], ready := true, donen := 0,
    select := none, shrunk := 0, sigchg := 0, rerun := 0, regions := [], relTicket := 0, relDone := [], seqs := [], ordered := [], node := none,
    resumeOf := none, stagings := [], kblk := 0, np := false, wrapped := false }

/-- The loader's workgroup. -/
def loaderWg (clock : Nat) : Wg :=
  { part := 0, ltab := 0, launch := 1, plot := 0, wgid := 0, core := 0, slot := 0, bslot := 0, tag := 0, nthreads := 1,
    stages := [], quota := [64], ceil := 64, pool := 64, k := [], spadKiB := 0, spad := [], nbar := 0, phases := [], bases := [],
    flush := true, np := false, nptime := 0, det := false, traced := false, stopped := none, draining := false, born := clock,
    threads := [(0, Thread.start 0 0 clock)], trace := TraceRec.zero, staging := [], saving := false, flushing := false }

/-- The state with the loader's partition, tables, launch and workgroup. -/
def State.loaded (s : State) : State :=
  let s := loaderTables.foldl (fun s p => s.wrNat p.1 8 p.2) s
  let s := s.modPart 0 (fun p =>
    { p with cfg := 2 ^ 34 + 1, xroot := 0x10000 + 1, ltab := p.ltab.put 0 loaderLaunch, nextNum := 2 })
  { s with wgs := s.wgs.put 0 (loaderWg s.clock) }

/-- Where the next word is fetched from: its physical address, when a thread is ready at word 0 of a packet. -/
def State.nextPa (s : State) : Option Nat :=
  match s.nextKey with
  | some (_, l) =>
    (l.find? (fun c => !c.waits)).bind (fun c => (s.wgs.find? c.wk).bind (fun w =>
      match s.xlateFetch w (c.obj + c.off) with
      | .ok pa _ => if c.off / 4 % 3 = 0 then some pa else none
      | _ => none))
  | none => none

/-- The state with the words at the place the next step fetches, which it does before any event. -/
def State.placeWords (s : State) (ws : List Word) : State :=
  let s := { s with agenda := [], wordNext := true }
  let bs := ws.flatMap bytesOfWord
  match s.nextPa with
  | some pa => s.wrList pa bs
  | none => ({ s with group := [] }.loaded).wrList 0x20000 bs

end Sys2Proof.Machine
end

