-- ==== Sys2Proof/Machine/Step.lean ====
section
/-! DEFINITION. One step: the first event due, an internal event, or the next word of an issue group. -/

namespace Sys2Proof.Machine

/-- An outcome whose next state has had a step's end. -/
def afterStep (o : Host.Outcome State Fault Refusal) : Host.Outcome State Fault Refusal :=
  match o with
  | .next s => .next s.finishStep
  | .fault r => .fault r
  | .refused r => .refused r

/-- An event, after which words that waited at issue are looked at again. -/
def stepEvent (e : Instr) (s : State) : Host.Outcome State Fault Refusal :=
  match exec e s with
  | .next t => .next t.unstall.finishStep
  | .fault r => .fault r
  | .refused r => .refused r

/-- Issue the next word; with no thread ready, an internal event if one is due. A word that does not decode, or whose fetch faults, is
dealt with in `issue`. -/
def stepIssue (s : State) : Host.Outcome State Fault Refusal :=
  match s.issue with
  | (t, some i) => afterStep (exec i t)
  | (t, none) =>
    if s.nextKey.isSome then .next t.finishStep
    else
      match t.autoEvent with
      | some e => stepEvent e t
      | none => .next t.unstall.finishStep

/-- A word goes before an internal event: within an issue group, where the state says so, or by a free choice (R7, log entry 1). -/
def State.wordTurn (s : State) : Bool := s.wordNext || s.group != [] || Config.freeTurn s.clock

/-- One step of the machine. Events of the agenda come first; then a word or an internal event, as is free. -/
def step (s : State) : Host.Outcome State Fault Refusal :=
  match s.agenda with
  | e :: es => stepEvent e { s with agenda := es }
  | [] =>
    let t := { s with wordNext := false }
    if s.wordTurn then stepIssue t
    else
      match t.autoEvent with
      | some e => stepEvent e t
      | none => stepIssue t

/-- The state with an instruction stored where `step` fetches its next word. -/
def State.withFetchWord (s : State) (nbits w : Nat) : State := s.placeWords (tableWords nbits w)

end Sys2Proof.Machine
end

