-- ==== Sys2Proof/Safety.lean ====
section
/-! DEFINITION. What counts as a safe run, and the terms in which claims about words are stated: the threads of the issue group, and
what a word that ends normally leaves. -/

namespace Sys2Proof.Machine

/-- The step from a state answers a next state. -/
def Safe (s : State) : Prop := ∃ t, step s = .next t

/-- `c` is what a word of `len` words sees of one thread of the issue group. -/
structure Member (s : State) (len : Nat) (c : Ctx) : Prop where
  pre : c.pre = s
  len : c.len = len
  mem : (c.wk, c.idx) ∈ s.group
  wg : s.wgs.find? c.wk = some c.wg
  th : c.wg.threads.find? c.idx = some c.th

/-- Every thread of the issue group is resident and appears once, has room for the word in its run (R136), and has no pending
terminal cause where the word carries sw (R86). -/
structure CanRun (s : State) (h : Hdr) (len : Nat) : Prop where
  nodup : s.group.Nodup
  here : ∀ id ∈ s.group, ∃ c, Member s len c ∧ (c.wk, c.idx) = id
  room : ∀ c, Member s len c → c.th.runw + len ≤ 24
  clear : ∀ c, Member s len c → h.sw = true → c.th.term = none

/-- The byte offset of the word after an instruction. -/
def Ctx.after (c : Ctx) : Nat := (c.th.off + 4 * c.len) % 2 ^ 32

/-- A thread's record `new` once its PC has moved: the count of the run and the sources of a chained group (R132, R136). `tr` is its trailing
sequence. -/
def Ctx.moved (c : Ctx) (h : Hdr) (tr : Option (List TrailName)) (obj off : Nat) (new : Thread) : Thread :=
  { new with obj := obj, off := off, runw := c.th.runw + c.len, view := if h.chain then some c.view else none, trail := tr,
             runEnded := false, full := none }

/-- A thread's record `new` after a word that went on at a PC; under sw it waits for its outstanding writes (R138). -/
def Ctx.advanced (c : Ctx) (h : Hdr) (tr : Option (List TrailName)) (obj off : Nat) (new : Thread) : Thread :=
  if h.sw then (c.moved h tr obj off new).park c.pre.clock tr else c.moved h tr obj off new

/-- Where a word's threads go on, and the trailing sequence they then have. -/
structure Onward where
  obj : Nat
  off : Nat
  trail : Option (List TrailName)

/-- What a word leaves that only writes the records of the group's threads: each goes on as `onto` says with the record `new`; every
other thread, every workgroup's shared fields and all the rest of the machine are as before. -/
structure Leaves (s u : State) (h : Hdr) (len : Nat) (onto : Ctx → Onward) (new : Ctx → Thread) : Prop where
  threads : ∀ c, Member s len c → u.thread? c.wk c.idx = some (c.advanced h (onto c).trail (onto c).obj (onto c).off (new c))
  others : ∀ k i, (k, i) ∉ s.group → u.thread? k i = s.thread? k i
  groups : ∀ k, (u.wgs.find? k).map (fun w => { w with threads := [] }) = (s.wgs.find? k).map (fun w => { w with threads := [] })
  rest : u = { s with wgs := u.wgs, group := if h.chain then s.group else [], fresh := s.fresh + 1 }

/-- The word after an instruction of no trailing sequence. -/
def Ctx.onward (c : Ctx) : Onward := ⟨c.th.obj, c.after, none⟩

/-- A word completes: it answers a next state that leaves the PC at the next word and the threads as `new` says. -/
def Completes (i : Instr) (s : State) (h : Hdr) (len : Nat) (new : Ctx → Thread) : Prop :=
  ∃ u, exec i s = .next u ∧ Leaves s u h len Ctx.onward new

end Sys2Proof.Machine
end

