-- ==== Sys2Proof/Certificates/Slice0/Obligations.lean ====
section
/-! DEFINITION. The statements about the Sorub for the provers, and the terms they share. A word's statement names every thread of the
issue group: `Completes` and `Leaves` (Sys2Proof/Safety.lean) say what the word writes and that all else stands. -/

namespace Sys2Proof.Claims

open Sys2Proof.Machine

/-! ## Terms: words of pipe I -/

/-- The flags of a .cc form (R158): Z and N from the `w`-bit result, C and V as the word gives them. -/
def flagsIf (cc : Bool) (w res : Nat) (c v : Bool) : Option Flags4 :=
  if cc then some ⟨c, decide (res % 2 ^ w = 0), res.testBit (w - 1), v⟩ else none

/-- An exact value lies outside the signed range of `w` bits. -/
def outside (w : Nat) (e : Int) : Bool := decide (e < -2 ^ (w - 1) ∨ 2 ^ (w - 1) ≤ e)

/-- A word of format F3 of the listed types completes with the value, C and V that `f` gives from CC.C, the type, .sat, the width and
its two operands, whatever lawful destination and sources it names. -/
def Int3 (mk : Hdr → Opnd → Opnd → Opnd → Option Mod → Instr) (types sats : List Ty) (dflt : Ty)
    (f : Bool → Ty → Bool → Nat → Nat → Nat → Nat × Bool × Bool) : Prop :=
  ∀ (s : State) (h : Hdr) (d a b : Opnd) (m : Option Mod) (x y : Ctx → Nat) (p : Ctx → Option Bool),
    tyOf m dflt ∈ types → (satOf m = true → tyOf m dflt ∈ sats) → CanRun s h (lenOf m) →
    (∀ c, Member s (lenOf m) c → c.destOk (tyOf m dflt == .b64) d = true ∧
      c.read2 (.int (tyBits (tyOf m dflt))) (tyOf m dflt == .b64) a b = .ok (x c, y c, p c)) →
    Completes (mk h d a b m) s h (lenOf m) (fun c =>
      let r := f c.view.cc.c (tyOf m dflt) (satOf m) (tyBits (tyOf m dflt)) (x c) (y c)
      c.th.putResult (some d) (tyOf m dflt == .b64) ⟨some r.1, flagsIf (ccOf m) (tyBits (tyOf m dflt)) r.1 r.2.1 r.2.2, p c⟩)

/-- Add and subtract of R160 on operands read as unsigned and signed. -/
def addSpec (cin : Bool) (t : Ty) (sat : Bool) (w a b : Nat) : Nat × Bool × Bool :=
  let c := decide (2 ^ w ≤ a + b + bnat cin)
  let v := if t = .z32 then c else outside w (sInt w a + sInt w b + bnat cin)
  (if sat && v then (if t = .z32 then 2 ^ 32 - 1 else if sInt w a < 0 then 2 ^ 31 else 2 ^ 31 - 1)
   else (a + b + bnat cin) % 2 ^ w, c, v)

/-- Subtract: `bin` is the borrow in. -/
def subSpec (bin : Bool) (t : Ty) (sat : Bool) (w a b : Nat) : Nat × Bool × Bool :=
  let c := decide (b + bnat bin ≤ a)
  let v := if t = .z32 then !c else outside w (sInt w a - sInt w b - bnat bin)
  (if sat && v then (if t = .z32 then 0 else if sInt w a < 0 then 2 ^ 31 else 2 ^ 31 - 1)
   else (2 ^ w + a - b - bnat bin) % 2 ^ w, c, v)

/-- A 32-bit operand of a product: unsigned for .z32, signed for .s32 and .b32 (R161). -/
def signedAs (t : Ty) (x : Nat) : Int := if t = .z32 then (x : Int) else sInt 32 x

/-- An exact product or sum into a type (R161): modulo 2^32, or clamped under .sat, with V where it lies outside. -/
def fitSpec (t : Ty) (sat : Bool) (e : Int) : Nat × Bool × Bool :=
  let lo : Int := if t = .z32 then 0 else -2 ^ 31
  let hi : Int := if t = .z32 then 2 ^ 32 - 1 else 2 ^ 31 - 1
  ((if sat then max lo (min hi e) else e) % 2 ^ 32 |>.toNat, false, decide (e < lo ∨ hi < e))

/-- A word of format F3 with a third source: MOD.c where cuse is set, else the destination's own value (R161, R171). -/
def Int4 (mk : Hdr → Opnd → Opnd → Opnd → Option Mod → Instr) (types sats : List Ty)
    (f : Ty → Bool → Nat → Nat → Nat → Nat × Bool × Bool) : Prop :=
  ∀ (s : State) (h : Hdr) (d a b : Opnd) (m : Option Mod) (x y z : Ctx → Nat) (p : Ctx → Option Bool),
    tyOf m .b32 ∈ types → (satOf m = true → tyOf m .b32 ∈ sats) → CanRun s h (lenOf m) →
    (∀ c, Member s (lenOf m) c → c.destOk false d = true ∧ c.read2 (.int 32) false a b = .ok (x c, y c, p c) ∧
      (match m with
        | some e => if e.cuse then c.src (.int 32) e.c = .ok (z c) else c.src (.int 32) d = .ok (z c)
        | none => c.src (.int 32) d = .ok (z c))) →
    Completes (mk h d a b m) s h (lenOf m) (fun c =>
      let r := f (tyOf m .b32) (satOf m) (x c) (y c) (z c)
      c.th.putResult (some d) false ⟨some r.1, flagsIf (ccOf m) 32 r.1 r.2.1 r.2.2, p c⟩)

/-- A shift or rotate (R163): the amount is bits [7:0] of operand b, one register even under .b64. -/
def Shift (mk : Hdr → Opnd → Opnd → Opnd → Option Mod → Instr) (f : Nat → Nat → Nat → Nat × Bool) : Prop :=
  ∀ (s : State) (h : Hdr) (d a b : Opnd) (m : Option Mod) (x y : Ctx → Nat) (p : Ctx → Option Bool),
    tyOf m .b32 ∈ [Ty.b32, Ty.b64] → satOf m = false → CanRun s h (lenOf m) →
    (∀ c, Member s (lenOf m) c → c.destOk (tyOf m .b32 == .b64) d = true ∧
      c.srcW (.int (tyBits (tyOf m .b32))) (tyOf m .b32 == .b64) a = .ok (x c) ∧
      (match b with
        | .pat q => ∃ e, c.pattern a q false = .ok (y c, e) ∧ p c = some e
        | o => c.src (.int 32) o = .ok (y c) ∧ p c = none)) →
    Completes (mk h d a b m) s h (lenOf m) (fun c =>
      let r := f (tyBits (tyOf m .b32)) (x c) (y c % 256)
      c.th.putResult (some d) (tyOf m .b32 == .b64) ⟨some r.1, flagsIf (ccOf m) (tyBits (tyOf m .b32)) r.1 r.2 false, p c⟩)

/-- A word of format F1 of the listed types: `pair` says whether a .b64 result is a pair. The result is any function `r` of the context
that meets `spec`. -/
def Int1 (mk : Hdr → Opnd → Opnd → Option Pat → Option Mod → Instr) (types sats : List Ty) (dflt : Ty) (pair : Bool)
    (spec : Bool → Nat → Nat → Nat × Bool → Prop) : Prop :=
  ∀ (s : State) (h : Hdr) (d a : Opnd) (b : Option Pat) (m : Option Mod) (x : Ctx → Read),
    tyOf m dflt ∈ types → (satOf m = true → tyOf m dflt ∈ sats) → CanRun s h (lenOf m) →
    (∀ c, Member s (lenOf m) c → c.destOk (pair && tyOf m dflt == .b64) d = true ∧
      c.read1 (.int (tyBits (tyOf m dflt))) (tyOf m dflt == .b64) a b = .ok (x c)) →
    ∃ r : Ctx → Nat × Bool, (∀ c, Member s (lenOf m) c → spec (satOf m) (tyBits (tyOf m dflt)) (x c).x (r c)) ∧
      Completes (mk h d a b m) s h (lenOf m) (fun c =>
        c.th.putResult (some d) (pair && tyOf m dflt == .b64)
          ⟨some (r c).1, flagsIf (ccOf m) (if pair && tyOf m dflt == .b64 then 64 else 32) (r c).1 false (r c).2, (x c).a⟩)

/-- A word of format FC: it writes flags and no register. -/
def FlagWord (mk : Hdr → Ty → Opnd → Opnd → Instr) (f : Ty → Nat → Nat → Nat → Flags4) : Prop :=
  ∀ (s : State) (h : Hdr) (t : Ty) (a b : Opnd) (x y : Ctx → Nat) (p : Ctx → Option Bool),
    t ∈ [Ty.b32, Ty.s32, Ty.z32, Ty.b64] → CanRun s h 1 →
    (∀ c, Member s 1 c → c.read2 (.int (tyBits t)) (t == .b64) a b = .ok (x c, y c, p c)) →
    Completes (mk h t a b) s h 1 (fun c => c.th.putResult none false ⟨none, some (f t (tyBits t) (x c) (y c)), p c⟩)

/-- Bits [hi:lo] of `x` moved to bit 0 (R171). -/
def fieldOf (x pos n : Nat) : Nat := x / 2 ^ pos % 2 ^ n

/-- The field position and effective length that operand b names (R171). -/
def posOf (b : Nat) : Nat := b % 32
def lenPrime (b : Nat) : Nat := min (min (b / 256 % 64) 32) (32 - posOf b)

/-- A word that writes a 32-bit value `f` to a short destination and reads nothing else. -/
def SetWord (mk : Hdr → Opnd → Instr) (len : Nat) (f : Ctx → Nat) : Prop :=
  ∀ (s : State) (h : Hdr) (d : Opnd), CanRun s h len → (∀ c, Member s len c → c.destOk false d = true) →
    Completes (mk h d) s h len (fun c => c.th.putResult (some d) false ⟨some (f c), none, none⟩)

/-! ## Terms: control words -/

/-- A word completes and its threads go on as `onto` says. -/
def Goes (i : Instr) (s : State) (h : Hdr) (onto : Ctx → Onward) (new : Ctx → Thread) : Prop :=
  ∃ u, exec i s = .next u ∧ Leaves s u h 1 onto new

/-- The address a relative branch names: its own word address plus 4 times the offset, modulo 2^32 (R179). -/
def branchTarget (c : Ctx) (w : Nat) (off : BitVec w) : Nat := ((c.th.off : Int) + 4 * off.toInt) % 2 ^ 32 |>.toNat

/-- The signature after control goes to a byte offset (R259). -/
def signed (t : Thread) (off : Nat) : Thread := { t with sig := t.sig.rotateLeft 1 ^^^ BitVec.ofNat 32 off }

/-- A word of memory is an entry NOP that declares `q` registers (R141). -/
def EntryNop (w : Word) (q : Nat) : Prop :=
  ∃ (h : Hdr) (bud : BitVec 9), w = mkWord h 0 bud.toNat ∧ WellFormed (.nop h bud) = true ∧ bud ≠ 0 ∧ q = bud.toNat

/-- A call to `target` may be made (R181): the entry NOP there declares no more than the thread's budget, and a record is free. -/
def Callable (c : Ctx) (s : State) (target : Nat) : Prop :=
  (∃ w q, s.fetchWord c.wg (c.th.obj + target) = .word w ∧ EntryNop w q ∧ q ≤ c.wg.budget c.idx) ∧ c.th.calls.length < 32

/-- The issue group is one thread. -/
structure Alone (s : State) (len : Nat) (c : Ctx) : Prop where
  group : s.group = [(c.wk, c.idx)]
  member : Member s len c
  room : c.th.runw + len ≤ 24

/-- The one thread of the group takes a trap at its word (R159, R373): it stops there with its record as it was, under a new trap
record that names it. -/
def Trapped (s u : State) (c : Ctx) (r : TrapReq) : Prop :=
  u.thread? c.wk c.idx = some { c.th with st := .trapped, trap := (s.part c.wg.part).nextTrap, obj := r.obj, off := r.off,
                                          view := none, await := none, op := none } ∧
  (∃ t, (u.part c.wg.part).traps.find? (s.part c.wg.part).nextTrap = some t ∧ t.threads = [c.idx] ∧ t.wk = c.wk ∧ t.len = r.len ∧
    t.bits = trapBits s c.wg (s.part c.wg.part).nextTrap r (2 ^ laneOf c.idx)) ∧
  (∀ k i, (k, i) ≠ (c.wk, c.idx) → u.thread? k i = s.thread? k i)

/-- The request of a trap at the word of a thread. -/
def atWord (c : Ctx) (cause sub info : Nat) : TrapReq := ⟨c.wk, c.idx, cause, sub, info, 0, c.th.obj, c.th.off, c.len⟩

/-- Nothing of the thread is outstanding: no write, no access still to be performed, no pending terminal cause. -/
def Quiet (c : Ctx) : Prop := c.th.pend = [] ∧ c.th.queue = [] ∧ c.th.term = none

/-- The thread's record at a word that has ended its run and awaits its outstanding writes (R281). -/
def endedAt (c : Ctx) (op : EndOp) : Thread :=
  { c.th.endRun with st := .ended, op := some op, wlen := c.len, await := some (c.th.pend.map (·.id)) }

/-- Every thread of the workgroup that has not exited, and of which `who` holds, stops at its word in a trap of a cause. -/
def TrapsAll (u : State) (c : Ctx) (cause : Nat) (who : Nat → Prop) : Prop :=
  ∀ p ∈ c.wg.threads, who p.1 → p.1 = c.idx ∨ p.2.st ≠ .exited → ∃ t r, u.thread? c.wk p.1 = some t ∧ t.st = .trapped ∧
    (u.part c.wg.part).traps.find? t.trap = some r ∧ p.1 ∈ r.threads ∧ bits r.bits 7 0 = cause ∧ t.obj = p.2.obj ∧ t.off = p.2.off

/-- Of the other threads of the workgroup of which `who` holds, each has exited or stands parked at the collective `st`. -/
def OthersParked (c : Ctx) (st : Stand) (who : Nat → Prop) : Prop :=
  (c.wg.threads.map (·.1)).Nodup ∧ c.wg.threads.length ≤ 1024 ∧
  ∀ p ∈ c.wg.threads, p.1 ≠ c.idx → who p.1 → p.2.st = .exited ∨ p.2.st = st

/-- A thread that has waited at a word goes on at the next one (R281). -/
def resumed (t : Thread) (clock : Nat) : Thread :=
  { t with st := .ready, off := (t.off + 4 * t.wlen) % 2 ^ 32, op := none, parg := 0, since := clock, await := none, runEnded := false,
           wlen := 1 }

/-- The word awaits the thread's outstanding writes first, and nothing else of the machine moves. -/
def EndsWaiting (i : Instr) (len : Nat) (op : Ctx → EndOp) (ok : State → Ctx → Prop) : Prop :=
  ∀ (s : State) (c : Ctx), Alone s len c → ok s c → c.th.pend ≠ [] → c.th.term = none →
    ∃ u, exec i s = .next u ∧ u.thread? c.wk c.idx = some (endedAt c (op c)) ∧
      (∀ k j, (k, j) ≠ (c.wk, c.idx) → u.thread? k j = s.thread? k j) ∧ u = { s with wgs := u.wgs, group := [], fresh := s.fresh + 1 }

/-- A thread that goes on at the word after the one that ended its run (R281). -/
def passed (c : Ctx) : Thread :=
  { c.th.endRun with st := .ready, off := c.after, op := none, parg := 0, since := c.pre.clock, await := none, runEnded := false,
                     wlen := 1 }

/-! ## Terms: memory, synchronisation and engine words -/

/-- The issue group is one thread, with no pending terminal cause where the word carries sw. -/
structure Solo (s : State) (h : Hdr) (len : Nat) (c : Ctx) : Prop extends Alone s len c where
  clear : h.sw = true → c.th.term = none

/-- The word completes for the one thread of the group: it goes on at the next word with the record `new`, no other thread changes, and
`more` holds of the next state. -/
def Results (i : Instr) (s : State) (h : Hdr) (c : Ctx) (new : Thread) (more : State → Prop) : Prop :=
  ∃ u, exec i s = .next u ∧ u.thread? c.wk c.idx = some (c.advanced h none c.th.obj c.after new) ∧
    (∀ k j, (k, j) ≠ (c.wk, c.idx) → u.thread? k j = s.thread? k j) ∧ more u

/-- The number whose little-endian bytes are `f 0`, `f 1`, … (R5). -/
def leNat (f : Nat → Byte) (n : Nat) : Nat := ((List.range n).map (fun j => (f j).toNat * 256 ^ j)).sum

/-- Byte `j` of a number (R5). -/
def byteOf (x j : Nat) : Byte := BitVec.ofNat 8 (x / 256 ^ j)

/-- A byte of a workgroup's scratchpad. -/
def spadByte (s : State) (k j : Nat) : Byte :=
  match s.wgs.find? k with
  | some w => FMap.get 0 w.spad j
  | none => 0

/-- The register words of a load: zero-extended, or sign-extended for s8 and s16, or a pair for b64 (R272). -/
def loadWords (mt : MemTy) (v : Nat) : List Nat :=
  match mt with
  | .s8 => [((BitVec.ofNat 8 v).signExtend 32).toNat]
  | .s16 => [((BitVec.ofNat 16 v).signExtend 32).toNat]
  | .b64 => [v % 2 ^ 32, v / 2 ^ 32]
  | _ => [v]

/-- The register words of an atomic's old value (R277). -/
def atomWords (width v : Nat) : List Nat := if width = 8 then [v % 2 ^ 32, v / 2 ^ 32] else [v]

/-- The thread with an outstanding long write of registers whose values are known (R137). -/
def longWrite (c : Ctx) (mem : Bool) (rs vals : List Nat) : Thread := c.th.addPend (pendOf c.th.freshId mem rs vals)

/-- Every committed byte of memory reads as before. -/
def MemSame (s u : State) : Prop := ∀ a, u.rd a = s.rd a

/-- `n` committed bytes at `a` hold the number `x`, and every other byte reads as before. -/
def MemWrote (s u : State) (a n x : Nat) : Prop :=
  ∀ b, u.rd b = if a ≤ b ∧ b < a + n then byteOf x (b - a) else s.rd b

/-- `n` bytes of workgroup `k`'s scratchpad at `o` hold the number `x`; every other scratchpad byte is as before. -/
def SpadWrote (s u : State) (k o n x : Nat) : Prop :=
  ∀ k' j, spadByte u k' j = if k' = k ∧ o ≤ j ∧ j < o + n then byteOf x (j - o) else spadByte s k' j

def SpadSame (s u : State) : Prop := ∀ k j, spadByte u k j = spadByte s k j

/-- Neither a workgroup's L1 nor what its plot has taken over holds a line; `u` is the number of its lines. -/
def NoLines (s : State) (u : Nat) : Prop := ∀ e ∈ s.l1, lineUnit e.1 ≠ u ∧ lineUnit e.1 ≠ bufOf u

/-- Nothing that a workgroup has written, or its plot has taken over, waits for its write-back. -/
def NoDirty (s : State) (u : Nat) : Prop := ∀ e ∈ s.l1, lineUnit e.1 = u ∨ lineUnit e.1 = bufOf u → e.2.dirty = []

/-- No L1 holds written bytes. -/
def Clean (s : State) : Prop := ∀ e ∈ s.l1, e.2.dirty = []

/-- Nothing stands between tag-0 accesses of a workgroup and committed memory: its L1 is empty, no range-format window and no tracked region
is set up, no granule fails. -/
structure Plain (s : State) (u : Nat) : Prop where
  l1 : NoLines s u
  windows : s.sys.rangeFmt = []
  regions : ∀ p ∈ s.parts, bits p.2.trk 11 0 = 0
  poison : s.poison = []

/-- The issue group stands in ascending lane order, one thread a lane (R13, R55). -/
def InLaneOrder (s : State) : Prop := s.group.Pairwise (fun a b => a.2 % 64 < b.2 % 64)

/-- The word waits at issue: the one thread stays ready at it with its age and its record, and nothing else of the machine moves (R12). -/
def Stalls (i : Instr) (s : State) (c : Ctx) : Prop :=
  ∃ u t, exec i s = .next u ∧ u.thread? c.wk c.idx = some t ∧ t = { c.th with waits := true, full := t.full } ∧
    (∀ k j, (k, j) ≠ (c.wk, c.idx) → u.thread? k j = s.thread? k j) ∧ u = { s with wgs := u.wgs, group := [], fresh := s.fresh + 1 }

/-! ## Terms: accesses in a thread's queue (R70, R84) -/

/-- The pieces of a load (`kind` 0) or store (1) of `mt` at `va`: one for each 32-bit word of a 64-bit access, else one (R70). -/
def accessPieces (c : Ctx) (kind : Nat) (mt : MemTy) (data ord scope : Nat) (rs : List Nat) (region va : Nat) : List MemOp :=
  let piece (typ n x : Nat) (d : List Nat) (a : Nat) : MemOp := memOp c kind 0 typ n x 0 ord scope d region a
  if mt = .b64 then [piece 2 4 (data % 2 ^ 32) (rs.take 1) va, piece 2 4 (data / 2 ^ 32) (rs.drop 1) (va + 4)]
  else [piece mt.code (mtWidth mt) data rs va]

/-- The thread has issued an access: an outstanding write of its registers where it has any, the word in its checkpoint, and `queued` at the
end of its queue. -/
def enqueued (c : Ctx) (rs : List Nat) (store : Bool) (scope : Nat) (ps queued : List MemOp) : Thread :=
  { c.th with
    pend := if rs = [] then c.th.pend else c.th.pend ++ [⟨c.th.freshId, true, rs, rs, false, false, false, none, none⟩]
    chk := c.th.chk ++ [⟨c.th.freshId, c.th.obj, c.th.off, c.len, store, scope, [], ps.length, c.pre.fresh, c.teamLanes⟩]
    queue := c.th.queue ++ queued }

/-- A lane of a memory word may go on: it does not trap, its thread has room for the word, no terminal cause is pending, and its workgroup
has no atomic staged (R84, R86, R88). -/
def LaneMay (c : Ctx) (l : Lane) (rs : List Nat) : Prop :=
  match l with
  | .at _ => c.th.memFull = false ∧ c.th.term = none ∧ ∀ x ∈ c.wg.stagedOps, x.kind = 1
  | .skip => rs = [] ∨ c.th.memFull = false
  | .trap _ => False

/-- What a lane of a memory word leaves: its access issued; or, out of bounds, zeros to its registers and the sticky status (R53, R271). -/
def laneLeaves (c : Ctx) (l : Lane) (rs : List Nat) (store : Bool) (scope : Nat) (ps : Nat → List MemOp) : Thread :=
  match l with
  | .at va => enqueued c rs store scope (ps va) (ps va)
  | .skip => { (if rs = [] then c.th else longWrite c true rs (rs.map (fun _ => 0))) with oob := true }
  | .trap _ => c.th

/-- A piece of a thread's queue that may be performed now, and the only one of its word that may. -/
structure Ready (s : State) (m : MemOp) (w : Wg) (t : Thread) : Prop where
  wg : s.wgs.find? m.wk = some w
  th : w.threads.find? m.idx = some t
  may : m ∈ s.readyOps m.wk m.idx
  only : ∀ x ∈ s.readyOps m.wk m.idx, x.id = m.id → x = m

/-- The checkpoint once a piece has been performed: its word counts one piece less and keeps the lines `ls`; a word of which nothing is left
is gone. -/
def settledChk (t : Thread) (m : MemOp) (ls : List Nat) : List MemWord :=
  (t.chk.map (fun c => if c.id = m.id then { c with parked := c.parked - 1, lines := c.lines ++ ls } else c)).filter
    (fun c => c.id != m.id || c.parked != 0 || c.lines != [])

/-- The one outstanding write of a word's registers, which writes no part of CC. -/
def Awaits (t : Thread) (m : MemOp) (pre post : List Pend) (e : Pend) : Prop :=
  t.pend = pre ++ e :: post ∧ e.id = m.id ∧ (∀ x ∈ pre ++ post, x.id ≠ m.id) ∧ e.ccDest = false ∧ e.ccF = false ∧ e.ccA = false

/-- Two outstanding writes share a register that is still to be written, or CC, which lands as one unit (R44, R139). -/
def Meets (a b : Pend) : Prop :=
  (∃ r, r ∈ a.live ∧ r ∈ b.live) ∨ ((a.ccF = true ∨ a.ccA = true) ∧ (b.ccF = true ∨ b.ccA = true))

/-- The value that the last pair of a register gives it. -/
def lastOf (vs : List (Nat × Word)) (r : Nat) (old : Word) : Word := ((List.find? (fun p => p.1 == r) vs.reverse).map (·.2)).getD old

/-- A thread once a piece that reads has been performed with the values `vs` of its registers: the outstanding write has them too; it lands
as one where every register of it now has its value and no earlier write is still to write one of them, and else is kept (R70, R139, R272).
The model's own fields `seen`, `loaded` and `passed` may change (log entry 21). -/
def BoundBy (t t' : Thread) (m : MemOp) (pre post : List Pend) (e : Pend) (vs : List (Nat × Word)) (ls : List Nat) : Prop :=
  let l := e.vals.getD [] ++ vs
  t' = { t with v := t'.v, pend := t'.pend, chk := settledChk t m ls, queue := t.queue.erase m, seen := t'.seen, loaded := t'.loaded,
                passed := t'.passed } ∧
  ((∀ n ∈ e.names, ∃ p ∈ l, p.1 = n) → (∀ x ∈ pre, ¬ Meets x e) → t'.pend = pre ++ post ∧
    ∀ r, FMap.get 0 t'.v r = if r ∈ e.live then lastOf l r (FMap.get 0 t.v r) else FMap.get 0 t.v r) ∧
  ((∃ n ∈ e.names, ∀ p ∈ l, p.1 ≠ n) ∨ (∃ x ∈ pre, Meets x e) → t'.v = t.v ∧ t'.pend = pre ++ { e with vals := some l } :: post)

/-- A thread once a piece that reads nothing has been performed. -/
def StoredBy (t t' : Thread) (m : MemOp) (ls : List Nat) : Prop :=
  t' = { t with chk := settledChk t m ls, queue := t.queue.erase m, passed := t'.passed }

/-- An event answers a next state of which `P` holds. -/
def Answers (i : Instr) (s : State) (P : State → Prop) : Prop := ∃ u, exec i s = .next u ∧ P u

/-- No thread but one changes. -/
def OthersSame (s u : State) (k i : Nat) : Prop := ∀ m j, (m, j) ≠ (k, i) → u.thread? m j = s.thread? m j

/-! ## Terms: atomics (Table 13.2) -/

/-- A key's value is below another's (R129): of .f32 NaN is the least and −0 is below +0. -/
def ValueBelow (typ a b : Nat) : Prop :=
  if typ = 8 then (fmtValue .f32 b).isNan = false ∧ ((fmtValue .f32 a).isNan = true ∨ (fmtValue .f32 a).ltZ (fmtValue .f32 b) = true)
  else if typ = 1 then sInt 32 a < sInt 32 b
  else a < b

/-- The winner of two 64-bit keys (R129): of the greater value, and of equal values of the lower index; a NaN leaves as the canonical one. -/
def KeyWins (typ x y r : Nat) : Prop :=
  ∃ k, (k = x ∨ k = y) ∧ (∀ z, z = x ∨ z = y → ¬ ValueBelow typ (k / 2 ^ 32) (z / 2 ^ 32) ∧
      (¬ ValueBelow typ (z / 2 ^ 32) (k / 2 ^ 32) → k % 2 ^ 32 ≤ z % 2 ^ 32)) ∧
    r = if typ = 8 ∧ (fmtValue .f32 (k / 2 ^ 32)).isNan = true then 0x7FC00000 * 2 ^ 32 + k % 2 ^ 32 else k

/-- The lesser or greater of two encodings (R196). -/
def MinMax (f : FFmt) (isMax : Bool) (x y r : Nat) : Prop :=
  if (fmtValue f x).isNan = true then (if (fmtValue f y).isNan = true then some r = fmtNan f else r = y)
  else if (fmtValue f y).isNan = true then r = x
  else (r = x ∨ r = y) ∧ ∀ z, z = x ∨ z = y →
    if isMax then (fmtValue f r).ltZ (fmtValue f z) = false else (fmtValue f z).ltZ (fmtValue f r) = false

/-- What an atomic of `a` bytes writes over the old value `x` (Table 13.2), by its operation and type code, with operand `o` and, of a
compare-exchange, the new value `o2`; none where a compare-exchange fails. -/
def AtomSpec (aop typ a x o o2 : Nat) (r : Option Nat) : Prop :=
  let sum (f : FFmt) : Option Nat := some (roundRne f (XR.add .rne (fmtValue f x) (fmtValue f o)))
  match aop with
  | 0 => r = if typ = 8 then sum .f32 else if typ = 9 then sum .f16 else if typ = 10 then sum .bf16 else some ((x + o) % 2 ^ (8 * a))
  | 1 => r = some ((x + 2 ^ (8 * a) - o) % 2 ^ (8 * a))
  | 2 => if typ = 8 then ∃ v, r = some v ∧ MinMax .f32 false x o v
         else r = some (if typ = 1 then (if sInt 32 o < sInt 32 x then o else x) else min x o)
  | 3 => if typ = 8 then ∃ v, r = some v ∧ MinMax .f32 true x o v
         else r = some (if typ = 1 then (if sInt 32 x < sInt 32 o then o else x) else max x o)
  | 4 => ∃ v, r = some v ∧ KeyWins typ x o v
  | 5 => r = some (x &&& o)
  | 6 => r = some (x ||| o)
  | 7 => r = some (x ^^^ o)
  | 8 => r = some o
  | _ => r = if x = o then some o2 else none

/-- The one outstanding write of an LDLOD: its registers, and CC from the bits of its status (R265, R266). -/
def LodWrite (c : Ctx) (rs : List Nat) (status : Nat) (e : Pend) : Prop :=
  e.id = c.th.freshId ∧ e.mem = true ∧ e.names = rs ∧ e.live = rs ∧ e.ccDest = true ∧ e.ccF = true ∧ e.ccA = false ∧
  e.ccVal = some ⟨status.testBit 30, status.testBit 31, false, status.testBit 29, false⟩

/-- The number of a barrier: 0 to 31 of a workgroup, 32 to 35 of a plot (R283). -/
def barId (id : Fin 32) (plot : Bool) : Nat := if plot then 32 + id.val else id.val

/-- A wait word (R281): it awaits the thread's writes; then goes on if its condition holds, and waits if not. `calm` says that no earlier
access of the thread is still to change what it looks at. -/
def WaitWord (i : Instr) (len : Nat) (op : Ctx → EndOp) (ok : State → Ctx → Prop) (calm : Ctx → Prop) (holds : State → Ctx → Prop) : Prop :=
  EndsWaiting i len op ok ∧
  ∀ (s : State) (c : Ctx), Alone s len c → ok s c → c.th.pend = [] → c.th.term = none → calm c →
    ∃ u, exec i s = .next u ∧ (∀ k j, (k, j) ≠ (c.wk, c.idx) → u.thread? k j = s.thread? k j) ∧ MemSame s u ∧
      (holds s c → u.thread? c.wk c.idx = some (passed c)) ∧
      (¬ holds s c → u.thread? c.wk c.idx = some { endedAt c (op c) with st := .wait, await := some [] })

/-- A thread may release now: its every access is performed, and it waits for no graft. -/
def CanRelease (c : Ctx) : Prop := c.th.hold = [] ∧ c.th.settled = true ∧ c.th.term = none

/-! ## Terms: float, packed and lane words -/

/-- A third of the three float operands of an arithmetic word: the addend where it has one, the random operand under .sr. -/
structure FloatOperands (c : Ctx) (e : Elem) (fma : Bool) (d a b : Opnd) (m : Option Mod) (x y z r : Nat) (p : Option Bool) : Prop where
  dest : c.destOk false d = true
  read : c.read2 e false a b = .ok (x, y, p)
  addend : fma = true → c.third e d m = .ok z
  random : rmOf m = .sr → ∃ k, m = some k ∧ c.src (.int 32) k.c = .ok r
  none : rmOf m ≠ .sr → r = 0

/-- One rounded result of an arithmetic word from its exact value: the encoding of R118 with the flags of R123. V is arithV: the model's
reading of R123 (log entry 10). -/
def roundedArith (f : FFmt) (m : Option Mod) (rnd k : Nat) (ops : List XR) (e : XR) : Nat × Flags4 :=
  let q := roundTo f (rmOf m) (satOf m) rnd k e
  (q.enc, flagsFloat f q.enc (arithV q.ovf ops e (fmtValue f q.enc)))

/-- A scalar arithmetic word of R195 on exact values `g`. -/
def FloatArith (mk : Hdr → Opnd → Opnd → Opnd → Option Mod → Instr) (row : FloatRow) (fma : Bool) (g : Rm → XR → XR → XR → XR) : Prop :=
  ∀ (s : State) (h : Hdr) (d a b : Opnd) (m : Option Mod) (x y z r : Ctx → Nat) (p : Ctx → Option Bool),
    (∀ k, m = some k → row.tyOk k = true) → CanRun s h (lenOf m) →
    (∀ c, Member s (lenOf m) c → FloatOperands c (.flt (fmtOf (tyOf m .f32))) fma d a b m (x c) (y c) (z c) (r c) (p c)) →
    Completes (mk h d a b m) s h (lenOf m) (fun c =>
      let f := fmtOf (tyOf m .f32)
      let u := fmtValue f (x c)
      let v := fmtValue f (y c)
      let w := fmtValue f (z c)
      let q := roundedArith f m (r c % 2 ^ 16) 16 (if fma then [u, v, w] else [u, v]) (g (rmOf m) u v w)
      c.th.putResult (some d) false ⟨some q.1, if ccOf m then some q.2 else none, p c⟩)

/-- A word of two sources of a float format and no rounding: the result is any that meets `spec`, V is 0. -/
def FloatPick (mk : Hdr → Opnd → Opnd → Opnd → Option Mod → Instr) (spec : FFmt → Nat → Nat → Nat → Prop) : Prop :=
  ∀ (s : State) (h : Hdr) (d a b : Opnd) (m : Option Mod) (x y : Ctx → Nat) (p : Ctx → Option Bool),
    (∀ k, m = some k → FloatRow.plain.tyOk k = true) → CanRun s h (lenOf m) →
    (∀ c, Member s (lenOf m) c → c.destOk false d = true ∧
      c.read2 (.flt (fmtOf (tyOf m .f32))) false a b = .ok (x c, y c, p c)) →
    let f := fmtOf (tyOf m .f32)
    ∃ r : Ctx → Nat, (∀ c, Member s (lenOf m) c → spec f (x c % 2 ^ fmtWidth f) (y c % 2 ^ fmtWidth f) (r c)) ∧
      Completes (mk h d a b m) s h (lenOf m) (fun c =>
        c.th.putResult (some d) false ⟨some (r c), if ccOf m then some (flagsFloat f (r c) false) else none, p c⟩)

/-- A word of one source of a float format with V = 0. -/
def FloatOne (mk : Hdr → Opnd → Opnd → Option Pat → Option Mod → Instr) (row : FloatRow) (spec : FFmt → Rm → Nat → Nat → Prop) : Prop :=
  ∀ (s : State) (h : Hdr) (d a : Opnd) (b : Option Pat) (m : Option Mod) (x : Ctx → Read),
    (∀ k, m = some k → row.tyOk k = true) → CanRun s h (lenOf m) →
    (∀ c, Member s (lenOf m) c → c.destOk false d = true ∧ c.read1 (.flt (fmtOf (tyOf m .f32))) false a b = .ok (x c)) →
    let f := fmtOf (tyOf m .f32)
    ∃ r : Ctx → Nat, (∀ c, Member s (lenOf m) c → spec f (rmOf m) ((x c).x % 2 ^ fmtWidth f) (r c)) ∧
      Completes (mk h d a b m) s h (lenOf m) (fun c =>
        c.th.putResult (some d) false ⟨some (r c), if ccOf m then some (flagsFloat f (r c) false) else none, (x c).a⟩)

/-- The number of a finite value. -/
def ratOf : XR → ℚ
  | .fin s n d => if s then -((n : ℚ) / d) else (n : ℚ) / d
  | _ => 0

/-- A value that is neither a NaN nor an infinity. -/
def isFin (x : XR) : Bool := !x.isNan && !x.isInf

/-- A special function: its result lands as one long write of a register and, in the .cc form, the flags, with V on overflow only. -/
def SpecialWord (mk : Hdr → Opnd → Opnd → Option Pat → Option Mod → Instr) (row : FloatRow) (g : SFn) : Prop :=
  ∀ (s : State) (h : Hdr) (d a : Opnd) (b : Option Pat) (m : Option Mod) (rs : Ctx → List Nat) (x : Ctx → Read),
    (∀ k, m = some k → row.tyOk k = true) → CanRun s h (lenOf m) →
    (∀ c, Member s (lenOf m) c → c.longDest d 1 1 = .ok (rs c) ∧ c.th.longCount < 8 ∧
      c.read1 (.flt (fmtOf (tyOf m .f32))) false a b = .ok (x c)) →
    Completes (mk h d a b m) s h (lenOf m) (fun c =>
      let f := fmtOf (tyOf m .f32)
      let q := special g f (rmOf m) (fmtValue f (x c).x)
      let l := if ccOf m then flagsFloat f q.enc q.ovf else ⟨false, false, false, false⟩
      c.th.addPend { pendOf c.th.freshId false (rs c) [q.enc] with
        ccDest := ccOf m || (x c).a.isSome, ccF := ccOf m, ccA := (x c).a.isSome,
        ccVal := some ⟨l.c, l.z, l.n, l.v, (x c).a.getD false⟩ })

/-- Table 9.4 with R199 and R200, for one source encoding: what a NaN, an infinity, a zero, a negative source and a source with an exact
result give, and that V is 0 there; a reciprocal beyond every finite number gives an infinity with V = 1. -/
def SpecialTable (f : FFmt) (rm : Rm) (nan inf x : Nat) : Prop :=
  let v := fmtValue f x
  let out (g : SFn) : Rounded := special g f (if g = .sqrt then rm else .rne) v
  let zero (s : Bool) : Rounded := ⟨fmtSign f s, false⟩
  let infty (s : Bool) : Rounded := ⟨fmtSign f s + inf, false⟩
  let exactly (g : SFn) (q : ℚ) : Prop :=
    (∃ y, y < 2 ^ fmtWidth f ∧ isFin (fmtValue f y) = true ∧ ratOf (fmtValue f y) = q) →
      isFin (fmtValue f (out g).enc) = true ∧ ratOf (fmtValue f (out g).enc) = q ∧ (out g).ovf = false
  (v = .nan → ∀ g, out g = ⟨nan, false⟩) ∧
  (v = .inf false → out .rcp = zero false ∧ out .rsq = zero false ∧ out .sqrt = infty false ∧ out .exp2 = infty false ∧
    out .log2 = infty false) ∧
  (v = .inf true → out .rcp = zero true ∧ out .rsq = ⟨nan, false⟩ ∧ out .sqrt = ⟨nan, false⟩ ∧ out .exp2 = zero false ∧
    out .log2 = ⟨nan, false⟩) ∧
  (v.isInf = true → out .sin = ⟨nan, false⟩ ∧ out .cos = ⟨nan, false⟩) ∧
  (∀ s e, v = .fin s 0 e → out .rcp = infty s ∧ out .rsq = infty s ∧ out .sqrt = zero s ∧ out .log2 = infty true ∧
    out .sin = zero s ∧ exactly .cos 1 ∧ exactly .exp2 1) ∧
  (ratOf v < 0 → out .rsq = ⟨nan, false⟩ ∧ out .sqrt = ⟨nan, false⟩ ∧ out .log2 = ⟨nan, false⟩) ∧
  (0 < |ratOf v| → |ratOf v| < (2 : ℚ) ^ (-128 : ℤ) → out .rcp = ⟨fmtSign f v.neg? + inf, true⟩) ∧
  (ratOf v = 1 → out .log2 = zero false) ∧
  (∀ k : ℤ, |ratOf v| = (2 : ℚ) ^ k → exactly .rcp (ratOf v)⁻¹) ∧
  (∀ k : ℤ, ratOf v = (4 : ℚ) ^ k → exactly .rsq ((2 : ℚ) ^ (-k))) ∧
  (∀ q : ℚ, 0 < q → ratOf v = q * q → exactly .sqrt q) ∧
  (∀ k : ℤ, isFin v = true → ratOf v = k → exactly .exp2 ((2 : ℚ) ^ k)) ∧
  ∀ k : ℤ, ratOf v = (2 : ℚ) ^ k → exactly .log2 k

/-- The bits of the source that a conversion reads. -/
def cvtSource (w i x : Nat) : Nat := if w = 32 then x else x / 2 ^ (w * i) % 2 ^ w

/-- A conversion: sub-element `i` of the destination takes the encoding and every other bit of it stays (R202). -/
def ConvWord (i : Hdr → Opnd → Opnd → Option Mod → Instr) (se : Elem) (sw dw : Nat) (conv : Rm → Bool → Nat → Nat → Converted → Prop)
    (flags : Converted → Flags4) : Prop :=
  ∀ (s : State) (h : Hdr) (d a : Opnd) (m : Option Mod) (x o r : Ctx → Nat) (y : Ctx → Converted),
    (∀ k, m = some k → k.ty = .f32) → CanRun s h (lenOf m) →
    (sw < 32 → indexOf m < 32 / sw) → (dw < 32 → indexOf m < 32 / dw) →
    (∀ c, Member s (lenOf m) c → c.destOk false d = true ∧ c.src se a = .ok (x c) ∧ (dw < 32 → c.src (.int 32) d = .ok (o c)) ∧
      (rmOf m = .sr → ∃ k, m = some k ∧ c.src (.int 32) k.c = .ok (r c)) ∧ (rmOf m ≠ .sr → r c = 0) ∧
      conv (rmOf m) (satOf m) (r c % 2 ^ 16) (cvtSource sw (indexOf m) (x c)) (y c)) →
    ∃ z : Ctx → Nat, (∀ c, Member s (lenOf m) c →
        if dw = 32 then z c = (y c).enc
        else ∀ j, j < 32 / dw → sub dw (z c) j = if j = indexOf m then (y c).enc % 2 ^ dw else sub dw (o c) j) ∧
      Completes (i h d a m) s h (lenOf m) (fun c =>
        c.th.putResult (some d) false ⟨some (z c), if ccOf m then some (flags (y c)) else none, none⟩)

/-- A packed word of `n` sub-elements of `w` bits: `g` gives each one's encoding and flags; the flags merge by OR (R124). -/
def PackWord (mk : Hdr → Opnd → Opnd → Opnd → Option Mod → Instr) (row : FloatRow) (dflt : Ty) (el : Ty → Elem) (fma : Bool) (w n : Nat)
    (g : Option Mod → Nat → Nat → Nat → Nat → Nat × Flags4) : Prop :=
  ∀ (s : State) (h : Hdr) (d a b : Opnd) (m : Option Mod) (x y z r : Ctx → Nat) (p : Ctx → Option Bool),
    (∀ k, m = some k → row.tyOk k = true) → CanRun s h (lenOf m) →
    (∀ c, Member s (lenOf m) c → FloatOperands c (el (tyOf m dflt)) fma d a b m (x c) (y c) (z c) (r c) (p c)) →
    ∃ v : Ctx → Nat, (∀ c, Member s (lenOf m) c → v c < 2 ^ 32 ∧ ∀ j, j < n →
        sub w (v c) j = (g m (sub w (r c) j) (sub w (x c) j) (sub w (y c) j) (sub w (z c) j)).1 % 2 ^ w) ∧
      Completes (mk h d a b m) s h (lenOf m) (fun c =>
        let l := (List.range n).map (fun j => (g m (sub w (r c) j) (sub w (x c) j) (sub w (y c) j) (sub w (z c) j)).2)
        c.th.putResult (some d) false ⟨some (v c),
          if ccOf m then some ⟨l.any (·.c), l.any (·.z), l.any (·.n), l.any (·.v)⟩ else none, p c⟩)

/-- The elements and result of one half of HADD2, HMUL2 and HFMA2. -/
def halfArith (fma : Bool) (g : Rm → XR → XR → XR → XR) (m : Option Mod) (r x y z : Nat) : Nat × Flags4 :=
  let f := fmtOf (tyOf m .f16)
  let u := fmtValue f x
  let v := fmtValue f y
  let w := fmtValue f z
  roundedArith f m r 16 (if fma then [u, v, w] else [u, v]) (g (rmOf m) u v w)

/-- The element kind of a word of four 8-bit sub-elements. -/
def el4 (t : Ty) : Elem := if t = .s8 ∨ t = .z8 then .packInt 8 else .packFlt (fmtOf t)

/-- An exact integer into .s8 or .z8: modulo 256, or clamped under .sat; V where it lies outside. -/
def fit8 (m : Option Mod) (e : Int) : Nat × Flags4 :=
  let s := decide (tyOf m .e4m3 = .s8)
  let lo : Int := if s then -128 else 0
  let hi : Int := if s then 127 else 255
  let r := ((if satOf m then max lo (min hi e) else e) % 256).toNat
  (r, ⟨false, decide (r = 0), s && r.testBit 7, decide (e < lo ∨ hi < e)⟩)

/-- The value of a byte in .s8 or .z8. -/
def int8 (m : Option Mod) (x : Nat) : Int := if tyOf m .e4m3 = .s8 then sInt 8 x else x

/-- One sub-element of PADD4 and PMUL4. -/
def arith4 (fi : Int → Int → Int) (g : Rm → XR → XR → XR → XR) (m : Option Mod) (r x y _z : Nat) : Nat × Flags4 :=
  let t := tyOf m .e4m3
  if t = .s8 ∨ t = .z8 then fit8 m (fi (int8 m x) (int8 m y))
  else
    let u := fmtValue (fmtOf t) x
    let v := fmtValue (fmtOf t) y
    roundedArith (fmtOf t) m r 8 [u, v] (g (rmOf m) u v .zero)

/-- One sub-element of PMIN4 and PMAX4. -/
def pick4 (isMax : Bool) (m : Option Mod) (_r x y _z : Nat) : Nat × Flags4 :=
  let t := tyOf m .e4m3
  if t = .s8 ∨ t = .z8 then fit8 m (if isMax then max (int8 m x) (int8 m y) else min (int8 m x) (int8 m y))
  else
    let r := fminmax (fmtOf t) isMax x y
    (r, flagsFloat (fmtOf t) r false)

/-- One accumulation of R125: the exact sum, wrapped or clamped, and whether it lay outside. -/
def dotStep (sat : Bool) (p : Nat × Bool) (e : Int) : Nat × Bool :=
  let s := sInt 32 p.1 + e
  ((((if sat then max (-2 ^ 31) (min (2 ^ 31 - 1) s) else s) % 2 ^ 32).toNat), p.2 || decide (s < -2 ^ 31 ∨ 2 ^ 31 ≤ s))

/-- DOT4 and DOT8: `w` is 8 or 4. -/
def DotWord (mk : Hdr → Opnd → Opnd → Opnd → Option Mod → Instr) (w : Nat) : Prop :=
  ∀ (s : State) (h : Hdr) (d a b : Opnd) (m : Option Mod) (x y z : Ctx → Nat) (p : Ctx → Option Bool),
    ModKind.okOpt .dot m = true → CanRun s h (lenOf m) →
    (∀ c, Member s (lenOf m) c → c.destOk false d = true ∧ c.read2 (.packInt w) false a b = .ok (x c, y c, p c) ∧
      c.src (.int 32) d = .ok (z c)) →
    Completes (mk h d a b m) s h (lenOf m) (fun c =>
      let pc := (tyOf m .b32).code
      let e (sg : Bool) (v j : Nat) : Int := if sg then sInt w (sub w v j) else sub w v j
      let q := ((List.range (32 / w)).map (fun j => e (decide (pc < 2)) (x c) j * e (decide (pc = 0 ∨ pc = 2)) (y c) j)).foldl
        (dotStep (satOf m)) (z c, false)
      c.th.putResult (some d) false ⟨some q.1, flagsIf (ccOf m) 32 q.1 false q.2, p c⟩)

/-- A live lane of the thread's team, as it stood before the word. -/
def Live (c : Ctx) (l : Nat) (q : Ctx) : Prop := c.partnerCtx l = some q

/-- A lane word's outstanding write: registers and A, which says that a lane was not live (R43, R209). -/
def laneWrite (c : Ctx) (rs vals : List Nat) (dead : Bool) : Thread :=
  c.th.addPend { pendOf c.th.freshId false rs vals with ccDest := true, ccA := true, ccVal := some ⟨false, false, false, false, dead⟩ }

/-- Some lane of the team is not live. -/
def someDead (c : Ctx) : Bool := (List.range 64).any (fun l => (c.partnerCtx l).isNone)

/-- The tree of R128: what lane `l` holds after `j` steps. -/
def treeAt (op : Nat → Nat → Nat) (x : Nat → Nat) : Nat → Nat → Nat
  | 0, l => x l
  | j + 1, l => op (treeAt op x j l) (treeAt op x j (l ^^^ 64 / 2 ^ (j + 1)))

/-- The prefix of R211 that lane `l` holds after `j` steps. -/
def scanAt (op : Nat → Nat → Nat) (x : Nat → Nat) : Nat → Nat → Nat
  | 0, l => x l
  | j + 1, l => if 2 ^ j ≤ l then op (scanAt op x j (l - 2 ^ j)) (scanAt op x j l) else scanAt op x j l

/-- `x c` gives every lane's operand, zero from a lane that is not live. -/
def LaneValues (s : State) (x : Ctx → Nat → Nat) (read : Ctx → Except Nat Nat) : Prop :=
  ∀ c, Member s 1 c → ∀ l, l < 64 → (∀ q, Live c l q → read q = .ok (x c l)) ∧ (c.partnerCtx l = none → x c l = 0)

/-- A mask word: bit `l` of the pair is set exactly where lane `l` is live and meets the test. -/
def MaskWord (i : Instr) (h : Hdr) (d : Opnd) (s : State) (test : Ctx → Ctx → Prop) : Prop :=
  ∀ rs : Ctx → List Nat, CanRun s h 1 → (∀ c, Member s 1 c → c.longDest d 2 2 = .ok (rs c) ∧ c.th.longCount < 8) →
    ∃ lo hi : Ctx → Nat, (∀ c, Member s 1 c → lo c < 2 ^ 32 ∧ hi c < 2 ^ 32 ∧
        ∀ l, l < 64 → ((lo c + hi c * 2 ^ 32).testBit l = true ↔ ∃ q, Live c l q ∧ test c q)) ∧
      Completes i s h 1 (fun c => laneWrite c (rs c) [lo c, hi c] (someDead c))

/-! ## Terms: device events -/

/-- No range-format window is enabled and no region is tracked: a write at the home changes its own bytes alone. -/
structure Bare (s : State) : Prop where
  windows : s.sys.rangeFmt = []
  regions : ∀ p ∈ s.parts, bits p.2.trk 11 0 = 0

/-- Workgroup `k` leaves and no other changes. -/
def Left (s u : State) (k : Nat) : Prop := u.wgs.find? k = none ∧ ∀ j, j ≠ k → u.wgs.find? j = s.wgs.find? j

/-- One column changes and the rest of the machine stands. -/
def ColumnTo (s u : State) (c : Nat) (x : Col) : Prop := u = { s with cols := u.cols } ∧ u.col c = x ∧ ∀ d, d ≠ c → u.col d = s.col d

/-- The reasons of `l` with `r` among them. -/
def WithReason (l : List Nat) (r : Nat) (l' : List Nat) : Prop := ∀ x, x ∈ l' ↔ x = r ∨ x ∈ l

/-- The candidates of a pre-emption request: the plots in the launch's columns under slots of lower prio (R348). -/
def requestCandidates (s : State) (part e : Nat) : List Victim :=
  ((s.boundSlots part e).flatMap (fun b => s.candidates b.1 (slPrio (FMap.get 0 (s.col b.1).slots b.2)))).dedup

/-! ## Terms: engines, graphics and versions -/

/-- A channel of a core. -/
def chanOf (s : State) (core chan : Nat) : Chan := (s.core core).chans.get Chan.zero chan

/-- A scratchpad's place. -/
def InSpad (s : State) (l : Loc) : Prop := 3 ≤ l.space ∧ l.space < 2 ^ 20 ∧ ∃ w, s.wgs.find? (l.space - 3) = some w

/-- A task of a column's scheduler with no other of its number, partition and stream. -/
def OneTask (s : State) (col : Nat) (t : Task) : Prop :=
  t ∈ (s.col col).tasks ∧ t.core / 8 = col ∧
    ∀ x ∈ (s.col col).tasks, x.num = t.num → x.part = t.part → tkStream x.rcd = tkStream t.rcd → x = t

/-- The task on an engine. -/
def OnEngine (s : State) (col eng : Nat) (t : Task) : Prop :=
  OneTask s col t ∧ t.eng = some eng ∧ ∀ x ∈ (s.col col).tasks, x.eng = some eng → x = t

/-- The sample words that a pass writes to a sample, of those triangles of a list that cover it, in their order: the depth above the draw's
index and the primitive's (Table 11.1). -/
def sampleWords (r : Nat) (tris : List Binned) (x y i : Nat) : List Nat :=
  let at1 := samplePos r x y i
  tris.filterMap (fun b => (triOf b.verts).bind (fun t =>
    if t.clockwise.covers at1.1 at1.2 = true then
      (t.clockwise.depth at1.1 at1.2).map (fun z => z * 2 ^ 40 + drDraw b.draw * 2 ^ 24 + b.prim)
    else none))

/-- The samples of a bin of 64 × 64 pixels that lie on the screen. -/
def InBin (r bin x y i : Nat) : Prop :=
  x / 64 = bin % rpBinsX r ∧ y / 64 = bin / rpBinsX r ∧ x < rpWidth r ∧ y < rpHeight r ∧ i < rpSamples r

/-- A pass's samples lie at the places `pos` gives, 8 bytes each and apart, in no line that the host may hold, and no write of a sample moves
one. -/
def SamplesAt (s : State) (p : Pass) (l : Launch) (bin : Nat) (pos : Nat → Nat → Nat → Nat) : Prop :=
  let r := l.rcd
  (∀ x y i x' y' i', InBin r bin x y i → InBin r bin x' y' i' → (x, y, i) ≠ (x', y', i') →
    pos x y i + 8 ≤ pos x' y' i' ∨ pos x' y' i' + 8 ≤ pos x y i) ∧
  (∀ x y i, InBin r bin x y i → s.linkHeld (pos x y i) = false) ∧
  ∀ (mem : List Host.Cell), let t := { s with mem := mem }
    (∀ a, (∀ x y i, InBin r bin x y i → a < pos x y i ∨ pos x y i + 8 ≤ a) → t.rd a = s.rd a) →
    ∀ x y i, InBin r bin x y i → ∃ va, sampleElem l (x, y, i) = some va ∧ va % 8 = 0 ∧ t.xlate p.part va true true false = .ok (pos x y i) false

/-- A display's presentation event: the count advances, the newest released flip takes effect and the older ones count as skipped. -/
def Presented (s u : State) (y : Nat) : Prop :=
  bits (u.disp y).stat 63 0 = (bits (s.disp y).stat 63 0 + 1) % 2 ^ 64 ∧ (u.disp y).queue = [] ∧ (u.disp y).cfg = (s.disp y).cfg ∧
  (u.disp y).time = (s.disp y).time ∧ (∀ z, z ≠ y → u.disp z = s.disp z) ∧ u.wgs = s.wgs ∧ MemSame s u ∧
  ((s.disp y).queue = [] → (u.disp y).current = (s.disp y).current ∧ bits (u.disp y).stat 79 64 = bits (s.disp y).stat 79 64) ∧
  (∀ l x e, (s.disp y).queue = l ++ [(x, e)] → x < 256 → (u.disp y).current = e ∧ bits (u.disp y).stat 71 64 = x ∧
    bits (u.disp y).stat 79 72 = satAdd 8 (bits (s.disp y).stat 79 72) l.length) ∧
  u.sys.msix = s.sys.msix ++ if (s.disp y).time.testBit 33 then [32 + y] else []

/-! ## Terms: host, registers and services -/

/-- The bytes of `l` lie at `a`, and every other byte reads as before. -/
def MemPut (s u : State) (a : Nat) (l : List Byte) : Prop :=
  ∀ b, u.rd b = if a ≤ b ∧ b < a + l.length then l.getD (b - a) 0 else s.rd b

/-- One partition changes and the rest of the machine stands. -/
def PartTo (s u : State) (n : Nat) (p : Part) : Prop := u = { s with parts := u.parts } ∧ u.part n = p ∧ ∀ m, m ≠ n → u.part m = s.part m

/-- The system registers change to `y` and the rest of the machine stands. -/
def SysTo (s u : State) (y : Sys) : Prop := u = { s with sys := y }

/-- The host or a peer reaches the device: a port is up, runs CXL and does not retrain (R378, R384). -/
def HostReaches (s : State) : Prop :=
  ∃ p, p < 2 ∧ s.sys.portUp.getD p false = true ∧ s.sys.portCxl.getD p false = true ∧ s.retraining ≠ some p

/-- Host windows let the firmware read or write `n` bytes of host memory from `pa` on (R331). -/
def WindowsGrant (s : State) (pa n bitNo : Nat) : Prop :=
  pa + n ≤ 2 ^ 52 ∧ ∀ i, i < n → ∃ w ∈ s.sys.hostWin, w.2.testBit 0 = true ∧ w.2.testBit bitNo = true ∧
    bits w.2 63 12 ≤ (pa + i) % 2 ^ 51 / 4096 ∧ (pa + i) % 2 ^ 51 / 4096 ≤ bits w.2 115 64

/-- A privileged write is refused: only PRIV_ERR changes; it counts, and keeps the offset of the first since its clear (R322). -/
def RefusedAt (s u : State) (off : Nat) : Prop :=
  SysTo s u { s.sys with privErr := u.sys.privErr } ∧ bits u.sys.privErr 63 32 = satInc 32 (bits s.sys.privErr 63 32) ∧
  bits u.sys.privErr 31 0 = if bits s.sys.privErr 63 32 = 0 then off % 2 ^ 32 else bits s.sys.privErr 31 0

/-- ERR_LOG counts a violation, and keeps the first one's cause, source and address (R375). -/
def ErrLogged (s u : State) (cause source addr : Nat) : Prop :=
  bits u.sys.errLog 127 96 = satInc 32 (bits s.sys.errLog 127 96) ∧
  (bits s.sys.errLog 127 96 = 0 → bits u.sys.errLog 87 84 = cause ∧ bits u.sys.errLog 83 80 = source ∧
    bits u.sys.errLog 56 0 = addr % 2 ^ 57)

/-- The one parked access waits for a thread's fetch, and no write waits for the host. -/
def OneFetch (s : State) (k i : Nat) (p : Parked) (w : Wg) (t : Thread) : Prop :=
  (∃ key, s.parked = [(key, p)]) ∧ s.snoops = [] ∧ p.who = .fetch k [i] ∧ p.types = 4 ∧ s.wgs.find? k = some w ∧
  w.threads.find? i = some t ∧ t.st = .wait ∧ (∀ q ∈ w.threads, q.1 = i → q.2 = t)

/-- A held trap of one thread of a resident workgroup. -/
def HeldTrap (s : State) (part id k i : Nat) (r : TrapRec) (w : Wg) (t : Thread) : Prop :=
  s.parts.find? part = some (s.part part) ∧ (s.part part).traps.find? id = some r ∧ r.wk = k ∧ k ≠ 2 ^ 32 ∧ r.threads = [i] ∧
  s.wgs.find? k = some w ∧ w.threads.find? i = some t ∧ t.st = .trapped ∧ t.trap = id

/-- The fields of a mailbox command that has finished. -/
def MailboxDone (s u : State) (op : Nat) (arg : BitVec 64) (err : Bool) : Prop :=
  u.sys.mboxCmd = 2 ^ 62 + bnat err * 2 ^ 61 + op ∧ u.sys.mboxArg = arg.toNat ∧ u.wgs = s.wgs

end Sys2Proof.Claims

open Sys2Proof Sys2Proof.Machine Sys2Proof.Claims

/-- ADD, SUB, ADDC and SUBB of every type, form and operand write the sum or difference, C, Z, N and V of R160 and R158, read the
carry as it stood before the word or its chained group, and leave the rest of the machine as it was. -/
def Obligations.IntegerAddSub : Prop :=
  Int3 .add [.b32, .s32, .z32, .b64] [.s32, .z32] .b32 (fun _ t sat w a b => addSpec false t sat w a b) ∧
  Int3 .sub [.b32, .s32, .z32, .b64] [.s32, .z32] .b32 (fun _ t sat w a b => subSpec false t sat w a b) ∧
  Int3 .addc [.b32, .s32, .z32, .b64] [] .b32 (fun cin t sat w a b => addSpec cin t sat w a b) ∧
  Int3 .subb [.b32, .s32, .z32, .b64] [] .b32 (fun cin t sat w a b => subSpec (!cin) t sat w a b)

/-- MUL, MULHI and MAD write the product, its high half, or product plus addend; .sat clamps; V says the exact value lies outside. -/
def Obligations.IntegerMultiply : Prop :=
  Int3 .mul [.b32, .s32, .z32] [.s32, .z32] .b32 (fun _ t sat _ a b => fitSpec t sat (signedAs t a * signedAs t b)) ∧
  Int3 .mulhiS32 [.b32] [] .b32 (fun _ _ _ _ a b => ((sInt 32 a * sInt 32 b / 2 ^ 32) % 2 ^ 32 |>.toNat, false, false)) ∧
  Int3 .mulhiZ32 [.b32] [] .b32 (fun _ _ _ _ a b => (a * b / 2 ^ 32, false, false)) ∧
  Int4 .mad [.b32, .s32, .z32] [.s32, .z32] (fun t sat a b c => fitSpec t sat (signedAs t a * signedAs t b + signedAs t c))

/-- SHL, SHR, SAR and ROT of every amount 0 to 255 and both widths. -/
def Obligations.Shifts : Prop :=
  Shift .shl (fun w a n => (if w ≤ n then 0 else a * 2 ^ n % 2 ^ w, decide (1 ≤ n ∧ n ≤ w) && a.testBit (w - n))) ∧
  Shift .shr (fun w a n => (if w ≤ n then 0 else a / 2 ^ n, decide (1 ≤ n ∧ n ≤ w) && a.testBit (n - 1))) ∧
  Shift .sar (fun w a n => (sInt w a / 2 ^ min n (w - 1) % 2 ^ w |>.toNat,
    if n = 0 then false else a.testBit (min n w - 1))) ∧
  Shift .rot (fun w a n => let k := n % w; let r := a * 2 ^ k % 2 ^ w + a / 2 ^ (w - k); (r, decide (k ≠ 0) && r.testBit 0))

/-- AND, OR, XOR and ANDN bit by bit; MIN and MAX in the order of their opcode, a where they are equal. -/
def Obligations.LogicMinMax : Prop :=
  Int3 .and [.b32, .s32, .z32, .b64] [] .b32 (fun _ _ _ _ a b => (a &&& b, false, false)) ∧
  Int3 .or [.b32, .s32, .z32, .b64] [] .b32 (fun _ _ _ _ a b => (a ||| b, false, false)) ∧
  Int3 .xor [.b32, .s32, .z32, .b64] [] .b32 (fun _ _ _ _ a b => (a ^^^ b, false, false)) ∧
  Int3 .andn [.b32, .s32, .z32, .b64] [] .b32 (fun _ _ _ w a b => (a &&& (b ^^^ (2 ^ w - 1)), false, false)) ∧
  Int3 .minS32 [.b32] [] .b32 (fun _ _ _ _ a b => (if sInt 32 b < sInt 32 a then b else a, decide (sInt 32 b < sInt 32 a), false)) ∧
  Int3 .minZ32 [.b32] [] .b32 (fun _ _ _ _ a b => (min a b, decide (b < a), false)) ∧
  Int3 .maxS32 [.b32] [] .b32 (fun _ _ _ _ a b => (if sInt 32 a < sInt 32 b then b else a, decide (sInt 32 a < sInt 32 b), false)) ∧
  Int3 .maxZ32 [.b32] [] .b32 (fun _ _ _ _ a b => (max a b, decide (a < b), false))

/-- ABS, NEG, CLZ, POPC, BREV, BFX and BFI. -/
def Obligations.BitWords : Prop :=
  Int1 .abs [.s32] [.s32] .s32 false (fun sat _ x r =>
    r = if x = 2 ^ 31 then (if sat then 2 ^ 31 - 1 else 2 ^ 31, true) else ((sInt 32 x).natAbs, false)) ∧
  Int1 .neg [.s32] [.s32] .s32 false (fun sat _ x r =>
    r = if x = 2 ^ 31 then (if sat then 2 ^ 31 - 1 else 2 ^ 31, true) else ((2 ^ 32 - x) % 2 ^ 32, false)) ∧
  Int1 .clz [.b32, .b64] [] .b32 false (fun _ w x r =>
    r.2 = false ∧ (x = 0 → r.1 = w) ∧ (x ≠ 0 → r.1 < w ∧ 2 ^ (w - 1 - r.1) ≤ x ∧ x < 2 ^ (w - r.1))) ∧
  Int1 .popc [.b32, .b64] [] .b32 false (fun _ w x r => r = ((List.range w).countP (fun i => x.testBit i), false)) ∧
  Int1 .brev [.b32, .b64] [] .b32 true (fun _ w x r =>
    r.2 = false ∧ r.1 < 2 ^ w ∧ ∀ i, i < w → r.1.testBit (w - 1 - i) = x.testBit i) ∧
  Int3 .bfx [.z32, .s32] [] .z32 (fun _ t _ _ a b =>
    let f := fieldOf a (posOf b) (lenPrime b)
    (if lenPrime b = 0 then 0
     else if t = .s32 ∧ 2 ^ (lenPrime b - 1) ≤ f then f + (2 ^ 32 - 2 ^ lenPrime b) else f, false, false)) ∧
  Int4 .bfi [.b32] [] (fun _ _ a b base =>
    (base % 2 ^ posOf b + a % 2 ^ lenPrime b * 2 ^ posOf b
      + base / 2 ^ (posOf b + lenPrime b) * 2 ^ (posOf b + lenPrime b), false, false))

/-- CMP and TST write the four flags and no register; SEL writes one of its operands by a condition on the thread's own CC. -/
def Obligations.CompareTestSelect : Prop :=
  FlagWord .cmp (fun t w a b =>
    ⟨decide (b ≤ a), decide (a = b), if t = .z32 then decide (a < b) else decide (sInt w a < sInt w b), false⟩) ∧
  FlagWord .tst (fun _ w a b => ⟨false, decide ((a &&& b) % 2 ^ w = 0), (a &&& b).testBit (w - 1), false⟩) ∧
  ∀ (s : State) (h : Hdr) (d a b : Opnd) (m : Mod) (x y : Ctx → Nat) (p : Ctx → Option Bool),
    m.ty ∈ [Ty.b32, Ty.b64] → m.sat = false → CanRun s h 2 →
    (∀ c, Member s 2 c → c.destOk (m.ty == .b64) d = true ∧
      c.read2 (.int (tyBits m.ty)) (m.ty == .b64) a b = .ok (x c, y c, p c)) →
    Completes (.sel h d a b m) s h 2 (fun c =>
      let r := if condHolds (Cond.ofCode m.cond.val) c.view.cc then x c else y c
      c.th.putResult (some d) (m.ty == .b64) ⟨some r, flagsIf m.cc (tyBits m.ty) r false false, p c⟩)

/-- MOV, MOVI with and without its extension, and MOVHI. -/
def Obligations.Moves : Prop :=
  Int1 .mov [.b32, .s32, .z32, .b64] [] .b32 true (fun _ _ x r => r = (x, false)) ∧
  (∀ imm : BitVec 14, SetWord (fun h d => .movi h d imm) 1 (fun _ => (imm.signExtend 32).toNat)) ∧
  (∀ (imm : BitVec 14) (hi : BitVec 18), SetWord (fun h d => .moviImm h d imm hi) 2 (fun _ => (hi ++ imm).toNat)) ∧
  ∀ (s : State) (h : Hdr) (d : Fin 32) (imm : BitVec 16), CanRun s h 1 →
    (∀ c, Member s 1 c → d.val < c.wg.budget c.idx) →
    Completes (.movhi h d imm) s h 1 (fun c =>
      c.th.putV d.val (imm ++ (FMap.get 0 c.view.v d.val).setWidth 16))

/-- NOP changes nothing; SREAD reads its status; XSET, XLD and XST use the index registers; KSET writes one uniform register of its workgroup
and nothing of any other: the writing thread has no older value left to read, and the others no older one than those they had and the one
replaced; of the threads of one group that write it the highest lane's value stands. -/
def Obligations.IndexStatusUniform : Prop :=
  ((∀ (s : State) (h : Hdr) (bud : BitVec 9), CanRun s h 1 → Completes (.nop h bud) s h 1 (fun c => c.th)) ∧
  (∀ n : SCode, SetWord (fun h d => .sread h d n) 1 (fun c =>
    match n with
    | .lane => c.idx % 64
    | .width => 64
    | .tid => c.idx
    | .wgid => c.wg.wgid
    | .plot => c.wg.plot
    | .stage => c.wg.stageOf c.idx
    | .tag => c.wg.tag
    | .core => c.pre.coreNum c.wg.core
    | .cycle => (c.pre.clock - (c.pre.col (c.wg.core / 8)).base) % 2 ^ 32)) ∧
  (∀ (s : State) (h : Hdr) (j : Fin 4) (len : BitVec 9) (base : BitVec 8), CanRun s h 1 → base.toNat + len.toNat ≤ 256 →
    Completes (.xset h j len base) s h 1 (fun c => { c.th with x := FMap.set 0 c.th.x j.val ((0 : BitVec 15) ++ len ++ base) })) ∧
  (∀ (s : State) (h : Hdr) (d : Opnd) (j : Fin 4) (idx : Opnd) (i : Ctx → Nat), CanRun s h 1 →
    (∀ c, Member s 1 c → c.destOk false d = true ∧ c.src (.int 32) idx = .ok (i c) ∧
      i c < xLen (FMap.get 0 c.view.x j.val) ∧ xBase (FMap.get 0 c.view.x j.val) + i c < c.wg.budget c.idx) →
    Completes (.xld h d j idx) s h 1 (fun c =>
      c.th.putResult (some d) false
        ⟨some (FMap.get 0 c.view.v (xBase (FMap.get 0 c.view.x j.val) + i c)).toNat, none, none⟩)) ∧
  ∀ (s : State) (h : Hdr) (r : Opnd) (j : Fin 4) (idx : Opnd) (y i : Ctx → Nat), CanRun s h 1 →
    (∀ c, Member s 1 c → ((∃ n, r = .v n) ∨ ∃ n, r = .t n) ∧ c.src (.int 32) r = .ok (y c) ∧ c.src (.int 32) idx = .ok (i c) ∧
      i c < xLen (FMap.get 0 c.view.x j.val) ∧ xBase (FMap.get 0 c.view.x j.val) + i c < c.wg.budget c.idx) →
    Completes (.xst h r j idx) s h 1 (fun c =>
      c.th.putV (xBase (FMap.get 0 c.view.x j.val) + i c) (BitVec.ofNat 32 (y c)))) ∧
  (∀ (s : State) (c : Ctx) (h : Hdr) (n : Fin 16) (a : Opnd) (b : Option Pat) (x : Read), Solo s h 1 c →
    c.read1 (.int 32) false a b = .ok x →
    Results (.kset h (.k n) a b) s h c (c.th.putResult none false ⟨none, none, x.a⟩) (fun u => MemSame s u ∧ SpadSame s u ∧
      (∀ k, k ≠ c.wk → u.wgs.find? k = s.wgs.find? k) ∧
      ∃ w, u.wgs.find? c.wk = some w ∧ w.flush = false ∧
        (∀ j, FMap.get 0 w.k j = if j = n.val then BitVec.ofNat 32 x.x else FMap.get 0 c.wg.k j) ∧
        ∀ e ∈ w.kold, (e.reader = c.idx → e.reg ≠ n.val) ∧ (e ∈ c.wg.kold ∨ e.reg = n.val ∧ e.val = FMap.get 0 c.wg.k n.val))) ∧
  ∀ (s : State) (h : Hdr) (n : Fin 16) (a : Opnd) (b : Option Pat) (x : Ctx → Read), CanRun s h 1 → InLaneOrder s →
    (∀ c, Member s 1 c → c.read1 (.int 32) false a b = .ok (x c)) →
    ∃ u, exec (.kset h (.k n) a b) s = .next u ∧ MemSame s u ∧ SpadSame s u ∧
      (∀ c, Member s 1 c → u.thread? c.wk c.idx =
        some (c.advanced h none c.th.obj c.after (c.th.putResult none false ⟨none, none, (x c).a⟩))) ∧
      (∀ k i, (k, i) ∉ s.group → u.thread? k i = s.thread? k i) ∧
      (∀ k, (∀ c, Member s 1 c → c.wk ≠ k) → u.wgs.find? k = s.wgs.find? k) ∧
      ∀ c, Member s 1 c → (∀ e, Member s 1 e → e.wk = c.wk → e.idx % 64 ≤ c.idx % 64) →
        ∃ w, u.wgs.find? c.wk = some w ∧ w.flush = false ∧
          ∀ j, FMap.get 0 w.k j = if j = n.val then BitVec.ofNat 32 (x c).x else FMap.get 0 c.wg.k j

/-- BRA sends every thread to its word's address plus 4 times the offset; BRC those whose CC meets the condition, the others to the next
word. A taken branch enters the signature. That the target wraps modulo 2^32 is the model's reading (log entry 22). -/
def Obligations.Branches : Prop :=
  (∀ (s : State) (h : Hdr) (off : BitVec 21), CanRun s h 1 →
    Goes (.bra h off) s h (fun c => ⟨c.th.obj, branchTarget c 21 off, none⟩) (fun c => signed c.th (branchTarget c 21 off))) ∧
  ∀ (s : State) (h : Hdr) (cond : Cond) (off : BitVec 17), CanRun s h 1 →
    Goes (.brc h cond off) s h
      (fun c => if condHolds cond c.view.cc then ⟨c.th.obj, branchTarget c 17 off, none⟩ else c.onward)
      (fun c => if condHolds cond c.view.cc then signed c.th (branchTarget c 17 off) else c.th)

/-- CALL and CALLI push a record that names the next word and go to an entry NOP within the budget; RET pops the newest record and goes
on where it names. That CALL's target wraps modulo 2^32, and that the target word alone says whether it is an entry NOP, is the model's
reading (log entry 22). -/
def Obligations.Calls : Prop :=
  (∀ (s : State) (h : Hdr) (off : BitVec 21), CanRun s h 1 → (∀ c, Member s 1 c → Callable c s (branchTarget c 21 off)) →
    Goes (.call h off) s h (fun c => ⟨c.th.obj, branchTarget c 21 off, none⟩)
      (fun c => signed { c.th with calls := ⟨c.th.obj, c.after⟩ :: c.th.calls } (branchTarget c 21 off))) ∧
  (∀ (s : State) (h : Hdr) (a : Opnd) (b : Option Pat) (x : Ctx → Read), CanRun s h 1 →
    (∀ c, Member s 1 c → c.read1 (.int 32) false a b = .ok (x c) ∧ (x c).x % 4 = 0 ∧ Callable c s (x c).x) →
    Goes (.calli h a b) s h (fun c => ⟨c.th.obj, (x c).x % 2 ^ 32, none⟩)
      (fun c => signed { c.th.putResult none false ⟨none, none, (x c).a⟩ with calls := ⟨c.th.obj, c.after⟩ :: c.th.calls } (x c).x)) ∧
  ∀ (s : State) (h : Hdr) (r : Ctx → CallRec) (rs : Ctx → List CallRec), CanRun s h 1 →
    (∀ c, Member s 1 c → c.th.calls = r c :: rs c) →
    Goes (.ret h) s h (fun c => ⟨(r c).obj, (r c).off % 2 ^ 32, none⟩) (fun c => signed { c.th with calls := rs c } (r c).off)

/-- EXIT awaits every outstanding write; with none the thread leaves for good with its call records gone. TRAIL adds its names to the
trailing sequence. -/
def Obligations.ExitTrail : Prop :=
  (∀ h, EndsWaiting (.exit h) 1 (fun _ => .exit) (fun _ _ => True)) ∧
  (∀ (s : State) (c : Ctx) (h : Hdr), Alone s 1 c → Quiet c →
    ∃ u t, exec (.exit h) s = .next u ∧ u.thread? c.wk c.idx = some t ∧ t.st = .exited ∧ t.calls = [] ∧ t.op = none) ∧
  ∀ (s : State) (h : Hdr) (g0 g1 g2 : TrailName), CanRun s h 1 → (∀ n, TrailName.bad n ∉ [g0, g1, g2]) →
    (∀ c, Member s 1 c → ∀ n, TrailName.v n ∈ [g0, g1, g2] → n.val < c.wg.budget c.idx) →
    Goes (.trail h g0 g1 g2) s h (fun c => ⟨c.th.obj, c.after, some (c.th.trail.getD [] ++ [g0, g1, g2])⟩) (fun c => c.th)

/-- PHASE and REQUOTA are collectives: a thread waits for its writes, and then until every live thread of its workgroup or stage stands there.
The last of them to come makes it act and all of them go on: PHASE to the entry of the lowest variant whose bound holds the size, REQUOTA
with the stage's new quota, which a raise waits for until the pool holds it. Threads that name different values all take the illegal-operand
trap. A register that a raise gains reads zero or a value that a thread of the partition has written to a free cell of its lane (R35; which
free cell it takes is log entry 37). -/
def Obligations.Collectives : Prop :=
  (∀ h n, EndsWaiting (.phase h n) 1 (fun _ => .phase n.toNat)
    (fun s c => n ≠ 0 ∧ ∃ l, s.launch? c.wg.part c.wg.ltab = some l ∧ l.vtab ≠ [])) ∧
  (∀ h q, EndsWaiting (.requota h q) 1 (fun _ => .requota q.toNat)
    (fun _ c => q.toNat % 8 = 0 ∧ 16 ≤ q.toNat ∧ q.toNat ≤ c.wg.ceil)) ∧
  (∀ (s : State) (c : Ctx) (h : Hdr) (n : BitVec 4) (l : Launch), Alone s 1 c → Quiet c → n ≠ 0 →
    s.launch? c.wg.part c.wg.ltab = some l → l.vtab ≠ [] →
    (∀ j t, j ≠ c.idx → c.wg.threads.find? j = some t → t.st ≠ .exited → t.st ≠ .phase →
      ∃ u, exec (.phase h n) s = .next u ∧ OthersSame s u c.wk c.idx ∧
        u.thread? c.wk c.idx = some { endedAt c (.phase n.toNat) with st := .phase, parg := n.toNat }) ∧
    (OthersParked c .phase (fun _ => True) → (∃ p ∈ c.wg.threads, p.1 ≠ c.idx ∧ p.2.st = .phase ∧ p.2.parg ≠ n.toNat) →
      ∃ u, exec (.phase h n) s = .next u ∧ TrapsAll u c 2 (fun _ => True))) ∧
  (∀ (s : State) (c : Ctx) (h : Hdr) (n : BitVec 4) (l : Launch) (pa v : Nat) (dup : Bool), Alone s 1 c → Quiet c → n ≠ 0 →
    s.launch? c.wg.part c.wg.ltab = some l → OthersParked c .phase (fun _ => True) →
    (∀ p ∈ c.wg.threads, p.1 ≠ c.idx → p.2.st = .phase → p.2.parg = n.toNat) → c.wg.staging = [] →
    NoLines s c.wg.unit → c.wg.tag < 64 → pa + 4 ≤ 2 ^ 52 →
    s.xlateAt c.wg (bits l.rcd 504 448) 4 true false = .ok pa dup → s.poisonedFor (some c.wg.unit) c.wg.tag pa 4 = false →
    pickVariant l.vtab (leNat (fun j => s.readHome c.wg.tag (pa + j)) 4) = some v →
    let entry := bits (l.vtab.getD v 0) (64 + 16 * (n.toNat - 1) + 15) (64 + 16 * (n.toNat - 1))
    entry ≠ 0xFFFF →
    ∃ u, exec (.phase h n) s = .next u ∧ (∀ k, k ≠ c.wk → u.wgs.find? k = s.wgs.find? k) ∧ MemSame s u ∧
      u.thread? c.wk c.idx = some { passed c with off := 4 * entry, obj := bits l.rcd 56 0 } ∧
      ∀ p ∈ c.wg.threads, p.1 ≠ c.idx → u.thread? c.wk p.1 =
        some (if p.2.st = .phase then { resumed p.2 s.clock with off := 4 * entry, obj := bits l.rcd 56 0 } else p.2)) ∧
  (∀ (s : State) (c : Ctx) (h : Hdr) (q : BitVec 9), Alone s 1 c → Quiet c → q.toNat % 8 = 0 → 16 ≤ q.toNat → q.toNat ≤ c.wg.ceil →
    (∀ j t, j ≠ c.idx → c.wg.threads.find? j = some t → c.wg.stageOf j = c.wg.stageOf c.idx → t.st ≠ .exited → t.st ≠ .requota →
      ∃ u, exec (.requota h q) s = .next u ∧ OthersSame s u c.wk c.idx ∧
        u.thread? c.wk c.idx = some { endedAt c (.requota q.toNat) with st := .requota, parg := q.toNat }) ∧
    (OthersParked c .requota (fun j => c.wg.stageOf j = c.wg.stageOf c.idx) →
      (∃ p ∈ c.wg.threads, p.1 ≠ c.idx ∧ c.wg.stageOf p.1 = c.wg.stageOf c.idx ∧ p.2.st = .requota ∧ p.2.parg ≠ q.toNat) →
      ∃ u, exec (.requota h q) s = .next u ∧ TrapsAll u c 2 (fun j => c.wg.stageOf j = c.wg.stageOf c.idx)) ∧
    (OthersParked c .requota (fun j => c.wg.stageOf j = c.wg.stageOf c.idx) →
      (∀ p ∈ c.wg.threads, p.1 ≠ c.idx → c.wg.stageOf p.1 = c.wg.stageOf c.idx → p.2.st = .requota → p.2.parg = q.toNat) →
      c.wg.budget c.idx < q.toNat →
      c.wg.pool < c.wg.used + (q.toNat - c.wg.budget c.idx) * c.wg.teamsIn (c.wg.stageOf c.idx) →
      ∃ u, exec (.requota h q) s = .next u ∧ OthersSame s u c.wk c.idx ∧
        u.thread? c.wk c.idx = some { endedAt c (.requota q.toNat) with st := .requota, parg := q.toNat } ∧
        ∃ w, u.wgs.find? c.wk = some w ∧ w.quota = c.wg.quota)) ∧
  ∀ (s : State) (c : Ctx) (h : Hdr) (q : BitVec 9), Alone s 1 c → Quiet c → q.toNat % 8 = 0 → 16 ≤ q.toNat →
    q.toNat ≤ c.wg.ceil → OthersParked c .requota (fun j => c.wg.stageOf j = c.wg.stageOf c.idx) →
    (∀ p ∈ c.wg.threads, p.1 ≠ c.idx → c.wg.stageOf p.1 = c.wg.stageOf c.idx → p.2.st = .requota → p.2.parg = q.toNat) →
    (c.wg.budget c.idx < q.toNat →
      c.wg.used + (q.toNat - c.wg.budget c.idx) * c.wg.teamsIn (c.wg.stageOf c.idx) ≤ c.wg.pool) →
    let rebudgeted (i : Nat) (o t : Thread) : Prop :=
      (∀ n, n < q.toNat → n < c.wg.budget c.idx → FMap.get 0 t.v n = FMap.get 0 o.v n) ∧
      ∀ n, c.wg.budget c.idx ≤ n → n < q.toNat → FMap.get 0 t.v n = 0 ∨
        FMap.get 0 t.v n ∈ s.cells.get [] ((c.wg.core * 64 + i % 64) * 8 + c.wg.part)
    ∃ u w t, exec (.requota h q) s = .next u ∧ (∀ k, k ≠ c.wk → u.wgs.find? k = s.wgs.find? k) ∧ MemSame s u ∧
      u.wgs.find? c.wk = some w ∧ w.quota = c.wg.quota.set (c.wg.stageOf c.idx) q.toNat ∧
      u.thread? c.wk c.idx = some t ∧ t = { passed c with v := t.v } ∧ rebudgeted c.idx c.th t ∧
      ∀ p ∈ c.wg.threads, p.1 ≠ c.idx →
        (c.wg.stageOf p.1 ≠ c.wg.stageOf c.idx → u.thread? c.wk p.1 = some p.2) ∧
        (c.wg.stageOf p.1 = c.wg.stageOf c.idx → ∃ x, u.thread? c.wk p.1 = some x ∧
          (p.2.st = .exited → x = { p.2 with v := x.v }) ∧
          (p.2.st = .requota → x = { resumed p.2 s.clock with v := x.v } ∧ rebudgeted p.1 p.2 x))

/-- TRAP takes the software trap, and BPT the breakpoint trap when its partition's debugging is enabled, each with its code in the
record; else BPT does nothing. -/
def Obligations.TrapWords : Prop :=
  (∀ (s : State) (c : Ctx) (h : Hdr) (code : BitVec 14), Alone s 1 c →
    ∃ u, exec (.trap h code) s = .next u ∧ Trapped s u c (atWord c 12 0 code.toNat)) ∧
  (∀ (s : State) (c : Ctx) (h : Hdr) (code : BitVec 14), Alone s 1 c → (s.part c.wg.part).cfg.testBit 37 = true →
    ∃ u, exec (.bpt h code) s = .next u ∧ Trapped s u c (atWord c 13 0 code.toNat)) ∧
  ∀ (s : State) (h : Hdr) (code : BitVec 14), CanRun s h 1 → (∀ c, Member s 1 c → (s.part c.wg.part).cfg.testBit 37 = false) →
    Completes (.bpt h code) s h 1 (fun c => c.th)

/-- A word of three operands whose destination is no register it may write takes the illegal-operand trap, and a word that exceeds the 24
words of a run the run-length trap, with no effect. -/
def Obligations.OperandAndRunTraps : Prop :=
  (∀ mk ∈ ([.add, .sub, .addc, .subb, .mul, .mulhiS32, .mulhiZ32, .and, .or, .xor, .andn, .minS32, .minZ32, .maxS32, .maxZ32, .bfx,
      .shl, .shr, .sar, .rot, .mad, .bfi, .fadd, .fsub, .fmul, .fma, .fmin, .fmax, .hadd2, .hmul2, .hfma2, .fdot2, .padd4, .pmul4,
      .pmin4, .pmax4] : List (Hdr → Opnd → Opnd → Opnd → Option Mod → Instr)),
    ∀ (s : State) (c : Ctx) (h : Hdr) (d a b : Opnd) (m : Option Mod), Alone s (lenOf m) c →
      ((∀ n, d ≠ .v n) ∧ (∀ n, d ≠ .t n) ∨ (∃ n, d = .v n ∧ c.wg.budget c.idx ≤ n.val)) →
      ∃ u, exec (mk h d a b m) s = .next u ∧ Trapped s u c (atWord c 2 0 0)) ∧
  ∀ (s : State) (c : Ctx) (h : Hdr) (d a b : Opnd) (m : Option Mod) (f : Ctx → State → Out), s.group = [(c.wk, c.idx)] →
    Member s (lenOf m) c → 24 < c.th.runw + lenOf m →
    (∃ u, exec (.add h d a b m) s = .next u ∧ Trapped s u c (atWord c 6 0 0)) ∧
    Trapped s (runWord h (lenOf m) f s) c (atWord c 6 0 0)

/-- LDS, STS and ATOMS on any window they may reach enter each lane's access in its thread's queue; one that is performed gives the
scratchpad's bytes to the destination, its data to the scratchpad, or what Table 13.2 says of both, and nothing else. A store waits for a
store of the same word by a lower lane to a common byte, so that of several lanes the highest stands (R55). When a queued access is
performed, and that the atomics of one word act in the order in which they are performed, is the model's reading (log entries 21 and
38). -/
def Obligations.ScratchpadWords : Prop :=
  (∀ (s : State) (h : Hdr) (d adr : Opnd) (mt : MemTy) (x : Option MemX) (rs : Ctx → List Nat) (a k o : Ctx → Nat),
    let ps (c : Ctx) : List MemOp :=
      (accessPieces c 0 mt 0 (ordOf x) (scopeOf x) (rs c) 0 (o c)).map (fun p => { p with spad := k c + 1 })
    CanRun s h (lenOf x) → ordOf x ≠ 2 → (ordOf x = 0 ∨ scopeOf x < 2) →
    (∀ c, Member s (lenOf x) c → c.longDest d (mtRegs mt) (mtRegs mt) = .ok (rs c) ∧ c.src (.int 32) adr = .ok (a c) ∧
      s.scratch c.wk c.wg (a c + eoffOf x * mtWidth mt) (mtWidth mt) = some (k c, o c) ∧ LaneMay c (.at (o c)) (rs c)) →
    Completes (.lds h d adr mt x) s h (lenOf x) (fun c => enqueued c (rs c) false (scopeOf x) (ps c) (ps c))) ∧
  (∀ (s : State) (h : Hdr) (r adr : Opnd) (mt : MemTy) (x : Option MemX) (y a k o : Ctx → Nat),
    let ps (c : Ctx) : List MemOp :=
      (accessPieces c 1 mt (y c % 256 ^ mtWidth mt) (ordOf x) (scopeOf x) [] 0 (o c)).map (fun p => { p with spad := k c + 1 })
    CanRun s h (lenOf x) → ordOf x ≠ 1 → ordOf x ≠ 3 → (ordOf x = 0 ∨ scopeOf x < 2) →
    (∀ c, Member s (lenOf x) c → storeData c mt r = .ok (y c) ∧ c.src (.int 32) adr = .ok (a c) ∧
      s.scratch c.wk c.wg (a c + eoffOf x * mtWidth mt) (mtWidth mt) = some (k c, o c) ∧ LaneMay c (.at (o c)) []) →
    Completes (.sts h r adr mt x) s h (lenOf x) (fun c => enqueued c [] true (scopeOf x) (ps c) (ps c))) ∧
  (∀ (s : State) (h : Hdr) (d adr : Opnd) (x : Atm) (f : Ctx → AtomForm) (a k o : Ctx → Nat),
    let ps (c : Ctx) : List MemOp := [{ memOp c 2 x.aop.code x.ty.code (f c).width (f c).o (f c).o2 x.ord.code x.scope.code (f c).dest 0
      (o c) with spad := k c + 1 }]
    CanRun s h 2 → (x.ord = .relaxed ∨ x.scope = .wg ∨ x.scope = .plot) →
    (∀ c, Member s 2 c → c.atomForm d x = .ok (f c) ∧ c.src (.int 32) adr = .ok (a c) ∧
      s.scratch c.wk c.wg (a c + x.eoff.toNat * (f c).width) (f c).width = some (k c, o c) ∧ LaneMay c (.at (o c)) (f c).dest) →
    Completes (.atoms h d adr x) s h 2 (fun c => enqueued c (f c).dest true x.scope.code (ps c) (ps c))) ∧
  (∀ (s : State) (m : MemOp) (w : Wg) (t : Thread) (mt : MemTy) (k : Nat) (pre post : List Pend) (e : Pend),
    Ready s m w t → Awaits t m pre post e → m.spad = k + 1 → m.kind = 0 → m.typ = mt.code → m.width = mtWidth mt → mt ≠ .b64 →
    Answers (.resultLand m.wk m.idx m.id) s (fun u => MemSame s u ∧ SpadSame s u ∧ OthersSame s u m.wk m.idx ∧
      ∃ t', u.thread? m.wk m.idx = some t' ∧ BoundBy t t' m pre post e
        (List.zip m.dest ((loadWords mt (leNat (fun j => spadByte s k (m.va + j)) m.width)).map (BitVec.ofNat 32))) [])) ∧
  (∀ (s : State) (m : MemOp) (w : Wg) (t : Thread) (k : Nat), Ready s m w t → (∀ e ∈ t.pend, e.id ≠ m.id) → m.spad = k + 1 → m.kind = 1 →
    (∃ x, s.wgs.find? k = some x) →
    Answers (.storeGloballyPerformed m.wk m.idx m.id) s (fun u => SpadWrote s u k m.va m.width m.data ∧ OthersSame s u m.wk m.idx ∧
      (m.ord = 0 ∨ m.scope < 2 → MemSame s u) ∧ ∃ t', u.thread? m.wk m.idx = some t' ∧ StoredBy t t' m [])) ∧
  (∀ (s : State) (m : MemOp) (w : Wg) (t : Thread) (k : Nat) (pre post : List Pend) (e : Pend), Ready s m w t → Awaits t m pre post e →
    m.spad = k + 1 → m.kind = 2 → atomWidth m.aop m.typ = some m.width → m.data < 256 ^ m.width → m.data2 < 256 ^ m.width →
    (∃ x, s.wgs.find? k = some x) →
    let old := leNat (fun j => spadByte s k (m.va + j)) m.width
    ∃ r, AtomSpec m.aop m.typ m.width old m.data m.data2 r ∧ Answers (.resultLand m.wk m.idx m.id) s (fun u =>
      (match r with
        | some v => SpadWrote s u k m.va m.width v
        | none => SpadSame s u) ∧
      (m.ord = 0 ∨ m.scope < 2 → MemSame s u) ∧ OthersSame s u m.wk m.idx ∧ ∃ t', u.thread? m.wk m.idx = some t' ∧
        BoundBy t t' m pre post e (List.zip m.dest ((atomWords m.width old).map (BitVec.ofNat 32))) [])) ∧
  ∀ (s : State) (m x : MemOp) (t t' : Thread) (k j : Nat) (w : Wg), s.thread? m.wk m.idx = some t → m.kind = 1 →
    (∀ y ∈ t.queue, y.id = m.id → y = m) → (∀ c ∈ t.chk, c.id = m.id → c.parked ≠ 0) →
    (k, w) ∈ s.wgs → w.tag = m.tag → (j, t') ∈ w.threads → j % 64 < m.idx % 64 → x ∈ t'.queue → x.word = m.word →
    x.spad = m.spad → (m.spad = 0 → x.part = m.part) → x.va < m.va + m.width → m.va < x.va + x.width →
    Answers (.storeGloballyPerformed m.wk m.idx m.id) s (fun u => MemSame s u ∧ u.wgs = s.wgs)

/-- LD enters each lane's access in its thread's queue, or gives a lane out of bounds zeros; a load that is performed takes the bytes its
workgroup's L1 gives it, or, ordered beyond its plot, those at the home, and leaves every byte as it was. When a queued load is performed,
whose lines an L1 keeps, and that a load passes the L1 only at dev or sys scope, is the model's reading (log entry 21). -/
def Obligations.GlobalLoads : Prop :=
  (∀ (s : State) (h : Hdr) (d : Opnd) (slot : Fin 16) (idx : Opnd) (mt : MemTy) (x : Option MemX) (rs : Ctx → List Nat) (i : Ctx → Nat),
    let lane (c : Ctx) : Lane := checkLane (s.slot c.wg slot.val) (i c + eoffOf x) (mtWidth mt) true false
    CanRun s h (lenOf x) → ordOf x ≠ 2 → (∀ c, Member s (lenOf x) c → c.longDest d (mtRegs mt) (mtRegs mt) = .ok (rs c) ∧
      c.src (.int 32) idx = .ok (i c) ∧ LaneMay c (lane c) (rs c)) →
    Completes (.ld h d slot idx mt x) s h (lenOf x) (fun c => laneLeaves c (lane c) (rs c) false (scopeOf x)
      (accessPieces c 0 mt 0 (ordOf x) (scopeOf x) (rs c) (bits (s.slot c.wg slot.val) 191 176)))) ∧
  (∀ (s : State) (m : MemOp) (w : Wg) (t : Thread) (mt : MemTy) (pa : Nat) (dup : Bool) (pre post : List Pend) (e : Pend),
    Ready s m w t → Awaits t m pre post e → m.kind = 0 → m.typ = mt.code → m.width = mtWidth mt → mt ≠ .b64 → m.ord = 0 ∨ m.ord = 1 ∨ m.ord = 3 →
    m.ord = 0 ∨ m.scope < 2 → m.spad = 0 → s.xlateAt w m.va m.width true false = .ok pa dup → s.linkHeld pa = false →
    s.poisonedFor (some w.unit) w.tag pa m.width = false → w.staging = [] → s.snoops = [] → m.tag < 64 → pa + m.width ≤ 2 ^ 52 →
    let fresh := s.acquireL1 w.unit m.scope
    let l1 := if m.ord = 0 then s else if m.scope = 1 then fresh.pushLine (lineKey w.unit m.tag pa) else fresh
    Answers (.resultLand m.wk m.idx m.id) s (fun u => MemSame s u ∧ u.vers = s.vers ∧ u.deltas = s.deltas ∧ SpadSame s u ∧
      OthersSame s u m.wk m.idx ∧ ∃ t', u.thread? m.wk m.idx = some t' ∧ BoundBy t t' m pre post e
        (List.zip m.dest ((loadWords mt (leNat (fun j => l1.readL1 w.unit m.tag (pa + j)) m.width)).map (BitVec.ofNat 32))) [])) ∧
  (∀ (s : State) (m : MemOp) (w : Wg) (t : Thread) (mt : MemTy) (pa : Nat) (dup : Bool) (pre post : List Pend) (e : Pend),
    Ready s m w t → Awaits t m pre post e → m.kind = 0 → m.typ = mt.code → m.width = mtWidth mt → mt ≠ .b64 → m.ord = 1 ∨ m.ord = 3 → 2 ≤ m.scope →
    m.spad = 0 → s.xlateAt w m.va m.width true false = .ok pa dup → s.linkHeld pa = false →
    s.poisonedFor (some w.unit) w.tag pa m.width = false → w.staging = [] → s.snoops = [] → NoLines s w.unit → m.tag < 64 → pa + m.width ≤ 2 ^ 52 →
    Answers (.resultLand m.wk m.idx m.id) s (fun u => MemSame s u ∧ u.vers = s.vers ∧ u.deltas = s.deltas ∧ SpadSame s u ∧
      OthersSame s u m.wk m.idx ∧ ∃ t', u.thread? m.wk m.idx = some t' ∧ BoundBy t t' m pre post e
        (List.zip m.dest ((loadWords mt (leNat (fun j => s.readHome m.tag (pa + j)) m.width)).map (BitVec.ofNat 32))) [])) ∧
  ∀ (s : State) (m : MemOp) (w : Wg) (t : Thread) (cause : Nat), Ready s m w t → m.kind = 0 → m.spad = 0 → m.fixed = false →
    (∀ e ∈ t.pend, e.id = m.id → e.vals = none) → s.xlateAt w m.va m.width true false = .fault cause →
    Answers (.resultLand m.wk m.idx m.id) s (fun u => MemSame s u ∧ OthersSame s u m.wk m.idx ∧ u.thread? m.wk m.idx = some t ∧
      ∃ n p, u.parked.find? n = some p ∧ p.who = .op m ∧ p.cause = cause ∧ p.types = 1 ∧ p.page = m.va % 2 ^ 57 / 2 ^ 15)

/-- ST enters each lane's access in its thread's queue, in a deterministic launch in its workgroup's staging, and drops a lane out of bounds;
a relaxed store that is performed writes its bytes into its workgroup's L1 line and leaves committed memory, a release beyond the plot writes
them at the home, and a piece that an earlier one of its thread orders waits. When a queued store is performed is the model's reading (log entry
21). -/
def Obligations.GlobalStores : Prop :=
  (∀ (s : State) (h : Hdr) (r : Opnd) (slot : Fin 16) (idx : Opnd) (mt : MemTy) (x : Option MemX) (y i : Ctx → Nat),
    let lane (c : Ctx) : Lane := checkLane (s.slot c.wg slot.val) (i c + eoffOf x) (mtWidth mt) false true
    CanRun s h (lenOf x) → ordOf x ≠ 1 → ordOf x ≠ 3 → (∀ c, Member s (lenOf x) c → storeData c mt r = .ok (y c) ∧
      c.src (.int 32) idx = .ok (i c) ∧ LaneMay c (lane c) [] ∧ c.wg.det = false) →
    Completes (.st h r slot idx mt x) s h (lenOf x) (fun c => laneLeaves c (lane c) [] true (scopeOf x)
      (accessPieces c 1 mt (y c % 256 ^ mtWidth mt) (ordOf x) (scopeOf x) [] (bits (s.slot c.wg slot.val) 191 176)))) ∧
  (∀ (s : State) (c : Ctx) (h : Hdr) (r : Opnd) (slot : Fin 16) (idx : Opnd) (mt : MemTy) (x : Option MemX) (y i va : Nat),
    Solo s h (lenOf x) c → ordOf x ≠ 1 → ordOf x ≠ 3 → storeData c mt r = .ok y → c.src (.int 32) idx = .ok i →
    checkLane (s.slot c.wg slot.val) (i + eoffOf x) (mtWidth mt) false true = .at va → c.wg.det = true →
    c.queueWaits (memOp c 1 0 mt.code (mtWidth mt) (y % 256 ^ mtWidth mt) 0 (ordOf x) (scopeOf x) []
      (bits (s.slot c.wg slot.val) 191 176) va) = false →
    c.issueGate true (ordOf x == 2) (some va) (mtWidth mt) = .go →
    c.wg.stagedBytes + mtWidth mt ≤ 65536 →
    let ps := accessPieces c 1 mt (y % 256 ^ mtWidth mt) (ordOf x) (scopeOf x) [] (bits (s.slot c.wg slot.val) 191 176) va
    Results (.st h r slot idx mt x) s h c (enqueued c [] true (scopeOf x) ps []) (fun u => MemSame s u ∧ SpadSame s u ∧
      ∃ w, u.wgs.find? c.wk = some w ∧ w.staging = c.wg.staging ++ ps.map (fun m => Staged.mem m none))) ∧
  (∀ (s : State) (m : MemOp) (w : Wg) (t : Thread) (pa : Nat), Ready s m w t → (∀ e ∈ t.pend, e.id ≠ m.id) → m.kind = 1 → m.ord = 0 →
    m.spad = 0 → s.xlateAt w m.va m.width false true = .ok pa false → s.linkHeld pa = false → s.noSpace m.tag pa = false →
    isBuf w.unit = false → m.tag < 64 → pa + m.width ≤ 2 ^ 52 →
    Answers (.storeGloballyPerformed m.wk m.idx m.id) s (fun u => MemSame s u ∧ SpadSame s u ∧ OthersSame s u m.wk m.idx ∧
      (∃ t', u.thread? m.wk m.idx = some t' ∧ StoredBy t t' m [lineKey w.unit m.tag pa]) ∧
      ∀ v tag a, tag < 64 → a < 2 ^ 52 → u.readL1 v tag a =
        if v = w.unit ∧ tag = m.tag ∧ pa ≤ a ∧ a < pa + m.width then byteOf m.data (a - pa) else s.readL1 v tag a)) ∧
  (∀ (s : State) (m : MemOp) (w : Wg) (t : Thread) (pa : Nat) (dup : Bool), Ready s m w t → (∀ e ∈ t.pend, e.id ≠ m.id) → m.kind = 1 →
    m.ord = 2 ∧ 2 ≤ m.scope ∨ m.ord = 0 ∧ dup = true → m.spad = 0 → s.xlateAt w m.va m.width false true = .ok pa dup → m.tag = 0 →
    s.linkHeld pa = false → s.hostHolds dup pa = false → Plain s w.unit → pa + m.width ≤ 2 ^ 52 →
    Answers (.storeGloballyPerformed m.wk m.idx m.id) s (fun u => MemWrote s u pa m.width m.data ∧ SpadSame s u ∧
      OthersSame s u m.wk m.idx ∧ ∃ t', u.thread? m.wk m.idx = some t' ∧ StoredBy t t' m [lineKey w.unit m.tag pa])) ∧
  (∀ (s : State) (m : MemOp) (w : Wg) (t : Thread) (pa : Nat), Ready s m w t → m.kind = 1 → m.tag = 0 →
    m.spad = 0 → s.xlateAt w m.va m.width false true = .ok pa true → pa / 64 ∈ s.shared →
    Answers (.storeGloballyPerformed m.wk m.idx m.id) s (fun u => MemSame s u ∧ u.wgs = s.wgs ∧
      ∃ n y, s.snoops.find? n = none ∧ u.snoops.find? n = some y ∧ y.who = .op m ∧ y.pa = pa ∧ y.late = false)) ∧
  ∀ (s : State) (t : Thread) (a m : MemOp) (l1 l2 l3 : List MemOp), s.thread? m.wk m.idx = some t → t.queue = l1 ++ a :: l2 ++ m :: l3 →
    m ∉ l1 ++ a :: l2 → (∀ x ∈ t.queue, x.id = m.id → x = m) →
    (a.kind ≠ 1 ∧ (a.ord = 1 ∨ a.ord = 3)) ∨ (m.kind ≠ 0 ∧ (m.ord = 2 ∨ m.ord = 3)) ∨ (a.kind ≠ 1 ∧ m.kind ≠ 0 ∧ s.heldOp a = false) ∨
      (a.spad = m.spad ∧ (a.spad ≠ 0 ∨ a.part = m.part) ∧ a.va < m.va + m.width ∧ m.va < a.va + a.width) →
    (∀ e ∈ t.pend, e.id = m.id → e.vals = none) → (∀ c ∈ t.chk, c.id = m.id → c.parked ≠ 0) →
    Answers (.resultLand m.wk m.idx m.id) s (fun u => MemSame s u ∧ u.thread? m.wk m.idx = some t) ∧
    Answers (.storeGloballyPerformed m.wk m.idx m.id) s (fun u => MemSame s u ∧ u.thread? m.wk m.idx = some t)

/-- ATOM enters each lane's access in its thread's queue; when it is performed at tag 0, the old value goes to the destination and what Table
13.2 says of the operation and type to memory, nothing else; a failed compare-exchange writes nothing. LDLOD out of bounds gives zeros and the status 2^31; else the data, the status and
the CC of its lookup as one outstanding write, of which the second word of a 64-bit element joins the queue, and it leaves every byte as it
was. When a queued atomic is performed is the model's reading (log entry 21). -/
def Obligations.AtomAndLevelOfDetail : Prop :=
  (∀ (s : State) (h : Hdr) (d : Opnd) (slot : Fin 16) (idx : Opnd) (x : Atm) (f : Ctx → AtomForm) (i : Ctx → Nat),
    let lane (c : Ctx) : Lane := checkLane (s.slot c.wg slot.val) (i c + x.eoff.toNat) (f c).width true true
    CanRun s h 2 → (∀ c, Member s 2 c → c.atomForm d x = .ok (f c) ∧ c.src (.int 32) idx = .ok (i c) ∧ LaneMay c (lane c) (f c).dest ∧
      c.wg.det = false) →
    Completes (.atom h d slot idx x) s h 2 (fun c => laneLeaves c (lane c) (f c).dest true x.scope.code (fun va =>
      [memOp c 2 x.aop.code x.ty.code (f c).width (f c).o (f c).o2 x.ord.code x.scope.code (f c).dest
        (bits (s.slot c.wg slot.val) 191 176) va]))) ∧
  (∀ (s : State) (m : MemOp) (w : Wg) (t : Thread) (pa : Nat) (dup : Bool) (pre post : List Pend) (e : Pend), Ready s m w t →
    Awaits t m pre post e → m.kind = 2 → atomWidth m.aop m.typ = some m.width → m.data < 256 ^ m.width → m.data2 < 256 ^ m.width →
    m.spad = 0 → s.xlateAt w m.va m.width true true = .ok pa dup → s.linkHeld pa = false → m.tag = 0 →
    w.det = true ∨ s.inOrderedMode 0 pa = false → s.hostHolds dup pa = false → Plain s w.unit → pa + m.width ≤ 2 ^ 52 →
    let old := leNat (fun j => s.rd (pa + j)) m.width
    ∃ r, AtomSpec m.aop m.typ m.width old m.data m.data2 r ∧ Answers (.resultLand m.wk m.idx m.id) s (fun u => SpadSame s u ∧
      OthersSame s u m.wk m.idx ∧ (match r with
        | some v => MemWrote s u pa m.width v
        | none => MemSame s u) ∧
      ∃ t', u.thread? m.wk m.idx = some t' ∧ BoundBy t t' m pre post e
        (List.zip m.dest ((atomWords m.width old).map (BitVec.ofNat 32))) (if r.isSome then [lineKey w.unit 0 pa] else []))) ∧
  (∀ (s : State) (c : Ctx) (h : Hdr) (d : Opnd) (slot : Fin 16) (idx : Opnd) (mt : MemTy) (x : Option MemX) (rs : List Nat) (i : Nat),
    Solo s h (lenOf x) c → ordOf x = 0 → recLod (s.slot c.wg slot.val) = true → lodDest c d mt = .ok rs → lodIndex c idx = .ok i →
    checkLane (s.slot c.wg slot.val) (i % 2 ^ 32 + eoffOf x) (mtWidth mt) true false = .skip → c.th.memFull = false → c.th.term = none →
    ∃ e, LodWrite c rs (2 ^ 31) e ∧ e.vals = some (List.zip rs ((loadWords mt 0 ++ [2 ^ 31]).map (BitVec.ofNat 32))) ∧
      Results (.ldlod h d slot idx mt x) s h c { c.th with oob := true, pend := c.th.pend ++ [e] } (fun u => MemSame s u ∧ SpadSame s u)) ∧
  ∀ (s : State) (c : Ctx) (h : Hdr) (d : Opnd) (slot : Fin 16) (idx : Opnd) (mt : MemTy) (x : Option MemX) (rs : List Nat) (i va : Nat),
    let r := s.slot c.wg slot.val
    let e := i % 2 ^ 32 + eoffOf x
    let m := memOp c 0 0 mt.code (mtWidth mt) 0 0 0 0 [] 0 0
    let q := s.lodLookup c.wg m r (e % recCountx r) (e / recCountx r) (bits i 35 32)
    let k := q.2.1
    let two : Bool := !k.none && mt == .b64
    Solo s h (lenOf x) c → ordOf x = 0 → recLod r = true → lodDest c d mt = .ok rs → lodIndex c idx = .ok i →
    checkLane r e (mtWidth mt) true false = .at va → c.gate { m with va := k.va } (if k.none then none else some k.va) = .go →
    ∃ w seen, LodWrite c rs q.2.2 w ∧ w.vals = some
        (if two then List.zip (rs.take 1 ++ rs.drop 2) ([k.data % 2 ^ 32, q.2.2].map (BitVec.ofNat 32))
         else List.zip rs ((loadWords mt (if k.none then 0 else k.data) ++ [q.2.2]).map (BitVec.ofNat 32))) ∧
      Results (.ldlod h d slot idx mt x) s h c
        { c.th with
          pend := c.th.pend ++ [w]
          seen := seen
          chk := c.th.chk ++ (if two then [⟨c.th.freshId, c.th.obj, c.th.off, c.len, false, 0, [], 1, s.fresh, c.teamLanes⟩] else [])
          queue := c.th.queue ++ (if two then [{ m with
            va := k.va + 4, width := 4, typ := 2, data := k.data / 2 ^ 32, fixed := true, dest := (rs.take 2).drop 1 }] else []) }
        (fun u => SpadSame s u ∧ (Clean s → (s.core c.wg.core).filter.length < 32 → MemSame s u))

/-- FENCE waits at issue for the queued accesses of its thread that it orders; then a releasing kind leaves no dirty line recorded narrower than
its scope in its workgroup's L1, nor beyond plot scope in what its plot has taken over, and an acquiring kind no clean byte. A releasing fence
has later stores wait for a terminal response that its thread has received (R86). FENCE.OOB gives the sticky status and clears it;
RESFENCE empties the residency caches and the filters of what it names. That it does so in its own step is the model's reading (log entry
34). -/
def Obligations.Fences : Prop :=
  (∀ (s : State) (c : Ctx) (h : Hdr) (kind : FenceKind) (scope : Scope), Alone s 1 c →
    c.th.hold ≠ [] ∨ (∃ m ∈ c.th.queue, kind = .acq → m.kind ≠ 1) ∨ (kind ≠ .rel ∧ ∃ e ∈ c.th.pend, e.mem = true ∧ e.vals = none) →
    Stalls (.fence h kind scope) s c) ∧
  (∀ (s : State) (c : Ctx) (h : Hdr) (kind : FenceKind) (scope : Scope), Solo s h 1 c → c.th.hold = [] →
    (∀ m ∈ c.th.queue, kind = .acq ∧ m.kind = 1) → kind = .rel ∨ c.th.unbound = false → isBuf c.wg.unit = false →
    FMap.sorted s.l1 = true →
    Results (.fence h kind scope) s h c
      { c.th with term := c.th.term.map (fun x => x.fence kind), seen := if kind ≠ .rel ∧ 2 ≤ scope.code then [] else c.th.seen }
      (fun u => SpadSame s u ∧
        (kind ≠ .acq → ∀ k l, u.l1.find? k = some l → l.scope < scope.code → lineUnit k = c.wg.unit → l.dirty = []) ∧
        (kind ≠ .acq → 2 ≤ scope.code → ∀ k l, u.l1.find? k = some l → l.scope < scope.code → lineUnit k = bufOf c.wg.unit → l.dirty = []) ∧
        (kind = .acqrel ∨ kind = .sc → ∀ e ∈ u.l1, lineUnit e.1 = c.wg.unit → ¬ e.2.scope < scope.code) ∧
        (kind ≠ .rel → scope.code ≠ 0 → ∀ e ∈ u.l1, lineUnit e.1 = c.wg.unit → ∀ b ∈ e.2.data, b.1 ∈ e.2.dirty) ∧
        (kind = .acq ∧ c.th.seen = [] ∨ scope.code < 2 → MemSame s u))) ∧
  (∀ (s : State) (h : Hdr) (d : Opnd) (rs : Ctx → List Nat), CanRun s h 1 →
    (∀ c, Member s 1 c → c.longDest d 1 1 = .ok (rs c) ∧ c.th.longCount < 8) →
    Completes (.fenceOob h d) s h 1 (fun c => { longWrite c false (rs c) [bnat c.th.oob] with oob := false })) ∧
  ∀ (s : State) (c : Ctx) (h : Hdr) (a : Opnd) (x : Nat), Solo s h 1 c → c.src (.int 32) a = .ok x →
    (x = 2 ^ 32 - 1 ∨ x < bits (s.part c.wg.part).lod 11 0) → CanRelease c → c.th.unbound = false →
    Results (.resfence h a) s h c c.th (fun u => (∀ p ∈ u.cols, p.2.cache = []) ∧ SpadSame s u ∧
      ∀ k, ∀ f ∈ (u.core k).filter, f.part = c.wg.part → x ≠ 2 ^ 32 - 1 ∧ f.res ≠ x)

/-- BAR: an arrival that is not the last of its phase is recorded, and sync and wait then wait; of several participants the last to arrive
completes the phase, and the threads that wait on it go on (R284); a thread that has arrived already stands at its word until the phase
completes. -/
def Obligations.Barriers : Prop :=
  (∀ h id plot kind, EndsWaiting (.bar h id plot kind) 1
    (fun c => .bar (barId id plot) (if c.th.runEnded then .wait else kind))
    (fun _ c => if plot then id.val < 4 else id.val < c.wg.nbar)) ∧
  (∀ (s : State) (c : Ctx) (h : Hdr) (id : Fin 32) (plot : Bool) (kind : BarKind), Alone s 1 c → Quiet c →
    (if plot then id.val < 4 else id.val < c.wg.nbar) → c.th.runEnded = false → kind ≠ .wait → barId id plot ∉ c.th.arrived →
    (∃ k w j t, k ∈ s.barrierGroups c.wk (barId id plot) ∧ s.wgs.find? k = some w ∧ w.threads.find? j = some t ∧
      (k, j) ≠ (c.wk, c.idx) ∧ t.st ≠ .exited ∧ barId id plot ∉ t.arrived) →
    ∃ u t, exec (.bar h id plot kind) s = .next u ∧ u.thread? c.wk c.idx = some t ∧ barId id plot ∈ t.arrived ∧
      barId id plot ∉ t.completed ∧ (kind = .arrive → t.st = .ready ∧ t.off = c.after) ∧
      (kind = .sync → t.st = .wait ∧ t.off = c.th.off ∧ t.op = some (.bar (barId id plot) .wait)) ∧
      (∀ k j, (k, j) ≠ (c.wk, c.idx) → u.thread? k j = s.thread? k j)) ∧
  (∀ (s : State) (c : Ctx) (h : Hdr) (id : Fin 32) (plot : Bool) (kind : BarKind), Alone s 1 c → Quiet c →
    (if plot then id.val < 4 else id.val < c.wg.nbar) → c.th.runEnded = false → kind ≠ .wait → barId id plot ∉ c.th.arrived →
    let b := barId id plot
    (s.barrierGroups c.wk b).Nodup →
    (∀ k ∈ s.barrierGroups c.wk b, ∀ w, s.wgs.find? k = some w → (w.threads.map (·.1)).Nodup ∧
      ∀ p ∈ w.threads, (k, p.1) ≠ (c.wk, c.idx) → p.2.st = .exited ∨ b ∈ p.2.arrived) →
    ∃ u t, exec (.bar h id plot kind) s = .next u ∧ MemSame s u ∧ u.thread? c.wk c.idx = some t ∧ t.st = .ready ∧ t.off = c.after ∧
      b ∉ t.arrived ∧ (kind = .arrive → b ∈ t.completed) ∧
      (∀ k, k ∉ s.barrierGroups c.wk b → u.wgs.find? k = s.wgs.find? k) ∧
      ∀ k ∈ s.barrierGroups c.wk b, ∀ w, s.wgs.find? k = some w →
        (∃ x, u.wgs.find? k = some x ∧ FMap.get 0 x.phases b = (FMap.get 0 w.phases b + 1) % 2 ^ 16) ∧
        ∀ p ∈ w.threads, (k, p.1) ≠ (c.wk, c.idx) → ∃ y, u.thread? k p.1 = some y ∧ b ∉ y.arrived ∧
          (b ∉ p.2.arrived → y = p.2) ∧
          (b ∈ p.2.arrived → p.2.st = .wait ∧ p.2.op = some (.bar b .wait) →
            y.st = .ready ∧ y.off = (p.2.off + 4 * p.2.wlen) % 2 ^ 32) ∧
          (b ∈ p.2.arrived → ¬ (p.2.st = .wait ∧ p.2.op = some (.bar b .wait)) → y.st = p.2.st ∧ y.off = p.2.off ∧ b ∈ y.completed)) ∧
  (∀ (s : State) (c : Ctx) (h : Hdr) (id : Fin 32) (plot : Bool) (kind : BarKind), Alone s 1 c → Quiet c →
    (if plot then id.val < 4 else id.val < c.wg.nbar) → c.th.runEnded = false → kind ≠ .wait → barId id plot ∈ c.th.arrived →
    ∃ u, exec (.bar h id plot kind) s = .next u ∧ u.thread? c.wk c.idx = some (endedAt c (.bar (barId id plot) kind)) ∧
      OthersSame s u c.wk c.idx ∧ u = { s with wgs := u.wgs, group := [], fresh := s.fresh + 1 }) ∧
  ∀ (s : State) (c : Ctx) (h : Hdr) (id : Fin 32) (plot : Bool), Alone s 1 c → c.th.pend = [] → c.th.term = none →
    (if plot then id.val < 4 else id.val < c.wg.nbar) →
    ∃ u t, exec (.bar h id plot .wait) s = .next u ∧ u.thread? c.wk c.idx = some t ∧
      (barId id plot ∈ c.th.arrived → t.st = .wait ∧ t.off = c.th.off) ∧
      (barId id plot ∉ c.th.arrived → t.st = .ready ∧ t.off = c.after ∧ barId id plot ∉ t.completed)

/-- TRINIT sets the count, advances the generation and clears the errors of a trellis; TRWAIT, WPWAIT and TLWAIT await the thread's
writes and then their condition; TLREAD reads a counter (in its own step, log entry 21). -/
def Obligations.TrellisesAndCounters : Prop :=
  (∀ (s : State) (c : Ctx) (h : Hdr) (a b : Opnd) (imm : Option (BitVec 26)) (o n : Nat), Solo s h (lenOf imm) c →
    c.src (.int 32) a = .ok o → (match imm with
      | some i => n = i.toNat
      | none => c.src (.int 32) b = .ok n) →
    o < 2 ^ 18 → o % 16 = 0 → o + 16 ≤ c.wg.spadKiB * 1024 →
    let m := { memOp c 1 0 0 16 0 0 0 0 [] 0 o with spad := c.wk + 1 }
    c.gate m (some m.place) = .go →
    Results (.trinit h a b imm) s h c c.th (fun u => MemSame s u ∧
      SpadWrote s u c.wk o 16 (n + (leNat (fun j => spadByte s c.wk (o + 4 + j)) 4 + 1) % 2 ^ 32 * 2 ^ 32))) ∧
  (∀ (h : Hdr) (a : Opnd) (o : Ctx → Nat), WaitWord (.trwait h a) 1 (fun c => .trellis (o c))
    (fun _ c => c.src (.int 32) a = .ok (o c) ∧ o c < 2 ^ 18 ∧ o c % 16 = 0 ∧ o c + 16 ≤ c.wg.spadKiB * 1024)
    (fun c => ∀ m ∈ c.th.queue, m.spad = 0) (fun s c => leNat (fun j => spadByte s c.wk (o c + j)) 4 = 0)) ∧
  (∀ (h : Hdr) (a b : Opnd) (imm : Option (BitVec 26)) (x n : Ctx → Nat), WaitWord (.wpwait h a b imm) (lenOf imm) (fun c => .wptr (x c) (n c))
    (fun _ c => c.src (.int 32) a = .ok (x c) ∧ x c ≤ 3 ∧ c.target b imm = .ok (n c))
    (fun _ => True) (fun s c => n c ≤ ((((s.core c.wg.core).chans.get Chan.zero (x c)).wptr + 2 ^ 64 - FMap.get 0 c.wg.bases (x c)) % 2 ^ 64))) ∧
  (∀ (h : Hdr) (a b : Opnd) (imm : Option (BitVec 26)) (x n : Ctx → Nat), WaitWord (.tlwait h a b imm) (lenOf imm) (fun c => .counter (x c) (n c))
    (fun _ c => c.src (.int 32) a = .ok (x c) ∧ selectorOk (x c) = true ∧ bits (x c) 31 30 ≠ 1 ∧ c.target b imm = .ok (n c))
    (fun _ => True) (fun s c => n c ≤ if bits (x c) 31 30 = 0 then ((s.part c.wg.part).streams.get Stream.zero (bits (x c) 5 0)).counter
      else FMap.get 0 (s.part c.wg.part).ectr (bits (x c) 7 0))) ∧
  ∀ (s : State) (h : Hdr) (d a : Opnd) (rs : Ctx → List Nat) (x : Ctx → Nat), CanRun s h 1 →
    (∀ c, Member s 1 c → c.longDest d 2 2 = .ok (rs c) ∧ c.src (.int 32) a = .ok (x c) ∧ selectorOk (x c) = true ∧
      c.th.longCount < 8) →
    Completes (.tlread h d a) s h 1 (fun c =>
      longWrite c false (rs c) [s.counter c.wg (x c) % 2 ^ 32, s.counter c.wg (x c) / 2 ^ 32 % 2 ^ 32])

/-- KICK hands its copy requests to their channels, MTASK gives the task the next number of its stream, and TRACE hands its ray to the
traversal unit, which gives status 3 while its instruction store is unlocked. Each is a release of its thread but TRACE. -/
def Obligations.EngineWords : Prop :=
  (∀ (s : State) (c : Ctx) (h : Hdr) (a b : Opnd) (o n : Nat), Solo s h 1 c → c.src (.int 32) a = .ok o → c.src (.int 32) b = .ok n →
    1 ≤ n → n ≤ 64 → o < 2 ^ 18 → o % 32 = 0 → o + 32 * n ≤ c.wg.spadKiB * 1024 → CanRelease c →
    (s.core c.wg.core).requests + n ≤ 256 →
    Results (.kick h a b) s h c c.th (fun u => SpadSame s u ∧
      ∀ ch, ((u.core c.wg.core).chans.get Chan.zero ch).wptr = ((s.core c.wg.core).chans.get Chan.zero ch).wptr ∧
        ((u.core c.wg.core).chans.get Chan.zero ch).reqs.map (·.rcd) = ((s.core c.wg.core).chans.get Chan.zero ch).reqs.map (·.rcd) ++
          ((List.range n).map (fun i => leNat (fun j => spadByte s c.wk (o + 32 * i + j)) 32)).filter (fun r => r % 4 == ch))) ∧
  (∀ (s : State) (c : Ctx) (h : Hdr) (d a : Opnd) (rs : List Nat) (o : Nat), Solo s h 1 c → c.longDest d 2 2 = .ok rs →
    c.src (.int 32) a = .ok o → o < 2 ^ 18 → o % 64 = 0 → o + 64 ≤ c.wg.spadKiB * 1024 → CanRelease c → c.th.longCount < 8 →
    (s.col (c.wg.core / 8)).tasks.length < 256 →
    let r := leNat (fun j => spadByte s c.wk (o + j)) 64
    let num := (s.stream c.wg.part (tkStream r)).accepted + 1
    Results (.mtask h d a) s h c (longWrite c false rs [num % 2 ^ 32, num / 2 ^ 32 % 2 ^ 32]) (fun u => SpadSame s u ∧
      (u.stream c.wg.part (tkStream r)).accepted = num ∧ ∃ t, (u.col (c.wg.core / 8)).tasks = (s.col (c.wg.core / 8)).tasks ++ [t] ∧
        t.rcd = r ∧ t.num = num ∧ t.part = c.wg.part ∧ t.tag = c.wg.tag)) ∧
  ∀ (s : State) (c : Ctx) (h : Hdr) (d a b : Opnd) (rs bs vs : List Nat) (x : Nat), Solo s h 1 c → c.longDest d 4 4 = .ok rs →
    c.longDest a 8 1 = .ok bs → bs.mapM c.readV = .ok (vs.map (BitVec.ofNat 32)) → (∀ v ∈ vs, v < 2 ^ 32) → c.src (.int 32) b = .ok x →
    x < 2 ^ 16 → (recRights (s.slot c.wg (x % 16))).testBit 0 = true → c.th.longCount < 8 → c.engineGate = .go →
    ((s.col (c.wg.core / 8)).cfg.testBit 17 = false → ∃ w y z p, w < 2 ^ 32 ∧ y < 2 ^ 32 ∧ z < 2 ^ 32 ∧ p < 2 ^ 24 ∧
      Results (.trace h d a b) s h c (longWrite c false rs [w, y, z, 3 * 2 ^ 29 + p]) (fun u => MemSame s u ∧ SpadSame s u)) ∧
    (rayMisses vs = true → (s.col (c.wg.core / 8)).cfg.testBit 17 = true → ∃ y z, y < 2 ^ 32 ∧ z < 2 ^ 32 ∧
      Results (.trace h d a b) s h c (longWrite c false rs [0x7F800000, y, z, 0]) (fun u => MemSame s u ∧ SpadSame s u)) ∧
    (rayMisses vs = false → (s.col (c.wg.core / 8)).cfg.testBit 17 = true →
    ∃ e, e.names = rs ∧ e.vals = none ∧ e.id = c.th.freshId ∧
      Results (.trace h d a b) s h c (c.th.addPend e) (fun u => MemSame s u ∧ SpadSame s u ∧
        ∃ n r, (u.col (c.wg.core / 8)).rays.find? n = some r ∧ r.wk = c.wk ∧
          r.idx = c.idx ∧ r.id = e.id ∧ r.tag = c.wg.tag ∧ r.block = vs.map (BitVec.ofNat 32) ∧ r.budget = x / 16 + 1))

/-- FORK takes the lowest free slot and the lowest free tags, or fails with the status of Table 5.2 and changes no tag; GRAFT waits to
start, or is refused with its report; PRUNE retires every tag of its set and frees the slot. Each is a release. -/
def Obligations.ForkGraftPrune : Prop :=
  (∀ (s : State) (c : Ctx) (h : Hdr) (d a : Opnd) (rs : List Nat) (n : Nat), Solo s h 1 c → c.longDest d 2 2 = .ok rs →
    c.src (.int 32) a = .ok n → c.wg.tag = 0 → 2 ≤ n → n ≤ 8 → c.th.longCount < 8 → CanRelease c →
    (∀ st, s.forkFails c.wg.part n = some st →
      Results (.fork h d a) s h c { longWrite c false rs [0, st * 2 ^ 20] with chk := [] }
        (fun u => (Clean s → u.sets = s.sets) ∧ u.tags = s.tags)) ∧
    (s.forkFails c.wg.part n = none → ∃ k ts lo hi, s.freeSet = some k ∧ ts = s.freeTags.take n ∧ ts.length = n ∧
      (∀ j, j < n → (lo + hi * 2 ^ 32) / 2 ^ (6 * j) % 64 = ts.getD j 0) ∧ hi / 2 ^ 16 = k ∧ lo < 2 ^ 32 ∧
      Results (.fork h d a) s h c { longWrite c false rs [lo, hi] with chk := [] } (fun u => u.sets.find? k = some ⟨c.wg.part, ts, false, []⟩ ∧
        (∀ t ∈ ts, u.tag t = ⟨1, c.wg.part, k⟩) ∧ (∀ t, t ∉ ts → u.tag t = s.tag t)))) ∧
  (∀ (s : State) (c : Ctx) (h : Hdr) (d a b : Opnd) (rs : List Nat) (set win o : Nat), Solo s h 1 c →
    c.versionArgs d a b 0x3F07 = .ok (rs, set, win, o) → c.th.longCount < 8 → c.th.unbound = false → CanRelease c →
    (∀ st, s.graftRefused c.wg.part set win = some st →
      Results (.graft h d a b) s h c { longWrite c false rs [forkReport 0 0 win set st % 2 ^ 32] with chk := [] }
        (fun u => SpadWrote s u c.wk o 16 (forkReport 0 0 win set st))) ∧
    (s.graftRefused c.wg.part set win = none → ∃ e, e.names = rs ∧ e.vals = none ∧ e.id = c.th.freshId ∧
      Results (.graft h d a b) s h c { c.th.addPend e with hold := [e.id], chk := [] } (fun u => SpadSame s u ∧
        u.grafts = s.grafts ++ [⟨c.wk, c.idx, e.id, set, win, o, false⟩]))) ∧
  ∀ (s : State) (c : Ctx) (h : Hdr) (d a b : Opnd) (rs : List Nat) (set win o : Nat), Solo s h 1 c →
    c.versionArgs d a b 7 = .ok (rs, set, win, o) → c.th.longCount < 8 → c.th.unbound = false → CanRelease c →
    (∀ st, s.setRefused c.wg.part set = some st →
      Results (.prune h d a b) s h c { longWrite c false rs [forkReport 0 0 0 set st % 2 ^ 32] with chk := [] }
        (fun u => SpadWrote s u c.wk o 16 (forkReport 0 0 0 set st))) ∧
    (∀ f, s.setRefused c.wg.part set = none → s.sets.find? set = some f → (∀ p ∈ s.wgs, p.2.tag ∉ f.tags) →
      Results (.prune h d a b) s h c { longWrite c false rs [forkReport 0 0 0 set 0 % 2 ^ 32] with chk := [] } (fun u =>
        u.sets.find? set = none ∧ (∀ t ∈ f.tags, (u.tag t).state = 2 ∧ (∀ x ∈ u.held, x.tag ≠ t) ∧
          ∀ p ∈ u.vers, p.1 / 2 ^ 52 ≠ t) ∧ SpadWrote s u c.wk o 16 (forkReport 0 0 0 set 0)))

/-- PRESENT releases a flip to its display, holds it under a version, or reports why not; LAUNCH and RELAUNCH push their record to a ring
with room and report a full or an absent one. -/
def Obligations.PresentsAndPushes : Prop :=
  (∀ (s : State) (c : Ctx) (h : Hdr) (d a b : Opnd) (rs : List Nat) (y f : Nat), Solo s h 1 c → c.longDest d 1 1 = .ok rs →
    c.src (.int 32) a = .ok y → c.src (.int 32) b = .ok f → y ≤ 15 → f ≤ 255 → c.th.longCount < 8 → CanRelease c →
    c.wg.det = false → NoDirty s c.wg.unit →
    (c.wg.tag = 0 → (s.disp y).cfg.testBit 4 = false →
      Results (.present h d a b) s h c (longWrite c false rs [4]) (fun u => u.disps = s.disps ∧ MemSame s u)) ∧
    (c.wg.tag = 0 → (s.disp y).cfg.testBit 4 = true → bits (s.disp y).cfg 7 5 = c.wg.part → (s.surface y f).testBit 0 = true →
      bits (s.surface y f) 103 96 ≤ 2 → (s.disp y).queue.length < 4 →
      Results (.present h d a b) s h c (longWrite c false rs [0]) (fun u => MemSame s u ∧
        u.disp y = { s.disp y with queue := (s.disp y).queue ++ [(f, s.surface y f)] } ∧ ∀ z, z ≠ y → u.disp z = s.disp z)) ∧
    (c.wg.tag ≠ 0 → (s.tag c.wg.tag).state = 1 → (s.held.filter (fun x => x.tag == c.wg.tag && x.flip)).length < 4 →
      Results (.present h d a b) s h c (longWrite c false rs [1]) (fun u => MemSame s u ∧ u.disps = s.disps ∧
        u.held = s.held ++ [⟨c.wg.tag, true, c.wg.part, y, f⟩]))) ∧
  ∀ re : Bool, ∀ (s : State) (c : Ctx) (h : Hdr) (d a b : Opnd) (rs : List Nat) (o g : Nat), Solo s h 1 c →
    c.longDest d 1 1 = .ok rs → c.src (.int 32) a = .ok o → c.src (.int 32) b = .ok g → g ≤ 4095 → o < 2 ^ 18 → o % 16 = 0 →
    o + 128 ≤ c.wg.spadKiB * 1024 → c.th.longCount < 8 → CanRelease c → c.wg.det = false → c.wg.tag = 0 → Plain s c.wg.unit →
    let i : Instr := if re then .relaunch h d a b else .launch h d a b
    (s.pushRing? c.wg.part g re = none → Results i s h c (longWrite c false rs [4]) (MemSame s)) ∧
    (∀ r, s.pushRing? c.wg.part g re = some r → r.full = true → Results i s h c (longWrite c false rs [3]) (MemSame s)) ∧
    (∀ r pa dup, s.pushRing? c.wg.part g re = some r → r.full = false → s.xlate c.wg.part (r.entry r.wr) false true false = .ok pa dup →
      s.hostHolds dup pa = false → s.linkHeld pa = false → r.addr + 32 ≤ pa ∨ pa + 128 ≤ r.addr →
      Results i s h c (longWrite c false rs [0]) (fun u =>
        (∀ j, j < 128 → u.rd (pa + j) = byteOf (pushRecord r (leNat (fun j => spadByte s c.wk (o + j)) 128) re) j) ∧
        leNat (fun j => u.rd (r.addr + 16 + j)) 4 = (r.wr + 1) % 2 ^ 32 ∧
        ∀ x, ¬(pa ≤ x ∧ x < pa + 128) → ¬(r.addr + 16 ≤ x ∧ x < r.addr + 20) → u.rd x = s.rd x))

/-- SHBEGIN opens a stream's shadow region; SHCOMMIT and SHDROP close it. -/
def Obligations.ShadowWords : Prop :=
  (∀ (s : State) (c : Ctx) (h : Hdr) (a : Opnd) (n : Nat), Solo s h 1 c → c.src (.int 32) a = .ok n → n ≤ 63 →
    (s.stream c.wg.part n).shadow = false →
    Results (.shbegin h a) s h c c.th (fun u => MemSame s u ∧ SpadSame s u ∧
      u.stream c.wg.part n = { s.stream c.wg.part n with shadow := true })) ∧
  (∀ (s : State) (c : Ctx) (h : Hdr) (a : Opnd) (n : Nat), Solo s h 1 c → c.src (.int 32) a = .ok n → n ≤ 63 → CanRelease c →
    NoDirty s c.wg.unit → s.shadowWaiting c.wg.part n = [] → s.shadowHeld (s.stream c.wg.part n) = none →
    let Closed (u : State) : Prop := (u.stream c.wg.part n).shadow = false ∧
      ((s.stream c.wg.part n).shadow = true → (u.stream c.wg.part n).ran = [])
    Answers (.shcommit h a) s Closed ∧
    ((∀ t ∈ (s.stream c.wg.part n).ran, t.tag = 0) → Results (.shcommit h a) s h c c.th Closed)) ∧
  ∀ (s : State) (c : Ctx) (h : Hdr) (a : Opnd) (n : Nat), Solo s h 1 c → c.src (.int 32) a = .ok n → n ≤ 63 → CanRelease c →
    Results (.shdrop h a) s h c c.th (fun u => (u.stream c.wg.part n).shadow = false ∧
      ((s.stream c.wg.part n).shadow = true → (u.stream c.wg.part n).ran = []))

/-- FADD, FSUB, FMUL and FMA of every format, mode and form write the exact value rounded once, with the flags of R123. -/
def Obligations.FloatArithmetic : Prop :=
  FloatArith .fadd .arith false (fun rm x y _ => XR.add rm x y) ∧
  FloatArith .fsub .arith false (fun rm x y _ => XR.add rm x y.negate) ∧
  FloatArith .fmul .arith false (fun _ x y _ => XR.mul x y) ∧
  FloatArith .fma .fma true (fun rm x y z => XR.add rm (XR.mul x y) z)

/-- FMIN, FMAX, FABS and FNEG pick or change encodings; FRND gives the integral value of R203; FCMP writes the flags of Table 9.3. -/
def Obligations.FloatCompareRound : Prop :=
  FloatPick .fmin (fun f x y r => MinMax f false x y r) ∧
  FloatPick .fmax (fun f x y r => MinMax f true x y r) ∧
  FloatOne .fabs .plain (fun f _ x r => r = x % 2 ^ (fmtWidth f - 1)) ∧
  FloatOne .fneg .plain (fun f _ x r => r = (x + 2 ^ (fmtWidth f - 1)) % 2 ^ fmtWidth f) ∧
  FloatOne .frnd .fsqrt (fun f rm x r =>
    ((fmtValue f x).isNan = true → some r = fmtNan f) ∧ ((fmtValue f x).isInf = true → r = x) ∧
    (∀ g n e, fmtValue f x = .fin g n e → (e * 2 ^ fmtMant f ≤ n → r = x) ∧
      (n < e * 2 ^ fmtMant f → ratOf (fmtValue f r) = (roundInt rm 0 0 (.fin g n e) : ℚ) ∧ (fmtValue f r).neg? = g))) ∧
  ∀ (s : State) (h : Hdr) (t : Ty) (a b : Opnd) (x y : Ctx → Nat) (p : Ctx → Option Bool),
    t ∈ [Ty.f32, Ty.f16, Ty.bf16] → CanRun s h 1 →
    (∀ c, Member s 1 c → c.read2 (.flt (fmtOf t)) false a b = .ok (x c, y c, p c)) →
    Completes (.fcmp h t a b) s h 1 (fun c =>
      let u := fmtValue (fmtOf t) (x c)
      let v := fmtValue (fmtOf t) (y c)
      let o := u.isNan || v.isNan
      c.th.putResult none false ⟨none, some ⟨o || !XR.lt u v, !o && !XR.lt u v && !XR.lt v u, !o && XR.lt u v, o⟩, p c⟩)

/-- FRCP, FRSQ, FSQRT, FEXP2, FLOG2, FSIN and FCOS land one write each, and at the special operands of Table 9.4, in every format and for
every source, the value landed is the one the table gives (R199, R200). -/
def Obligations.SpecialFunctions : Prop :=
  (SpecialWord .frcp .plain .rcp ∧ SpecialWord .frsq .plain .rsq ∧ SpecialWord .fsqrt .fsqrt .sqrt ∧
    SpecialWord .fexp2 .plain .exp2 ∧ SpecialWord .flog2 .plain .log2 ∧ SpecialWord .fsin .plain .sin ∧
    SpecialWord .fcos .plain .cos) ∧
  ∀ (f : FFmt) (rm : Rm) (nan inf x : Nat), (f, nan, inf) ∈ [(FFmt.f32, 0x7FC00000, 0x7F800000), (.f16, 0x7E00, 0x7C00), (.bf16, 0x7FC0, 0x7F80)] →
    SpecialTable f rm nan inf x

/-- FCVT, I2F and F2I, into and from sub-elements. -/
def Obligations.Conversions : Prop :=
  (∀ df sf : FFmt, ConvWord (fun h d a m => .fcvt h d a df sf m) (if slotWidth sf = 32 then .flt sf else .packFlt sf) (slotWidth sf)
    (slotWidth df) (fun rm sat r x y => convFloat (df == sf) df rm sat r (fmtValue sf x) = .ok y) (fun y => flagsFloat df y.enc y.v)) ∧
  (∀ (df : FFmt) (sf : IFmt), ConvWord (fun h d a m => .i2f h d a df sf m) (if intWidth sf = 32 then .int 32 else .packInt (intWidth sf))
    (intWidth sf) (slotWidth df) (fun rm sat r x y => convFloat false df rm sat r (.ofInt (intValue sf x)) = .ok y)
    (fun y => flagsFloat df y.enc y.v)) ∧
  ∀ (df : IFmt) (sf : FFmt), ConvWord (fun h d a m => .f2i h d a df sf m) (if slotWidth sf = 32 then .flt sf else .packFlt sf)
    (slotWidth sf) (intWidth df) (fun rm _ r x y => toInteger df rm r (fmtValue sf x) = y)
    (fun y => ⟨false, decide (y.enc = 0), intSigned df && y.enc.testBit (intWidth df - 1), y.v⟩)

/-- The packed words work element by element, each element as the row of its type; FDOT2 rounds the exact sum of its two products and its
accumulator once; DOT4 and DOT8 accumulate element by element. -/
def Obligations.PackedAndDotWords : Prop :=
  (PackWord .hadd2 .half .f16 (fun t => .packFlt (fmtOf t)) false 16 2 (halfArith false (fun rm x y _ => XR.add rm x y)) ∧
  PackWord .hmul2 .half .f16 (fun t => .packFlt (fmtOf t)) false 16 2 (halfArith false (fun _ x y _ => XR.mul x y)) ∧
  PackWord .hfma2 .halfAdd .f16 (fun t => .packFlt (fmtOf t)) true 16 2 (halfArith true (fun rm x y z => XR.add rm (XR.mul x y) z)) ∧
  PackWord .padd4 .pack .e4m3 el4 false 8 4 (arith4 (· + ·) (fun rm x y _ => XR.add rm x y)) ∧
  PackWord .pmul4 .pack .e4m3 el4 false 8 4 (arith4 (· * ·) (fun _ x y _ => XR.mul x y)) ∧
  PackWord .pmin4 .packMin .e4m3 el4 false 8 4 (pick4 false) ∧
  PackWord .pmax4 .packMin .e4m3 el4 false 8 4 (pick4 true)) ∧
  (∀ (s : State) (h : Hdr) (d a b : Opnd) (m : Option Mod) (x y z r : Ctx → Nat) (p : Ctx → Option Bool),
    (∀ k, m = some k → FloatRow.halfAdd.tyOk k = true) → CanRun s h (lenOf m) →
    (∀ c, Member s (lenOf m) c → FloatOperands c (.packFlt (fmtOf (tyOf m .f16))) false d a b m (x c) (y c) 0 (r c) (p c) ∧
      c.third (.flt .f32) d m = .ok (z c)) →
    Completes (.fdot2 h d a b m) s h (lenOf m) (fun c =>
      let v (u j : Nat) : XR := fmtValue (fmtOf (tyOf m .f16)) (sub 16 u j)
      let acc := fmtValue .f32 (z c)
      let e := XR.add (rmOf m) (XR.add (rmOf m) (XR.mul (v (x c) 0) (v (y c) 0)) (XR.mul (v (x c) 1) (v (y c) 1))) acc
      let q := roundedArith .f32 m (r c % 2 ^ 16) 16 [v (x c) 0, v (y c) 0, v (x c) 1, v (y c) 1, acc] e
      c.th.putResult (some d) false ⟨some q.1, if ccOf m then some q.2 else none, p c⟩)) ∧
  DotWord .dot4 8 ∧ DotWord .dot8 4

/-- RED gives every lane the tree's value, SCAN the prefix to its lane, BALLOT and MATCH a mask of the team's lanes; A says that a lane
was not live. -/
def Obligations.LaneWords : Prop :=
  (∀ (s : State) (h : Hdr) (d a : Opnd) (fn : RedFn) (ty : RedTy) (rs : Ctx → List Nat) (x : Ctx → Nat → Nat), CanRun s h 1 →
    (∀ c, Member s 1 c → c.longDest d (if fn = .maxi then 2 else 1) (if fn = .maxi then 2 else 1) = .ok (rs c) ∧ c.th.longCount < 8) →
    LaneValues s x (fun q => if fn = .maxi then q.src64 a else q.src (if ty = .f32 then .flt .f32 else .int 32) a) →
    Completes (.red h d a fn ty) s h 1 (fun c =>
      let v := treeAt (redOp fn ty) (x c) 6 (c.idx % 64)
      laneWrite c (rs c) [v % 2 ^ 32, v / 2 ^ 32] (someDead c))) ∧
  (∀ (s : State) (h : Hdr) (d a : Opnd) (fn : RedFn) (excl : Bool) (ty : RedTy) (rs : Ctx → List Nat) (x : Ctx → Nat → Nat),
    CanRun s h 1 → (∀ c, Member s 1 c → c.longDest d 1 1 = .ok (rs c) ∧ c.th.longCount < 8) →
    LaneValues s x (fun q => q.src (if ty = .f32 then .flt .f32 else .int 32) a) →
    Completes (.scan h d a fn excl ty) s h 1 (fun c =>
      let l := c.idx % 64
      let v := if !excl then scanAt (redOp fn ty) (x c) 6 l else if l = 0 then scanId fn ty else scanAt (redOp fn ty) (x c) 6 (l - 1)
      laneWrite c (rs c) [v % 2 ^ 32, v / 2 ^ 32] (someDead c))) ∧
  (∀ (s : State) (h : Hdr) (d : Opnd) (cond : Cond), MaskWord (.ballot h d cond) h d s (fun _ q => condHolds cond q.view.cc = true)) ∧
  ∀ (s : State) (h : Hdr) (d a : Opnd) (y : Ctx → Nat),
    (∀ c, Member s 1 c → c.src (.int 32) a = .ok (y c) ∧ ∀ l q, l < 64 → Live c l q → ∃ x, q.src (.int 32) a = .ok x) →
    MaskWord (.matchLanes h d a) h d s (fun c q => q.src (.int 32) a = .ok (y c))

/-- An outstanding write whose value is known lands once no earlier one is still to write what it writes, and then alone; an error
response to an outstanding access is the thread's pending terminal cause, and the access gives no value; an error of a core's own memories is
too, and a corrected one is counted. That a response for a word with nothing outstanding stands for an error of the core's own memories, and a
sub-cause of 0 for a corrected error, are the model's own codes of the event (log entry 26). -/
def Obligations.ResultsAndResponses : Prop :=
  (∀ (s : State) (k i : Nat) (t : Thread) (e : Pend) (pre post : List Pend) (vs : List (Nat × Word)) (f : CC),
    s.thread? k i = some t → t.pend = pre ++ e :: post → (∀ x ∈ pre ++ post, x.id ≠ e.id) → e.vals = some vs →
    (∀ n ∈ e.names, ∃ p ∈ vs, p.1 = n) → (∀ m ∈ t.queue, m.id ≠ e.id) → e.ccVal.getD t.cc = f →
    t.seen = [] ∨ e.mem = false ∨ e.ccDest = false →
    ((∀ x ∈ pre, ¬ Meets x e) → Answers (.resultLand k i e.id) s (fun u => u = { s with wgs := u.wgs, l1 := u.l1 } ∧
      (e.mem = false ∨ e.ccDest = false → u.l1 = s.l1) ∧ OthersSame s u k i ∧
      ∃ t', u.thread? k i = some t' ∧ t' = { t with v := t'.v, cc := t'.cc, pend := pre ++ post, loaded := t'.loaded } ∧
        t'.cc = ⟨if e.ccF then f.c else t.cc.c, if e.ccF then f.z else t.cc.z, if e.ccF then f.n else t.cc.n,
          if e.ccF then f.v else t.cc.v, if e.ccA then f.a else t.cc.a⟩ ∧
        ∀ r, FMap.get 0 t'.v r = if r ∈ e.live then lastOf vs r (FMap.get 0 t.v r) else FMap.get 0 t.v r)) ∧
    ((∃ x ∈ pre, Meets x e) → Answers (.resultLand k i e.id) s (fun u => u.thread? k i = some t ∧ OthersSame s u k i))) ∧
  (∀ (s : State) (k i id sub : Nat) (m : MemOp) (ms : List MemOp) (t : Thread), s.outstandingOps k i id = m :: ms → m.wk = k → m.idx = i →
    1 ≤ sub → sub ≤ 5 → m.spad = 0 ∨ sub = 1 → s.thread? k i = some t → t.st = .ready →
    Answers (.terminalResponse k i id sub) s (fun u => MemSame s u ∧ OthersSame s u k i ∧ ∃ t', u.thread? k i = some t' ∧
      t'.term = some (t.term.getD ⟨16, sub, if m.spad ≠ 0 then 0
          else if sub = 4 then s.rawPa (((s.wgs.find? k).map (·.part)).getD 0) m.va % 2 ^ 51 else m.va % 2 ^ 57,
        (s.wordPc m).1, (s.wordPc m).2.1, (s.wordPc m).2.2, m.place, m.width, m.reads, m.acquires, false, m.word⟩) ∧
      (∀ e ∈ t'.pend, e.id ≠ m.id) ∧ (∀ x ∈ t'.queue, x.id ≠ m.id) ∧ t'.off = t.off ∧ t'.v = t.v ∧ ∀ p ∈ u.parked, p.2.who ≠ .op m)) ∧
  (∀ (s : State) (k i id : Nat) (w : Wg) (t : Thread), s.outstandingOps k i id = [] → s.wgs.find? k = some w →
    w.threads.find? i = some t → t.st ≠ .exited →
    Answers (.terminalResponse k i id 1) s (fun u => MemSame s u ∧ OthersSame s u k i ∧ u.thread? k i =
        some { t with term := some (t.term.getD
          ⟨16, 1, 0, t.obj, t.off, s.wordsAt w t.obj t.off, 0, 0, true, false, false, s.fresh⟩) } ∧
      bits u.sys.eccLog 31 16 = satInc 16 (bits s.sys.eccLog 31 16) ∧ (bits u.sys.eccLog 3 0 = 6 ∨ bits u.sys.eccLog 3 0 = 7))) ∧
  ∀ (s : State) (k i id : Nat), Answers (.terminalResponse k i id 0) s (fun u => SysTo s u { s.sys with eccLog := u.sys.eccLog } ∧
    bits u.sys.eccLog 63 32 = satInc 32 (bits s.sys.eccLog 63 32) ∧ bits u.sys.eccLog 31 0 = bits s.sys.eccLog 31 0)

/-- A word that is performed becomes globally performed: its lines go home, and no L1 keeps an older copy; a line written back puts its dirty
bytes at the home and leaves the L1, and one that an error spoils makes its granule fail, at its own tag; a line that a unit's L1 takes of
itself changes no value read; a controller's write-back of a block stores each element rounded under the block's scale. How the event names
the unit, and that its codes from 2^16 on stand for an error and from 2^17 on for a unit, are the model's own (log entries 21 and 26). -/
def Obligations.WriteBacks : Prop :=
  (∀ (s : State) (k i : Nat) (t : Thread) (c : MemWord), s.thread? k i = some t → c ∈ t.chk → (∀ x ∈ t.chk, x.id = c.id → x = c) →
    c.parked = 0 → (∀ m ∈ t.queue, m.id ≠ c.id) → FMap.sorted s.l1 = true → Answers (.storeGloballyPerformed k i c.id) s (fun u =>
      u.thread? k i = some { t with chk := t.chk.filter (fun x => x.id != c.id) } ∧ OthersSame s u k i ∧
      ∀ l ∈ c.lines, ∀ x, u.l1.find? l = some x → x.dirty = [])) ∧
  (∀ (s : State) (n tag line : Nat) (l : Line), s.l1.find? (lineKey n tag (64 * line)) = some l → tag < 64 →
    line < 2 ^ 46 → s.l1.find? (lineKey (bufOf n) tag (64 * line)) = none → (∀ o ∈ l.dirty, o < 64) → Bare s → s.deltas = [] →
    Answers (.dirtyLineWriteBack (2 ^ 17 + n) tag line) s (fun u => u.wgs = s.wgs ∧
      (∀ k, u.l1.find? k = if k = lineKey n tag (64 * line) then none else s.l1.find? k) ∧
      (tag ≠ 0 → MemSame s u) ∧
      ∀ g a, a < 2 ^ 52 → g < 64 → (g = tag ∨ tag ≠ 0) → u.readHome g a =
        if g = tag ∧ a / 64 = line ∧ a % 64 ∈ l.dirty then FMap.get 0 l.data (a % 64) else s.readHome g a)) ∧
  (∀ (s : State) (core tag line : Nat), core < 2 ^ 16 → (∃ e ∈ s.l1, lineTag e.1 = tag ∧ lineAddr e.1 / 64 = line ∧
      unitCore (lineUnit e.1) = core ∧ isBuf (lineUnit e.1) = false) →
    ∃ n, unitCore n = core ∧ (s.l1.find? (lineKey n tag (64 * line))).isSome = true ∧
      exec (.dirtyLineWriteBack core tag line) s = exec (.dirtyLineWriteBack (2 ^ 17 + n) tag line) s) ∧
  (∀ (s : State) (n tag line : Nat), tag < 64 → line < 2 ^ 46 → s.l1.find? (lineKey n tag (64 * line)) = none →
    Answers (.dirtyLineWriteBack (2 ^ 17 + n) tag line) s (fun u => MemSame s u ∧ u.wgs = s.wgs ∧
      ∀ v g a, g < 64 → a < 2 ^ 52 → u.readL1 v g a = s.readL1 v g a)) ∧
  (∀ (s : State) (core tag line : Nat) (l : Line), core < 2 ^ 16 → tag < 64 → line < 2 ^ 46 →
    s.l1.find? (lineKey (s.lineHolder core tag (64 * line)) tag (64 * line)) = some l → l.dirty ≠ [] →
    (64 * line).testBit 51 = false → Answers (.dirtyLineWriteBack (2 ^ 16 + core) tag line) s (fun u => u.wgs = s.wgs ∧ MemSame s u ∧
      u.l1.find? (lineKey (s.lineHolder core tag (64 * line)) tag (64 * line)) = none ∧
      u.poison.find? (granuleKey tag line) = some (List.range 64) ∧
      (∀ g, g < 2 ^ 46 → g / 4 ≠ line / 4 → u.poison.find? (granuleKey tag g) = s.poison.find? (granuleKey tag g)) ∧
      bits u.sys.eccLog 31 16 = satInc 16 (bits s.sys.eccLog 31 16))) ∧
  ∀ (s : State) (ctl win b : Nat), let r := FMap.get 0 s.sys.rangeFmt (16 * ctl + win)
    let lo := rfBase r + b * rfBlock r * rfExpBytes r
    let hi := lo + rfBlock r * rfExpBytes r
    win < 16 → rfEnabled r = true → ctlOf lo = ctl → lo < rfLimit r → s.window? lo = some (win, r) →
    (∃ p ∈ s.expanded, lo ≤ p.1 ∧ p.1 < hi) → s.blockFails r b = none →
    Answers (.rangeFmtWriteback ctl win b) s (fun u => u.wgs = s.wgs ∧
      (∀ p, p ∈ u.expanded ↔ p ∈ s.expanded ∧ ¬ (lo ≤ p.1 ∧ p.1 < hi)) ∧
      ((∀ i ∈ rfElems r b, s.outlierOf r b i = none ∧
          stOverflows (rfStFmt r) (stQuo (fmtValue (rfExp r) (s.baseNat (rfBase r + i * rfExpBytes r) (rfExpBytes r)))
            (rfScale r (s.rdNat (rfDesc r b) 1))) = false ∧
          (rfDesc r b < rfStBase r + i * stWidth (rfStFmt r) / 8 ∨ rfStBase r + i * stWidth (rfStFmt r) / 8 + 2 ≤ rfDesc r b) ∧
          ∀ k ∈ probeWindow r b, rfOutBase r + 16 * k + 16 ≤ rfStBase r + i * stWidth (rfStFmt r) / 8 ∨
            rfStBase r + i * stWidth (rfStFmt r) / 8 + 2 ≤ rfOutBase r + 16 * k) →
        u.rdNat (rfDesc r b) 1 = s.rdNat (rfDesc r b) 1 ∧
        ∀ i ∈ rfElems r b, u.storedElem r i = stRound (rfStFmt r)
          (stQuo (fmtValue (rfExp r) (s.baseNat (rfBase r + i * rfExpBytes r) (rfExpBytes r)))
            (rfScale r (s.rdNat (rfDesc r b) 1))) % 2 ^ stWidth (rfStFmt r)))

/-- The front end reads wr of a host producer's ring, copies the head of the queue it serves, moves rd, and enters a launch, a raster
pass or a frame graph in the launch table under a new number; a launch record that fails a check enters nothing. -/
def Obligations.FrontEndAccepts : Prop :=
  (∀ (s : State) (part ring : Nat) (r : Ring), s.ring? part ring = some r → r.valid = true → r.dev = false →
    (s.part part).cfg.testBit 34 = true →
    Answers (.frontEndObserveWr part ring) s (fun u => u = { s with parts := u.parts } ∧
      (u.part part) = { s.part part with observed := (s.part part).observed.put ring r.wr } ∧ ∀ n, n ≠ part → u.part n = s.part n)) ∧
  (∀ (s : State) (part g e : Nat) (r : Ring) (x : Nat) (q : FMap Nat) (vtab : List Nat) (kblk : Nat) (v : Option Nat)
      (imgs : List (List Byte)) (o : Option (Nat × Nat)),
    s.nextQueue part = some g → s.queueHead part g = some r → r.kind = 0 → s.vGet part 0 (r.entry r.rd) 128 = .ok x →
    (s.takeEntry part g r).judge part x = .ok (.yes q vtab kblk v imgs o) → (s.part part).freeEntry = some e →
    x.testBit 776 = false → x.testBit 225 = false → x.testBit 227 = false → x.testBit 226 = false → bits x 911 896 = 0 →
    Answers (.launchAccept part g) s (fun u => u.wgs = s.wgs ∧ u.sys.launchQ = s.sys.launchQ ++ [(part, e)] ∧
      (u.part part).nextNum = nextNumber (s.part part).nextNum ∧ ∃ l, u.launch? part e = some l ∧ l.num = (s.part part).nextNum ∧
        l.kind = 0 ∧ l.rcd = x ∧ l.queue = g ∧ l.q = q ∧ l.vtab = vtab ∧ l.variant = v ∧ l.kblk = kblk ∧ l.ticket = 0 ∧ l.ready = true ∧
        l.status = none)) ∧
  (∀ (s : State) (part g : Nat) (r : Ring) (x d : Nat), s.nextQueue part = some g → s.queueHead part g = some r → r.kind = 0 →
    s.vGet part 0 (r.entry r.rd) 128 = .ok x → x.testBit 776 = false → bits x 760 704 = 0 → bits x 911 896 = 0 →
    lcDetail x false = some d →
    Answers (.launchAccept part g) s (fun u => u.wgs = s.wgs ∧ u.sys.launchQ = s.sys.launchQ ∧ (u.part part).ltab = (s.part part).ltab ∧
      (Bare s → leNat (fun j => u.rd (r.addr + 20 + j)) 4 = (r.rd + 1) % 2 ^ 32))) ∧
  (∀ (s : State) (part g e : Nat) (r : Ring) (x : Nat) (qs : List Nat), s.nextQueue part = some g → s.queueHead part g = some r →
    r.kind = 1 → s.vGet part 0 (r.entry r.rd) 128 = .ok x → (s.part part).freeEntry = some e → rpRsvd x = false →
    bits x 824 768 % 64 = 0 → bits x 696 640 % 32 = 0 → bits x 568 512 % 32 = 0 → bits x 612 608 ≤ 16 →
    (rpTag x = 0 ∨ ((s.tag (rpTag x)).state = 1 ∧ (s.tag (rpTag x)).part = part)) →
    let s1 := ((s.takeEntry part g r).numberDone part (bits x 455 448) true).1
    (List.range (bits x 612 608)).mapM (fun i => s1.vGet part (rpTag x) (bits x 568 512 + 32 * i) 32) = .ok qs →
    (∀ y ∈ qs, s1.bindOk part y = true) → bits (qs.getD (rpSlot x) 0) 162 160 = 3 → recRights (qs.getD (rpSlot x) 0) = 3 →
    Answers (.rasterPassAccept part g) s (fun u => u.wgs = s.wgs ∧ (∃ l, u.launch? part e = some l ∧ l.kind = 1 ∧ l.rcd = x ∧
        l.num = (s.part part).nextNum ∧ l.donen = (s.part part).ectrNum.get 0 (bits x 455 448) + 1) ∧
      ∃ k, s.passes.find? k = none ∧ u.passes.find? k =
        some ⟨part, e, (s.part part).nextNum, List.range (rpBins x), [], false, false, [], [], none⟩)) ∧
  ∀ (s : State) (part g e : Nat) (r : Ring) (x h : Nat) (ns : List Nat), s.nextQueue part = some g → s.queueHead part g = some r →
    r.kind = 2 → s.vGet part 0 (r.entry r.rd) 128 = .ok x → (s.part part).freeEntry = some e → x.testBit 136 = false →
    gsRsvd x = false → gsHeader x % 64 = 0 → bits x 120 64 % 16 = 0 →
    (lcTag x = 0 ∨ ((s.tag (lcTag x)).state = 1 ∧ (s.tag (lcTag x)).part = part)) →
    let s1 := s.takeEntry part g r
    s1.vGet part (lcTag x) (gsHeader x) 64 = .ok h →
    (List.range (min (ghNodes h) 256)).mapM (fun i => s1.vGet part (lcTag x) (gsNode x i) 64) = .ok ns → graphOk h ns = true →
    Answers (.frameGraphAccept part g) s (fun u => u.wgs = s.wgs ∧ (∃ l, u.launch? part e = some l ∧ l.kind = 2 ∧ l.rcd = x ∧
        l.num = (s.part part).nextNum) ∧
      ∃ k g, s.graphs.find? k = none ∧ u.graphs.find? k = some g ∧
        g = ⟨part, e, List.replicate (ghNodes h) 0, g.readyAt, ns.map (fun n => bits n 255 224), none⟩ ∧
        ∀ n, n < ghNodes h → g.readyAt.find? n = if (List.range 4).all (fun i => gnDep (ns.getD n 0) i == 255) then some s.clock else none)

/-- The dispatcher places a plot's workgroup with its state as R20, R35 and R39 give it (that no thread starts with its sticky out-of-bounds
bit set is the model's choice, log entry 3), and places none of a partition that is swapped out or being swapped out (that it places none
while the swap-out goes on is the model's reading, log entry 16); a workgroup that has drained becomes free, and the launch's last leaves its
completion record and its entry. -/
def Obligations.DispatchAndFree : Prop :=
  (∀ (s : State) (col n x p e plot g core : Nat) (l : Launch), (s.col col).fresh = [] → (s.col col).slots = [(n, x)] →
    x.testBit 63 = true → slPart x = p → slLtab x = e → s.launch? p e = some l → l.claim = some (.fresh plot) →
    s.slotKept col n = false → (s.part p).swapCtl.testBit 60 = false → (s.part p).swapCtl.testBit 62 = true → (slMax x = 0 ∨ s.slotPlots col n < slMax x) →
    l.membersOf plot = [g] → s.placement col x l (.fresh plot) = some [core] →
    (∃ c, c < 32 ∧ s.wgs.find? (32 * core + c) = none) →
    Answers (.plotDispatch col) s (fun u => MemSame s u ∧ u.launch? p e = some { l with ticket := l.ticket + 1 } ∧
      ∃ c w, c < 32 ∧ s.wgs.find? (32 * core + c) = none ∧ u.wgs.find? (32 * core + c) = some w ∧
        (∀ k, k ≠ 32 * core + c → u.wgs.find? k = s.wgs.find? k) ∧
        w.part = p ∧ w.ltab = e ∧ w.launch = l.num ∧ w.plot = plot ∧ w.wgid = g ∧ w.core = core ∧ w.slot = c ∧ w.tag = lcTag l.rcd ∧
        w.nthreads = lcThreads l.rcd ∧ w.quota = lcQuota l.rcd ∧ w.flush = true ∧ w.spad = [] ∧ w.draining = false ∧ w.stopped = none ∧
        (∀ j, j < 16 → (FMap.get 0 w.k j).toNat = l.kblk / 2 ^ (32 * j) % 2 ^ 32) ∧
        ∀ i, w.threads.find? i = if i < lcThreads l.rcd then some (Thread.start (bits l.rcd 56 0) l.entry s.clock) else none)) ∧
  (∀ (s : State) (col : Nat), (s.col col).fresh = [] → (∀ x ∈ (s.col col).slots, x.2.testBit 63 = true →
      (s.part (slPart x.2)).swapCtl.testBit 60 = true ∨ s.swappingOut (slPart x.2) = true) →
    Answers (.plotDispatch col) s (fun u => u = s)) ∧
  (∀ (s : State) (k : Nat) (w : Wg) (l : Launch), s.wgs.find? k = some w → w.draining = true → s.settledWg k w = true →
    w.traced = false → w.det = false → w.stopped = none → s.launch? w.part w.ltab = some l → l.kind = 0 → l.ready = true →
    l.status = none → l.membersOf w.plot = [w.wgid] → (∀ p ∈ l.members, p.1 ≠ w.plot) → l.plotsFree + 1 < l.plots →
    (∀ e ∈ (s.part w.part).ltab, e.2.resumeOf = none) →
    Answers (.workgroupFree k) s (fun u => Left s u k ∧ MemSame s u ∧ ∃ l', u.launch? w.part w.ltab = some l' ∧
      l' = { l with avg := some (match l.avg with
                      | some a => (7 * a + (s.clock - w.born)) / 8
                      | none => s.clock - w.born), plotsFree := l.plotsFree + 1 })) ∧
  ∀ (s : State) (k pa : Nat) (w : Wg) (l : Launch), s.wgs.find? k = some w → w.draining = true → s.settledWg k w = true →
    w.traced = false → w.det = false → w.stopped = none → s.launch? w.part w.ltab = some l → l.kind = 0 → l.ready = true →
    l.status = none → l.membersOf w.plot = [w.wgid] → (∀ p ∈ l.members, p.1 ≠ w.plot) → l.plots = l.plotsFree + 1 →
    (∀ e ∈ (s.part w.part).ltab, e.2.resumeOf = none) → (∀ j x, j ≠ k → s.wgs.find? j = some x → x.ltab ≠ w.ltab ∨ x.part ≠ w.part) →
    (∀ p q, p ∈ s.wgs → q ∈ s.wgs → p.1 = q.1 → p = q) → lcRelaunch l.rcd = false → l.regions = [] → l.node = none → Bare s →
    bits l.rcd 760 704 ≠ 0 → bits l.rcd 760 704 % 16 = 0 → s.xlate w.part (bits l.rcd 760 704) false true false = .ok pa false →
    s.linkHeld pa = false → Answers (.workgroupFree k) s (fun u => Left s u k ∧ u.launch? w.part w.ltab = none ∧
      (∀ a, u.rd a = if pa ≤ a ∧ a < pa + 16 then
          byteOf (completionRecord l.shrunk l.sigchg l.rerun l.errs 0 (if l.errs = 0 then 0 else 6)) (a - pa) else s.rd a) ∧
      (l.donen ≠ 0 → FMap.get 0 (s.part w.part).ectr (bits l.rcd 775 768) + 1 = l.donen →
        l.donen ≤ FMap.get 0 (u.part w.part).ectr (bits l.rcd 775 768)))

/-- A request that meets R348 takes its victim by the way of R351: a drained plot runs on, a saved one stops for its images, a flushed
one is discarded; a stopped plot that has settled is saved; a no-pre-emption region that reaches its bound, or a column hot for 10 ms,
gives up its workgroup, and a column that thermal control took a plot from does not resume it. How the model keeps that, and what is left of
the region's time in the image, are its choices (log entry 35). -/
def Obligations.Preemption : Prop :=
  (∀ (s : State) (part e : Nat) (l : Launch) (v : Victim) (y : Way) (missed : Bool), s.launch? part e = some l →
    s.requests part e = true → s.leaving part e = false →
    s.chooseVictim (requestCandidates s part e) (bits l.rcd 831 800) = some (v, y, missed) →
    Answers (.preemptionRequest part e) s (fun u => MemSame s u ∧
      (y = .drain → u.wgs = s.wgs) ∧
      (y = .save → ∀ k w, s.wgs.find? k = some w → u.wgs.find? k =
        some (if k ∈ v.keys ∧ w.draining = false then { w with saving := true, flushing := false } else w)) ∧
      (y = .flush → (∀ k ∈ v.keys, s.quietWg k = true) → ∀ k, u.wgs.find? k = if k ∈ v.keys then none else s.wgs.find? k) ∧
      (missed = true → y = .save → bits (s.part part).schedLog 47 32 = 0 → l.num < 2 ^ 32 →
        bits (u.part part).schedLog 47 32 = 1 ∧ bits (u.part part).schedLog 31 0 = l.num))) ∧
  (∀ (s : State) (k : Nat) (w : Wg) (l : Launch), s.wgs.find? k = some w → w.saving = true → w.flushing = false → w.draining = false →
    (s.part w.part).swapCtl.testBit 62 = true → s.plotWgs w.part w.ltab w.plot = [(k, w)] → s.savable k w = true →
    (∀ t ∈ w.threads, ¬ (t.2.st = .ended ∧ t.2.op = some .exit)) → w.staging = [] → w.wgid < 8 → s.launch? w.part w.ltab = some l →
    Answers (.workgroupSave k) s (fun u => Left s u k ∧ MemSame s u ∧ ∃ n, n ≤ w.nptime ∧
      u.launch? w.part w.ltab = some { l with returned := l.returned ++
        [.saved w.plot [s.image { s.withTasks k w with nptime := n }]] } ∧ (w.traced = false → s.withTasks k w = w))) ∧
  (∀ (s : State) (k i : Nat) (w : Wg) (t : Thread), s.wgs.find? k = some w → w.np = true → w.draining = false → w.saving = false →
    (s.part w.part).cfg.testBit 35 = false → w.threads = [(i, t)] → t.st ≠ .exited → t.st ≠ .trapped →
    Answers (.npRegionOverrun k) s (fun u => (∃ w' t', u.wgs.find? k = some w' ∧ w'.stopped = some (w.stopped.getD 5) ∧
        w'.draining = true ∧ w'.threads = [(i, t')] ∧ t'.st = .trapped) ∧
      (∃ r, (u.part w.part).traps.find? (s.part w.part).nextTrap = some r ∧ bits r.bits 7 0 = 15) ∧
      bits (u.part w.part).schedLog 63 56 = satInc 8 (bits (s.part w.part).schedLog 63 56))) ∧
  (∀ (s : State) (col n x p : Nat) (imgs : List (List Byte)) (l lo : Launch), (s.col col).fresh = [] → (s.col col).slots = [(n, x)] →
    s.launch? (slPart x) (slLtab x) = some l → l.claim = some (.back (.saved p imgs)) →
    s.launch? (slPart x) (l.home (slLtab x)) = some lo → (slPart x, lo.num, p) ∈ (s.col col).ousted →
    Answers (.plotDispatch col) s (fun u => u = s)) ∧
  ∀ (s : State) (col : Nat) (v : Victim), 3 ∈ (s.col col).stretch → (∀ p ∈ s.wgs, p.2.core / 8 = col → p.2.saving = false) →
    (s.candidates col 16).filter (fun x => x.whole) = [v] →
    Answers (.thermalSaveTimeout col) s (fun u => (u.col col).hot = true ∧
      (∀ l, s.launch? v.part v.ltab = some l → (v.part, l.num, v.plot) ∈ (u.col col).ousted) ∧ (∀ k w, s.wgs.find? k = some w → u.wgs.find? k =
        some (if k ∈ v.keys ∧ w.draining = false then { w with saving := true, flushing := false } else w)) ∧
      bits (u.part v.part).schedLog 55 48 = satInc 8 (bits (s.part v.part).schedLog 55 48))

/-- Droop, current, the power cap and heat stretch the clock of their columns. The end of droop or heat ends its stretch; that of current or
the power cap comes at the end of a step, by a free bit, for the spec leaves its moment to the current and the power (the model's choice, log
entry 35). A settled supply takes its target; a power request sets the targets of enabled columns. -/
def Obligations.ClockAndSupply : Prop :=
  (∀ (s : State) (c : Nat), Answers (.thermalLimit c) s (fun u => ∃ l, WithReason (s.col c).stretch 3 l ∧
    ColumnTo s u c { s.col c with stretch := l })) ∧
  (∀ (s : State) (c : Nat), Answers (.supplyDroop c) s (fun u => ∃ l, WithReason (s.col c).stretch 0 l ∧
    ColumnTo s u c { s.col c with stretch := l })) ∧
  (∀ (s : State) (c : Nat), Answers (.columnCurrentLimit c) s (fun u => ∃ l, WithReason (s.col c).stretch 1 l ∧
    ColumnTo s u c { s.col c with stretch := l })) ∧
  (∀ (s : State) (c : Nat), Answers (.supplyRecovery c) s (fun u =>
    ColumnTo s u c { s.col c with stretch := (s.col c).stretch.filter (fun r => r != 0) })) ∧
  (∀ (s : State) (c : Nat), Answers (.temperatureBelowLimit c) s (fun u =>
    ColumnTo s u c { s.col c with stretch := (s.col c).stretch.filter (fun r => r != 3), hot := false })) ∧
  (∀ s : State, s.finishStep = s.noteCells.reap.relax.dropKept.scrubStep.reportFaults.offerTraps.deliverTerms.tick ∧
    s.relax = { s with cols := s.relax.cols, fresh := s.relax.fresh } ∧ ∃ n, ∀ c, ∃ l, s.relax.col c = { s.col c with stretch := l } ∧
      (∀ r, r ≠ 1 → r ≠ 2 → (r ∈ l ↔ r ∈ (s.col c).stretch)) ∧
      ∀ r, r = 1 ∨ r = 2 → (r ∈ l ↔ r ∈ (s.col c).stretch ∧ Config.freeBit (n + 4 * c + r) = true)) ∧
  (∀ s : State, Answers .powerCapExceeded s (fun u => u = { s with cols := u.cols } ∧ ∀ c, ∃ l,
    u.col c = { s.col c with stretch := l } ∧
    (c < 34 ∧ (s.col c).enabled = true → WithReason (s.col c).stretch 2 l) ∧
    (¬ (c < 34 ∧ (s.col c).enabled = true) → l = (s.col c).stretch))) ∧
  (∀ (s : State) (c mv mhz : Nat), (s.col c).want = some (mv, mhz) → Answers (.voltageSettled c) s (fun u =>
    ColumnTo s u c { s.col c with mv := mv, mhz := mhz, want := none })) ∧
  ∀ (s : State) (v : BitVec 64), Answers (.pwrReq v) s (fun u => u.wgs = s.wgs ∧ MemSame s u ∧
    ∀ c, c < 34 → u.col c = if (s.col c).enabled = true ∧ (v.toNat.testBit 6 = true ∨ bits v.toNat 5 0 = c) then
      { s.col c with want := some (450 + 2 * min (bits v.toNat 15 8) 100,
                                   min (min (bits v.toNat 27 16) 1350) (Config.fusedMhz (450 + 2 * min (bits v.toNat 15 8) 100))),
                     mhz := min (s.col c).mhz
                       (min (min (bits v.toNat 27 16) 1350) (Config.fusedMhz (450 + 2 * min (bits v.toNat 15 8) 100))) }
      else s.col c)

/-- A channel starts its next request, or settles one it refuses. An arrival writes some of the bytes that are not yet delivered, in any order
(R81), counts the trellis down by as many, and moves the write pointer over the prefix that is delivered whole; the request leaves with its
last byte. -/
def Obligations.CopyChannels : Prop :=
  (∀ (s : State) (core chan : Nat) (r : Copy) (rs : List Copy), (chanOf s core chan).reqs = r :: rs → r.started = false →
    s.startable r.part = true →
    let recs := [s.descRec (s.copyReq r core) (cpSrc r.rcd), s.descRec (s.copyReq r core) (cpDst r.rcd)]
    (∀ p, s.copyPlan core r recs = .ok p → Answers (.copyRequestStart core chan) s (fun u => u = { s with cores := u.cores } ∧
      chanOf u core chan = ⟨(chanOf s core chan).wptr, { r with started := true, recs := recs } :: rs⟩ ∧
      (u.core core).err = (s.core core).err ∧ ∀ c, c ≠ core → u.core c = s.core c)) ∧
    (∀ e, s.copyPlan core r recs = .error e → s.arrivalDropped r = false → cpTuse r.rcd = false →
      Answers (.copyRequestStart core chan) s (fun u => u = { s with cores := u.cores } ∧
        chanOf u core chan = ⟨((chanOf s core chan).wptr + (r.total - r.done)) % 2 ^ 64, rs⟩ ∧
        (bits (s.core core).err 63 60 = 0 → e.cause < 16 → bits (u.core core).err 63 60 = e.cause ∧
          bits (u.core core).err 56 0 = e.addr % 2 ^ 57)))) ∧
  ∀ (s : State) (core chan n : Nat) (r : Copy) (rs : List Copy) (p : (Nat → RowAt) × (Nat → RowAt)),
    (chanOf s core chan).reqs = r :: rs → r.started = true → r.parked = false → s.copyPlan core r r.recs = .ok p →
    s.arrivalDropped r = false → cpRed r.rcd = 0 →
    let offs := r.arriving 1 (max n 1) s.clock
    let ps := offs.map (copyPair p (cpBytes r.rcd))
    offs.Nodup ∧ offs.length ≤ max n 1 ∧ (∀ o ∈ offs, r.done ≤ o ∧ o < r.total ∧ o ∉ r.got) ∧
    ((∀ x ∈ ps, InSpad s x.2) → (ps.map (·.2)).Nodup → (∀ w, s.wgs.find? r.wk = some w → w.traced = false) →
      s.engineHeld (s.copyReq r core) (ps.map (·.1)) (ps.map (·.2)) false = none →
      (cpTuse r.rcd = true → r.wk + 3 < 2 ^ 20 ∧ (∃ w, s.wgs.find? r.wk = some w) ∧ (∀ x ∈ ps, x.2.space = 3 + r.wk →
        x.2.addr < cpTrel r.rcd ∨ cpTrel r.rcd + 16 ≤ x.2.addr) ∧ offs.length ≤ leNat (fun j => spadByte s r.wk (cpTrel r.rcd + j)) 4) →
      Answers (.copyArrival core chan n) s (fun u => MemSame s u ∧
        (∀ x ∈ ps, spadByte u (x.2.space - 3) x.2.addr = s.locRead (s.copyReq r core) x.1) ∧
        (cpTuse r.rcd = true → leNat (fun j => spadByte u r.wk (cpTrel r.rcd + j)) 4 =
          leNat (fun j => spadByte s r.wk (cpTrel r.rcd + j)) 4 - offs.length) ∧
        ∃ d g, r.done ≤ d ∧ d ∉ r.got ∧ d ∉ offs ∧ (∀ o, r.done ≤ o → o < d → o ∈ r.got ∨ o ∈ offs) ∧
          (∀ o, o ∈ g ↔ (o ∈ r.got ∨ o ∈ offs) ∧ ¬ (r.done ≤ o ∧ o < d)) ∧
          (chanOf u core chan).wptr = ((chanOf s core chan).wptr + (d - r.done)) % 2 ^ 64 ∧
          (chanOf u core chan).reqs = if r.total ≤ d then rs else { r with done := d, got := g } :: rs))

/-- A free engine takes the column's next ready task. A multiply computes each block of 16 × 16 elements from what it then reads, writes its
pieces in any order (R80), and with the last block's completes on its stream; a halted partition's goes no further. A task parked for 4,096
clocks gives up its engine. -/
def Obligations.MatrixTasks : Prop :=
  let Becomes (s : State) (col : Nat) (t t' : Task) : List Task := (s.col col).tasks.map (fun x => if x = t then t' else x)
  (∀ (s : State) (col eng : Nat) (t : Task), eng < 4 → (∀ x ∈ (s.col col).tasks, x.eng ≠ some eng) → s.nextTask col = some t →
    OneTask s col t → t.recs = [] → t.status = none → t.pruned = false → t.shadowed = false → s.taskCheck t (s.taskRecs t) = none →
    (tkOp t.rcd ≠ 2 → Answers (.taskStart col eng) s (fun u => ColumnTo s u col { s.col col with
      tasks := Becomes s col t { t with eng := some eng, recs := s.taskRecs t } })) ∧
    (tkOp t.rcd = 2 → tkStat t.rcd = 0 → Answers (.taskStart col eng) s (fun u => MemSame s u ∧ u.wgs = s.wgs ∧
      (u.col col).tasks = (s.col col).tasks.filter (fun x => x != t) ∧ (u.stream t.part (tkStream t.rcd)).isDone t.num = true ∧
      ((s.stream t.part (tkStream t.rcd)).counter + 1 = t.num → t.num ≤ (u.stream t.part (tkStream t.rcd)).counter)))) ∧
  (∀ (s : State) (col eng : Nat) (t : Task) (p : Plan) (rs : Rows), OnEngine s col eng t → t.parked = false → t.pruned = false →
    (s.part t.part).cfg.testBit 36 = false → t.shadowed = false → t.todo = [] → tkOp t.rcd = 0 → planOf t.rcd = some p →
    s.mmaRows t p t.recs = .ok rs → (∀ w, s.wgs.find? t.wk = some w → w.traced = false) →
    let cells := (blockRows t).flatMap (fun i => (blockCols t).map (fun j => (i, j)))
    let dsts := cells.flatMap (fun c => dstLocs rs p.fd c.1 c.2)
    s.engineHeld t.req (blockReads t p rs ++ if tkAcc t.rcd then dsts else []) dsts false = none →
    Answers (.taskBlockComplete col eng) s (fun u => ∃ was, ColumnTo s u col { s.col col with tasks := Becomes s col t { t with
      was := was
      todo := cells.flatMap (fun c => List.zipWith (fun l b => (l.space, l.addr, b)) (dstLocs rs p.fd c.1 c.2)
        (leBytes (stWidth p.fd.elem / 8) (s.mmaElem t p rs c.1 c.2))) } })) ∧
  (∀ (s : State) (col eng : Nat) (t : Task), OnEngine s col eng t → t.parked = false → t.pruned = false →
    (s.part t.part).cfg.testBit 36 = false → t.shadowed = false → t.todo ≠ [] → tkOp t.rcd = 0 → tkStat t.rcd = 0 →
    (∀ e ∈ t.todo, InSpad s ⟨e.1, e.2.1⟩) → (t.todo.map (fun e => (e.1, e.2.1))).Nodup →
    ∃ now rest, List.Perm (now ++ rest) t.todo ∧ now ≠ [] ∧
      (s.engineHeld t.req [] (now.map (fun e => ⟨e.1, e.2.1⟩)) false = none →
      Answers (.taskBlockComplete col eng) s (fun u => MemSame s u ∧ (∀ e ∈ now, spadByte u (e.1 - 3) e.2.1 = e.2.2) ∧
        (∀ k a, (∀ e ∈ now, ¬ (e.1 = k + 3 ∧ e.2.1 = a)) → spadByte u k a = spadByte s k a) ∧
        (rest ≠ [] → (u.col col).tasks = Becomes s col t { t with todo := rest }) ∧
        (rest = [] → t.block + 1 < (tkM t.rcd / 16) * (tkN t.rcd / 16) →
          (u.col col).tasks = Becomes s col t { t with todo := [], block := t.block + 1 }) ∧
        (rest = [] → (tkM t.rcd / 16) * (tkN t.rcd / 16) ≤ t.block + 1 → (u.col col).tasks = (s.col col).tasks.filter (fun x => x != t) ∧
          (u.stream t.part (tkStream t.rcd)).isDone t.num = true)))) ∧
  (∀ (s : State) (col eng : Nat) (t : Task), OnEngine s col eng t →
    t.parked = true ∨ (s.part t.part).cfg.testBit 36 = true ∧ s.swappingOut t.part = false →
    Answers (.taskBlockComplete col eng) s (fun u => u = s)) ∧
  ∀ (s : State) (col eng : Nat) (t : Task), OnEngine s col eng t → t.parked = true → t.ask + 4096 ≤ s.clock →
    Answers (.taskShadowSpill col eng) s (fun u => ColumnTo s u col { s.col col with tasks := Becomes s col t { t with eng := none } })

/-- A ray lands its hit or its miss in its four registers. A raster pass starts by binning the triangles of its draws, once and in draw order,
and counting them; a bin then leaves in each of its samples the least of what stood there and the words of the triangles that cover it, counts
the samples tested, or is taken from its unit part way and stays to be replayed (by a free value, log entry 36); the last bin leaves the
statistics and ends the pass. A sample inside a triangle is covered, one outside is not, and one on a shared edge is covered by one of the two
(the top-left rule, log entry 9). A node of a frame graph whose dependences have completed runs its record or is dropped (log entry 25), and
the nodes that become ready with it are noted. What R249 and R294 leave open of a ray is the model's choice (log entry 12). -/
def Obligations.GraphicsSteps : Prop :=
  (∀ (s : State) (col ray : Nat) (y : Ray) (w : Wg) (t : Thread) (e : Pend) (pre post : List Pend) (rs : List Nat) (o : Option Hit) (b : Bool),
    (s.col col).rays.find? ray = some y → y.parked = false → s.wgs.find? y.wk = some w → s.thread? y.wk y.idx = some t →
    t.pend = pre ++ e :: post → e.id = y.id → (∀ x ∈ pre ++ post, x.id ≠ y.id) → (∀ x ∈ pre, ¬ Meets x e) → e.names = rs → e.live = rs →
    rs.length = 4 → rs.Nodup → e.ccF = false → e.ccA = false →
    s.rayWalk { w.reqOf y.wk with part := y.part, tag := y.tag } y col s.fresh (rayExtent y.rcd / 64 + 2) 0 (none, false) = .ok (o, b) →
    Answers (.traversalRay col ray) s (fun u => MemSame s u ∧ OthersSame s u y.wk y.idx ∧ (u.col col).rays.find? ray = none ∧
      ∃ t', u.thread? y.wk y.idx = some t' ∧ t' = { t with v := t'.v, pend := pre ++ post, loaded := t'.loaded } ∧
        (∀ r, r ∉ rs → FMap.get 0 t'.v r = FMap.get 0 t.v r) ∧
        match o with
        | some h => ∀ j, j < 4 → FMap.get 0 t'.v (rs.getD j 0) =
            BitVec.ofNat 32 ([h.t, h.u, h.v, 2 ^ 29 + h.prim % 2 ^ 24].getD j 0)
        | none => FMap.get 0 t'.v (rs.getD 0 0) = 0x7F800000 ∧ FMap.get 0 t'.v (rs.getD 3 0) = 0)) ∧
  (∀ (t : Tri) (x y : Int), 0 < t.area →
    (0 < edgeFn t.a t.b x y → 0 < edgeFn t.b t.c x y → 0 < edgeFn t.c t.a x y → t.covers x y = true) ∧
    (edgeFn t.a t.b x y < 0 ∨ edgeFn t.b t.c x y < 0 ∨ edgeFn t.c t.a x y < 0 → t.covers x y = false)) ∧
  (∀ (a b c d : Vtx) (x y : Int), 0 < (Tri.mk a b c).area → 0 < (Tri.mk b a d).area → edgeFn a b x y = 0 →
    0 < edgeFn b c x y → 0 < edgeFn c a x y → 0 < edgeFn a d x y → 0 < edgeFn d b x y →
    (Tri.mk a b c).covers x y = !(Tri.mk b a d).covers x y) ∧
  (∀ (s : State) (part k bin : Nat) (p : Pass) (l : Launch) (ds : List Nat), s.passes.find? k = some p → p.part = part →
    s.launch? p.part p.ltab = some l → l.status ≠ some 4 → bin ∈ p.bins → p.parked = false → p.held = none → s.startable part = true →
    p.started = false → rpHz l.rcd = 0 → s.draws p l = .ok ds →
    (∀ d ∈ ds, drRefused d = false → ∀ n, n < drPrims d → ∃ vs, s.vertices p l d n = .ok vs) →
    let prims := (ds.filter (fun d => !drRefused d)).flatMap (fun d => (List.range (drPrims d)).map (fun n => (d, n)))
    ∃ q, q = { p with started := true, stats := q.stats, tris := q.tris } ∧
      exec (.rasterBin part k bin) s = exec (.rasterBin part k bin) { s with passes := s.passes.put k q } ∧
      q.stats.length = 6 ∧ q.stats.getD 0 0 = min (2 ^ 32 - 1) prims.length ∧ q.stats.getD 3 0 = 0 ∧ q.stats.getD 4 0 = 0 ∧
      q.stats.getD 5 0 = min (2 ^ 64 - 1) (ds.filter drRefused).length ∧
      (q.tris.map (fun b => (b.draw, b.prim))).Sublist prims ∧
      (∀ b ∈ q.tris, s.vertices p l b.draw b.prim = .ok b.verts ∧ ∃ t, triOf b.verts = some t ∧ t.culled b.draw = false) ∧
      ∀ d n vs t x y i, (d, n) ∈ prims → s.vertices p l d n = .ok vs → triOf vs = some t → t.culled d = false → x < rpWidth l.rcd →
        y < rpHeight l.rcd → i < rpSamples l.rcd → t.clockwise.covers (samplePos l.rcd x y i).1 (samplePos l.rcd x y i).2 = true →
        ∃ b ∈ q.tris, b.draw = d ∧ b.prim = n ∧ b.verts = vs ∧ x / 64 + y / 64 * rpBinsX l.rcd ∈ b.bins) ∧
  (∀ (s : State) (part k bin : Nat) (p : Pass) (l : Launch) (pos : Nat → Nat → Nat → Nat), s.passes.find? k = some p → p.part = part →
    s.launch? p.part p.ltab = some l → l.status ≠ some 4 → bin ∈ p.bins → p.parked = false → p.held = none → s.startable part = true →
    p.started = true → rpHz l.rcd = 0 → rpTag l.rcd = 0 → p.hz = [] → p.stats.length = 6 → (∃ x ∈ p.bins, x ≠ bin) → Bare s → s.poison = [] →
    s.sets = [] → (∀ b ∈ p.tris, b.prim < 2 ^ 24) → SamplesAt s p l bin pos →
    let tris := p.tris.filter (fun b => b.bins.contains bin)
    Answers (.rasterBin part k bin) s (fun u => u.wgs = s.wgs ∧
      (∀ a, (∀ x y i, InBin l.rcd bin x y i → a < pos x y i ∨ pos x y i + 8 ≤ a) → u.rd a = s.rd a) ∧
      (∀ j, j ≠ k → u.passes.find? j = s.passes.find? j) ∧
      (s.binCut bin = none → (∃ st, u.passes.find? k = some { p with bins := p.bins.filter (fun x => x != bin), stats := st } ∧
          (∀ j, j ≠ 3 → j ≠ 4 → st.getD j 0 = p.stats.getD j 0) ∧ st.getD 3 0 = satAdd 64 (p.stats.getD 3 0)
            (((binTiles l.rcd bin).flatMap (fun y => y.2)).map (fun y => (sampleWords l.rcd tris y.1 y.2.1 y.2.2).length)).sum) ∧
        ∀ x y i, InBin l.rcd bin x y i → leNat (fun j => u.rd (pos x y i + j)) 8 =
          (sampleWords l.rcd tris x y i).foldl min (leNat (fun j => s.rd (pos x y i + j)) 8)) ∧
      (∀ c, s.binCut bin = some c → u.passes.find? k = some p ∧
        ∀ x y i, InBin l.rcd bin x y i → ∃ ws : List Nat, (∀ w ∈ ws, w ∈ sampleWords l.rcd tris x y i) ∧
          leNat (fun j => u.rd (pos x y i + j)) 8 = ws.foldl min (leNat (fun j => s.rd (pos x y i + j)) 8)))) ∧
  (∀ (s : State) (part k bin pa : Nat) (p : Pass) (l : Launch) (st : Fin 6 → Nat), s.passes.find? k = some p → p.part = part →
    s.launch? p.part p.ltab = some l → l.status ≠ some 4 → p.bins = [bin] → p.parked = false → p.held = none → s.startable part = true →
    p.started = true → rpHz l.rcd = 0 → rpTag l.rcd = 0 → p.tris = [] → p.stats = (List.finRange 6).map st → st 0 < 2 ^ 32 →
    st 1 < 2 ^ 32 → st 2 < 2 ^ 64 → st 3 < 2 ^ 64 → st 4 < 2 ^ 64 → st 5 < 2 ^ 64 → Bare s → l.regions = [] →
    bits l.rcd 824 768 % 64 = 0 → s.xlate part (bits l.rcd 824 768) false true false = .ok pa false → s.linkHeld pa = false →
    Answers (.rasterBin part k bin) s (fun u => u.wgs = s.wgs ∧ (s.binCut bin ≠ none → u.passes.find? k = some p ∧ MemSame s u) ∧
      (s.binCut bin = none → u.passes.find? k = none ∧ u.launch? part p.ltab = none ∧
        (∀ a, u.rd a = if pa ≤ a ∧ a < pa + 64 then byteOf (st 0 + st 1 * 2 ^ 32 + st 2 * 2 ^ 64 + st 3 * 2 ^ 128 + st 4 * 2 ^ 192
          + st 5 * 2 ^ 256) (a - pa) else s.rd a) ∧
        (l.donen ≠ 0 → FMap.get 0 (s.part part).ectr (bits l.rcd 455 448) + 1 = l.donen →
          l.donen ≤ FMap.get 0 (u.part part).ectr (bits l.rcd 455 448))))) ∧
  ∀ (s : State) (part k n h x : Nat) (g : Graph) (l : Launch), s.graphs.find? k = some g → g.part = part →
    s.launch? g.part g.ltab = some l → n < g.nodes.length → g.nodes.getD n 2 = 0 → (s.part part).freeEntry ≠ none → s.parked = [] →
    s.snoops = [] → s.vGet part (lcTag l.rcd) (gsNode l.rcd n) 64 = .ok x → s.vGet part (lcTag l.rcd) (gsHeader l.rcd) 64 = .ok h →
    (∀ i, i < 4 → bits (g.deps.getD n 0) (8 * i + 7) (8 * i) = 255 ∨ g.nodes.getD (bits (g.deps.getD n 0) (8 * i + 7) (8 * i)) 0 = 2) →
    let late := s.nodeLate h x ((g.readyAt.find? n).getD s.clock)
    (∀ a, nodeAction h x late = (2, 0) → a < 2 ^ 51 → Bare s → lcTag l.rcd = 0 → gsNode l.rcd n % 64 = 0 →
      s.xlate part (gsNode l.rcd n) true false false = .ok a false → s.xlate part (gsNode l.rcd n) false true false = .ok a false →
      (∃ j, j ≠ n ∧ j < g.nodes.length ∧ g.nodes.getD j 2 ≠ 2) → (∀ q ∈ s.graphs, q.2.ltab = g.ltab → q.2.part = part → q = (k, g)) →
      Answers (.frameNodeReady part k n) s (fun u =>
        (∃ ra, u.graphs.find? k = some { g with nodes := g.nodes.set n 2, readyAt := ra } ∧
          ∀ j, ra.find? j = if (g.readyAt.find? j).isSome then g.readyAt.find? j
            else if j < g.nodes.length ∧ ({ g with nodes := g.nodes.set n 2 } : Graph).isReady j = true then some s.clock else none) ∧
        ∀ b, u.rd b = if b = a then BitVec.ofNat 8 ((s.rd a).toNat / 16 * 16 + 2) else s.rd b)) ∧
    (∀ st va r t, nodeAction h x late = (st, va) → va ≠ 0 → s.vGet part (lcTag l.rcd) va 128 = .ok r →
      (s.setNode k n (4 + st)).accept part l.queue (setBits r 62 57 (lcTag l.rcd)) (some (g.ltab, n)) false = .ok t →
      Answers (.frameNodeReady part k n) s (fun u => u = t))

/-- A presentation event occurs when the reference timer of its display expires or the host fires it, and not while the other is the
display's source. -/
def Obligations.PresentationEvents : Prop :=
  ∀ (s : State) (y : Nat), y < 16 →
    ((s.disp y).time.testBit 32 = false → bits (s.disp y).time 31 0 ≠ 0 → (s.disp y).cfg.testBit 4 = true →
      Answers (.presentationEvent y) s (fun u => Presented s u y)) ∧
    ((s.disp y).time.testBit 32 = true → Answers (.dispEvtFire y) s (fun u => Presented s u y)) ∧
    ((s.disp y).time.testBit 32 = true → Answers (.presentationEvent y) s (fun u => u = s)) ∧
    ((s.disp y).time.testBit 32 = false → Answers (.dispEvtFire y) s (fun u => u = s))

/-- A graft makes the winner's versions tag 0, retires the tags of its set, frees the slot and reports; the scrub frees a retired tag; the
ticket unit releases the oldest staged effect of the workgroup whose turn it is, a write at its home; a filter entry leaves after 1,024 clocks. -/
def Obligations.VersionSteps : Prop :=
  (∀ (s : State) (set : Nat) (g : Grafting) (w : Wg) (f : ForkSet) (t : Thread), List.find? (fun x => x.set == set) s.grafts = some g →
    s.wgs.find? g.wk = some w → s.thread? g.wk g.idx = some t → s.graftRefused w.part set g.winner = none → s.sets.find? set = some f →
    s.parked = [] → s.snoops = [] → s.shared = [] → Bare s → s.deltas = [] → s.l1 = [] → s.held = [] → f.post = [] → f.tags.Nodup →
    0 < g.winner → g.winner < 64 → FMap.sorted s.vers = true → (∀ p ∈ s.vers, p.1 / 2 ^ 52 = g.winner → p.1 % 2 ^ 52 < 2 ^ 51) →
    Answers (.graftStart set) s (fun u =>
      (∀ a, a < 2 ^ 52 → u.rd a = (s.vers.find? (2 ^ 52 * g.winner + a)).getD (s.rd a)) ∧ u.sets.find? set = none ∧
      (∀ x ∈ f.tags, (u.tag x).state = 2 ∧ ∀ p ∈ u.vers, p.1 / 2 ^ 52 ≠ x) ∧ (u.tag g.winner).state = 2 ∧
      SpadWrote s u g.wk g.report 16 (forkReport 0 0 g.winner set 0) ∧ ∃ t', u.thread? g.wk g.idx = some t' ∧ g.id ∉ t'.hold)) ∧
  (∀ (s : State) (tag : Nat), (s.tag tag).state = 2 → Answers (.scrubTagClean tag) s (fun u => u.tag tag = Tag.free ∧
    (∀ x, x ≠ tag → u.tag x = s.tag x) ∧ (∀ p, p ∈ u.vers ↔ p ∈ s.vers ∧ p.1 / 2 ^ 52 ≠ tag) ∧
    (∀ p, p ∈ u.deltas ↔ p ∈ s.deltas ∧ p.1 / 2 ^ 52 ≠ tag) ∧ MemSame s u ∧ u.wgs = s.wgs)) ∧
  (∀ (s : State) (part e k pa : Nat) (w : Wg) (m : MemOp) (q : Option Nat) (rest : List Staged), s.ticketTurn part e = some (k, w) →
    s.wgs.find? k = some w → w.staging = .mem m q :: rest → m.wk = k → m.spad = 0 → m.kind = 1 → m.ord = 0 → w.traced = false → s.parked = [] →
    s.snoops = [] → s.xlateAt w m.va m.width false true = .ok pa false → s.noSpace m.tag pa = false → Bare s → m.tag < 64 →
    pa + m.width ≤ 2 ^ 52 → s.linkHeld pa = false →
    s.deltas = [] → s.l1.find? (lineKey w.unit m.tag pa) = none → s.l1.find? (lineKey (bufOf w.unit) m.tag pa) = none →
    Answers (.ticketRelease part e) s (fun u => (m.tag = 0 → MemWrote s u pa m.width m.data) ∧ (m.tag ≠ 0 → MemSame s u) ∧ u.l1 = s.l1 ∧
      (∃ w', u.wgs.find? k = some w' ∧ w'.staging = rest ∧ w'.spad = w.spad) ∧
      ∀ a, m.tag ≠ 0 → a < 2 ^ 52 →
        u.readHome m.tag a = if pa ≤ a ∧ a < pa + m.width then byteOf m.data (a - pa) else s.readHome m.tag a)) ∧
  (∀ (s : State) (part e k i id y f : Nat) (w : Wg) (rest : List Staged), s.ticketTurn part e = some (k, w) → s.wgs.find? k = some w →
    w.staging = .flip i id y f :: rest → w.tag = 0 → (s.disp y).cfg.testBit 4 = true → bits (s.disp y).cfg 7 5 = part →
    (s.surface y f).testBit 0 = true → bits (s.surface y f) 103 96 ≤ 2 → (s.disp y).queue.length < 4 →
    Answers (.ticketRelease part e) s (fun u => MemSame s u ∧ (∃ w', u.wgs.find? k = some w' ∧ w'.staging = rest) ∧
      u.disp y = { s.disp y with queue := (s.disp y).queue ++ [(f, s.surface y f)] } ∧ ∀ z, z ≠ y → u.disp z = s.disp z)) ∧
  ∀ (s : State) (core idx : Nat) (f : Feedback), (s.core core).filter[idx]? = some f → f.born + 1024 ≤ s.clock →
    Answers (.feedbackFilterTimeout core idx) s (fun u => u.wgs = s.wgs ∧ (u.core core).filter = (s.core core).filter.eraseIdx idx ∧
      ∀ h t t', s.vRead f.part 0 f.ring 16 = some h → 4 ≤ bits h 4 0 → bits h 4 0 ≤ 20 →
        (bits h 63 32 + 2 ^ 32 - bits h 95 64) % 2 ^ 32 ≠ 2 ^ bits h 4 0 →
        s.vWrite f.part 0 (f.ring + 64 + 16 * (bits h 63 32 % 2 ^ bits h 4 0)) (leBytes 16 (f.entry (s.coreNum core))) = some t →
        t.vWrite f.part 0 (f.ring + 4) (leBytes 4 ((bits h 63 32 + 1) % 2 ^ 32)) = some t' → u.mem = t'.mem)

/-- A back-invalidate answered lets the waiting store write its bytes at the place that it was translated to, and the host holds the line no
longer; one not answered in time is reported as cause 5, a store as a write and an atomic as an atomic; a host snoop empties every L1 of the
line at tag 0, dirty bytes first (the model's reading of R61, log entry 24), and none arrives where no port runs CXL; a port that goes down
is recorded. -/
def Obligations.HostCoherence : Prop :=
  (∀ (s : State) (i : Nat) (x : Snoop) (m : MemOp) (w : Wg) (t : Thread), s.snoops.find? i = some x → x.who = .op m →
    s.wgs.find? m.wk = some w → s.thread? m.wk m.idx = some t → m ∈ t.queue → w.traced = false → m.kind = 1 → m.ord = 0 → m.tag = 0 →
    x.pa.testBit 51 = false → s.l1.find? (lineKey w.unit 0 x.pa) = none → s.l1.find? (lineKey (bufOf w.unit) 0 x.pa) = none → Bare s →
    Answers (.backInvalidateResponse i) s (fun u => MemWrote s u x.pa m.width m.data ∧ u.snoops.find? i = none ∧ x.pa / 64 ∉ u.shared ∧
      (∀ p ∈ u.parked, p.2.who ≠ .op m) ∧ ∃ t', u.thread? m.wk m.idx = some t' ∧ t'.queue = t.queue.erase m)) ∧
  (∀ (s : State) (i : Nat) (x : Snoop), s.snoops.find? i = some x → x.late = false → x.pa.testBit 51 = false →
    (∀ p ∈ s.parked, p.2.who ≠ x.who) → Answers (.backInvalidateTimeout i) s (fun u => MemSame s u ∧ u.wgs = s.wgs ∧ u.snoops.find? i = some { x with late := true } ∧
      ∃ k p, s.parked.find? k = none ∧ u.parked.find? k = some p ∧ p.part = x.part ∧ p.va = x.va % 2 ^ 57 ∧ p.page = p.va / 2 ^ 15 ∧
        p.cause = 5 ∧ ((∀ m, x.who ≠ .op m) → p.types = 2) ∧ (∀ m, x.who = .op m → m.kind = 1 → p.types = 2) ∧
        (∀ m, x.who = .op m → m.kind = 2 → p.types = 8) ∧ p.who = x.who ∧ p.queued = none)) ∧
  (∀ (s : State) (line : Nat), ¬ HostReaches s → Answers (.hostSnoop line) s (fun u => u = s)) ∧
  (∀ (s : State) (line : Nat), (64 * line).testBit 51 = true → HostReaches s → Answers (.hostSnoop line) s (fun u => u.wgs = s.wgs ∧
    (∀ e, e ∈ u.l1 ↔ e ∈ s.l1 ∧ ¬ (lineTag e.1 = 0 ∧ lineAddr e.1 = 64 * line)) ∧
    (∀ k l, (k, l) ∈ s.l1 → lineTag k = 0 → lineAddr k = 64 * line → (∀ e ∈ s.l1, lineTag e.1 = 0 → lineAddr e.1 = 64 * line → e = (k, l)) →
      Bare s → (∀ o ∈ l.dirty, o < 64) →
      ∀ a, u.rd a = if a / 64 = line ∧ a % 64 ∈ l.dirty then FMap.get 0 l.data (a % 64) else s.rd a))) ∧
  ∀ (s : State) (port : Nat), Answers (.linkDown port) s (fun u => SysTo s u { s.sys with portUp := s.sys.portUp.set port false })

/-- An access by the host or a peer reads or writes memory below dtop while a port that runs CXL is up, waits while the only such port retrains,
and one that goes beyond dtop is logged with its first byte beyond (R375: the first byte concerned); the management core's untranslated port does
the same, and reaches its SRAM, the tensor tables and its privileged window (at addresses of the model's choice, log entry 47). -/
def Obligations.OutsideAccesses : Prop :=
  (∀ (s : State) (a : Nat) (l : List Byte), HostReaches s → a + l.length ≤ 0xC00000000 → Bare s →
    Answers (.hostMemAccess true a l) s (fun u => MemPut s u a l ∧ u.wgs = s.wgs ∧ ∀ i, i < l.length → (a + i) / 64 ∈ u.shared)) ∧
  (∀ (s : State) (a : Nat) (l : List Byte), HostReaches s → a + l.length ≤ 0xC00000000 → Bare s → s.poison = [] →
    Answers (.hostMemAccess false a l) s (fun u =>
      u = { s with shared := u.shared, sys := { s.sys with hostRead := leNat (fun j => s.rd (a + j)) l.length } } ∧
      ∀ i, i < l.length → (a + i) / 64 ∈ u.shared)) ∧
  (∀ (s : State) (wr : Bool) (a : Nat) (l : List Byte), HostReaches s → a < 2 ^ 51 → 0xC00000000 < a + l.length →
    Answers (.hostMemAccess wr a l) s (fun u => SysTo s u { s.sys with errLog := u.sys.errLog } ∧ ErrLogged s u 3 6 (max a 0xC00000000))) ∧
  (∀ (s : State) (wr : Bool) (a : Nat) (l : List Byte), a < 2 ^ 52 →
    (∀ p, p < 2 → s.sys.portUp.getD p false = true → s.sys.portCxl.getD p false = false) →
    Answers (.hostMemAccess wr a l) s (fun u => u = s)) ∧
  (∀ (s : State) (wr : Bool) (a p : Nat) (l : List Byte), a < 2 ^ 52 → p < 2 → s.retraining = some p →
    s.sys.portUp.getD p false = true → s.sys.portCxl.getD p false = true →
    (s.sys.portUp.getD (1 - p) false = true → s.sys.portCxl.getD (1 - p) false = false) →
    Answers (.hostMemAccess wr a l) s (fun u => SysTo s u { s.sys with hostWaits := s.sys.hostWaits ++ [(wr, a, l)] })) ∧
  (∀ (s : State) (a : Nat) (l : List Byte), a + l.length ≤ 0xC00000000 → Bare s →
    Answers (.untranslatedPortAccess true a l) s (fun u => MemPut s u a l ∧ u.wgs = s.wgs)) ∧
  (∀ (s : State) (a : Nat) (l : List Byte), a + l.length ≤ 0xC00000000 → Bare s → s.poison = [] →
    Answers (.untranslatedPortAccess false a l) s (fun u =>
      SysTo s u { s.sys with lastRead := leNat (fun j => s.rd (a + j)) l.length })) ∧
  (∀ (s : State) (wr : Bool) (a : Nat) (l : List Byte), l ≠ [] → a + l.length ≤ 2 ^ 51 → 0xC00000000 < a + l.length →
    Answers (.untranslatedPortAccess wr a l) s (fun u => MemSame s u ∧ u.wgs = s.wgs ∧ ∃ source, ErrLogged s u 3 source (max a 0xC00000000))) ∧
  (∀ (s : State) (off : Nat) (l : List Byte), off + l.length ≤ 0xF8000 →
    Answers (.untranslatedPortAccess true (2 ^ 52 + off) l) s (fun u => SysTo s u { s.sys with sram := u.sys.sram } ∧
      ∀ i, FMap.get 0 u.sys.sram i = if off ≤ i ∧ i < off + l.length then l.getD (i - off) 0 else FMap.get 0 s.sys.sram i)) ∧
  (∀ (s : State) (off : Nat) (l : List Byte), off < 2 ^ 32 → l.length = 8 →
    exec (.untranslatedPortAccess true (2 ^ 54 + off) l) s = exec (.registerWrite off (leNat (fun j => l.getD j 0) 8)) s) ∧
  ∀ (s : State) (n h : Nat) (l : List Byte), n < 8 → h < 4096 → l.length = 32 →
    let v := leNat (fun j => l.getD j 0) 32
    Answers (.untranslatedPortAccess true (2 ^ 53 + 2 ^ 17 * n + 32 * h) l) s (fun u =>
      ∃ m, PartTo s u n { s.part n with tensors := m } ∧ ∀ g, FMap.get 0 m g =
        if g = h then bits v 127 36 * 2 ^ 36 + bits v 14 8 * 2 ^ 8 + bits v 6 0 else FMap.get 0 (s.part n).tensors g)

/-- A cold start leaves device memory zero and no work, derives the keys for the image it accepts and locks the secret, and keeps the module's
record, to which its scan may add repairs of rows and lanes; a warm start with the same image keeps memory and tensor store and writes the
dirty tag-0 lines back first, and with another is a cold start; an expired watchdog period without a kick counts, raises a vector (a free one, log entry 18) and drops the records not yet
installed. What a start keeps beside that is read from R388 and Table 20.8 (log entry 33). -/
def Obligations.Starts : Prop :=
  (∀ s : State, Answers .coldStart s (fun u => u.wgs = [] ∧ u.parts = [] ∧ u.l1 = [] ∧ u.vers = [] ∧ u.tags = [] ∧ u.tstore = [] ∧
    u.sys.launchQ = [] ∧ (∀ a, u.rd a = if a < 2 ^ 51 then 0 else s.rd a) ∧ u.boot.keysFor = u.boot.accepted ∧
    u.boot.slotA = s.boot.slotA ∧ u.boot.slotB = s.boot.slotB ∧ u.boot.locked = true ∧
    ∃ l, u.boot.repairs = s.boot.repairs ++ l ∧ ∀ r ∈ l, r / 2 ^ 52 = 2 ∨ r / 2 ^ 52 = 3)) ∧
  (∀ s : State, s.boot.verify.accepted = .empty ∨ s.boot.verify.accepted.sameDigest s.boot.keysFor = true → s.l1 = [] → s.expanded = [] →
    Answers .warmStart s (fun u => u.mem = s.mem ∧ u.tstore = s.tstore ∧
      u.poison = s.poison.filter (fun p => decide (p.1 < 2 ^ 46)) ∧ u.wgs = [] ∧ u.parts = [] ∧ u.tags = [] ∧
      u.boot.keysFor = s.boot.keysFor)) ∧
  (∀ s : State, s.boot.verify.accepted = .empty ∨ s.boot.verify.accepted.sameDigest s.boot.keysFor = true → s.expanded = [] → Bare s →
    (∀ e ∈ s.l1, ∀ f ∈ s.l1, lineTag e.1 = 0 → lineTag f.1 = 0 → lineAddr e.1 = lineAddr f.1 → e = f) →
    (∀ e ∈ s.l1, ∀ o ∈ e.2.dirty, o < 64) →
    Answers .warmStart s (fun u => u.l1 = [] ∧ u.tstore = s.tstore ∧ u.wgs = [] ∧ u.boot.keysFor = s.boot.keysFor ∧
      (∀ e ∈ s.l1, lineTag e.1 = 0 → ∀ o ∈ e.2.dirty, u.rd (lineAddr e.1 + o) = FMap.get 0 e.2.data o) ∧
      ∀ a, (∀ e ∈ s.l1, lineTag e.1 = 0 → ∀ o ∈ e.2.dirty, a ≠ lineAddr e.1 + o) → u.rd a = s.rd a)) ∧
  (∀ s : State, s.boot.verify.accepted ≠ .empty → s.boot.verify.accepted.sameDigest s.boot.keysFor = false →
    Answers .warmStart s (fun u => exec .coldStart s = .next u)) ∧
  (∀ s : State, s.sys.kicked = true → Answers .watchdogExpiry s (fun u => SysTo s u { s.sys with kicked := false })) ∧
  ∀ s : State, s.sys.kicked = false → Answers .watchdogExpiry s (fun u => u.wgs = s.wgs ∧ MemSame s u ∧ u.parts = s.parts ∧
    bits u.sys.wdog 63 32 = satInc 32 (bits s.sys.wdog 63 32) ∧ (∃ v, v < 64 ∧ u.sys.msix = s.sys.msix ++ [v]) ∧
    u.boot = s.boot.verify ∧ ∀ c, (u.col c).fresh = [] ∧ (u.col c).slots = (s.col c).slots.filter (fun x => !(s.col c).fresh.contains x.1))

/-- Each SPDM request gets one response: the code of DMTF's specification (the model's presumption, log entry 19) with the value that R336
gives, the chain of certificates where it is asked for, a signature of the alias key over request and response for CHALLENGE and
GET_MEASUREMENTS, and KEY_EXCHANGE the error UnsupportedRequest. A mailbox command is carried out when the last has finished, and ignored before:
a page demand and a service request leave the machine to the firmware; an image load puts the image into its slot, and fails where host windows
do not let it be read; an evacuation writes the record of a halted and swapped-out partition, and fails where there is none or the windows do not
let it be written; a restoration loads the counters of a record and puts its images into shadow storage, and fails where no partition can take them, the record cannot be read or it is
of another W or contract level. Each command is one step here, and the layout of a record and which partition a command takes are the model's
choice (log entry 20). -/
def Obligations.FirmwareServices : Prop :=
  (let Sent (s u : State) (r : Reply) : Prop := u.sys.spdm = s.sys.spdm ++ [r] ∧ u.wgs = s.wgs ∧ MemSame s u ∧ u.boot = s.boot
  ∀ s : State,
    let d := s.boot.keysFor.digest
    let chain : List Cert := [⟨.root, .root⟩, ⟨.identity, .root⟩, ⟨.ofImage d, .identity⟩]
    let hash := ofBe (sha256 (Config.chainBytes d))
    Answers .getVersion s (fun u => Sent s u ⟨0x04, 0x1312, [], none⟩ ∧ u.sys.spdmVer = 0) ∧
    Answers .getCapabilities s (fun u => ∃ v, Sent s u ⟨0x61, v, [], none⟩) ∧
    Answers .negotiateAlgorithms s (fun u => Sent s u ⟨0x63, 0x100000004, [], none⟩ ∧ (u.sys.spdmVer = 0x12 ∨ u.sys.spdmVer = 0x13)) ∧
    Answers .getDigests s (fun u => Sent s u ⟨0x01, hash, chain, none⟩) ∧
    Answers .getCertificate s (fun u => Sent s u ⟨0x02, ofBe (Config.chainBytes d), chain, none⟩) ∧
    Answers .challenge s (fun u => ∃ n m, Sent s u ⟨0x03, 0, chain, some ⟨.ofImage d, [0x83, n, 0x03, m, 0, hash]⟩⟩) ∧
    Answers .getMeasurements s (fun u => ∃ v n m, Sent s u ⟨0x60, v, [], some ⟨.ofImage d, [0xE0, n, 0x60, m, v, hash]⟩⟩ ∧
      bits v 511 256 = s.boot.accepted.digest % 2 ^ 256 ∧ v / 2 ^ 768 = ofBe (sha256 (leBytes 128 s.boot.captab))) ∧
    Answers .keyExchange s (fun u => Sent s u ⟨0x7F, 0x07, [], none⟩)) ∧
  (∀ (s : State) (x : BitVec 64), s.sys.mboxCmd.testBit 62 = false →
    Answers (.mboxLoadImage x) s (fun u => u = s) ∧ Answers (.mboxPageDemand x) s (fun u => u = s) ∧
    Answers (.mboxEvacuate x) s (fun u => u = s) ∧ Answers (.mboxRestore x) s (fun u => u = s) ∧
    Answers (.mboxService x) s (fun u => u = s)) ∧
  (∀ (s : State) (x : BitVec 64), s.sys.mboxCmd.testBit 62 = true → s.boot.accepted = .empty →
    Answers (.mboxEvacuate x) s (fun u => MailboxDone s u 3 x true ∧ MemSame s u) ∧
    Answers (.mboxRestore x) s (fun u => MailboxDone s u 4 x true ∧ u.parts = s.parts)) ∧
  (∀ (s : State) (x : BitVec 64), s.sys.mboxCmd.testBit 62 = true → s.boot.accepted ≠ .empty →
    Answers (.mboxPageDemand x) s (fun u => MailboxDone s u 2 x false ∧ MemSame s u ∧ u.boot = s.boot) ∧
    Answers (.mboxService x) s (fun u => MailboxDone s u 5 x false ∧ MemSame s u ∧ u.boot = s.boot) ∧
    (s.evacuee = none → Answers (.mboxEvacuate x) s (fun u => MailboxDone s u 3 x true ∧ MemSame s u)) ∧
    (s.restoree = none → Answers (.mboxRestore x) s (fun u => MailboxDone s u 4 x true ∧ u.parts = s.parts ∧ MemSame s u)) ∧
    (∀ n, s.evacuee = some n → n < 8 ∧ (s.part n).cfg.testBit 36 = true ∧ (s.part n).swapCtl.testBit 60 = true ∧
      let l := s.evacuation n
      let pa := 2 ^ 51 + x.toNat % 2 ^ 51
      recordField l 0 = Config.lwlog ∧ recordField l 1 = 1 ∧ recordField l 2 = (s.part n).counters.length % 2 ^ 64 ∧
      (∀ j c, (s.part n).counters[j]? = some c → recordField l (3 + 2 * j) = c.1 ∧ recordField l (4 + 2 * j) = c.2 % 2 ^ 64) ∧
      recordField l (3 + 2 * (s.part n).counters.length) = (s.allImages n).length % 2 ^ 64 ∧
      (∀ j i, (s.allImages n)[j]? = some i → recordField l (4 + 2 * (s.part n).counters.length + j) = i.length % 2 ^ 64) ∧
      (WindowsGrant s pa l.length 2 → Answers (.mboxEvacuate x) s (fun u => MailboxDone s u 3 x false ∧
        (Bare s → u.parts = s.parts ∧ MemPut s u pa l))) ∧
      (pa + l.length ≤ 2 ^ 52 → ¬ WindowsGrant s pa l.length 2 →
        Answers (.mboxEvacuate x) s (fun u => MailboxDone s u 3 x true ∧ u.parts = s.parts ∧ MemSame s u))) ∧
    (∀ n, s.restoree = some n →
      let pa := 2 ^ 51 + x.toNat % 2 ^ 51
      let Fails : Prop := Answers (.mboxRestore x) s (fun u => MailboxDone s u 4 x true ∧ u.parts = s.parts ∧ MemSame s u)
      (pa + 24 ≤ 2 ^ 52 → ¬ WindowsGrant s pa 24 1 → Fails) ∧
      ∀ hd, s.hostBytes pa 24 = .ok hd →
        let k := recordField hd 2
        (recordField hd 0 ≠ Config.lwlog ∨ recordField hd 1 ≠ 1 ∨ 320 < k → Fails) ∧
        (recordField hd 0 = Config.lwlog → recordField hd 1 = 1 → k ≤ 320 →
          (pa + (32 + 16 * k) ≤ 2 ^ 52 → ¬ WindowsGrant s pa (32 + 16 * k) 1 → Fails) ∧
          ∀ h2, s.hostBytes pa (32 + 16 * k) = .ok h2 →
            let m := recordField h2 (3 + 2 * k)
            let front := 32 + 16 * k + 8 * m
            (2 ^ 16 < m → Fails) ∧
            (m ≤ 2 ^ 16 → (pa + front ≤ 2 ^ 52 → ¬ WindowsGrant s pa front 1 → Fails) ∧
              ∀ h3, s.hostBytes pa front = .ok h3 →
                let sizes := (List.range m).map (fun i => recordField h3 (4 + 2 * k + i))
                let total := front + sizes.sum
                ((∃ z ∈ sizes, 2 ^ 21 < z) → Fails) ∧
                ((∀ z ∈ sizes, z ≤ 2 ^ 21) → (pa + total ≤ 2 ^ 52 → ¬ WindowsGrant s pa total 1 → Fails) ∧
                  ∀ l, s.hostBytes pa total = .ok l → (∀ j, j < k → recordField l (3 + 2 * j) < 320) →
                    Answers (.mboxRestore x) s (fun u => MailboxDone s u 4 x false ∧ MemSame s u ∧ (∀ o, o ≠ n → u.part o = s.part o) ∧
                      (∃ imgs, u.sys.restored.find? n = some imgs ∧ imgs.length = m ∧ ∀ j, j < m →
                        (imgs.getD j []).length = sizes.getD j 0 ∧ ∀ i, i < sizes.getD j 0 →
                          (imgs.getD j []).getD i 0 = (masked 0 l).getD (front + (sizes.take j).sum + i) 0) ∧
                      ∀ j, j < k → (∀ i, j < i → i < k → recordField l (3 + 2 * i) ≠ recordField l (3 + 2 * j)) →
                        let c := recordField l (3 + 2 * j)
                        let v := recordField l (4 + 2 * j)
                        (c < 64 → (u.stream n c).counter = v ∧ (u.stream n c).accepted = v) ∧
                        (64 ≤ c → FMap.get 0 (u.part n).ectr (c - 64) = v ∧ FMap.get 0 (u.part n).ectrNum (c - 64) = v))))))) ∧
  ∀ (s : State) (x : BitVec 64), s.sys.mboxCmd.testBit 62 = true →
    let pa := 2 ^ 51 + x.toNat / 2 * 2 % 2 ^ 51
    (pa + 832 ≤ 2 ^ 52 → ¬ WindowsGrant s pa 832 1 → Answers (.mboxLoadImage x) s (fun u => MailboxDone s u 1 x true ∧ u.boot = s.boot)) ∧
    ∀ hd img, s.hostBytes pa 832 = .ok hd → s.hostBytes pa (832 + min (fwSize hd) (960 * 1024)) = .ok img →
    Answers (.mboxLoadImage x) s (fun u => MailboxDone s u 1 x false ∧ MemSame s u ∧ u.boot.accepted = s.boot.accepted ∧
      (x.toNat.testBit 0 = true → u.boot.slotA = .image img ∧ u.boot.slotB = s.boot.slotB) ∧
      (x.toNat.testBit 0 = false → u.boot.slotB = .image img ∧ u.boot.slotA = s.boot.slotA))

/-- A privileged write sets the register at its offset; an offset of no register refuses it; PRIV_ERR, SCHED_LOG, ECC_LOG and the low half of
ERR_LOG and HWIN_LOG clear as they are read, the high half is the snapshot's; a write to an engine log clears it; WDOG is kicked; a write of
FLT_Q that leaves head and tail apart raises the fault interrupt. That a register takes 64 bits at once, at its offset, is the model's reading
(log entry 14), and so is what the bits of BAR0 show the host. -/
def Obligations.RegistersAndLogs : Prop :=
  (∀ (s : State) (n v : Nat), n < 8 →
    Answers (.registerWrite (0x300 + 8 * n) v) s (fun u => PartTo s u n { s.part n with trk := bits v 51 0 }) ∧
    Answers (.registerWrite (0x340 + 8 * n) v) s (fun u => PartTo s u n { s.part n with lod := bits v 51 0 }) ∧
    Answers (.registerWrite (0x700 + 8 * n) v) s (fun u => PartTo s u n { s.part n with ringTable := bits v 51 0 }) ∧
    (∀ g, g < 64 → Answers (.registerWrite (0x4000000 + 0x1000 * n + 8 * g) v) s (fun u =>
      PartTo s u n { s.part n with queues := FMap.set 0 (s.part n).queues g (bits v 7 2 * 4 + bits v 0 0) })) ∧
    ((s.part n).cfg.testBit 34 = true → (s.part n).cfg.testBit 36 = false →
      Answers (.registerWrite (0x800 + 8 * n) v) s (fun u => RefusedAt s u (0x800 + 8 * n))) ∧
    ((s.part n).cfg.testBit 34 = false ∨ (s.part n).cfg.testBit 36 = true →
      Answers (.registerWrite (0x800 + 8 * n) v) s (fun u =>
        PartTo s u n { s.part n with xroot := bits v 51 14 * 2 ^ 14 + bits v 0 0 }))) ∧
  (∀ (s : State) (v : Nat), Answers (.registerWrite 0x400 v) s (fun u => SysTo s u { s.sys with rebindAddr := bits v 51 5 * 32 }) ∧
    (s.sys.fltHead = bits v 63 32 → Answers (.registerWrite 0x8A0 v) s (fun u => SysTo s u { s.sys with fltTail := bits v 63 32 })) ∧
    (s.sys.fltHead ≠ bits v 63 32 → Answers (.registerWrite 0x8A0 v) s (fun u =>
      SysTo s u { s.sys with fltTail := bits v 63 32, mirq := s.sys.mirq ++ [0] })) ∧
    Answers (.registerWrite 0x10 v) s (fun u => RefusedAt s u 0x10) ∧
    Answers (.registerWrite 0x8 v) s (fun u => RefusedAt s u 0x8)) ∧
  (∀ (s : State) (y v : Nat), y < 16 →
    Answers (.registerWrite (0x3000000 + 0x100 * y) v) s (fun u => u = { s with disps := u.disps } ∧
      u.disp y = { s.disp y with cfg := bits v 51 12 * 4096 + bits v 7 4 * 16 } ∧ ∀ z, z ≠ y → u.disp z = s.disp z) ∧
    Answers (.registerWrite (0x3000008 + 0x100 * y) v) s (fun u => u = { s with disps := u.disps } ∧
      u.disp y = { s.disp y with time := bits v 33 0 } ∧ ∀ z, z ≠ y → u.disp z = s.disp z)) ∧
  (∀ s : State, Answers .privErrRead s (fun u => SysTo s u { s.sys with lastRead := s.sys.privErr, privErr := 0 }) ∧
    Answers .eccLogRead s (fun u => SysTo s u { s.sys with lastRead := s.sys.eccLog, eccLog := 0 }) ∧
    Answers (.errLogLowRead false) s (fun u =>
      SysTo s u { s.sys with lastRead := bits s.sys.errLog 63 0, errSnap := s.sys.errLog, errLog := 0 }) ∧
    Answers (.errLogLowRead true) s (fun u =>
      SysTo s u { s.sys with lastRead := bits s.sys.hwinLog 63 0, hwinSnap := s.sys.hwinLog, hwinLog := 0 }) ∧
    Answers (.errLogHighRead false) s (fun u => SysTo s u { s.sys with lastRead := bits s.sys.errSnap 127 64 }) ∧
    Answers (.errLogHighRead true) s (fun u => SysTo s u { s.sys with lastRead := bits s.sys.hwinSnap 127 64 }) ∧
    Answers .wdogKick s (fun u => SysTo s u { s.sys with wdog := setBits s.sys.wdog 7 0 0x5A, kicked := true })) ∧
  (∀ (s : State) (p : Nat), p < 2 → s.sys.portUp.getD p false = true → s.retraining = some p → s.sys.portUp.getD (1 - p) false = false →
    ∀ wr off l, off < 2 ^ 52 → Answers (.hostMemAccess wr (2 ^ 52 + off) l) s (fun u =>
      SysTo s u { s.sys with hostWaits := s.sys.hostWaits ++ [(wr, 2 ^ 52 + off, l)] })) ∧
  (∀ s : State, (∃ p, p < 2 ∧ s.sys.portUp.getD p false = true ∧ s.retraining ≠ some p) →
    Answers (.hostMemAccess false (2 ^ 52) (List.replicate 128 0)) s (fun u =>
      SysTo s u { s.sys with hostRead := s.boot.captab % 2 ^ 1024 }) ∧
    ∀ n, n < 16 → Answers (.hostMemAccess false (2 ^ 52 + 0x100 + 16 * n) (List.replicate 16 0)) s (fun u =>
      SysTo s u { s.sys with hostRead := FMap.get 0 s.sys.hostWin n % 2 ^ 128 })) ∧
  (∀ (s : State) (n : Nat), n < 8 → Answers (.schedLogRead n) s (fun u => u.part n = { s.part n with schedLog := 0 } ∧
    u.sys = { s.sys with lastRead := (s.part n).schedLog } ∧ (∀ m, m ≠ n → u.part m = s.part m) ∧ u.wgs = s.wgs ∧ MemSame s u)) ∧
  ∀ (s : State) (k : Nat), (∀ c, s.physCore k = some c → Answers (.coreEngineErrClear k) s (fun u => u = { s with cores := u.cores } ∧
      u.core c = { s.core c with err := 0 } ∧ ∀ d, d ≠ c → u.core d = s.core d)) ∧
    (s.physCore k = none → Answers (.coreEngineErrClear k) s (fun u => RefusedAt s u (0x1000000 + 0x1000 * k)))

/-- PART_CFG takes a write that its rules allow and refuses one that they do not (which of the old and new values R323 and R345 mean is log
entry 27); halt and unhalt move halted as R324 says; a rebind binds its record once acknowledged, by every core in one step (log entry 28); a
bind record is taken or refused as R323 and R345 say. -/
def Obligations.PartitionsAndBinds : Prop :=
  (∀ (s : State) (n : Nat) (v : BitVec 64), n < 8 →
    ((s.part n).cfg.testBit 34 = true → (s.part n).cfg.testBit 36 = false →
      bits v.toNat 33 0 ≠ bits (s.part n).cfg 33 0 ∨ v.toNat.testBit 34 = false →
      Answers (.partCfgWrite n v) s (fun u => RefusedAt s u (0x100 + 8 * n))) ∧
    ((∃ c m, c < 34 ∧ v.toNat.testBit c = true ∧ m < 8 ∧ m ≠ n ∧ (s.part m).cfg.testBit 34 = true ∧ (s.part m).cfg.testBit c = true) →
      bits v.toNat 33 0 ≠ bits (s.part n).cfg 33 0 → Answers (.partCfgWrite n v) s (fun u => RefusedAt s u (0x100 + 8 * n))) ∧
    ((s.part n).cfg.testBit 34 = false ∨ (s.part n).cfg.testBit 36 = true →
      (∀ c, c < 34 → v.toNat.testBit c = true → (s.col c).enabled = true ∧ (s.col c).retired = false ∧
        ∀ m, m < 8 → m ≠ n → (s.part m).cfg.testBit 34 = true → (s.part m).cfg.testBit c = false) →
      Answers (.partCfgWrite n v) s (fun u => ∃ x y, PartTo s u n { s.part n with cfg := x, nextNum := y } ∧
        y = (if v.toNat.testBit 34 = true ∧ (s.part n).cfg.testBit 34 = false then 1 else (s.part n).nextNum) ∧
        bits x 35 0 = bits v.toNat 35 0 ∧ x.testBit 37 = v.toNat.testBit 37 ∧ x < 2 ^ 38 ∧
        (x.testBit 36 = true ↔ v.toNat.testBit 35 = true ∧ (s.part n).cfg.testBit 36 = true)))) ∧
  (∀ (s : State) (n : Nat), n < 8 → (s.part n).cfg < 2 ^ 38 →
    Answers (.partitionHalt n) s (fun u => PartTo s u n { s.part n with cfg := setBits (s.part n).cfg 35 35 1 }) ∧
    Answers (.partitionUnhalt n) s (fun u =>
      PartTo s u n { s.part n with cfg := setBits (setBits (s.part n).cfg 35 35 0) 36 36 0 }) ∧
    ((s.part n).cfg.testBit 35 = true → s.group = [] → s.passes = [] →
      (∀ c, (s.col c).rays = [] ∧ (s.col c).tasks = [] ∧ (s.core c).chans = []) →
      Answers (.partitionHalted n) s (fun u => PartTo s u n { s.part n with cfg := setBits (s.part n).cfg 36 36 1 })) ∧
    ((s.part n).cfg.testBit 35 = false → Answers (.partitionHalted n) s (fun u => u = s))) ∧
  (∀ (s : State) (v : BitVec 64) (e : Nat) (l : Launch), s.sys.rebindCtl.testBit 62 = true → Bare s → s.poison = [] →
    bits s.sys.rebindAddr 51 5 * 32 + 32 ≤ 0xC00000000 →
    let part := bits v.toNat 38 36
    let num := bits v.toNat 35 4
    let r := leNat (fun j => s.rd (bits s.sys.rebindAddr 51 5 * 32 + j)) 32
    List.find? (fun x => x.2.num == num && x.2.kind == 0) (s.part part).ltab = some (e, l) →
    (s.bindOk part r = true → Answers (.rebind v) s (fun u => SysTo s u { s.sys with
      rebindCtl := bits v.toNat 38 0, rebindPend := some (part, num, bits v.toNat 3 0, r) })) ∧
    (s.bindOk part r = false → Answers (.rebind v) s (fun u => SysTo s u { s.sys with
      rebindCtl := 2 ^ 62 + 2 ^ 61 + bits v.toNat 38 0, rebindPend := none }))) ∧
  (∀ (s : State) (v : BitVec 64), s.sys.rebindCtl.testBit 62 = false → Answers (.rebind v) s (fun u => RefusedAt s u 0x408)) ∧
  (∀ (s : State) (part num slot r e : Nat) (l : Launch), s.sys.rebindPend = some (part, num, slot, r) →
    List.find? (fun x => x.2.num == num && x.2.kind == 0) (s.part part).ltab = some (e, l) → s.launch? part e = some l →
    Answers .rebindDone s (fun u => u.launch? part e = some { l with q := FMap.set 0 l.q slot r } ∧ u.wgs = s.wgs ∧ MemSame s u ∧
      u.sys = { s.sys with rebindCtl := setBits s.sys.rebindCtl 62 62 1, rebindPend := none })) ∧
  ∀ (s : State) (col slot : Nat) (v : BitVec 64), col < 34 → slot < 16 →
    let x := bits v.toNat 63 63 * 2 ^ 63 + bits v.toNat 60 41 * 2 ^ 41 + bits v.toNat 32 22 * 2 ^ 22
    (v.toNat.testBit 63 = false → Answers (.bindSlotWrite col slot v) s (fun u => ColumnTo s u col { s.col col with
      slots := FMap.set 0 (s.col col).slots slot x, fresh := (s.col col).fresh.filter (fun y => y != slot) })) ∧
    (v.toNat.testBit 63 = true → (FMap.get 0 (s.col col).slots slot).testBit 63 = true →
      Answers (.bindSlotWrite col slot v) s (fun u => RefusedAt s u (0x2000000 + 0x1000 * col + 8 * slot))) ∧
    (v.toNat.testBit 63 = true → (FMap.get 0 (s.col col).slots slot).testBit 63 = false →
      (∃ l, s.launch? (slPart v.toNat) (slLtab v.toNat) = some l ∧ l.kind = 0) → (s.part (slPart v.toNat)).cfg.testBit col = true →
      (s.part (slPart v.toNat)).cfg.testBit 34 = true →
      Answers (.bindSlotWrite col slot v) s (fun u => ∃ f, (∀ y, y ∈ f ↔ y = slot ∨ y ∈ (s.col col).fresh) ∧
        ColumnTo s u col { s.col col with slots := FMap.set 0 (s.col col).slots slot x, fresh := f }))

/-- A swap-out of a halted partition stops its workgroups and, once they have settled, keeps their images and its slot tables; a swap-in gives
the tables back; either is refused where R361 says so. -/
def Obligations.PartitionSwaps : Prop :=
  (∀ (s : State) (n : Nat), n < 8 → (s.part n).swapCtl.testBit 62 = false →
    Answers (.swapOut n) s (fun u => RefusedAt s u (0x780 + 8 * n)) ∧ Answers (.swapIn n) s (fun u => RefusedAt s u (0x780 + 8 * n))) ∧
  (∀ (s : State) (n : Nat), n < 8 → (s.part n).swapCtl.testBit 62 = true → (s.part n).swapCtl.testBit 60 = false →
    ((s.part n).cfg.testBit 36 = false → Answers (.swapOut n) s (fun u =>
      PartTo s u n { s.part n with swapCtl := 2 ^ 62 + 2 ^ 61 })) ∧
    ((s.part n).cfg.testBit 36 = true → Answers (.swapOut n) s (fun u => MemSame s u ∧
      u.part n = { s.part n with swapCtl := 0, swapRun := 0 } ∧
      ∀ k w, s.wgs.find? k = some w → (∀ p ∈ s.wgs, p.1 = k → p.2 = w) → u.wgs.find? k =
        some (if w.part = n ∧ w.draining = false then { w with saving := true, flushing := false } else w))) ∧
    Answers (.swapIn n) s (fun u => PartTo s u n { s.part n with swapCtl := 2 ^ 62 + 2 ^ 61 + 1 })) ∧
  (∀ (s : State) (n k : Nat) (w : Wg), n < 8 → (s.part n).swapCtl.testBit 62 = false → (s.part n).swapRun = 0 → s.wgs = [(k, w)] → w.part = n → w.draining = false →
    w.flushing = false → w.staging = [] → s.savable k w = true → (∀ t ∈ w.threads, ¬ (t.2.st = .ended ∧ t.2.op = some .exit)) →
    s.enginesEmpty n = true → s.l1 = [] →
    Answers (.swapDone n) s (fun u => u.wgs = [] ∧ MemSame s u ∧ (u.part n).swapCtl = 2 ^ 62 + 2 ^ 60 ∧
      (∃ m, m ≤ w.nptime ∧ (u.sys.images.find? n).map (fun l => l.map (fun y => y.img)) = some [s.image { s.withTasks k w with nptime := m }]) ∧
      u.sys.savedCols.find? n = some ((s.partCols n).map (fun c => (c, s.col c))) ∧
      ∀ c ∈ s.partCols n, (u.col c).slots = [] ∧ (u.col c).cfg.testBit 17 = false)) ∧
  (∀ (s : State) (n c : Nat) (x : Col), n < 8 → (s.part n).swapCtl = 2 ^ 62 + 2 ^ 60 → s.savedOf n = [(c, x)] →
    (onDie 0 (s.partCols n)).length = (onDie 0 [c]).length → (onDie 1 (s.partCols n)).length = (onDie 1 [c]).length →
    Answers (.swapIn n) s (fun u => PartTo s u n { s.part n with swapCtl := 2 ^ 60 + 1, swapRun := 1 })) ∧
  ∀ (s : State) (n c d : Nat) (x : Col), n < 8 → (s.part n).swapCtl.testBit 62 = false → (s.part n).swapRun = 1 → s.savedOf n = [(c, x)] →
    s.sys.images.get [] n = [] → c / 17 < 2 → onDie (c / 17) (s.partCols n) = [d] →
    Answers (.swapDone n) s (fun u => u.wgs = s.wgs ∧ MemSame s u ∧ (u.part n).swapCtl = 2 ^ 62 + 1 ∧
      u.col d = { s.col d with slots := x.slots, weight := x.weight, istore := x.istore, fresh := [], kept := [] } ∧
      ∀ e, e ≠ d → u.col e = s.col e)

/-- An invalidation waits for its completion and is refused over a live lease; a revocation ends the leases over its range and a reinstatement
restores them; a page move copies its frame, in the step of its write (log entry 31); each completion sets done, that of XLAT_CTL not while a
write to the range waits for the host. A go while an operation is not done is refused at the offset it is written to. -/
def Obligations.TranslationControl : Prop :=
  (∀ (s : State) (v : BitVec 128),
    (s.sys.xlatCtl.testBit 126 = false → Answers (.xlatInvalidate v) s (fun u => RefusedAt s u 0x880) ∧
      Answers (.xlatRevoke v) s (fun u => RefusedAt s u 0x880) ∧ Answers (.xlatReinstate v) s (fun u => RefusedAt s u 0x880)) ∧
    (s.sys.xlatCtl.testBit 126 = true →
      let part := bits v.toNat 98 96
      let n := bits v.toNat 95 64
      let first := bits v.toNat 56 15
      ((∀ e ∈ (s.part part).ltab, e.2.lease = []) → Answers (.xlatInvalidate v) s (fun u =>
        SysTo s u { s.sys with xlatCtl := u.sys.xlatCtl } ∧ bits u.sys.xlatCtl 126 125 = 0)) ∧
      (∀ e l p, (e, l) ∈ (s.part part).ltab → l.lease = [(p, 1)] → first ≤ p → p < first + n → p ∉ l.revoked →
        Answers (.xlatInvalidate v) s (fun u => SysTo s u { s.sys with xlatCtl := u.sys.xlatCtl } ∧ bits u.sys.xlatCtl 126 125 = 3)) ∧
      (∀ e l p, s.launch? part e = some l → l.lease = [(p, 1)] → first ≤ p → p < first + n →
        Answers (.xlatRevoke v) s (fun u => bits u.sys.xlatCtl 126 125 = 0 ∧ u.wgs = s.wgs ∧ MemSame s u ∧
          ∃ l', u.launch? part e = some l' ∧ l' = { l with revoked := l'.revoked } ∧ ∀ q, q ∈ l'.revoked ↔ q = p ∨ q ∈ l.revoked)) ∧
      (∀ e l, s.launch? part e = some l → s.parked = [] →
        Answers (.xlatReinstate v) s (fun u => bits u.sys.xlatCtl 126 125 = 0 ∧ u.wgs = s.wgs ∧ MemSame s u ∧
          u.launch? part e = some { l with revoked := l.revoked.filter (fun q => decide (q < first) || decide (first + n ≤ q)) })))) ∧
  (∀ (s : State) (v : Nat), v.testBit 63 = true →
    (s.sys.xlatCtl.testBit 126 = false → Answers (.registerWrite 0x888 v) s (fun u => RefusedAt s u 0x888)) ∧
    (s.sys.pageMove.testBit 126 = false → Answers (.registerWrite 0x898 v) s (fun u => RefusedAt s u 0x898))) ∧
  (∀ s : State, s.sys.xlatCtl.testBit 126 = false → s.wgs = [] →
    let InRange (x : Snoop) : Prop := x.part = bits s.sys.xlatCtl 98 96 ∧ bits s.sys.xlatCtl 56 15 ≤ x.va % 2 ^ 57 / 2 ^ 15 ∧
      x.va % 2 ^ 57 / 2 ^ 15 < bits s.sys.xlatCtl 56 15 + bits s.sys.xlatCtl 95 64
    ((∀ x ∈ s.snoops, ¬ InRange x.2) →
      Answers .xlatCtlDone s (fun u => SysTo s u { s.sys with xlatCtl := setBits s.sys.xlatCtl 126 126 1 })) ∧
    ((∃ x ∈ s.snoops, InRange x.2) → Answers .xlatCtlDone s (fun u => u = s))) ∧
  (∀ s : State, s.sys.xlatCtl.testBit 126 = true → Answers .xlatCtlDone s (fun u => u = s)) ∧
  (∀ (s : State) (v : BitVec 128), s.sys.pageMove.testBit 126 = false → Answers (.pageMove v) s (fun u => RefusedAt s u 0x890)) ∧
  (∀ (s : State) (v : BitVec 128) (n : Nat), s.sys.pageMove.testBit 126 = true → Bare s → (∀ e ∈ s.l1, ∀ o ∈ e.2.dirty, o < 64) →
    let src := bits v.toNat 36 0 * 2 ^ 15
    let dst := bits v.toNat 114 78 * 2 ^ 15
    [2 ^ 15, 2 ^ 21, 2 ^ 26][bits v.toNat 121 120]? = some n →
    (src % n = 0 → dst % n = 0 → dst + n ≤ src ∨ src + n ≤ dst → src + n ≤ 0xC00000000 → dst + n ≤ 0xC00000000 →
      Answers (.pageMove v) s (fun u => u.wgs = s.wgs ∧ bits u.sys.pageMove 126 125 = 0 ∧
        ∀ a, u.rd a = if dst ≤ a ∧ a < dst + n then s.rd (src + (a - dst)) else s.rd a)) ∧
    (src % n ≠ 0 ∨ dst % n ≠ 0 ∨ src < dst + n ∧ dst < src + n →
      Answers (.pageMove v) s (fun u => SysTo s u { s.sys with pageMove := u.sys.pageMove } ∧ bits u.sys.pageMove 126 125 = 3))) ∧
  ∀ s : State, Answers .pageMoveDone s (fun u => SysTo s u { s.sys with pageMove := setBits s.sys.pageMove 126 126 1 })

/-- FLT_RESP retries a fetch, whose thread goes on, or fails it, whose thread takes trap 17; TRAP_CTL resumes a trapped thread at the record's
PC or at the next word, or ends its workgroup; one that names no held trap sets err. That resuming after the word ends its trailing sequence is
the model's reading (log entry 22). -/
def Obligations.AnswersToTraps : Prop :=
  (∀ (s : State) (v : BitVec 64) (k i : Nat) (p : Parked) (w : Wg) (t : Thread), OneFetch s k i p w t → p.part = bits v.toNat 44 42 →
    p.page = bits v.toNat 41 0 → w.part < 8 →
    Answers (.faultRetry v) s (fun u => u.parked = [] ∧ MemSame s u ∧ OthersSame s u k i ∧ bits u.sys.fltResp 62 61 = 2 ∧
      u.thread? k i = some { t with st := .ready, op := none, since := s.clock }) ∧
    Answers (.faultFail v) s (fun u => u.parked = [] ∧ OthersSame s u k i ∧ bits u.sys.fltResp 62 61 = 3 ∧
      (∃ t', u.thread? k i = some t' ∧ t'.st = .trapped ∧ t'.obj = t.obj ∧ t'.off = t.off ∧ t'.v = t.v) ∧
      ∃ r, (u.part w.part).traps.find? (s.part w.part).nextTrap = some r ∧ r.threads = [i] ∧ bits r.bits 15 0 = 3 * 256 + 17)) ∧
  (∀ (s : State) (v : BitVec 64) (part id k i : Nat) (r : TrapRec) (w : Wg) (t : Thread), HeldTrap s part id k i r w t →
    bits v.toNat 34 32 = part → bits v.toNat 31 0 = id → w.part = part →
    Answers (.trapResumeAtPc v) s (fun u => MemSame s u ∧ OthersSame s u k i ∧ bits u.sys.trapCtl 62 61 = 2 ∧
      (u.part part).traps.find? id = none ∧ u.thread? k i = some { t with
        st := .ready, obj := bits r.bits 312 256, off := bits r.bits 223 192, trap := 0, since := s.clock }) ∧
    Answers (.trapResumeNext v) s (fun u => MemSame s u ∧ OthersSame s u k i ∧ bits u.sys.trapCtl 62 61 = 2 ∧
      (u.part part).traps.find? id = none ∧ u.thread? k i = some { t with
        st := .ready, obj := bits r.bits 312 256, off := (bits r.bits 223 192 + 4 * r.len) % 2 ^ 32, trap := 0, since := s.clock,
        trail := none }) ∧
    Answers (.trapEndWorkgroup v) s (fun u => MemSame s u ∧ bits u.sys.trapCtl 62 61 = 2 ∧ (u.part part).traps.find? id = none ∧
      u.wgs.find? k = some { w with stopped := some (w.stopped.getD 5), draining := true, saving := false, flushing := false } ∧
      ∀ j, j ≠ k → u.wgs.find? j = s.wgs.find? j)) ∧
  ∀ (s : State) (v : BitVec 64), (s.part (bits v.toNat 34 32)).traps.find? (bits v.toNat 31 0) = none →
    let Err (u : State) : Prop := SysTo s u { s.sys with trapCtl := u.sys.trapCtl } ∧ bits u.sys.trapCtl 62 61 = 3
    Answers (.trapResumeAtPc v) s Err ∧ Answers (.trapResumeNext v) s Err ∧ Answers (.trapEndWorkgroup v) s Err

/-- A service operation that its rules allow is carried out and recorded, one that they do not sets err and changes nothing; a row repair goes
while the module has a spare row left, which is a free value (log entry 17); its completion updates the capability table for the operation that
was started, and lets the host accesses through that waited for the port. A column reset of an empty column restarts its counters, clears its
lock and leaves the rest (log entry 29). -/
def Obligations.ServiceOperations : Prop :=
  let Err (s u : State) (op arg : Nat) : Prop := SysTo s u { s.sys with svc := 2 ^ 62 + 2 ^ 61 + (op * 2 ^ 52 + arg) }
  let Goes (s u : State) (op arg : Nat) : Prop :=
    u.sys = { s.sys with svc := op * 2 ^ 52 + arg, svcRun := op * 2 ^ 52 + arg } ∧
    u.boot = { s.boot with repairs := s.boot.repairs ++ [op * 2 ^ 52 + arg] } ∧ u.wgs = s.wgs
  (∀ (s : State) (x : BitVec 52), s.sys.svc.testBit 62 = false →
    Answers (.retireColumn x) s (fun u => RefusedAt s u 0x620) ∧ Answers (.enableSpare x) s (fun u => RefusedAt s u 0x620) ∧
    Answers (.rowRepair x) s (fun u => RefusedAt s u 0x620) ∧
    Answers (.laneRepair x) s (fun u => RefusedAt s u 0x620) ∧ Answers (.linkDegrade x) s (fun u => RefusedAt s u 0x620)) ∧
  (∀ (s : State) (x : BitVec 52), s.sys.svc.testBit 62 = true →
    let c := bits x.toNat 5 0
    (c < 34 → (∀ n, n < 8 → (s.part n).cfg.testBit c = false) → (∀ p ∈ s.wgs, p.2.core / 8 ≠ c) → (s.col c).tasks = [] →
      (s.col c).rays = [] → Answers (.retireColumn x) s (fun u => Goes s u 0 x.toNat ∧ (∀ d, d ≠ c → u.col d = s.col d) ∧
        u.col c = { s.col c with enabled := false, retired := true, mv := 0, mhz := 0, want := none } ∧
        ∀ e ∈ u.l1, isBuf (lineUnit e.1) = false → unitCore (lineUnit e.1) / 8 ≠ c)) ∧
    (34 ≤ c ∨ (∃ n, n < 8 ∧ (s.part n).cfg.testBit c = true) → Answers (.retireColumn x) s (fun u => Err s u 0 x.toNat)) ∧
    Answers (.laneRepair x) s (fun u => Goes s u 3 x.toNat ∧ MemSame s u ∧ u.cols = s.cols) ∧
    (Config.rowLeft s.boot.repairs x.toNat = true → Answers (.rowRepair x) s (fun u => Goes s u 2 x.toNat ∧ MemSame s u ∧ u.cols = s.cols)) ∧
    (Config.rowLeft s.boot.repairs x.toNat = false → Answers (.rowRepair x) s (fun u => Err s u 2 x.toNat)) ∧
    (0 < bits x.toNat 2 1 → bits x.toNat 2 1 < portWidth s.boot.captab (bits x.toNat 0 0) →
      Answers (.linkDegrade x) s (fun u => SysTo s u { s.sys with svc := 4 * 2 ^ 52 + x.toNat, svcRun := 4 * 2 ^ 52 + x.toNat })) ∧
    (portWidth s.boot.captab (bits x.toNat 0 0) ≤ bits x.toNat 2 1 → Answers (.linkDegrade x) s (fun u => Err s u 4 x.toNat))) ∧
  (∀ (s : State) (x : BitVec 52) (c : Nat), s.sys.svc.testBit 62 = true →
    let spare := if x.toNat.testBit 0 then 33 else 16
    (s.col spare).enabled = false → (s.col spare).retired = false → s.replaced (bits x.toNat 0 0) = some c →
    Answers (.enableSpare x) s (fun u => Goes s u 1 x.toNat ∧ (∀ d, d ≠ spare → u.col d = s.col d) ∧ MemSame s u ∧
      (u.col spare).enabled = true ∧ (u.col spare).num = (s.col c).num ∧ (u.col spare).slots = [] ∧ (u.col spare).base = s.clock)) ∧
  (∀ (s : State) (a p : Nat) (l : List Byte), s.sys.svc.testBit 62 = false → s.sys.hostWaits = [(true, a, l)] → (∀ x ∈ s.snoops, x.2.pa.testBit 51 = false) → p < 2 →
    s.sys.portUp.getD p false = true → s.sys.portCxl.getD p false = true → a + l.length ≤ 0xC00000000 → Bare s →
    Answers .serviceOpDone s (fun u => MemPut s u a l ∧ u.sys.hostWaits = [] ∧ u.sys.svc.testBit 62 = true)) ∧
  (∀ s : State, s.sys.svc.testBit 62 = false → s.sys.hostWaits = [] → (∀ x ∈ s.snoops, x.2.pa.testBit 51 = false) → Answers .serviceOpDone s (fun u =>
    u.sys = { s.sys with svc := setBits s.sys.svc 62 62 1 } ∧ u.wgs = s.wgs ∧ MemSame s u ∧ u.cols = s.cols ∧
    (∀ c, c < 34 → (u.boot.captab.testBit (100 + c) = (s.col c).enabled ∧ u.boot.captab.testBit (168 + c) = (s.col c).retired)) ∧
    (bits s.sys.svcRun 55 52 = 4 → portWidth u.boot.captab (bits s.sys.svcRun 0 0) = bits s.sys.svcRun 2 1))) ∧
  (∀ s : State, s.sys.svc.testBit 62 = true → Answers .serviceOpDone s (fun u => u = s)) ∧
  ∀ (s : State) (c : Nat), (∀ p ∈ s.wgs, p.2.core / 8 ≠ c) → (s.col c).tasks = [] → (s.col c).rays = [] →
    Answers (.columnReset c) s (fun u => u.wgs = s.wgs ∧ (∀ d, d ≠ c → u.col d = s.col d) ∧ (u.col c).base = s.clock ∧
      (u.col c).cfg.testBit 17 = false ∧ (u.col c).slots = (s.col c).slots ∧ ∀ e ∈ u.l1, isBuf (lineUnit e.1) = false →
        unitCore (lineUnit e.1) / 8 ≠ c)

/-- Every well-formed instruction is what its own encoding decodes to, whatever bytes follow. -/
def Obligations.EncodeDecodeRoundTrip : Prop :=
  ∀ (i : Instr) (rest : List Byte), WellFormed i = true → decodeBytes ((encode i).flatMap bytesOfWord ++ rest) = .ok i

/-- Bytes that decode hold the encoding of the one instruction they decode to, which is well-formed. -/
def Obligations.DecodedBytesAreEncodings : Prop :=
  ∀ (bs : List Byte) (i : Instr), decodeBytes bs = .ok i → WellFormed i = true ∧ (encode i).flatMap bytesOfWord <+: bs

/-- Words that the spec writes out decode to the instructions it gives them. -/
def Obligations.DecodedExamples : Prop :=
  let h : Hdr := ⟨true, false, false⟩
  let sw : Hdr := ⟨true, false, true⟩
  decodeWords [0x40000010] = .ok (.nop h 16) ∧
  decodeWords [0x44C00002] = .ok (.sread h (.v 0) .tid) ∧
  decodeWords [0x4C004002] = .ok (.ld h (.v 1) 0 (.v 0) .b32 none) ∧
  decodeWords [0x55C07FFF] = .ok (.trail sw (.v 1) .none .none) ∧
  decodeWords [0x5B008080] = .ok (.red sw (.v 2) (.v 1) .add .s32) ∧
  decodeWords [0x4C208402] = .ok (.st h (.v 2) 1 (.v 0) .b32 none) ∧
  decodeWords [0x55A00000] = .ok (.exit sw) ∧
  decodeWords [0x50624287] = .ok (.addc sw (.v 9) (.v 5) (.v 7) none) ∧
  decodeWords [0x42C400D8] = .ok (.cmp h .z32 (.v 1) (.c 0)) ∧
  decodeWords [0x780048D1, 0x44019678] = .ok (.moviImm h (.v 6) 0x1678 0x48D1) ∧
  decodeWords [0x44484140] = .ok (.xset h 1 16 80)

/-- A step runs the instruction that the words at the PC encode: the next key's threads are the issue group, the first words of the packet are
decoded, and the step is the instruction's effect with the step's end around it; a word that does not decode traps its group; an event of the
agenda comes first, and after it the words that waited at issue are looked at again. Before a word that uses a loaded value, what its thread has
read goes out and its clean lines go (how the model keeps the order of dependences, log entry 21). Whether a word or an internal event comes next
is free where no group is open (the model's choice, log entry 1). -/
def Obligations.StepRunsDecodedInstruction : Prop :=
  (∀ (s : State) (core : Nat) (l : List Cand) (c : Cand) (w : Wg) (i : Instr), s.agenda = [] →
    s.wordNext = true ∨ s.group ≠ [] ∨ Config.freeTurn s.clock = true → s.nextKey = some (core, l) →
    l.find? (fun x => !x.waits) = some c → s.wgs.find? c.wk = some w → s.decodeFrom w c.obj c.off = .ok (.ok i) →
    partnersOf i (laneOf c.idx) = none →
    let g := plainGroup ((l.filter (s.sameFetch c)).filter (fun x => !x.waits))
    let s1 : State := { s with wordNext := false, turn := core + 1 }
    step s = afterStep (exec i { s1.dependAll i g with group := g }) ∧
    ((∀ k j t, s.thread? k j = some t → t.loaded = []) → s1.dependAll i g = s1)) ∧
  (∀ (s : State) (k i : Nat) (w : Wg) (t : Thread), s.group = [] → s.wgs = [(k, w)] → w.threads = [(i, t)] → t.st = .ready →
    t.waits = false → s.issues w = true → ∃ c : Cand, s.nextKey = some (w.core, [c]) ∧ c.wk = k ∧ c.part = w.part ∧ c.obj = t.obj ∧
      c.off = t.off ∧ c.idx = i ∧ c.waits = false ∧ plainGroup [c] = [(k, i)]) ∧
  (∀ (s : State) (w : Wg) (obj off pa pa2 : Nat) (d d2 : Bool), off / 4 % 3 = 0 → Bare s → s.poison = [] →
    (∀ l, s.launch? w.part w.ltab = some l → bits l.rcd 911 896 = 0) →
    s.xlate w.part (obj + off) false false true = .ok pa d → s.xlate w.part (obj + off + 4) false false true = .ok pa2 d2 →
    s.decodeFrom w obj off = .ok (decodeWords [BitVec.ofNat 32 (leNat (fun j => s.rd (pa + j)) 4),
      BitVec.ofNat 32 (leNat (fun j => s.rd (pa2 + j)) 4)])) ∧
  (∀ (s : State) (core : Nat) (l : List Cand) (c : Cand) (w : Wg) (r : Reject), s.agenda = [] →
    s.wordNext = true ∨ s.group ≠ [] ∨ Config.freeTurn s.clock = true → s.nextKey = some (core, l) →
    l.find? (fun x => !x.waits) = some c → s.wgs.find? c.wk = some w → s.decodeFrom w c.obj c.off = .ok (.error r) →
    step s = .next (({ s with wordNext := false, turn := core + 1 } : State).rejectGroup (plainGroup (l.filter (s.sameFetch c)))
      (s.wordsAt w c.obj c.off) r).finishStep) ∧
  ∀ (s t : State) (e : Instr) (es : List Instr), s.agenda = e :: es → exec e { s with agenda := es } = .next t →
    step s = .next t.unstall.finishStep

/-- Every step from every state answers a next state: no word and no event stops the machine. -/
def Obligations.EveryStepAnswers : Prop := ∀ s : State, ∃ u, step s = .next u

/-- After reset nothing is resident or in flight, every tag is free, partitions are disabled, every column but the two spares is enabled at
500 mV, and operations of the management core read done; memory reads as zero and is canonical. The registers to which the spec gives no
reset value stand at the model's choice (log entry 3) and are not named here, but memory above the device's, whose zero is the model's (log
entry 4). -/
def Obligations.ResetState : Prop :=
  let s := State.reset
  Memory.wf s.mem = true ∧ (∀ a, s.rd a = 0) ∧ s.wgs = [] ∧ s.l1 = [] ∧ s.vers = [] ∧ s.deltas = [] ∧ s.parked = [] ∧ s.snoops = [] ∧
  s.grafts = [] ∧ s.passes = [] ∧ s.graphs = [] ∧ (∀ t, (s.tag t).state = 0) ∧
  (∀ n, (s.part n).cfg.testBit 34 = false ∧ (s.part n).ltab = [] ∧ (s.part n).swapCtl.testBit 62 = true) ∧
  (∀ c, c < 34 → (s.col c).enabled = (c != 16 && c != 33) ∧ (s.col c).retired = false ∧ (s.col c).mv = 500 ∧ (s.col c).tasks = [] ∧
    (s.col c).rays = [] ∧ (s.col c).slots = []) ∧
  s.sys.rebindCtl.testBit 62 = true ∧ s.sys.svc.testBit 62 = true ∧ s.sys.xlatCtl.testBit 126 = true ∧ s.sys.pageMove.testBit 126 = true ∧
  s.sys.mboxCmd.testBit 62 = true ∧ bits s.boot.captab 31 0 = 0x53424354

/-- A step keeps committed memory canonical: addresses rising, no entry equal to what an unlisted byte reads as. -/
def Obligations.MemoryStaysCanonical : Prop :=
  ∀ s u : State, Memory.wf s.mem = true → step s = .next u → Memory.wf u.mem = true

/-- No word that a program can encode changes what the privileged window and the host set: translation roots, partition configuration, host
windows, range formats, power, service, start-up state, or the columns' enables. -/
def Obligations.WordsKeepPrivilegedState : Prop :=
  ∀ (i : Instr) (s u : State), WellFormed i = true → exec i s = .next u →
    u.boot = s.boot ∧ u.agenda = s.agenda ∧ u.sys.hostWin = s.sys.hostWin ∧ u.sys.rangeFmt = s.sys.rangeFmt ∧ u.sys.pwrReq = s.sys.pwrReq ∧
    u.sys.svc = s.sys.svc ∧ u.sys.xlatCtl = s.sys.xlatCtl ∧ u.sys.pageMove = s.sys.pageMove ∧ u.sys.portUp = s.sys.portUp ∧
    (∀ n, (u.part n).cfg = (s.part n).cfg ∧ (u.part n).xroot = (s.part n).xroot ∧ (u.part n).trk = (s.part n).trk ∧
      (u.part n).lod = (s.part n).lod ∧ (u.part n).ringTable = (s.part n).ringTable ∧ (u.part n).trapRing = (s.part n).trapRing ∧
      (u.part n).vers = (s.part n).vers ∧ (u.part n).swapCtl = (s.part n).swapCtl ∧ (u.part n).queues = (s.part n).queues) ∧
    ∀ c, (u.col c).enabled = (s.col c).enabled ∧ (u.col c).retired = (s.col c).retired ∧ (u.col c).slots = (s.col c).slots ∧
      (u.col c).cfg = (s.col c).cfg ∧ (u.col c).mv = (s.col c).mv ∧ (u.col c).mhz = (s.col c).mhz ∧ (u.col c).istore = (s.col c).istore
end

