-- ==== Sys2Proof/Laws/FMap.lean ====
section
/-! SUPPORT. Laws of the sparse maps: reading after writing, and the canonical form. -/

namespace Sys2Proof.Machine

variable {α : Type}

@[simp] theorem FMap.find?_nil (a : Nat) : FMap.find? ([] : FMap α) a = none := rfl

@[simp] theorem FMap.get_nil (d : α) (a : Nat) : FMap.get d ([] : FMap α) a = d := rfl

theorem FMap.find?_put (m : FMap α) (a b : Nat) (v : α) :
    FMap.find? (FMap.put m a v) b = if b = a then some v else FMap.find? m b := by
  induction m with
  | nil => simp [put, find?]
  | cons p m ih =>
    obtain ⟨k, w⟩ := p
    simp only [put]
    split
    · subst_vars; simp only [find?]; split <;> simp_all
    · split
      · simp only [find?]
      · rename_i h1 h2
        simp only [find?, ih]
        split
        · subst_vars; rw [if_neg (Ne.symm h1)]
        · rfl

@[simp] theorem FMap.find?_put_self (m : FMap α) (a : Nat) (v : α) : FMap.find? (FMap.put m a v) a = some v := by
  simp [FMap.find?_put]

theorem FMap.find?_put_ne (m : FMap α) {a b : Nat} (v : α) (h : b ≠ a) :
    FMap.find? (FMap.put m a v) b = FMap.find? m b := by
  simp [FMap.find?_put, h]

theorem FMap.find?_erase (m : FMap α) (a b : Nat) :
    FMap.find? (FMap.erase m a) b = if b = a then none else FMap.find? m b := by
  induction m with
  | nil => simp [erase]
  | cons p m ih =>
    obtain ⟨k, w⟩ := p
    simp only [erase, List.filter_cons] at ih ⊢
    by_cases hk : k = a
    · subst hk; simp only [bne_self_eq_false, Bool.false_eq_true, if_false, ih, find?]; split <;> simp_all
    · simp only [bne_iff_ne, ne_eq, hk, not_false_eq_true, if_true, find?, ih]; split <;> simp_all

theorem FMap.find?_set [DecidableEq α] (d : α) (m : FMap α) (a b : Nat) (v : α) :
    FMap.find? (FMap.set d m a v) b = if b = a then (if v = d then none else some v) else FMap.find? m b := by
  unfold set; split <;> simp [FMap.find?_erase, FMap.find?_put]

theorem FMap.get_set [DecidableEq α] (d : α) (m : FMap α) (a b : Nat) (v : α) :
    FMap.get d (FMap.set d m a v) b = if b = a then v else FMap.get d m b := by
  simp only [get, FMap.find?_set]; split
  · split <;> simp_all
  · rfl

theorem FMap.get_put (d : α) (m : FMap α) (a b : Nat) (v : α) :
    FMap.get d (FMap.put m a v) b = if b = a then v else FMap.get d m b := by
  simp only [get, FMap.find?_put]; split <;> simp

theorem FMap.find?_modify (m : FMap α) (a b : Nat) (f : α → α) :
    FMap.find? (FMap.modify m a f) b = if b = a then (FMap.find? m b).map f else FMap.find? m b := by
  induction m with
  | nil => simp [modify]
  | cons p m ih =>
    obtain ⟨k, w⟩ := p
    simp only [modify, List.map_cons] at ih ⊢
    by_cases hk : k = a
    · subst hk; simp only [if_true, find?, ih]; split <;> simp_all
    · simp only [hk, if_false, find?, ih]; split <;> simp_all

/-! ## The canonical form -/

theorem FMap.sorted_cons {a : Nat} {v : α} {m : FMap α} :
    FMap.sorted ((a, v) :: m) = true ↔ (∀ p ∈ m, a < p.1) ∧ FMap.sorted m = true := by
  induction m generalizing a v with
  | nil => simp [sorted]
  | cons q m ih =>
    obtain ⟨b, w⟩ := q
    simp only [sorted, Bool.and_eq_true, decide_eq_true_eq, List.mem_cons, forall_eq_or_imp, ih]
    constructor
    · rintro ⟨h1, h2, h3⟩; exact ⟨⟨h1, fun p hp => lt_trans h1 (h2 p hp)⟩, h2, h3⟩
    · rintro ⟨⟨h1, _⟩, h2, h3⟩; exact ⟨h1, h2, h3⟩

theorem FMap.mem_put {m : FMap α} {a : Nat} {v : α} {p : Nat × α} (h : p ∈ FMap.put m a v) : p = (a, v) ∨ p ∈ m := by
  induction m with
  | nil => simpa [put] using h
  | cons q m ih =>
    simp only [put] at h
    split at h
    · simp only [List.mem_cons] at h ⊢; tauto
    · split at h
      · simp only [List.mem_cons] at h ⊢; tauto
      · simp only [List.mem_cons] at h ⊢
        rcases h with h | h
        · tauto
        · rcases ih h with h | h <;> tauto

theorem FMap.sorted_put {m : FMap α} (a : Nat) (v : α) (h : FMap.sorted m = true) : FMap.sorted (FMap.put m a v) = true := by
  induction m with
  | nil => rfl
  | cons q m ih =>
    obtain ⟨k, w⟩ := q
    have hm := FMap.sorted_cons.mp h
    simp only [put]
    split
    · subst_vars; exact FMap.sorted_cons.mpr hm
    · split
      · rename_i h1 h2
        refine FMap.sorted_cons.mpr ⟨fun p hp => ?_, h⟩
        rcases List.mem_cons.mp hp with rfl | hp
        · exact h2
        · exact lt_trans h2 (hm.1 p hp)
      · rename_i h1 h2
        refine FMap.sorted_cons.mpr ⟨fun p hp => ?_, ih hm.2⟩
        rcases FMap.mem_put hp with rfl | hp
        · simp only; omega
        · exact hm.1 p hp

theorem FMap.sorted_filter {m : FMap α} (p : Nat × α → Bool) (h : FMap.sorted m = true) :
    FMap.sorted (m.filter p) = true := by
  induction m with
  | nil => rfl
  | cons q m ih =>
    obtain ⟨k, w⟩ := q
    have hm := FMap.sorted_cons.mp h
    simp only [List.filter_cons]
    split
    · exact FMap.sorted_cons.mpr ⟨fun p hp => hm.1 p (List.mem_filter.mp hp).1, ih hm.2⟩
    · exact ih hm.2

theorem FMap.wf_filter [DecidableEq α] {d : α} {m : FMap α} (p : Nat × α → Bool) (h : FMap.wf d m = true) :
    FMap.wf d (m.filter p) = true := by
  simp only [wf, Bool.and_eq_true, List.all_eq_true, List.mem_filter] at h ⊢
  exact ⟨FMap.sorted_filter p h.1, fun q hq => h.2 q hq.1⟩

theorem FMap.wf_set [DecidableEq α] {d : α} {m : FMap α} (a : Nat) (v : α) (h : FMap.wf d m = true) :
    FMap.wf d (FMap.set d m a v) = true := by
  unfold set
  split
  · exact FMap.wf_filter _ h
  · rename_i hv
    simp only [wf, Bool.and_eq_true, List.all_eq_true, decide_eq_true_eq] at h ⊢
    refine ⟨FMap.sorted_put a v h.1, fun q hq => ?_⟩
    rcases FMap.mem_put hq with rfl | hq
    · exact hv
    · exact h.2 q hq

end Sys2Proof.Machine
end

