-- ==== Sys2Proof/Laws/State.lean ====
section
/-! SUPPORT. What each update of the state leaves as it was, one lemma for each field, and what it reads back. -/

namespace Sys2Proof.Machine

@[simp] theorem State.setPart_clock (s : State) (n : Nat) (p : Part) : (s.setPart n p).clock = s.clock := rfl
@[simp] theorem State.setPart_fresh (s : State) (n : Nat) (p : Part) : (s.setPart n p).fresh = s.fresh := rfl
@[simp] theorem State.setPart_agenda (s : State) (n : Nat) (p : Part) : (s.setPart n p).agenda = s.agenda := rfl
@[simp] theorem State.setPart_group (s : State) (n : Nat) (p : Part) : (s.setPart n p).group = s.group := rfl
@[simp] theorem State.setPart_turn (s : State) (n : Nat) (p : Part) : (s.setPart n p).turn = s.turn := rfl
@[simp] theorem State.setPart_mem (s : State) (n : Nat) (p : Part) : (s.setPart n p).mem = s.mem := rfl
@[simp] theorem State.setPart_l1 (s : State) (n : Nat) (p : Part) : (s.setPart n p).l1 = s.l1 := rfl
@[simp] theorem State.setPart_vers (s : State) (n : Nat) (p : Part) : (s.setPart n p).vers = s.vers := rfl
@[simp] theorem State.setPart_versVa (s : State) (n : Nat) (p : Part) : (s.setPart n p).versVa = s.versVa := rfl
@[simp] theorem State.setPart_deltas (s : State) (n : Nat) (p : Part) : (s.setPart n p).deltas = s.deltas := rfl
@[simp] theorem State.setPart_expanded (s : State) (n : Nat) (p : Part) : (s.setPart n p).expanded = s.expanded := rfl
@[simp] theorem State.setPart_poison (s : State) (n : Nat) (p : Part) : (s.setPart n p).poison = s.poison := rfl
@[simp] theorem State.setPart_tstore (s : State) (n : Nat) (p : Part) : (s.setPart n p).tstore = s.tstore := rfl
@[simp] theorem State.setPart_tags (s : State) (n : Nat) (p : Part) : (s.setPart n p).tags = s.tags := rfl
@[simp] theorem State.setPart_sets (s : State) (n : Nat) (p : Part) : (s.setPart n p).sets = s.sets := rfl
@[simp] theorem State.setPart_held (s : State) (n : Nat) (p : Part) : (s.setPart n p).held = s.held := rfl
@[simp] theorem State.setPart_grafts (s : State) (n : Nat) (p : Part) : (s.setPart n p).grafts = s.grafts := rfl
@[simp] theorem State.setPart_cores (s : State) (n : Nat) (p : Part) : (s.setPart n p).cores = s.cores := rfl
@[simp] theorem State.setPart_cols (s : State) (n : Nat) (p : Part) : (s.setPart n p).cols = s.cols := rfl
@[simp] theorem State.setPart_wgs (s : State) (n : Nat) (p : Part) : (s.setPart n p).wgs = s.wgs := rfl
@[simp] theorem State.setPart_disps (s : State) (n : Nat) (p : Part) : (s.setPart n p).disps = s.disps := rfl
@[simp] theorem State.setPart_passes (s : State) (n : Nat) (p : Part) : (s.setPart n p).passes = s.passes := rfl
@[simp] theorem State.setPart_graphs (s : State) (n : Nat) (p : Part) : (s.setPart n p).graphs = s.graphs := rfl
@[simp] theorem State.setPart_parked (s : State) (n : Nat) (p : Part) : (s.setPart n p).parked = s.parked := rfl
@[simp] theorem State.setPart_snoops (s : State) (n : Nat) (p : Part) : (s.setPart n p).snoops = s.snoops := rfl
@[simp] theorem State.setPart_shared (s : State) (n : Nat) (p : Part) : (s.setPart n p).shared = s.shared := rfl
@[simp] theorem State.setPart_boot (s : State) (n : Nat) (p : Part) : (s.setPart n p).boot = s.boot := rfl
@[simp] theorem State.setPart_sys (s : State) (n : Nat) (p : Part) : (s.setPart n p).sys = s.sys := rfl
@[simp] theorem State.setPart_cells (s : State) (n : Nat) (p : Part) : (s.setPart n p).cells = s.cells := rfl
@[simp] theorem State.setPart_written (s : State) (n : Nat) (p : Part) : (s.setPart n p).written = s.written := rfl
@[simp] theorem State.setPart_wordNext (s : State) (n : Nat) (p : Part) : (s.setPart n p).wordNext = s.wordNext := rfl

@[simp] theorem State.modPart_clock (s : State) (n : Nat) (f : Part → Part) : (s.modPart n f).clock = s.clock := rfl
@[simp] theorem State.modPart_fresh (s : State) (n : Nat) (f : Part → Part) : (s.modPart n f).fresh = s.fresh := rfl
@[simp] theorem State.modPart_agenda (s : State) (n : Nat) (f : Part → Part) : (s.modPart n f).agenda = s.agenda := rfl
@[simp] theorem State.modPart_group (s : State) (n : Nat) (f : Part → Part) : (s.modPart n f).group = s.group := rfl
@[simp] theorem State.modPart_turn (s : State) (n : Nat) (f : Part → Part) : (s.modPart n f).turn = s.turn := rfl
@[simp] theorem State.modPart_mem (s : State) (n : Nat) (f : Part → Part) : (s.modPart n f).mem = s.mem := rfl
@[simp] theorem State.modPart_l1 (s : State) (n : Nat) (f : Part → Part) : (s.modPart n f).l1 = s.l1 := rfl
@[simp] theorem State.modPart_vers (s : State) (n : Nat) (f : Part → Part) : (s.modPart n f).vers = s.vers := rfl
@[simp] theorem State.modPart_versVa (s : State) (n : Nat) (f : Part → Part) : (s.modPart n f).versVa = s.versVa := rfl
@[simp] theorem State.modPart_deltas (s : State) (n : Nat) (f : Part → Part) : (s.modPart n f).deltas = s.deltas := rfl
@[simp] theorem State.modPart_expanded (s : State) (n : Nat) (f : Part → Part) : (s.modPart n f).expanded = s.expanded := rfl
@[simp] theorem State.modPart_poison (s : State) (n : Nat) (f : Part → Part) : (s.modPart n f).poison = s.poison := rfl
@[simp] theorem State.modPart_tstore (s : State) (n : Nat) (f : Part → Part) : (s.modPart n f).tstore = s.tstore := rfl
@[simp] theorem State.modPart_tags (s : State) (n : Nat) (f : Part → Part) : (s.modPart n f).tags = s.tags := rfl
@[simp] theorem State.modPart_sets (s : State) (n : Nat) (f : Part → Part) : (s.modPart n f).sets = s.sets := rfl
@[simp] theorem State.modPart_held (s : State) (n : Nat) (f : Part → Part) : (s.modPart n f).held = s.held := rfl
@[simp] theorem State.modPart_grafts (s : State) (n : Nat) (f : Part → Part) : (s.modPart n f).grafts = s.grafts := rfl
@[simp] theorem State.modPart_cores (s : State) (n : Nat) (f : Part → Part) : (s.modPart n f).cores = s.cores := rfl
@[simp] theorem State.modPart_cols (s : State) (n : Nat) (f : Part → Part) : (s.modPart n f).cols = s.cols := rfl
@[simp] theorem State.modPart_wgs (s : State) (n : Nat) (f : Part → Part) : (s.modPart n f).wgs = s.wgs := rfl
@[simp] theorem State.modPart_disps (s : State) (n : Nat) (f : Part → Part) : (s.modPart n f).disps = s.disps := rfl
@[simp] theorem State.modPart_passes (s : State) (n : Nat) (f : Part → Part) : (s.modPart n f).passes = s.passes := rfl
@[simp] theorem State.modPart_graphs (s : State) (n : Nat) (f : Part → Part) : (s.modPart n f).graphs = s.graphs := rfl
@[simp] theorem State.modPart_parked (s : State) (n : Nat) (f : Part → Part) : (s.modPart n f).parked = s.parked := rfl
@[simp] theorem State.modPart_snoops (s : State) (n : Nat) (f : Part → Part) : (s.modPart n f).snoops = s.snoops := rfl
@[simp] theorem State.modPart_shared (s : State) (n : Nat) (f : Part → Part) : (s.modPart n f).shared = s.shared := rfl
@[simp] theorem State.modPart_boot (s : State) (n : Nat) (f : Part → Part) : (s.modPart n f).boot = s.boot := rfl
@[simp] theorem State.modPart_sys (s : State) (n : Nat) (f : Part → Part) : (s.modPart n f).sys = s.sys := rfl
@[simp] theorem State.modPart_cells (s : State) (n : Nat) (f : Part → Part) : (s.modPart n f).cells = s.cells := rfl
@[simp] theorem State.modPart_written (s : State) (n : Nat) (f : Part → Part) : (s.modPart n f).written = s.written := rfl
@[simp] theorem State.modPart_wordNext (s : State) (n : Nat) (f : Part → Part) : (s.modPart n f).wordNext = s.wordNext := rfl

@[simp] theorem State.setCol_clock (s : State) (c : Nat) (x : Col) : (s.setCol c x).clock = s.clock := rfl
@[simp] theorem State.setCol_fresh (s : State) (c : Nat) (x : Col) : (s.setCol c x).fresh = s.fresh := rfl
@[simp] theorem State.setCol_agenda (s : State) (c : Nat) (x : Col) : (s.setCol c x).agenda = s.agenda := rfl
@[simp] theorem State.setCol_group (s : State) (c : Nat) (x : Col) : (s.setCol c x).group = s.group := rfl
@[simp] theorem State.setCol_turn (s : State) (c : Nat) (x : Col) : (s.setCol c x).turn = s.turn := rfl
@[simp] theorem State.setCol_mem (s : State) (c : Nat) (x : Col) : (s.setCol c x).mem = s.mem := rfl
@[simp] theorem State.setCol_l1 (s : State) (c : Nat) (x : Col) : (s.setCol c x).l1 = s.l1 := rfl
@[simp] theorem State.setCol_vers (s : State) (c : Nat) (x : Col) : (s.setCol c x).vers = s.vers := rfl
@[simp] theorem State.setCol_versVa (s : State) (c : Nat) (x : Col) : (s.setCol c x).versVa = s.versVa := rfl
@[simp] theorem State.setCol_deltas (s : State) (c : Nat) (x : Col) : (s.setCol c x).deltas = s.deltas := rfl
@[simp] theorem State.setCol_expanded (s : State) (c : Nat) (x : Col) : (s.setCol c x).expanded = s.expanded := rfl
@[simp] theorem State.setCol_poison (s : State) (c : Nat) (x : Col) : (s.setCol c x).poison = s.poison := rfl
@[simp] theorem State.setCol_tstore (s : State) (c : Nat) (x : Col) : (s.setCol c x).tstore = s.tstore := rfl
@[simp] theorem State.setCol_tags (s : State) (c : Nat) (x : Col) : (s.setCol c x).tags = s.tags := rfl
@[simp] theorem State.setCol_sets (s : State) (c : Nat) (x : Col) : (s.setCol c x).sets = s.sets := rfl
@[simp] theorem State.setCol_held (s : State) (c : Nat) (x : Col) : (s.setCol c x).held = s.held := rfl
@[simp] theorem State.setCol_grafts (s : State) (c : Nat) (x : Col) : (s.setCol c x).grafts = s.grafts := rfl
@[simp] theorem State.setCol_cores (s : State) (c : Nat) (x : Col) : (s.setCol c x).cores = s.cores := rfl
@[simp] theorem State.setCol_wgs (s : State) (c : Nat) (x : Col) : (s.setCol c x).wgs = s.wgs := rfl
@[simp] theorem State.setCol_parts (s : State) (c : Nat) (x : Col) : (s.setCol c x).parts = s.parts := rfl
@[simp] theorem State.setCol_disps (s : State) (c : Nat) (x : Col) : (s.setCol c x).disps = s.disps := rfl
@[simp] theorem State.setCol_passes (s : State) (c : Nat) (x : Col) : (s.setCol c x).passes = s.passes := rfl
@[simp] theorem State.setCol_graphs (s : State) (c : Nat) (x : Col) : (s.setCol c x).graphs = s.graphs := rfl
@[simp] theorem State.setCol_parked (s : State) (c : Nat) (x : Col) : (s.setCol c x).parked = s.parked := rfl
@[simp] theorem State.setCol_snoops (s : State) (c : Nat) (x : Col) : (s.setCol c x).snoops = s.snoops := rfl
@[simp] theorem State.setCol_shared (s : State) (c : Nat) (x : Col) : (s.setCol c x).shared = s.shared := rfl
@[simp] theorem State.setCol_boot (s : State) (c : Nat) (x : Col) : (s.setCol c x).boot = s.boot := rfl
@[simp] theorem State.setCol_sys (s : State) (c : Nat) (x : Col) : (s.setCol c x).sys = s.sys := rfl
@[simp] theorem State.setCol_cells (s : State) (c : Nat) (x : Col) : (s.setCol c x).cells = s.cells := rfl
@[simp] theorem State.setCol_written (s : State) (c : Nat) (x : Col) : (s.setCol c x).written = s.written := rfl
@[simp] theorem State.setCol_wordNext (s : State) (c : Nat) (x : Col) : (s.setCol c x).wordNext = s.wordNext := rfl

@[simp] theorem State.modCol_clock (s : State) (c : Nat) (f : Col → Col) : (s.modCol c f).clock = s.clock := rfl
@[simp] theorem State.modCol_fresh (s : State) (c : Nat) (f : Col → Col) : (s.modCol c f).fresh = s.fresh := rfl
@[simp] theorem State.modCol_agenda (s : State) (c : Nat) (f : Col → Col) : (s.modCol c f).agenda = s.agenda := rfl
@[simp] theorem State.modCol_group (s : State) (c : Nat) (f : Col → Col) : (s.modCol c f).group = s.group := rfl
@[simp] theorem State.modCol_turn (s : State) (c : Nat) (f : Col → Col) : (s.modCol c f).turn = s.turn := rfl
@[simp] theorem State.modCol_mem (s : State) (c : Nat) (f : Col → Col) : (s.modCol c f).mem = s.mem := rfl
@[simp] theorem State.modCol_l1 (s : State) (c : Nat) (f : Col → Col) : (s.modCol c f).l1 = s.l1 := rfl
@[simp] theorem State.modCol_vers (s : State) (c : Nat) (f : Col → Col) : (s.modCol c f).vers = s.vers := rfl
@[simp] theorem State.modCol_versVa (s : State) (c : Nat) (f : Col → Col) : (s.modCol c f).versVa = s.versVa := rfl
@[simp] theorem State.modCol_deltas (s : State) (c : Nat) (f : Col → Col) : (s.modCol c f).deltas = s.deltas := rfl
@[simp] theorem State.modCol_expanded (s : State) (c : Nat) (f : Col → Col) : (s.modCol c f).expanded = s.expanded := rfl
@[simp] theorem State.modCol_poison (s : State) (c : Nat) (f : Col → Col) : (s.modCol c f).poison = s.poison := rfl
@[simp] theorem State.modCol_tstore (s : State) (c : Nat) (f : Col → Col) : (s.modCol c f).tstore = s.tstore := rfl
@[simp] theorem State.modCol_tags (s : State) (c : Nat) (f : Col → Col) : (s.modCol c f).tags = s.tags := rfl
@[simp] theorem State.modCol_sets (s : State) (c : Nat) (f : Col → Col) : (s.modCol c f).sets = s.sets := rfl
@[simp] theorem State.modCol_held (s : State) (c : Nat) (f : Col → Col) : (s.modCol c f).held = s.held := rfl
@[simp] theorem State.modCol_grafts (s : State) (c : Nat) (f : Col → Col) : (s.modCol c f).grafts = s.grafts := rfl
@[simp] theorem State.modCol_cores (s : State) (c : Nat) (f : Col → Col) : (s.modCol c f).cores = s.cores := rfl
@[simp] theorem State.modCol_wgs (s : State) (c : Nat) (f : Col → Col) : (s.modCol c f).wgs = s.wgs := rfl
@[simp] theorem State.modCol_parts (s : State) (c : Nat) (f : Col → Col) : (s.modCol c f).parts = s.parts := rfl
@[simp] theorem State.modCol_disps (s : State) (c : Nat) (f : Col → Col) : (s.modCol c f).disps = s.disps := rfl
@[simp] theorem State.modCol_passes (s : State) (c : Nat) (f : Col → Col) : (s.modCol c f).passes = s.passes := rfl
@[simp] theorem State.modCol_graphs (s : State) (c : Nat) (f : Col → Col) : (s.modCol c f).graphs = s.graphs := rfl
@[simp] theorem State.modCol_parked (s : State) (c : Nat) (f : Col → Col) : (s.modCol c f).parked = s.parked := rfl
@[simp] theorem State.modCol_snoops (s : State) (c : Nat) (f : Col → Col) : (s.modCol c f).snoops = s.snoops := rfl
@[simp] theorem State.modCol_shared (s : State) (c : Nat) (f : Col → Col) : (s.modCol c f).shared = s.shared := rfl
@[simp] theorem State.modCol_boot (s : State) (c : Nat) (f : Col → Col) : (s.modCol c f).boot = s.boot := rfl
@[simp] theorem State.modCol_sys (s : State) (c : Nat) (f : Col → Col) : (s.modCol c f).sys = s.sys := rfl
@[simp] theorem State.modCol_cells (s : State) (c : Nat) (f : Col → Col) : (s.modCol c f).cells = s.cells := rfl
@[simp] theorem State.modCol_written (s : State) (c : Nat) (f : Col → Col) : (s.modCol c f).written = s.written := rfl
@[simp] theorem State.modCol_wordNext (s : State) (c : Nat) (f : Col → Col) : (s.modCol c f).wordNext = s.wordNext := rfl

@[simp] theorem State.setCore_clock (s : State) (c : Nat) (x : Core) : (s.setCore c x).clock = s.clock := rfl
@[simp] theorem State.setCore_fresh (s : State) (c : Nat) (x : Core) : (s.setCore c x).fresh = s.fresh := rfl
@[simp] theorem State.setCore_agenda (s : State) (c : Nat) (x : Core) : (s.setCore c x).agenda = s.agenda := rfl
@[simp] theorem State.setCore_group (s : State) (c : Nat) (x : Core) : (s.setCore c x).group = s.group := rfl
@[simp] theorem State.setCore_turn (s : State) (c : Nat) (x : Core) : (s.setCore c x).turn = s.turn := rfl
@[simp] theorem State.setCore_mem (s : State) (c : Nat) (x : Core) : (s.setCore c x).mem = s.mem := rfl
@[simp] theorem State.setCore_l1 (s : State) (c : Nat) (x : Core) : (s.setCore c x).l1 = s.l1 := rfl
@[simp] theorem State.setCore_vers (s : State) (c : Nat) (x : Core) : (s.setCore c x).vers = s.vers := rfl
@[simp] theorem State.setCore_versVa (s : State) (c : Nat) (x : Core) : (s.setCore c x).versVa = s.versVa := rfl
@[simp] theorem State.setCore_deltas (s : State) (c : Nat) (x : Core) : (s.setCore c x).deltas = s.deltas := rfl
@[simp] theorem State.setCore_expanded (s : State) (c : Nat) (x : Core) : (s.setCore c x).expanded = s.expanded := rfl
@[simp] theorem State.setCore_poison (s : State) (c : Nat) (x : Core) : (s.setCore c x).poison = s.poison := rfl
@[simp] theorem State.setCore_tstore (s : State) (c : Nat) (x : Core) : (s.setCore c x).tstore = s.tstore := rfl
@[simp] theorem State.setCore_tags (s : State) (c : Nat) (x : Core) : (s.setCore c x).tags = s.tags := rfl
@[simp] theorem State.setCore_sets (s : State) (c : Nat) (x : Core) : (s.setCore c x).sets = s.sets := rfl
@[simp] theorem State.setCore_held (s : State) (c : Nat) (x : Core) : (s.setCore c x).held = s.held := rfl
@[simp] theorem State.setCore_grafts (s : State) (c : Nat) (x : Core) : (s.setCore c x).grafts = s.grafts := rfl
@[simp] theorem State.setCore_cols (s : State) (c : Nat) (x : Core) : (s.setCore c x).cols = s.cols := rfl
@[simp] theorem State.setCore_wgs (s : State) (c : Nat) (x : Core) : (s.setCore c x).wgs = s.wgs := rfl
@[simp] theorem State.setCore_parts (s : State) (c : Nat) (x : Core) : (s.setCore c x).parts = s.parts := rfl
@[simp] theorem State.setCore_disps (s : State) (c : Nat) (x : Core) : (s.setCore c x).disps = s.disps := rfl
@[simp] theorem State.setCore_passes (s : State) (c : Nat) (x : Core) : (s.setCore c x).passes = s.passes := rfl
@[simp] theorem State.setCore_graphs (s : State) (c : Nat) (x : Core) : (s.setCore c x).graphs = s.graphs := rfl
@[simp] theorem State.setCore_parked (s : State) (c : Nat) (x : Core) : (s.setCore c x).parked = s.parked := rfl
@[simp] theorem State.setCore_snoops (s : State) (c : Nat) (x : Core) : (s.setCore c x).snoops = s.snoops := rfl
@[simp] theorem State.setCore_shared (s : State) (c : Nat) (x : Core) : (s.setCore c x).shared = s.shared := rfl
@[simp] theorem State.setCore_boot (s : State) (c : Nat) (x : Core) : (s.setCore c x).boot = s.boot := rfl
@[simp] theorem State.setCore_sys (s : State) (c : Nat) (x : Core) : (s.setCore c x).sys = s.sys := rfl
@[simp] theorem State.setCore_cells (s : State) (c : Nat) (x : Core) : (s.setCore c x).cells = s.cells := rfl
@[simp] theorem State.setCore_written (s : State) (c : Nat) (x : Core) : (s.setCore c x).written = s.written := rfl
@[simp] theorem State.setCore_wordNext (s : State) (c : Nat) (x : Core) : (s.setCore c x).wordNext = s.wordNext := rfl

@[simp] theorem State.modCore_clock (s : State) (c : Nat) (f : Core → Core) : (s.modCore c f).clock = s.clock := rfl
@[simp] theorem State.modCore_fresh (s : State) (c : Nat) (f : Core → Core) : (s.modCore c f).fresh = s.fresh := rfl
@[simp] theorem State.modCore_agenda (s : State) (c : Nat) (f : Core → Core) : (s.modCore c f).agenda = s.agenda := rfl
@[simp] theorem State.modCore_group (s : State) (c : Nat) (f : Core → Core) : (s.modCore c f).group = s.group := rfl
@[simp] theorem State.modCore_turn (s : State) (c : Nat) (f : Core → Core) : (s.modCore c f).turn = s.turn := rfl
@[simp] theorem State.modCore_mem (s : State) (c : Nat) (f : Core → Core) : (s.modCore c f).mem = s.mem := rfl
@[simp] theorem State.modCore_l1 (s : State) (c : Nat) (f : Core → Core) : (s.modCore c f).l1 = s.l1 := rfl
@[simp] theorem State.modCore_vers (s : State) (c : Nat) (f : Core → Core) : (s.modCore c f).vers = s.vers := rfl
@[simp] theorem State.modCore_versVa (s : State) (c : Nat) (f : Core → Core) : (s.modCore c f).versVa = s.versVa := rfl
@[simp] theorem State.modCore_deltas (s : State) (c : Nat) (f : Core → Core) : (s.modCore c f).deltas = s.deltas := rfl
@[simp] theorem State.modCore_expanded (s : State) (c : Nat) (f : Core → Core) : (s.modCore c f).expanded = s.expanded := rfl
@[simp] theorem State.modCore_poison (s : State) (c : Nat) (f : Core → Core) : (s.modCore c f).poison = s.poison := rfl
@[simp] theorem State.modCore_tstore (s : State) (c : Nat) (f : Core → Core) : (s.modCore c f).tstore = s.tstore := rfl
@[simp] theorem State.modCore_tags (s : State) (c : Nat) (f : Core → Core) : (s.modCore c f).tags = s.tags := rfl
@[simp] theorem State.modCore_sets (s : State) (c : Nat) (f : Core → Core) : (s.modCore c f).sets = s.sets := rfl
@[simp] theorem State.modCore_held (s : State) (c : Nat) (f : Core → Core) : (s.modCore c f).held = s.held := rfl
@[simp] theorem State.modCore_grafts (s : State) (c : Nat) (f : Core → Core) : (s.modCore c f).grafts = s.grafts := rfl
@[simp] theorem State.modCore_cols (s : State) (c : Nat) (f : Core → Core) : (s.modCore c f).cols = s.cols := rfl
@[simp] theorem State.modCore_wgs (s : State) (c : Nat) (f : Core → Core) : (s.modCore c f).wgs = s.wgs := rfl
@[simp] theorem State.modCore_parts (s : State) (c : Nat) (f : Core → Core) : (s.modCore c f).parts = s.parts := rfl
@[simp] theorem State.modCore_disps (s : State) (c : Nat) (f : Core → Core) : (s.modCore c f).disps = s.disps := rfl
@[simp] theorem State.modCore_passes (s : State) (c : Nat) (f : Core → Core) : (s.modCore c f).passes = s.passes := rfl
@[simp] theorem State.modCore_graphs (s : State) (c : Nat) (f : Core → Core) : (s.modCore c f).graphs = s.graphs := rfl
@[simp] theorem State.modCore_parked (s : State) (c : Nat) (f : Core → Core) : (s.modCore c f).parked = s.parked := rfl
@[simp] theorem State.modCore_snoops (s : State) (c : Nat) (f : Core → Core) : (s.modCore c f).snoops = s.snoops := rfl
@[simp] theorem State.modCore_shared (s : State) (c : Nat) (f : Core → Core) : (s.modCore c f).shared = s.shared := rfl
@[simp] theorem State.modCore_boot (s : State) (c : Nat) (f : Core → Core) : (s.modCore c f).boot = s.boot := rfl
@[simp] theorem State.modCore_sys (s : State) (c : Nat) (f : Core → Core) : (s.modCore c f).sys = s.sys := rfl
@[simp] theorem State.modCore_cells (s : State) (c : Nat) (f : Core → Core) : (s.modCore c f).cells = s.cells := rfl
@[simp] theorem State.modCore_written (s : State) (c : Nat) (f : Core → Core) : (s.modCore c f).written = s.written := rfl
@[simp] theorem State.modCore_wordNext (s : State) (c : Nat) (f : Core → Core) : (s.modCore c f).wordNext = s.wordNext := rfl

@[simp] theorem State.setDisp_clock (s : State) (y : Nat) (x : Disp) : (s.setDisp y x).clock = s.clock := rfl
@[simp] theorem State.setDisp_fresh (s : State) (y : Nat) (x : Disp) : (s.setDisp y x).fresh = s.fresh := rfl
@[simp] theorem State.setDisp_agenda (s : State) (y : Nat) (x : Disp) : (s.setDisp y x).agenda = s.agenda := rfl
@[simp] theorem State.setDisp_group (s : State) (y : Nat) (x : Disp) : (s.setDisp y x).group = s.group := rfl
@[simp] theorem State.setDisp_turn (s : State) (y : Nat) (x : Disp) : (s.setDisp y x).turn = s.turn := rfl
@[simp] theorem State.setDisp_mem (s : State) (y : Nat) (x : Disp) : (s.setDisp y x).mem = s.mem := rfl
@[simp] theorem State.setDisp_l1 (s : State) (y : Nat) (x : Disp) : (s.setDisp y x).l1 = s.l1 := rfl
@[simp] theorem State.setDisp_vers (s : State) (y : Nat) (x : Disp) : (s.setDisp y x).vers = s.vers := rfl
@[simp] theorem State.setDisp_versVa (s : State) (y : Nat) (x : Disp) : (s.setDisp y x).versVa = s.versVa := rfl
@[simp] theorem State.setDisp_deltas (s : State) (y : Nat) (x : Disp) : (s.setDisp y x).deltas = s.deltas := rfl
@[simp] theorem State.setDisp_expanded (s : State) (y : Nat) (x : Disp) : (s.setDisp y x).expanded = s.expanded := rfl
@[simp] theorem State.setDisp_poison (s : State) (y : Nat) (x : Disp) : (s.setDisp y x).poison = s.poison := rfl
@[simp] theorem State.setDisp_tstore (s : State) (y : Nat) (x : Disp) : (s.setDisp y x).tstore = s.tstore := rfl
@[simp] theorem State.setDisp_tags (s : State) (y : Nat) (x : Disp) : (s.setDisp y x).tags = s.tags := rfl
@[simp] theorem State.setDisp_sets (s : State) (y : Nat) (x : Disp) : (s.setDisp y x).sets = s.sets := rfl
@[simp] theorem State.setDisp_held (s : State) (y : Nat) (x : Disp) : (s.setDisp y x).held = s.held := rfl
@[simp] theorem State.setDisp_grafts (s : State) (y : Nat) (x : Disp) : (s.setDisp y x).grafts = s.grafts := rfl
@[simp] theorem State.setDisp_cores (s : State) (y : Nat) (x : Disp) : (s.setDisp y x).cores = s.cores := rfl
@[simp] theorem State.setDisp_cols (s : State) (y : Nat) (x : Disp) : (s.setDisp y x).cols = s.cols := rfl
@[simp] theorem State.setDisp_wgs (s : State) (y : Nat) (x : Disp) : (s.setDisp y x).wgs = s.wgs := rfl
@[simp] theorem State.setDisp_parts (s : State) (y : Nat) (x : Disp) : (s.setDisp y x).parts = s.parts := rfl
@[simp] theorem State.setDisp_passes (s : State) (y : Nat) (x : Disp) : (s.setDisp y x).passes = s.passes := rfl
@[simp] theorem State.setDisp_graphs (s : State) (y : Nat) (x : Disp) : (s.setDisp y x).graphs = s.graphs := rfl
@[simp] theorem State.setDisp_parked (s : State) (y : Nat) (x : Disp) : (s.setDisp y x).parked = s.parked := rfl
@[simp] theorem State.setDisp_snoops (s : State) (y : Nat) (x : Disp) : (s.setDisp y x).snoops = s.snoops := rfl
@[simp] theorem State.setDisp_shared (s : State) (y : Nat) (x : Disp) : (s.setDisp y x).shared = s.shared := rfl
@[simp] theorem State.setDisp_boot (s : State) (y : Nat) (x : Disp) : (s.setDisp y x).boot = s.boot := rfl
@[simp] theorem State.setDisp_sys (s : State) (y : Nat) (x : Disp) : (s.setDisp y x).sys = s.sys := rfl
@[simp] theorem State.setDisp_cells (s : State) (y : Nat) (x : Disp) : (s.setDisp y x).cells = s.cells := rfl
@[simp] theorem State.setDisp_written (s : State) (y : Nat) (x : Disp) : (s.setDisp y x).written = s.written := rfl
@[simp] theorem State.setDisp_wordNext (s : State) (y : Nat) (x : Disp) : (s.setDisp y x).wordNext = s.wordNext := rfl

@[simp] theorem State.setTag_clock (s : State) (t : Nat) (x : Tag) : (s.setTag t x).clock = s.clock := rfl
@[simp] theorem State.setTag_fresh (s : State) (t : Nat) (x : Tag) : (s.setTag t x).fresh = s.fresh := rfl
@[simp] theorem State.setTag_agenda (s : State) (t : Nat) (x : Tag) : (s.setTag t x).agenda = s.agenda := rfl
@[simp] theorem State.setTag_group (s : State) (t : Nat) (x : Tag) : (s.setTag t x).group = s.group := rfl
@[simp] theorem State.setTag_turn (s : State) (t : Nat) (x : Tag) : (s.setTag t x).turn = s.turn := rfl
@[simp] theorem State.setTag_mem (s : State) (t : Nat) (x : Tag) : (s.setTag t x).mem = s.mem := rfl
@[simp] theorem State.setTag_l1 (s : State) (t : Nat) (x : Tag) : (s.setTag t x).l1 = s.l1 := rfl
@[simp] theorem State.setTag_vers (s : State) (t : Nat) (x : Tag) : (s.setTag t x).vers = s.vers := rfl
@[simp] theorem State.setTag_versVa (s : State) (t : Nat) (x : Tag) : (s.setTag t x).versVa = s.versVa := rfl
@[simp] theorem State.setTag_deltas (s : State) (t : Nat) (x : Tag) : (s.setTag t x).deltas = s.deltas := rfl
@[simp] theorem State.setTag_expanded (s : State) (t : Nat) (x : Tag) : (s.setTag t x).expanded = s.expanded := rfl
@[simp] theorem State.setTag_poison (s : State) (t : Nat) (x : Tag) : (s.setTag t x).poison = s.poison := rfl
@[simp] theorem State.setTag_tstore (s : State) (t : Nat) (x : Tag) : (s.setTag t x).tstore = s.tstore := rfl
@[simp] theorem State.setTag_sets (s : State) (t : Nat) (x : Tag) : (s.setTag t x).sets = s.sets := rfl
@[simp] theorem State.setTag_held (s : State) (t : Nat) (x : Tag) : (s.setTag t x).held = s.held := rfl
@[simp] theorem State.setTag_grafts (s : State) (t : Nat) (x : Tag) : (s.setTag t x).grafts = s.grafts := rfl
@[simp] theorem State.setTag_cores (s : State) (t : Nat) (x : Tag) : (s.setTag t x).cores = s.cores := rfl
@[simp] theorem State.setTag_cols (s : State) (t : Nat) (x : Tag) : (s.setTag t x).cols = s.cols := rfl
@[simp] theorem State.setTag_wgs (s : State) (t : Nat) (x : Tag) : (s.setTag t x).wgs = s.wgs := rfl
@[simp] theorem State.setTag_parts (s : State) (t : Nat) (x : Tag) : (s.setTag t x).parts = s.parts := rfl
@[simp] theorem State.setTag_disps (s : State) (t : Nat) (x : Tag) : (s.setTag t x).disps = s.disps := rfl
@[simp] theorem State.setTag_passes (s : State) (t : Nat) (x : Tag) : (s.setTag t x).passes = s.passes := rfl
@[simp] theorem State.setTag_graphs (s : State) (t : Nat) (x : Tag) : (s.setTag t x).graphs = s.graphs := rfl
@[simp] theorem State.setTag_parked (s : State) (t : Nat) (x : Tag) : (s.setTag t x).parked = s.parked := rfl
@[simp] theorem State.setTag_snoops (s : State) (t : Nat) (x : Tag) : (s.setTag t x).snoops = s.snoops := rfl
@[simp] theorem State.setTag_shared (s : State) (t : Nat) (x : Tag) : (s.setTag t x).shared = s.shared := rfl
@[simp] theorem State.setTag_boot (s : State) (t : Nat) (x : Tag) : (s.setTag t x).boot = s.boot := rfl
@[simp] theorem State.setTag_sys (s : State) (t : Nat) (x : Tag) : (s.setTag t x).sys = s.sys := rfl
@[simp] theorem State.setTag_cells (s : State) (t : Nat) (x : Tag) : (s.setTag t x).cells = s.cells := rfl
@[simp] theorem State.setTag_written (s : State) (t : Nat) (x : Tag) : (s.setTag t x).written = s.written := rfl
@[simp] theorem State.setTag_wordNext (s : State) (t : Nat) (x : Tag) : (s.setTag t x).wordNext = s.wordNext := rfl

@[simp] theorem State.modWg_clock (s : State) (k : Nat) (f : Wg → Wg) : (s.modWg k f).clock = s.clock := rfl
@[simp] theorem State.modWg_fresh (s : State) (k : Nat) (f : Wg → Wg) : (s.modWg k f).fresh = s.fresh := rfl
@[simp] theorem State.modWg_agenda (s : State) (k : Nat) (f : Wg → Wg) : (s.modWg k f).agenda = s.agenda := rfl
@[simp] theorem State.modWg_group (s : State) (k : Nat) (f : Wg → Wg) : (s.modWg k f).group = s.group := rfl
@[simp] theorem State.modWg_turn (s : State) (k : Nat) (f : Wg → Wg) : (s.modWg k f).turn = s.turn := rfl
@[simp] theorem State.modWg_mem (s : State) (k : Nat) (f : Wg → Wg) : (s.modWg k f).mem = s.mem := rfl
@[simp] theorem State.modWg_l1 (s : State) (k : Nat) (f : Wg → Wg) : (s.modWg k f).l1 = s.l1 := rfl
@[simp] theorem State.modWg_vers (s : State) (k : Nat) (f : Wg → Wg) : (s.modWg k f).vers = s.vers := rfl
@[simp] theorem State.modWg_versVa (s : State) (k : Nat) (f : Wg → Wg) : (s.modWg k f).versVa = s.versVa := rfl
@[simp] theorem State.modWg_deltas (s : State) (k : Nat) (f : Wg → Wg) : (s.modWg k f).deltas = s.deltas := rfl
@[simp] theorem State.modWg_expanded (s : State) (k : Nat) (f : Wg → Wg) : (s.modWg k f).expanded = s.expanded := rfl
@[simp] theorem State.modWg_poison (s : State) (k : Nat) (f : Wg → Wg) : (s.modWg k f).poison = s.poison := rfl
@[simp] theorem State.modWg_tstore (s : State) (k : Nat) (f : Wg → Wg) : (s.modWg k f).tstore = s.tstore := rfl
@[simp] theorem State.modWg_tags (s : State) (k : Nat) (f : Wg → Wg) : (s.modWg k f).tags = s.tags := rfl
@[simp] theorem State.modWg_sets (s : State) (k : Nat) (f : Wg → Wg) : (s.modWg k f).sets = s.sets := rfl
@[simp] theorem State.modWg_held (s : State) (k : Nat) (f : Wg → Wg) : (s.modWg k f).held = s.held := rfl
@[simp] theorem State.modWg_grafts (s : State) (k : Nat) (f : Wg → Wg) : (s.modWg k f).grafts = s.grafts := rfl
@[simp] theorem State.modWg_cores (s : State) (k : Nat) (f : Wg → Wg) : (s.modWg k f).cores = s.cores := rfl
@[simp] theorem State.modWg_cols (s : State) (k : Nat) (f : Wg → Wg) : (s.modWg k f).cols = s.cols := rfl
@[simp] theorem State.modWg_parts (s : State) (k : Nat) (f : Wg → Wg) : (s.modWg k f).parts = s.parts := rfl
@[simp] theorem State.modWg_disps (s : State) (k : Nat) (f : Wg → Wg) : (s.modWg k f).disps = s.disps := rfl
@[simp] theorem State.modWg_passes (s : State) (k : Nat) (f : Wg → Wg) : (s.modWg k f).passes = s.passes := rfl
@[simp] theorem State.modWg_graphs (s : State) (k : Nat) (f : Wg → Wg) : (s.modWg k f).graphs = s.graphs := rfl
@[simp] theorem State.modWg_parked (s : State) (k : Nat) (f : Wg → Wg) : (s.modWg k f).parked = s.parked := rfl
@[simp] theorem State.modWg_snoops (s : State) (k : Nat) (f : Wg → Wg) : (s.modWg k f).snoops = s.snoops := rfl
@[simp] theorem State.modWg_shared (s : State) (k : Nat) (f : Wg → Wg) : (s.modWg k f).shared = s.shared := rfl
@[simp] theorem State.modWg_boot (s : State) (k : Nat) (f : Wg → Wg) : (s.modWg k f).boot = s.boot := rfl
@[simp] theorem State.modWg_sys (s : State) (k : Nat) (f : Wg → Wg) : (s.modWg k f).sys = s.sys := rfl
@[simp] theorem State.modWg_cells (s : State) (k : Nat) (f : Wg → Wg) : (s.modWg k f).cells = s.cells := rfl
@[simp] theorem State.modWg_written (s : State) (k : Nat) (f : Wg → Wg) : (s.modWg k f).written = s.written := rfl
@[simp] theorem State.modWg_wordNext (s : State) (k : Nat) (f : Wg → Wg) : (s.modWg k f).wordNext = s.wordNext := rfl

@[simp] theorem State.modLaunch_clock (s : State) (n e : Nat) (f : Launch → Launch) : (s.modLaunch n e f).clock = s.clock := rfl
@[simp] theorem State.modLaunch_fresh (s : State) (n e : Nat) (f : Launch → Launch) : (s.modLaunch n e f).fresh = s.fresh := rfl
@[simp] theorem State.modLaunch_agenda (s : State) (n e : Nat) (f : Launch → Launch) : (s.modLaunch n e f).agenda = s.agenda := rfl
@[simp] theorem State.modLaunch_group (s : State) (n e : Nat) (f : Launch → Launch) : (s.modLaunch n e f).group = s.group := rfl
@[simp] theorem State.modLaunch_turn (s : State) (n e : Nat) (f : Launch → Launch) : (s.modLaunch n e f).turn = s.turn := rfl
@[simp] theorem State.modLaunch_mem (s : State) (n e : Nat) (f : Launch → Launch) : (s.modLaunch n e f).mem = s.mem := rfl
@[simp] theorem State.modLaunch_l1 (s : State) (n e : Nat) (f : Launch → Launch) : (s.modLaunch n e f).l1 = s.l1 := rfl
@[simp] theorem State.modLaunch_vers (s : State) (n e : Nat) (f : Launch → Launch) : (s.modLaunch n e f).vers = s.vers := rfl
@[simp] theorem State.modLaunch_versVa (s : State) (n e : Nat) (f : Launch → Launch) : (s.modLaunch n e f).versVa = s.versVa := rfl
@[simp] theorem State.modLaunch_deltas (s : State) (n e : Nat) (f : Launch → Launch) : (s.modLaunch n e f).deltas = s.deltas := rfl
@[simp] theorem State.modLaunch_expanded (s : State) (n e : Nat) (f : Launch → Launch) : (s.modLaunch n e f).expanded = s.expanded := rfl
@[simp] theorem State.modLaunch_poison (s : State) (n e : Nat) (f : Launch → Launch) : (s.modLaunch n e f).poison = s.poison := rfl
@[simp] theorem State.modLaunch_tstore (s : State) (n e : Nat) (f : Launch → Launch) : (s.modLaunch n e f).tstore = s.tstore := rfl
@[simp] theorem State.modLaunch_tags (s : State) (n e : Nat) (f : Launch → Launch) : (s.modLaunch n e f).tags = s.tags := rfl
@[simp] theorem State.modLaunch_sets (s : State) (n e : Nat) (f : Launch → Launch) : (s.modLaunch n e f).sets = s.sets := rfl
@[simp] theorem State.modLaunch_held (s : State) (n e : Nat) (f : Launch → Launch) : (s.modLaunch n e f).held = s.held := rfl
@[simp] theorem State.modLaunch_grafts (s : State) (n e : Nat) (f : Launch → Launch) : (s.modLaunch n e f).grafts = s.grafts := rfl
@[simp] theorem State.modLaunch_cores (s : State) (n e : Nat) (f : Launch → Launch) : (s.modLaunch n e f).cores = s.cores := rfl
@[simp] theorem State.modLaunch_cols (s : State) (n e : Nat) (f : Launch → Launch) : (s.modLaunch n e f).cols = s.cols := rfl
@[simp] theorem State.modLaunch_wgs (s : State) (n e : Nat) (f : Launch → Launch) : (s.modLaunch n e f).wgs = s.wgs := rfl
@[simp] theorem State.modLaunch_disps (s : State) (n e : Nat) (f : Launch → Launch) : (s.modLaunch n e f).disps = s.disps := rfl
@[simp] theorem State.modLaunch_passes (s : State) (n e : Nat) (f : Launch → Launch) : (s.modLaunch n e f).passes = s.passes := rfl
@[simp] theorem State.modLaunch_graphs (s : State) (n e : Nat) (f : Launch → Launch) : (s.modLaunch n e f).graphs = s.graphs := rfl
@[simp] theorem State.modLaunch_parked (s : State) (n e : Nat) (f : Launch → Launch) : (s.modLaunch n e f).parked = s.parked := rfl
@[simp] theorem State.modLaunch_snoops (s : State) (n e : Nat) (f : Launch → Launch) : (s.modLaunch n e f).snoops = s.snoops := rfl
@[simp] theorem State.modLaunch_shared (s : State) (n e : Nat) (f : Launch → Launch) : (s.modLaunch n e f).shared = s.shared := rfl
@[simp] theorem State.modLaunch_boot (s : State) (n e : Nat) (f : Launch → Launch) : (s.modLaunch n e f).boot = s.boot := rfl
@[simp] theorem State.modLaunch_sys (s : State) (n e : Nat) (f : Launch → Launch) : (s.modLaunch n e f).sys = s.sys := rfl
@[simp] theorem State.modLaunch_cells (s : State) (n e : Nat) (f : Launch → Launch) : (s.modLaunch n e f).cells = s.cells := rfl
@[simp] theorem State.modLaunch_written (s : State) (n e : Nat) (f : Launch → Launch) : (s.modLaunch n e f).written = s.written := rfl
@[simp] theorem State.modLaunch_wordNext (s : State) (n e : Nat) (f : Launch → Launch) : (s.modLaunch n e f).wordNext = s.wordNext := rfl

@[simp] theorem State.modThread_clock (s : State) (k i : Nat) (f : Thread → Thread) : (s.modThread k i f).clock = s.clock := rfl
@[simp] theorem State.modThread_fresh (s : State) (k i : Nat) (f : Thread → Thread) : (s.modThread k i f).fresh = s.fresh := rfl
@[simp] theorem State.modThread_agenda (s : State) (k i : Nat) (f : Thread → Thread) : (s.modThread k i f).agenda = s.agenda := rfl
@[simp] theorem State.modThread_group (s : State) (k i : Nat) (f : Thread → Thread) : (s.modThread k i f).group = s.group := rfl
@[simp] theorem State.modThread_turn (s : State) (k i : Nat) (f : Thread → Thread) : (s.modThread k i f).turn = s.turn := rfl
@[simp] theorem State.modThread_mem (s : State) (k i : Nat) (f : Thread → Thread) : (s.modThread k i f).mem = s.mem := rfl
@[simp] theorem State.modThread_l1 (s : State) (k i : Nat) (f : Thread → Thread) : (s.modThread k i f).l1 = s.l1 := rfl
@[simp] theorem State.modThread_vers (s : State) (k i : Nat) (f : Thread → Thread) : (s.modThread k i f).vers = s.vers := rfl
@[simp] theorem State.modThread_versVa (s : State) (k i : Nat) (f : Thread → Thread) : (s.modThread k i f).versVa = s.versVa := rfl
@[simp] theorem State.modThread_deltas (s : State) (k i : Nat) (f : Thread → Thread) : (s.modThread k i f).deltas = s.deltas := rfl
@[simp] theorem State.modThread_expanded (s : State) (k i : Nat) (f : Thread → Thread) : (s.modThread k i f).expanded = s.expanded := rfl
@[simp] theorem State.modThread_poison (s : State) (k i : Nat) (f : Thread → Thread) : (s.modThread k i f).poison = s.poison := rfl
@[simp] theorem State.modThread_tstore (s : State) (k i : Nat) (f : Thread → Thread) : (s.modThread k i f).tstore = s.tstore := rfl
@[simp] theorem State.modThread_tags (s : State) (k i : Nat) (f : Thread → Thread) : (s.modThread k i f).tags = s.tags := rfl
@[simp] theorem State.modThread_sets (s : State) (k i : Nat) (f : Thread → Thread) : (s.modThread k i f).sets = s.sets := rfl
@[simp] theorem State.modThread_held (s : State) (k i : Nat) (f : Thread → Thread) : (s.modThread k i f).held = s.held := rfl
@[simp] theorem State.modThread_grafts (s : State) (k i : Nat) (f : Thread → Thread) : (s.modThread k i f).grafts = s.grafts := rfl
@[simp] theorem State.modThread_cores (s : State) (k i : Nat) (f : Thread → Thread) : (s.modThread k i f).cores = s.cores := rfl
@[simp] theorem State.modThread_cols (s : State) (k i : Nat) (f : Thread → Thread) : (s.modThread k i f).cols = s.cols := rfl
@[simp] theorem State.modThread_parts (s : State) (k i : Nat) (f : Thread → Thread) : (s.modThread k i f).parts = s.parts := rfl
@[simp] theorem State.modThread_disps (s : State) (k i : Nat) (f : Thread → Thread) : (s.modThread k i f).disps = s.disps := rfl
@[simp] theorem State.modThread_passes (s : State) (k i : Nat) (f : Thread → Thread) : (s.modThread k i f).passes = s.passes := rfl
@[simp] theorem State.modThread_graphs (s : State) (k i : Nat) (f : Thread → Thread) : (s.modThread k i f).graphs = s.graphs := rfl
@[simp] theorem State.modThread_parked (s : State) (k i : Nat) (f : Thread → Thread) : (s.modThread k i f).parked = s.parked := rfl
@[simp] theorem State.modThread_snoops (s : State) (k i : Nat) (f : Thread → Thread) : (s.modThread k i f).snoops = s.snoops := rfl
@[simp] theorem State.modThread_shared (s : State) (k i : Nat) (f : Thread → Thread) : (s.modThread k i f).shared = s.shared := rfl
@[simp] theorem State.modThread_boot (s : State) (k i : Nat) (f : Thread → Thread) : (s.modThread k i f).boot = s.boot := rfl
@[simp] theorem State.modThread_sys (s : State) (k i : Nat) (f : Thread → Thread) : (s.modThread k i f).sys = s.sys := rfl
@[simp] theorem State.modThread_cells (s : State) (k i : Nat) (f : Thread → Thread) : (s.modThread k i f).cells = s.cells := rfl
@[simp] theorem State.modThread_written (s : State) (k i : Nat) (f : Thread → Thread) : (s.modThread k i f).written = s.written := rfl
@[simp] theorem State.modThread_wordNext (s : State) (k i : Nat) (f : Thread → Thread) : (s.modThread k i f).wordNext = s.wordNext := rfl

@[simp] theorem State.modSys_clock (s : State) (f : Sys → Sys) : (s.modSys f).clock = s.clock := rfl
@[simp] theorem State.modSys_fresh (s : State) (f : Sys → Sys) : (s.modSys f).fresh = s.fresh := rfl
@[simp] theorem State.modSys_agenda (s : State) (f : Sys → Sys) : (s.modSys f).agenda = s.agenda := rfl
@[simp] theorem State.modSys_group (s : State) (f : Sys → Sys) : (s.modSys f).group = s.group := rfl
@[simp] theorem State.modSys_turn (s : State) (f : Sys → Sys) : (s.modSys f).turn = s.turn := rfl
@[simp] theorem State.modSys_mem (s : State) (f : Sys → Sys) : (s.modSys f).mem = s.mem := rfl
@[simp] theorem State.modSys_l1 (s : State) (f : Sys → Sys) : (s.modSys f).l1 = s.l1 := rfl
@[simp] theorem State.modSys_vers (s : State) (f : Sys → Sys) : (s.modSys f).vers = s.vers := rfl
@[simp] theorem State.modSys_versVa (s : State) (f : Sys → Sys) : (s.modSys f).versVa = s.versVa := rfl
@[simp] theorem State.modSys_deltas (s : State) (f : Sys → Sys) : (s.modSys f).deltas = s.deltas := rfl
@[simp] theorem State.modSys_expanded (s : State) (f : Sys → Sys) : (s.modSys f).expanded = s.expanded := rfl
@[simp] theorem State.modSys_poison (s : State) (f : Sys → Sys) : (s.modSys f).poison = s.poison := rfl
@[simp] theorem State.modSys_tstore (s : State) (f : Sys → Sys) : (s.modSys f).tstore = s.tstore := rfl
@[simp] theorem State.modSys_tags (s : State) (f : Sys → Sys) : (s.modSys f).tags = s.tags := rfl
@[simp] theorem State.modSys_sets (s : State) (f : Sys → Sys) : (s.modSys f).sets = s.sets := rfl
@[simp] theorem State.modSys_held (s : State) (f : Sys → Sys) : (s.modSys f).held = s.held := rfl
@[simp] theorem State.modSys_grafts (s : State) (f : Sys → Sys) : (s.modSys f).grafts = s.grafts := rfl
@[simp] theorem State.modSys_cores (s : State) (f : Sys → Sys) : (s.modSys f).cores = s.cores := rfl
@[simp] theorem State.modSys_cols (s : State) (f : Sys → Sys) : (s.modSys f).cols = s.cols := rfl
@[simp] theorem State.modSys_wgs (s : State) (f : Sys → Sys) : (s.modSys f).wgs = s.wgs := rfl
@[simp] theorem State.modSys_parts (s : State) (f : Sys → Sys) : (s.modSys f).parts = s.parts := rfl
@[simp] theorem State.modSys_disps (s : State) (f : Sys → Sys) : (s.modSys f).disps = s.disps := rfl
@[simp] theorem State.modSys_passes (s : State) (f : Sys → Sys) : (s.modSys f).passes = s.passes := rfl
@[simp] theorem State.modSys_graphs (s : State) (f : Sys → Sys) : (s.modSys f).graphs = s.graphs := rfl
@[simp] theorem State.modSys_parked (s : State) (f : Sys → Sys) : (s.modSys f).parked = s.parked := rfl
@[simp] theorem State.modSys_snoops (s : State) (f : Sys → Sys) : (s.modSys f).snoops = s.snoops := rfl
@[simp] theorem State.modSys_shared (s : State) (f : Sys → Sys) : (s.modSys f).shared = s.shared := rfl
@[simp] theorem State.modSys_boot (s : State) (f : Sys → Sys) : (s.modSys f).boot = s.boot := rfl
@[simp] theorem State.modSys_cells (s : State) (f : Sys → Sys) : (s.modSys f).cells = s.cells := rfl
@[simp] theorem State.modSys_written (s : State) (f : Sys → Sys) : (s.modSys f).written = s.written := rfl
@[simp] theorem State.modSys_wordNext (s : State) (f : Sys → Sys) : (s.modSys f).wordNext = s.wordNext := rfl

@[simp] theorem State.wr_clock (s : State) (pa : Nat) (b : Byte) : (s.wr pa b).clock = s.clock := rfl
@[simp] theorem State.wr_fresh (s : State) (pa : Nat) (b : Byte) : (s.wr pa b).fresh = s.fresh := rfl
@[simp] theorem State.wr_agenda (s : State) (pa : Nat) (b : Byte) : (s.wr pa b).agenda = s.agenda := rfl
@[simp] theorem State.wr_group (s : State) (pa : Nat) (b : Byte) : (s.wr pa b).group = s.group := rfl
@[simp] theorem State.wr_turn (s : State) (pa : Nat) (b : Byte) : (s.wr pa b).turn = s.turn := rfl
@[simp] theorem State.wr_l1 (s : State) (pa : Nat) (b : Byte) : (s.wr pa b).l1 = s.l1 := rfl
@[simp] theorem State.wr_vers (s : State) (pa : Nat) (b : Byte) : (s.wr pa b).vers = s.vers := rfl
@[simp] theorem State.wr_versVa (s : State) (pa : Nat) (b : Byte) : (s.wr pa b).versVa = s.versVa := rfl
@[simp] theorem State.wr_deltas (s : State) (pa : Nat) (b : Byte) : (s.wr pa b).deltas = s.deltas := rfl
@[simp] theorem State.wr_expanded (s : State) (pa : Nat) (b : Byte) : (s.wr pa b).expanded = s.expanded := rfl
@[simp] theorem State.wr_poison (s : State) (pa : Nat) (b : Byte) : (s.wr pa b).poison = s.poison := rfl
@[simp] theorem State.wr_tstore (s : State) (pa : Nat) (b : Byte) : (s.wr pa b).tstore = s.tstore := rfl
@[simp] theorem State.wr_tags (s : State) (pa : Nat) (b : Byte) : (s.wr pa b).tags = s.tags := rfl
@[simp] theorem State.wr_sets (s : State) (pa : Nat) (b : Byte) : (s.wr pa b).sets = s.sets := rfl
@[simp] theorem State.wr_held (s : State) (pa : Nat) (b : Byte) : (s.wr pa b).held = s.held := rfl
@[simp] theorem State.wr_grafts (s : State) (pa : Nat) (b : Byte) : (s.wr pa b).grafts = s.grafts := rfl
@[simp] theorem State.wr_cores (s : State) (pa : Nat) (b : Byte) : (s.wr pa b).cores = s.cores := rfl
@[simp] theorem State.wr_cols (s : State) (pa : Nat) (b : Byte) : (s.wr pa b).cols = s.cols := rfl
@[simp] theorem State.wr_wgs (s : State) (pa : Nat) (b : Byte) : (s.wr pa b).wgs = s.wgs := rfl
@[simp] theorem State.wr_parts (s : State) (pa : Nat) (b : Byte) : (s.wr pa b).parts = s.parts := rfl
@[simp] theorem State.wr_disps (s : State) (pa : Nat) (b : Byte) : (s.wr pa b).disps = s.disps := rfl
@[simp] theorem State.wr_passes (s : State) (pa : Nat) (b : Byte) : (s.wr pa b).passes = s.passes := rfl
@[simp] theorem State.wr_graphs (s : State) (pa : Nat) (b : Byte) : (s.wr pa b).graphs = s.graphs := rfl
@[simp] theorem State.wr_parked (s : State) (pa : Nat) (b : Byte) : (s.wr pa b).parked = s.parked := rfl
@[simp] theorem State.wr_snoops (s : State) (pa : Nat) (b : Byte) : (s.wr pa b).snoops = s.snoops := rfl
@[simp] theorem State.wr_shared (s : State) (pa : Nat) (b : Byte) : (s.wr pa b).shared = s.shared := rfl
@[simp] theorem State.wr_boot (s : State) (pa : Nat) (b : Byte) : (s.wr pa b).boot = s.boot := rfl
@[simp] theorem State.wr_sys (s : State) (pa : Nat) (b : Byte) : (s.wr pa b).sys = s.sys := rfl
@[simp] theorem State.wr_cells (s : State) (pa : Nat) (b : Byte) : (s.wr pa b).cells = s.cells := rfl
@[simp] theorem State.wr_written (s : State) (pa : Nat) (b : Byte) : (s.wr pa b).written = s.written := rfl
@[simp] theorem State.wr_wordNext (s : State) (pa : Nat) (b : Byte) : (s.wr pa b).wordNext = s.wordNext := rfl

@[simp] theorem State.putVersion_clock (s : State) (tag pa : Nat) (b : Byte) : (s.putVersion tag pa b).clock = s.clock := rfl
@[simp] theorem State.putVersion_fresh (s : State) (tag pa : Nat) (b : Byte) : (s.putVersion tag pa b).fresh = s.fresh := rfl
@[simp] theorem State.putVersion_agenda (s : State) (tag pa : Nat) (b : Byte) : (s.putVersion tag pa b).agenda = s.agenda := rfl
@[simp] theorem State.putVersion_group (s : State) (tag pa : Nat) (b : Byte) : (s.putVersion tag pa b).group = s.group := rfl
@[simp] theorem State.putVersion_turn (s : State) (tag pa : Nat) (b : Byte) : (s.putVersion tag pa b).turn = s.turn := rfl
@[simp] theorem State.putVersion_mem (s : State) (tag pa : Nat) (b : Byte) : (s.putVersion tag pa b).mem = s.mem := rfl
@[simp] theorem State.putVersion_l1 (s : State) (tag pa : Nat) (b : Byte) : (s.putVersion tag pa b).l1 = s.l1 := rfl
@[simp] theorem State.putVersion_versVa (s : State) (tag pa : Nat) (b : Byte) : (s.putVersion tag pa b).versVa = s.versVa := rfl
@[simp] theorem State.putVersion_deltas (s : State) (tag pa : Nat) (b : Byte) : (s.putVersion tag pa b).deltas = s.deltas := rfl
@[simp] theorem State.putVersion_expanded (s : State) (tag pa : Nat) (b : Byte) : (s.putVersion tag pa b).expanded = s.expanded := rfl
@[simp] theorem State.putVersion_poison (s : State) (tag pa : Nat) (b : Byte) : (s.putVersion tag pa b).poison = s.poison := rfl
@[simp] theorem State.putVersion_tstore (s : State) (tag pa : Nat) (b : Byte) : (s.putVersion tag pa b).tstore = s.tstore := rfl
@[simp] theorem State.putVersion_tags (s : State) (tag pa : Nat) (b : Byte) : (s.putVersion tag pa b).tags = s.tags := rfl
@[simp] theorem State.putVersion_sets (s : State) (tag pa : Nat) (b : Byte) : (s.putVersion tag pa b).sets = s.sets := rfl
@[simp] theorem State.putVersion_held (s : State) (tag pa : Nat) (b : Byte) : (s.putVersion tag pa b).held = s.held := rfl
@[simp] theorem State.putVersion_grafts (s : State) (tag pa : Nat) (b : Byte) : (s.putVersion tag pa b).grafts = s.grafts := rfl
@[simp] theorem State.putVersion_cores (s : State) (tag pa : Nat) (b : Byte) : (s.putVersion tag pa b).cores = s.cores := rfl
@[simp] theorem State.putVersion_cols (s : State) (tag pa : Nat) (b : Byte) : (s.putVersion tag pa b).cols = s.cols := rfl
@[simp] theorem State.putVersion_wgs (s : State) (tag pa : Nat) (b : Byte) : (s.putVersion tag pa b).wgs = s.wgs := rfl
@[simp] theorem State.putVersion_parts (s : State) (tag pa : Nat) (b : Byte) : (s.putVersion tag pa b).parts = s.parts := rfl
@[simp] theorem State.putVersion_disps (s : State) (tag pa : Nat) (b : Byte) : (s.putVersion tag pa b).disps = s.disps := rfl
@[simp] theorem State.putVersion_passes (s : State) (tag pa : Nat) (b : Byte) : (s.putVersion tag pa b).passes = s.passes := rfl
@[simp] theorem State.putVersion_graphs (s : State) (tag pa : Nat) (b : Byte) : (s.putVersion tag pa b).graphs = s.graphs := rfl
@[simp] theorem State.putVersion_parked (s : State) (tag pa : Nat) (b : Byte) : (s.putVersion tag pa b).parked = s.parked := rfl
@[simp] theorem State.putVersion_snoops (s : State) (tag pa : Nat) (b : Byte) : (s.putVersion tag pa b).snoops = s.snoops := rfl
@[simp] theorem State.putVersion_shared (s : State) (tag pa : Nat) (b : Byte) : (s.putVersion tag pa b).shared = s.shared := rfl
@[simp] theorem State.putVersion_boot (s : State) (tag pa : Nat) (b : Byte) : (s.putVersion tag pa b).boot = s.boot := rfl
@[simp] theorem State.putVersion_sys (s : State) (tag pa : Nat) (b : Byte) : (s.putVersion tag pa b).sys = s.sys := rfl
@[simp] theorem State.putVersion_cells (s : State) (tag pa : Nat) (b : Byte) : (s.putVersion tag pa b).cells = s.cells := rfl
@[simp] theorem State.putVersion_written (s : State) (tag pa : Nat) (b : Byte) : (s.putVersion tag pa b).written = s.written := rfl
@[simp] theorem State.putVersion_wordNext (s : State) (tag pa : Nat) (b : Byte) : (s.putVersion tag pa b).wordNext = s.wordNext := rfl

@[simp] theorem State.nameLine_clock (s : State) (tag va pa : Nat) : (s.nameLine tag va pa).clock = s.clock := rfl
@[simp] theorem State.nameLine_fresh (s : State) (tag va pa : Nat) : (s.nameLine tag va pa).fresh = s.fresh := rfl
@[simp] theorem State.nameLine_agenda (s : State) (tag va pa : Nat) : (s.nameLine tag va pa).agenda = s.agenda := rfl
@[simp] theorem State.nameLine_group (s : State) (tag va pa : Nat) : (s.nameLine tag va pa).group = s.group := rfl
@[simp] theorem State.nameLine_turn (s : State) (tag va pa : Nat) : (s.nameLine tag va pa).turn = s.turn := rfl
@[simp] theorem State.nameLine_mem (s : State) (tag va pa : Nat) : (s.nameLine tag va pa).mem = s.mem := rfl
@[simp] theorem State.nameLine_l1 (s : State) (tag va pa : Nat) : (s.nameLine tag va pa).l1 = s.l1 := rfl
@[simp] theorem State.nameLine_vers (s : State) (tag va pa : Nat) : (s.nameLine tag va pa).vers = s.vers := rfl
@[simp] theorem State.nameLine_deltas (s : State) (tag va pa : Nat) : (s.nameLine tag va pa).deltas = s.deltas := rfl
@[simp] theorem State.nameLine_expanded (s : State) (tag va pa : Nat) : (s.nameLine tag va pa).expanded = s.expanded := rfl
@[simp] theorem State.nameLine_poison (s : State) (tag va pa : Nat) : (s.nameLine tag va pa).poison = s.poison := rfl
@[simp] theorem State.nameLine_tstore (s : State) (tag va pa : Nat) : (s.nameLine tag va pa).tstore = s.tstore := rfl
@[simp] theorem State.nameLine_tags (s : State) (tag va pa : Nat) : (s.nameLine tag va pa).tags = s.tags := rfl
@[simp] theorem State.nameLine_sets (s : State) (tag va pa : Nat) : (s.nameLine tag va pa).sets = s.sets := rfl
@[simp] theorem State.nameLine_held (s : State) (tag va pa : Nat) : (s.nameLine tag va pa).held = s.held := rfl
@[simp] theorem State.nameLine_grafts (s : State) (tag va pa : Nat) : (s.nameLine tag va pa).grafts = s.grafts := rfl
@[simp] theorem State.nameLine_cores (s : State) (tag va pa : Nat) : (s.nameLine tag va pa).cores = s.cores := rfl
@[simp] theorem State.nameLine_cols (s : State) (tag va pa : Nat) : (s.nameLine tag va pa).cols = s.cols := rfl
@[simp] theorem State.nameLine_wgs (s : State) (tag va pa : Nat) : (s.nameLine tag va pa).wgs = s.wgs := rfl
@[simp] theorem State.nameLine_parts (s : State) (tag va pa : Nat) : (s.nameLine tag va pa).parts = s.parts := rfl
@[simp] theorem State.nameLine_disps (s : State) (tag va pa : Nat) : (s.nameLine tag va pa).disps = s.disps := rfl
@[simp] theorem State.nameLine_passes (s : State) (tag va pa : Nat) : (s.nameLine tag va pa).passes = s.passes := rfl
@[simp] theorem State.nameLine_graphs (s : State) (tag va pa : Nat) : (s.nameLine tag va pa).graphs = s.graphs := rfl
@[simp] theorem State.nameLine_parked (s : State) (tag va pa : Nat) : (s.nameLine tag va pa).parked = s.parked := rfl
@[simp] theorem State.nameLine_snoops (s : State) (tag va pa : Nat) : (s.nameLine tag va pa).snoops = s.snoops := rfl
@[simp] theorem State.nameLine_shared (s : State) (tag va pa : Nat) : (s.nameLine tag va pa).shared = s.shared := rfl
@[simp] theorem State.nameLine_boot (s : State) (tag va pa : Nat) : (s.nameLine tag va pa).boot = s.boot := rfl
@[simp] theorem State.nameLine_sys (s : State) (tag va pa : Nat) : (s.nameLine tag va pa).sys = s.sys := rfl
@[simp] theorem State.nameLine_cells (s : State) (tag va pa : Nat) : (s.nameLine tag va pa).cells = s.cells := rfl
@[simp] theorem State.nameLine_written (s : State) (tag va pa : Nat) : (s.nameLine tag va pa).written = s.written := rfl
@[simp] theorem State.nameLine_wordNext (s : State) (tag va pa : Nat) : (s.nameLine tag va pa).wordNext = s.wordNext := rfl

@[simp] theorem State.markPost_clock (s : State) (pa : Nat) : (s.markPost pa).clock = s.clock := rfl
@[simp] theorem State.markPost_fresh (s : State) (pa : Nat) : (s.markPost pa).fresh = s.fresh := rfl
@[simp] theorem State.markPost_agenda (s : State) (pa : Nat) : (s.markPost pa).agenda = s.agenda := rfl
@[simp] theorem State.markPost_group (s : State) (pa : Nat) : (s.markPost pa).group = s.group := rfl
@[simp] theorem State.markPost_turn (s : State) (pa : Nat) : (s.markPost pa).turn = s.turn := rfl
@[simp] theorem State.markPost_mem (s : State) (pa : Nat) : (s.markPost pa).mem = s.mem := rfl
@[simp] theorem State.markPost_l1 (s : State) (pa : Nat) : (s.markPost pa).l1 = s.l1 := rfl
@[simp] theorem State.markPost_vers (s : State) (pa : Nat) : (s.markPost pa).vers = s.vers := rfl
@[simp] theorem State.markPost_versVa (s : State) (pa : Nat) : (s.markPost pa).versVa = s.versVa := rfl
@[simp] theorem State.markPost_deltas (s : State) (pa : Nat) : (s.markPost pa).deltas = s.deltas := rfl
@[simp] theorem State.markPost_expanded (s : State) (pa : Nat) : (s.markPost pa).expanded = s.expanded := rfl
@[simp] theorem State.markPost_poison (s : State) (pa : Nat) : (s.markPost pa).poison = s.poison := rfl
@[simp] theorem State.markPost_tstore (s : State) (pa : Nat) : (s.markPost pa).tstore = s.tstore := rfl
@[simp] theorem State.markPost_tags (s : State) (pa : Nat) : (s.markPost pa).tags = s.tags := rfl
@[simp] theorem State.markPost_held (s : State) (pa : Nat) : (s.markPost pa).held = s.held := rfl
@[simp] theorem State.markPost_grafts (s : State) (pa : Nat) : (s.markPost pa).grafts = s.grafts := rfl
@[simp] theorem State.markPost_cores (s : State) (pa : Nat) : (s.markPost pa).cores = s.cores := rfl
@[simp] theorem State.markPost_cols (s : State) (pa : Nat) : (s.markPost pa).cols = s.cols := rfl
@[simp] theorem State.markPost_wgs (s : State) (pa : Nat) : (s.markPost pa).wgs = s.wgs := rfl
@[simp] theorem State.markPost_parts (s : State) (pa : Nat) : (s.markPost pa).parts = s.parts := rfl
@[simp] theorem State.markPost_disps (s : State) (pa : Nat) : (s.markPost pa).disps = s.disps := rfl
@[simp] theorem State.markPost_passes (s : State) (pa : Nat) : (s.markPost pa).passes = s.passes := rfl
@[simp] theorem State.markPost_graphs (s : State) (pa : Nat) : (s.markPost pa).graphs = s.graphs := rfl
@[simp] theorem State.markPost_parked (s : State) (pa : Nat) : (s.markPost pa).parked = s.parked := rfl
@[simp] theorem State.markPost_snoops (s : State) (pa : Nat) : (s.markPost pa).snoops = s.snoops := rfl
@[simp] theorem State.markPost_shared (s : State) (pa : Nat) : (s.markPost pa).shared = s.shared := rfl
@[simp] theorem State.markPost_boot (s : State) (pa : Nat) : (s.markPost pa).boot = s.boot := rfl
@[simp] theorem State.markPost_sys (s : State) (pa : Nat) : (s.markPost pa).sys = s.sys := rfl
@[simp] theorem State.markPost_cells (s : State) (pa : Nat) : (s.markPost pa).cells = s.cells := rfl
@[simp] theorem State.markPost_written (s : State) (pa : Nat) : (s.markPost pa).written = s.written := rfl
@[simp] theorem State.markPost_wordNext (s : State) (pa : Nat) : (s.markPost pa).wordNext = s.wordNext := rfl

/-! ## Reading back -/

@[simp] theorem State.modSys_sys (s : State) (f : Sys → Sys) : (s.modSys f).sys = f s.sys := rfl

theorem State.part_setPart (s : State) (n m : Nat) (p : Part) : (s.setPart n p).part m = if m = n then p else s.part m := by
  simp [State.part, State.setPart, FMap.get_put]

@[simp] theorem State.part_setPart_self (s : State) (n : Nat) (p : Part) : (s.setPart n p).part n = p := by
  simp [State.part_setPart]

theorem State.part_modPart (s : State) (n m : Nat) (f : Part → Part) :
    (s.modPart n f).part m = if m = n then f (s.part n) else s.part m := by
  simp [State.modPart, State.part_setPart]

theorem State.col_setCol (s : State) (c : Nat) (x : Col) : (s.setCol c x).col c = x := by
  simp [State.col, State.setCol, FMap.get_put]

theorem State.col_setCol_ne (s : State) {c d : Nat} (x : Col) (h : d ≠ c) : (s.setCol c x).col d = s.col d := by
  simp [State.col, State.setCol, FMap.get, FMap.find?_put_ne _ _ h]

theorem State.col_modCol (s : State) (c : Nat) (f : Col → Col) : (s.modCol c f).col c = f (s.col c) := by
  simp [State.modCol, State.col_setCol]

theorem State.col_modCol_ne (s : State) {c d : Nat} (f : Col → Col) (h : d ≠ c) : (s.modCol c f).col d = s.col d := by
  simp [State.modCol, State.col_setCol_ne s _ h]

theorem State.core_setCore (s : State) (c d : Nat) (x : Core) : (s.setCore c x).core d = if d = c then x else s.core d := by
  simp [State.core, State.setCore, FMap.get_put]

theorem State.core_modCore (s : State) (c d : Nat) (f : Core → Core) :
    (s.modCore c f).core d = if d = c then f (s.core c) else s.core d := by
  simp [State.modCore, State.core_setCore]

theorem State.disp_setDisp (s : State) (y z : Nat) (x : Disp) : (s.setDisp y x).disp z = if z = y then x else s.disp z := by
  simp [State.disp, State.setDisp, FMap.get_put]

theorem State.tag_setTag (s : State) (t u : Nat) (x : Tag) : (s.setTag t x).tag u = if u = t then x else s.tag u := by
  simp [State.tag, State.setTag, FMap.get_put]

theorem State.find?_modWg (s : State) (k j : Nat) (f : Wg → Wg) :
    (s.modWg k f).wgs.find? j = if j = k then (s.wgs.find? k).map f else s.wgs.find? j := by
  simp only [State.modWg, FMap.find?_modify]; split <;> simp_all

end Sys2Proof.Machine
end

