-- ==== Sys2Proof/Laws/Memory.lean ====
section
/-! SUPPORT. Laws of committed memory: what a write reads back, what it leaves, and that every operation that writes memory keeps the
canonical form. -/

namespace Sys2Proof.Machine

/-! ## Reading after writing -/

theorem State.rd_wr (s : State) (a b : Nat) (x : Byte) : (s.wr a x).rd b = if b = a then x else s.rd b := by
  simp [State.rd, State.wr, FMap.get_set]

theorem State.rd_wrList (l : List Byte) : ∀ (s : State) (a b : Nat),
    (s.wrList a l).rd b = if a ≤ b ∧ b < a + l.length then l.getD (b - a) 0 else s.rd b := by
  induction l with
  | nil => intro s a b; rw [if_neg (by simp)]; rfl
  | cons x l ih =>
    intro s a b
    simp only [State.wrList, ih, State.rd_wr, List.length_cons]
    by_cases h : b = a
    · subst h; rw [if_neg (by omega), if_pos rfl, if_pos (by omega)]; simp
    · by_cases g : a + 1 ≤ b ∧ b < a + 1 + l.length
      · rw [if_pos g, if_pos (by omega), show b - a = (b - (a + 1)) + 1 by omega]; simp
      · rw [if_neg g, if_neg h, if_neg (by omega)]

/-- Memory of a state after `wrList` depends on the memory before alone. -/
theorem State.wrList_rest (l : List Byte) : ∀ (s : State) (a : Nat), s.wrList a l = { s with mem := (s.wrList a l).mem } := by
  induction l with
  | nil => intro s a; rfl
  | cons x l ih => intro s a; rw [State.wrList, ih]; rfl

/-! ## The canonical form -/

theorem Memory.wf_nil : Memory.wf [] = true := rfl

theorem State.reset_wf : Memory.wf State.reset.mem = true := rfl

theorem State.wr_wf (s : State) (a : Nat) (x : Byte) (h : Memory.wf s.mem = true) : Memory.wf (s.wr a x).mem = true :=
  FMap.wf_set a x h

theorem State.wrList_wf (l : List Byte) : ∀ (s : State) (a : Nat), Memory.wf s.mem = true → Memory.wf (s.wrList a l).mem = true := by
  induction l with
  | nil => intro s a h; exact h
  | cons x l ih => intro s a h; exact ih _ _ (s.wr_wf a x h)

theorem State.wrNat_wf (s : State) (a n x : Nat) (h : Memory.wf s.mem = true) : Memory.wf (s.wrNat a n x).mem = true :=
  State.wrList_wf _ s a h

theorem State.putStored_wf (s : State) (r i v : Nat) (h : Memory.wf s.mem = true) : Memory.wf (s.putStored r i v).mem = true :=
  State.wrNat_wf s _ _ _ h

@[simp] theorem State.unpoison_mem (s : State) (tag pa : Nat) : (s.unpoison tag pa).mem = s.mem := by
  unfold State.unpoison; dsimp only; split <;> rfl

@[simp] theorem State.logClosed_mem (s : State) (part source pa : Nat) (rd wr : Bool) : (s.logClosed part source pa rd wr).mem = s.mem := by
  unfold State.logClosed; split <;> rfl

theorem State.commitRaw_wf (s : State) (pa : Nat) (b : Byte) (h : Memory.wf s.mem = true) : Memory.wf (s.commitRaw pa b).mem = true := by
  unfold State.commitRaw
  dsimp only
  split
  · exact State.wr_wf _ _ _ (by simpa using h)
  · simpa using h

theorem State.commitPlain_wf (s : State) (pa : Nat) (b : Byte) (h : Memory.wf s.mem = true) :
    Memory.wf (s.commitPlain pa b).mem = true := by
  simpa [State.commitPlain] using State.commitRaw_wf s pa b h

/-- A fold keeps the canonical form when each step of it does. -/
theorem State.foldl_wf {α : Type} (f : State → α → State) (hf : ∀ s x, Memory.wf s.mem = true → Memory.wf (f s x).mem = true) :
    ∀ (l : List α) (s : State), Memory.wf s.mem = true → Memory.wf (l.foldl f s).mem = true := by
  intro l
  induction l with
  | nil => intro s h; exact h
  | cons x l ih => intro s h; exact ih _ (hf s x h)

@[simp] theorem State.setLine_mem (s : State) (k : Nat) (l : Option Line) : (s.setLine k l).mem = s.mem := rfl

theorem State.noteRegionTables_wf (s : State) (h : Memory.wf s.mem = true) : Memory.wf s.noteRegionTables.mem = true := by
  refine State.foldl_wf _ (fun s p h => ?_) _ _ h
  split <;> simpa using h

theorem State.putStamp_wf (s : State) (r : Region) (tile : Nat) (h : Memory.wf s.mem = true) : Memory.wf (s.putStamp r tile).mem = true := by
  unfold State.putStamp
  dsimp only
  split
  · simpa using h
  · exact State.commitRaw_wf _ _ _ (State.commitRaw_wf _ _ _ h)

theorem State.stamp_wf (s : State) (tag pa : Nat) (h : Memory.wf s.mem = true) : Memory.wf (s.stamp tag pa).mem = true := by
  refine State.foldl_wf _ (fun s p h => ?_) _ _ (State.noteRegionTables_wf s h)
  dsimp only
  split
  · exact State.putStamp_wf _ _ _ h
  · simpa using h

theorem State.commit_wf (s : State) (pa : Nat) (b : Byte) (h : Memory.wf s.mem = true) : Memory.wf (s.commit pa b).mem = true :=
  State.stamp_wf _ _ _ (State.commitPlain_wf s pa b h)

theorem State.commitList_wf (l : List Byte) : ∀ (s : State) (pa : Nat), Memory.wf s.mem = true → Memory.wf (s.commitList pa l).mem = true := by
  induction l with
  | nil => intro s pa h; exact h
  | cons x l ih => intro s pa h; exact ih _ _ (State.commit_wf s pa x h)

@[simp] theorem State.toVersion_mem (s : State) (tag a : Nat) (d : Delta) : (s.toVersion tag a d).mem = s.mem := rfl

theorem State.convertOver_wf (s : State) (tag pa n : Nat) (h : Memory.wf s.mem = true) : Memory.wf (s.convertOver tag pa n).mem = true := by
  refine State.foldl_wf _ (fun s i h => ?_) _ _ h
  split <;> simpa using h

theorem State.writeHome_wf (s : State) (tag va pa : Nat) (b : Byte) (h : Memory.wf s.mem = true) :
    Memory.wf (s.writeHome tag va pa b).mem = true := by
  unfold State.writeHome
  split
  · exact State.commit_wf s pa b h
  · exact State.stamp_wf _ _ _ (by simpa using State.convertOver_wf (s.unpoison tag pa) tag pa 1 (by simpa using h))

theorem State.writeHomeList_wf (l : List Byte) : ∀ (s : State) (tag va pa : Nat), Memory.wf s.mem = true →
    Memory.wf (s.writeHomeList tag va pa l).mem = true := by
  induction l with
  | nil => intro s tag va pa h; exact h
  | cons x l ih => intro s tag va pa h; exact ih _ _ _ _ (State.writeHome_wf s tag va pa x h)

theorem State.writeBackLine_wf (s : State) (k : Nat) (h : Memory.wf s.mem = true) : Memory.wf (s.writeBackLine k).mem = true := by
  unfold State.writeBackLine
  split
  · exact h
  · have := State.foldl_wf (fun (s : State) o => s.writeHome (lineTag k) (lineAddr k + o) (lineAddr k + o) (FMap.get 0 (‹Line›).data o))
      (fun s o h => State.writeHome_wf _ _ _ _ _ h) (‹Line›).dirty s h
    dsimp only
    split
    · exact this
    · split <;> exact this

theorem State.pushLine_wf (s : State) (k : Nat) (h : Memory.wf s.mem = true) : Memory.wf (s.pushLine k).mem = true := by
  unfold State.pushLine
  split <;> simpa using h

theorem State.releaseL1_wf (s : State) (core scope : Nat) (h : Memory.wf s.mem = true) : Memory.wf (s.releaseL1 core scope).mem = true := by
  unfold State.releaseL1
  dsimp only
  split
  · exact State.foldl_wf _ (fun s k h => State.pushLine_wf s k h) _ _ h
  · exact State.foldl_wf _ (fun s k h => State.writeBackLine_wf s k h) _ _ (State.foldl_wf _ (fun s k h => State.writeBackLine_wf s k h) _ _ h)

theorem State.flushLine_wf (s : State) (core tag pa : Nat) (h : Memory.wf s.mem = true) : Memory.wf (s.flushLine core tag pa).mem = true :=
  State.writeBackLine_wf _ _ (by simpa using State.writeBackLine_wf s _ h)

theorem State.stampAll_wf (s : State) (tag pa n : Nat) (h : Memory.wf s.mem = true) : Memory.wf (s.stampAll tag pa n).mem = true :=
  State.foldl_wf _ (fun s _ h => State.stamp_wf s _ _ h) _ _ h

theorem State.advanceRegion_wf (s : State) (part id : Nat) (h : Memory.wf s.mem = true) :
    Memory.wf (s.advanceRegion part id).mem = true := by
  unfold State.advanceRegion
  split
  · exact h
  · dsimp only
    split
    · simpa using h
    · simp only [State.modPart_mem]
      exact State.foldl_wf _ (fun s p h => State.commitRaw_wf s _ _ h) _ _ h

theorem State.rmwHome_wf (s : State) (tag va pa aop ty width o o2 : Nat) (h : Memory.wf s.mem = true) :
    Memory.wf (s.rmwHome tag va pa aop ty width o o2).2.mem = true := by
  have hp : ∀ t : State, Memory.wf t.mem = true → Memory.wf (match atomNew aop ty width (s.readHomeNat tag pa width) o o2 with
      | some x => t.writeHomeList tag va pa (leBytes width x)
      | none => t).mem = true := fun t ht => by
    split
    · exact State.writeHomeList_wf _ _ _ _ _ ht
    · exact ht
  have hc := State.convertOver_wf s tag pa width h
  unfold State.rmwHome
  dsimp only
  split
  · exact hp _ h
  · split
    · split
      · exact hp _ hc
      · exact h
    · split
      · exact hp _ hc
      · split
        · split
          · exact State.stampAll_wf _ _ _ _ (by simpa using h)
          · exact hp _ hc
        · split
          · exact hp _ hc
          · exact State.stampAll_wf _ _ _ _ (by simpa using h)

theorem State.vWrite_wf (l : List Byte) : ∀ (s : State) (part tag va : Nat) (u : State), Memory.wf s.mem = true →
    s.vWrite part tag va l = some u → Memory.wf u.mem = true := by
  induction l with
  | nil => intro s part tag va u h e; simp only [State.vWrite, Option.some.injEq] at e; exact e ▸ h
  | cons x l ih =>
    intro s part tag va u h e
    simp only [State.vWrite] at e
    split at e
    · exact ih _ _ _ _ _ (State.writeHome_wf _ _ _ _ _ h) e
    · exact absurd e (by simp)

theorem State.foreignWrite_wf (l : List Byte) : ∀ (s : State) (pa : Nat), Memory.wf s.mem = true →
    Memory.wf (s.foreignWrite pa l).mem = true := by
  induction l with
  | nil => intro s pa h; exact h
  | cons x l ih =>
    intro s pa h
    exact ih _ _ (State.commit_wf _ _ _ (State.foldl_wf _ (fun s p h => by simpa using h) _ _ h))

end Sys2Proof.Machine
end

