-- ==== Sys2Proof/Laws/Home.lean ====
section
/-! SUPPORT. Everything that a write at the home, a trap, a resumption and the end of a workgroup can change. -/

namespace Sys2Proof.Machine

/-! ## Writes at the home -/

/-- Only what a write at the home touches differs: committed memory, expanded bytes, failing granules, post-fork marks, versions and
deltas, and the two logs, which take a stamp that is refused. -/
def HomeOnly (s u : State) : Prop :=
  u = { s with mem := u.mem, expanded := u.expanded, poison := u.poison, sets := u.sets, vers := u.vers, versVa := u.versVa,
               deltas := u.deltas, sys := { s.sys with errLog := u.sys.errLog, hwinLog := u.sys.hwinLog } }

theorem HomeOnly.refl (s : State) : HomeOnly s s := rfl

theorem HomeOnly.trans {s t u : State} (h : HomeOnly s t) (g : HomeOnly t u) : HomeOnly s u := by
  unfold HomeOnly at *
  rw [g, h]

theorem HomeOnly.wgs {s u : State} (h : HomeOnly s u) : u.wgs = s.wgs := by rw [h]
theorem HomeOnly.parts {s u : State} (h : HomeOnly s u) : u.parts = s.parts := by rw [h]
theorem HomeOnly.sys {s u : State} (h : HomeOnly s u) : u.sys = { s.sys with errLog := u.sys.errLog, hwinLog := u.sys.hwinLog } := by
  rw [h]
theorem HomeOnly.cols {s u : State} (h : HomeOnly s u) : u.cols = s.cols := by rw [h]
theorem HomeOnly.cores {s u : State} (h : HomeOnly s u) : u.cores = s.cores := by rw [h]
theorem HomeOnly.l1 {s u : State} (h : HomeOnly s u) : u.l1 = s.l1 := by rw [h]
theorem HomeOnly.boot {s u : State} (h : HomeOnly s u) : u.boot = s.boot := by rw [h]

theorem HomeOnly.foldl {α : Type} (f : State → α → State) (hf : ∀ s x, HomeOnly s (f s x)) :
    ∀ (l : List α) (s : State), HomeOnly s (l.foldl f s) := by
  intro l
  induction l with
  | nil => intro s; exact .refl s
  | cons x l ih => intro s; exact (hf s x).trans (ih _)

theorem State.wr_home (s : State) (a : Nat) (x : Byte) : HomeOnly s (s.wr a x) := rfl

theorem State.unpoison_home (s : State) (tag a : Nat) : HomeOnly s (s.unpoison tag a) := by
  unfold State.unpoison
  dsimp only
  split
  · exact .refl s
  · rfl

theorem State.commitRaw_home (s : State) (a : Nat) (b : Byte) : HomeOnly s (s.commitRaw a b) := by
  refine (State.unpoison_home s 0 a).trans ?_
  unfold State.commitRaw
  dsimp only
  split <;> rfl

theorem State.putVersion_home (s : State) (tag a : Nat) (b : Byte) : HomeOnly s (s.putVersion tag a b) := rfl

theorem State.logClosed_home (s : State) (part source pa : Nat) (rd wr : Bool) : HomeOnly s (s.logClosed part source pa rd wr) := by
  unfold State.logClosed
  split <;> rfl

theorem State.noteRegionTables_home (s : State) : HomeOnly s s.noteRegionTables := by
  refine HomeOnly.foldl _ (fun s p => ?_) _ s
  split
  · exact State.logClosed_home _ _ _ _ _ _
  · exact .refl s

theorem State.putStamp_home (s : State) (r : Region) (tile : Nat) : HomeOnly s (s.putStamp r tile) := by
  unfold State.putStamp
  dsimp only
  split
  · exact State.logClosed_home _ _ _ _ _ _
  · exact (State.commitRaw_home _ _ _).trans (State.commitRaw_home _ _ _)

theorem State.stamp_home (s : State) (tag a : Nat) : HomeOnly s (s.stamp tag a) := by
  refine (State.noteRegionTables_home s).trans (HomeOnly.foldl _ (fun s p => ?_) _ _)
  dsimp only
  split
  · exact State.putStamp_home _ _ _
  · exact (State.putVersion_home _ _ _ _).trans (State.putVersion_home _ _ _ _)

theorem State.commitPlain_home (s : State) (a : Nat) (b : Byte) : HomeOnly s (s.commitPlain a b) :=
  (State.commitRaw_home s a b).trans rfl

theorem State.commit_home (s : State) (a : Nat) (b : Byte) : HomeOnly s (s.commit a b) :=
  (State.commitPlain_home s a b).trans (State.stamp_home _ _ _)

theorem State.commitList_home (l : List Byte) : ∀ (s : State) (a : Nat), HomeOnly s (s.commitList a l) := by
  induction l with
  | nil => intro s a; exact .refl s
  | cons x l ih => intro s a; exact (State.commit_home s a x).trans (ih _ _)

theorem State.convertOver_home (s : State) (tag a n : Nat) : HomeOnly s (s.convertOver tag a n) := by
  refine HomeOnly.foldl _ (fun s i => ?_) _ s
  split
  · rfl
  · exact .refl s

theorem State.writeHome_home (s : State) (tag va a : Nat) (b : Byte) : HomeOnly s (s.writeHome tag va a b) := by
  unfold State.writeHome
  split
  · exact State.commit_home s a b
  · exact (State.unpoison_home s tag a).trans ((State.convertOver_home _ tag a 1).trans
      (HomeOnly.trans (t := (((s.unpoison tag a).convertOver tag a 1).putVersion tag a b).nameLine tag va a) rfl (State.stamp_home _ _ _)))

theorem State.writeHomeList_home (l : List Byte) : ∀ (s : State) (tag va a : Nat), HomeOnly s (s.writeHomeList tag va a l) := by
  induction l with
  | nil => intro s tag va a; exact .refl s
  | cons x l ih => intro s tag va a; exact (State.writeHome_home s tag va a x).trans (ih _ _ _ _)

/-! ## Traps -/

/-- A fold keeps a part of the state that each step of it keeps. -/
theorem State.foldl_keeps {α β : Type} (g : State → β) (f : State → α → State) (hf : ∀ s x, g (f s x) = g s) :
    ∀ (l : List α) (s : State), g (l.foldl f s) = g s := by
  intro l
  induction l with
  | nil => intro s; rfl
  | cons x l ih => intro s; rw [List.foldl_cons, ih, hf]

/-- Both branches of a choice leave the workgroups as they were. -/
theorem State.ite_wgs {c : Prop} [Decidable c] {a b s : State} (ha : a.wgs = s.wgs) (hb : b.wgs = s.wgs) :
    (if c then a else b).wgs = s.wgs := by
  split <;> assumption

theorem State.putTrap_wgs (s : State) (part base cap hd : Nat) (p : Nat × TrapRec) : (s.putTrap part base cap hd p).wgs = s.wgs := by
  rw [State.putTrap, State.modSys_wgs, State.modPart_wgs, (State.commitList_home _ _ _).wgs, (State.commitList_home _ _ _).wgs]

theorem State.storeTrap_wgs (part base cap : Nat) (s : State) (p : Nat × TrapRec) : (State.storeTrap part base cap s p).wgs = s.wgs :=
  State.ite_wgs rfl (State.ite_wgs (State.putTrap_wgs _ _ _ _ _ _) rfl)

/-- A trap ring that takes records leaves workgroups as they were. -/
theorem State.flushTraps_wgs (s : State) (part : Nat) : (s.flushTraps part).wgs = s.wgs := by
  by_cases h : bits (s.part part).trapRing 4 0 < 4 ∨ 16 < bits (s.part part).trapRing 4 0
  · rw [show s.flushTraps part = s from if_pos h]
  · rw [show s.flushTraps part = ((s.part part).traps.filter (fun p => !p.2.stored)).foldl
      (State.storeTrap part (bits (s.part part).trapRing 51 12 * 4096) (bits (s.part part).trapRing 4 0)) s from if_neg h]
    exact State.foldl_keeps State.wgs _ (State.storeTrap_wgs _ _ _) _ s

theorem State.noteTrapRing_wgs (s : State) (part : Nat) : (s.noteTrapRing part).wgs = s.wgs :=
  State.ite_wgs rfl (State.ite_wgs (State.logClosed_home _ _ _ _ _ _).wgs (State.logClosed_home _ _ _ _ _ _).wgs)

/-- A trap stops the threads of its record at its word, under the partition's next trap number, and changes no other thread. -/
theorem State.takeTrap_wgs (s : State) (r : TrapReq) (idxs : List Nat) (w : Wg) (h : s.wgs.find? r.wk = some w) :
    (s.takeTrap r idxs).wgs = s.wgs.modify r.wk (fun x => { x with threads := x.threads.map (fun p =>
      if idxs.contains p.1 then
        (p.1, { p.2 with st := .trapped, trap := (s.part w.part).nextTrap, obj := r.obj, off := r.off, view := none,
                         await := none, op := none })
      else p) }) := by
  simp only [State.takeTrap, h, State.flushTraps_wgs, State.noteTrapRing_wgs]
  rfl

/-- Resuming writes the threads its record names and drops the record. -/
theorem State.resumeTrap_eq (s : State) (part id : Nat) (next : Bool) :
    s.resumeTrap part id next = { s with wgs := (s.resumeTrap part id next).wgs, parts := (s.resumeTrap part id next).parts } := by
  unfold State.resumeTrap
  split <;> rfl

/-- The end of a workgroup changes its own record alone. -/
theorem State.endWg_eq (s : State) (k : Nat) : s.endWg k = { s with wgs := (s.endWg k).wgs } := rfl

theorem State.endWg_find (s : State) (k : Nat) (w : Wg) (h : s.wgs.find? k = some w) :
    (s.endWg k).wgs.find? k = some { w with stopped := some (w.stopped.getD 5), draining := true, saving := false, flushing := false } := by
  simp [State.endWg, State.find?_modWg, h]

end Sys2Proof.Machine
end

