-- ==== Sys2Proof/Laws/Words.lean ====
section
/-! SUPPORT. Laws of running a word: what a word that only writes its threads' own records leaves (R13, R132, R136). -/

namespace Sys2Proof.Machine

/-! ## One thread's record -/

theorem State.thread?_modThread (s : State) (k i k' i' : Nat) (f : Thread → Thread) :
    (s.modThread k i f).thread? k' i' = if k' = k ∧ i' = i then (s.thread? k' i').map f else s.thread? k' i' := by
  simp only [State.modThread, State.modWg, State.thread?, FMap.find?_modify]
  by_cases hk : k' = k
  · subst hk
    cases h : s.wgs.find? k' with
    | none => simp
    | some w =>
      simp only [if_true, Option.map_some, FMap.find?_modify, true_and]
  · simp [hk]

@[simp] theorem State.thread?_modThread_self (s : State) (k i : Nat) (f : Thread → Thread) :
    (s.modThread k i f).thread? k i = (s.thread? k i).map f := by
  simp [State.thread?_modThread]

theorem State.groups_modThread (s : State) (k i j : Nat) (f : Thread → Thread) :
    ((s.modThread k i f).wgs.find? j).map (fun w => { w with threads := [] }) =
      (s.wgs.find? j).map (fun w => { w with threads := [] }) := by
  simp only [State.modThread, State.modWg, FMap.find?_modify]
  split
  · cases s.wgs.find? j <;> rfl
  · rfl

theorem State.thread?_of_find {s : State} {k i : Nat} {w : Wg} {t : Thread} (hw : s.wgs.find? k = some w)
    (ht : w.threads.find? i = some t) : s.thread? k i = some t := by
  simp [State.thread?, hw, ht]

theorem Member.thread {s : State} {len : Nat} {c : Ctx} (hc : Member s len c) : s.thread? c.wk c.idx = some c.th :=
  State.thread?_of_find hc.wg hc.th

/-- A thread of the group is seen in one way. -/
theorem Member.unique {s : State} {len : Nat} {c d : Ctx} (hc : Member s len c) (hd : Member s len d)
    (h : (c.wk, c.idx) = (d.wk, d.idx)) : c = d := by
  obtain ⟨p1, k1, i1, w1, t1, l1⟩ := c
  obtain ⟨p2, k2, i2, w2, t2, l2⟩ := d
  have a := hc.pre; have a' := hd.pre; have b := hc.len; have b' := hd.len
  have e := hc.wg; have e' := hd.wg; have g := hc.th; have g' := hd.th
  simp only [Prod.mk.injEq] at h a a' b b' e e' g g'
  obtain ⟨rfl, rfl⟩ := h
  subst a a' b b'
  rw [e] at e'; cases e'
  rw [g] at g'; cases g'
  rfl

/-! ## The word -/

/-- What a run of a word keeps of the state: all but the workgroups' threads. -/
structure Same (s a : State) : Prop where
  rest : a = { s with wgs := a.wgs }
  groups : ∀ k, (a.wgs.find? k).map (fun w => { w with threads := [] }) = (s.wgs.find? k).map (fun w => { w with threads := [] })

theorem Same.refl (s : State) : Same s s := ⟨rfl, fun _ => rfl⟩

theorem Same.modThread {s a : State} (h : Same s a) (k i : Nat) (f : Thread → Thread) : Same s (a.modThread k i f) := by
  refine ⟨?_, fun j => (State.groups_modThread a k i j f).trans (h.groups j)⟩
  obtain ⟨h, -⟩ := h
  rw [h]; rfl

/-- The trailing sequence after a word that adds `tl` to it. -/
def Ctx.trailing (c : Ctx) (tl : Option (List TrailName)) : Option (List TrailName) :=
  tl.map (fun l => c.th.trail.getD [] ++ l)

/-- `State.finish` after an effect on the thread's own record, where no terminal cause is taken. -/
theorem State.finish_eq {s a : State} {h : Hdr} {c : Ctx} {obj off : Nat} {new : Thread}
    {tl : Option (List TrailName)} (hs : Same s a) (hp : c.pre = s) (ht : a.thread? c.wk c.idx = some new) (hterm : h.sw = true → new.term = none) :
    ∃ b, a.finish h c tl obj off = (b, []) ∧ Same s b ∧
      b.thread? c.wk c.idx = some (c.advanced h (c.trailing tl) obj (off % 2 ^ 32) new) ∧
      (∀ k i, (k, i) ≠ (c.wk, c.idx) → b.thread? k i = a.thread? k i) := by
  have hclock : a.clock = c.pre.clock := by rw [hs.rest, hp]
  have hne : ∀ k i, (k, i) ≠ (c.wk, c.idx) → ¬(k = c.wk ∧ i = c.idx) := fun k i hk hh => hk (Prod.ext hh.1 hh.2)
  have hfin : a.finish h c tl obj off =
      (let a1 := a.modThread c.wk c.idx (c.moved h (c.trailing tl) obj (off % 2 ^ 32))
       if h.sw then
         match (a1.thread? c.wk c.idx).bind (fun t => t.term.map (t.trapReq c.wk c.idx)) with
         | some x => (a1.modThread c.wk c.idx (fun t => { t.endRun with term := none }), [x])
         | none => (a1.modThread c.wk c.idx (fun t => t.park a1.clock (c.trailing tl)), [])
       else (a1, [])) := by cases tl <;> rfl
  generalize off % 2 ^ 32 = o at hfin ⊢
  cases hsw : h.sw with
  | false =>
    refine ⟨a.modThread c.wk c.idx (c.moved h (c.trailing tl) obj o), by simp [hfin, hsw], hs.modThread _ _ _, ?_, ?_⟩
    · simp [ht, Ctx.advanced, hsw]
    · intro k i hk
      simp [State.thread?_modThread, hne k i hk]
  | true =>
    refine ⟨(a.modThread c.wk c.idx (c.moved h (c.trailing tl) obj o)).modThread c.wk c.idx (fun t => t.park a.clock (c.trailing tl)),
      ?_, (hs.modThread _ _ _).modThread _ _ _, ?_, ?_⟩
    · have hm : (c.moved h (c.trailing tl) obj o new).term = none := hterm hsw
      simp [hfin, hsw, ht, hm] <;> rfl
    · simp [ht, Ctx.advanced, hsw, hclock]
    · intro k i hk
      simp [State.thread?_modThread, hne k i hk]

/-- How one thread's part of a word answers when it only writes the thread's own record `upd` and goes on at `pc`. -/
def Own (s : State) (tl : Option (List TrailName)) (f : Ctx → State → Out) (onto : Ctx → Onward) (upd : Ctx → Thread → Thread) (c : Ctx) : Prop :=
  (onto c).trail = c.trailing tl ∧
  ((∀ a, Same s a → f c a = .next (a.modThread c.wk c.idx (upd c))) ∧ (onto c).obj = c.th.obj ∧ (onto c).off = c.after ∨
  ∃ g p, (∀ a, Same s a → f c a = .goto (a.modThread c.wk c.idx g) (onto c).obj p) ∧ (onto c).off = p % 2 ^ 32 ∧
    upd c = fun t => { g t with sig := (g t).sig.rotateLeft 1 ^^^ BitVec.ofNat 32 p })

theorem runThread_own {s : State} {h : Hdr} {len : Nat} {f : Ctx → State → Out} {tl : Option (List TrailName)} {onto : Ctx → Onward}
    {upd : Ctx → Thread → Thread} {a : State} {g : List (Nat × Nat)} {c : Ctx}
    (hc : Member s len c) (hf : Own s tl f onto upd c) (hroom : c.th.runw + len ≤ 24)
    (hterm : h.sw = true → (upd c c.th).term = none) (hs : Same s a) (ha : a.thread? c.wk c.idx = some c.th) :
    ∃ b, runThread h len tl f s (a, [], g) (c.wk, c.idx) = (b, [], g ++ [(c.wk, c.idx)]) ∧ Same s b ∧
      b.thread? c.wk c.idx = some (c.advanced h (onto c).trail (onto c).obj (onto c).off (upd c c.th)) ∧
      (∀ k i, (k, i) ≠ (c.wk, c.idx) → b.thread? k i = a.thread? k i) := by
  have hceq : (⟨s, c.wk, c.idx, c.wg, c.th, len⟩ : Ctx) = c := by
    have h1 := hc.pre; have h2 := hc.len
    cases c; simp_all
  have hnot : ¬ 24 < c.th.runw + len := by omega
  obtain ⟨htl, hf⟩ := hf
  rw [htl]
  rcases hf with ⟨hf, ho1, ho2⟩ | ⟨g', p, hf, hlt, hupd⟩
  · obtain ⟨b, h1, h2, h3, h4⟩ := State.finish_eq (s := s) (a := a.modThread c.wk c.idx (upd c)) (h := h) (c := c)
      (obj := c.th.obj) (off := c.th.off + 4 * len) (tl := tl) (new := upd c c.th) (hs.modThread _ _ _) hc.pre (by simp [ha]) hterm
    refine ⟨b, ?_, h2, ?_, ?_⟩
    · simp only [runThread, hc.wg, hc.th, hceq, if_neg hnot, hf a hs, h1, List.append_nil]
    · rw [h3, ho1, ho2]; simp [Ctx.after, hc.len]
    · intro k i hk
      rw [h4 k i hk, State.thread?_modThread, if_neg (fun hh => hk (Prod.ext hh.1 hh.2))]
  · obtain ⟨b, h1, h2, h3, h4⟩ := State.finish_eq (s := s)
      (a := (a.modThread c.wk c.idx g').modThread c.wk c.idx
        (fun t => { t with sig := t.sig.rotateLeft 1 ^^^ BitVec.ofNat 32 p })) (h := h) (c := c)
      (obj := (onto c).obj) (off := p) (tl := tl) (new := upd c c.th) ((hs.modThread _ _ _).modThread _ _ _) hc.pre
      (by simp [ha, hupd]) hterm
    refine ⟨b, ?_, h2, ?_, ?_⟩
    · simp only [runThread, hc.wg, hc.th, hceq, if_neg hnot, hf a hs, h1, List.append_nil]
    · rw [h3, hlt]
    · intro k i hk
      have hne : ¬(k = c.wk ∧ i = c.idx) := fun hh => hk (Prod.ext hh.1 hh.2)
      rw [h4 k i hk, State.thread?_modThread, if_neg hne, State.thread?_modThread, if_neg hne]

theorem foldl_own {s : State} {h : Hdr} {len : Nat} {f : Ctx → State → Out} {tl : Option (List TrailName)} {onto : Ctx → Onward}
    {upd : Ctx → Thread → Thread} (hrun : CanRun s h len) (hf : ∀ c, Member s len c → Own s tl f onto upd c)
    (hterm : ∀ c, Member s len c → (upd c c.th).term = c.th.term) :
    ∀ (l : List (Nat × Nat)) (a : State) (g : List (Nat × Nat)), l.Nodup → (∀ x ∈ l, x ∈ s.group) → Same s a →
      (∀ x ∈ l, a.thread? x.1 x.2 = s.thread? x.1 x.2) →
      ∃ b, l.foldl (runThread h len tl f s) (a, [], g) = (b, [], g ++ l) ∧ Same s b ∧
        (∀ c, Member s len c → (c.wk, c.idx) ∈ l → b.thread? c.wk c.idx = some (c.advanced h (onto c).trail (onto c).obj (onto c).off (upd c c.th))) ∧
        (∀ k i, (k, i) ∉ l → b.thread? k i = a.thread? k i) := by
  intro l
  induction l with
  | nil => intro a g _ _ hs _; exact ⟨a, by simp, hs, by simp, by simp⟩
  | cons id l ih =>
    intro a g hnd hsub hs hat
    obtain ⟨c, hc, rfl⟩ := hrun.here id (hsub id (by simp))
    obtain ⟨b, h1, h2, h3, h4⟩ := runThread_own (g := g) hc (hf c hc) (hrun.room c hc)
      (fun x => (hterm c hc).trans (hrun.clear c hc x)) hs ((hat (c.wk, c.idx) (by simp)).trans hc.thread)
    have hnd' := List.nodup_cons.mp hnd
    obtain ⟨b', g1, g2, g3, g4⟩ := ih b (g ++ [(c.wk, c.idx)]) hnd'.2 (fun x hx => hsub x (by simp [hx])) h2 (by
      intro x hx
      rw [h4 x.1 x.2 (fun he => hnd'.1 ((show x = (c.wk, c.idx) from he) ▸ hx))]
      exact hat x (by simp [hx]))
    refine ⟨b', by simp [h1, g1], g2, ?_, ?_⟩
    · intro d hd hm
      by_cases hdc : (d.wk, d.idx) ∈ l
      · exact g3 d hd hdc
      · have he : d = c := by
          refine Member.unique hd hc ?_
          rcases List.mem_cons.mp hm with hm | hm
          · exact hm
          · exact absurd hm hdc
        subst he
        rw [g4 _ _ hdc, h3]
    · intro k i hk
      simp only [List.mem_cons, not_or] at hk
      rw [g4 k i hk.2, h4 k i hk.1]

/-- A word that only writes the records of its threads leaves the rest of the machine as it was. -/
theorem runTrail_own {s : State} {h : Hdr} {len : Nat} {f : Ctx → State → Out} {tl : Option (List TrailName)}
    {onto : Ctx → Onward} {upd : Ctx → Thread → Thread} (hrun : CanRun s h len) (hf : ∀ c, Member s len c → Own s tl f onto upd c)
    (hterm : ∀ c, Member s len c → (upd c c.th).term = c.th.term) :
    Leaves s (runTrail h len tl f s) h len onto (fun c => upd c c.th) := by
  obtain ⟨b, h1, h2, h3, h4⟩ := foldl_own hrun hf hterm s.group s [] hrun.nodup (fun _ hx => hx) (Same.refl s) (fun _ _ => rfl)
  have hw : runTrail h len tl f s = { b with group := if h.chain then s.group else [], fresh := s.fresh + 1 } := by
    simp only [runTrail, h1, List.nil_append, List.length_nil, State.takeTraps]
  have ht : ∀ k i, (runTrail h len tl f s).thread? k i = b.thread? k i := by intro k i; rw [hw]; rfl
  refine ⟨?_, ?_, ?_, ?_⟩
  · intro c hc; rw [ht]; exact h3 c hc hc.mem
  · intro k i hk; rw [ht]; exact h4 k i hk
  · intro k; rw [hw]; exact h2.groups k
  · rw [hw]; have := h2.rest; rw [this]

/-- The same of a word with no trailing sequence that goes on at the next word. -/
theorem runWord_own {s : State} {h : Hdr} {len : Nat} {f : Ctx → State → Out} {upd : Ctx → Thread → Thread} (hrun : CanRun s h len)
    (hf : ∀ c, Member s len c → ∀ a, Same s a → f c a = .next (a.modThread c.wk c.idx (upd c)))
    (hterm : ∀ c, Member s len c → (upd c c.th).term = c.th.term) :
    Leaves s (runWord h len f s) h len Ctx.onward (fun c => upd c c.th) :=
  runTrail_own (tl := none) hrun (fun c hc => ⟨rfl, .inl ⟨hf c hc, rfl, rfl⟩⟩) hterm

/-- Of a short word: each thread's destination, flags and A take the result. -/
theorem runWord_short {s : State} {h : Hdr} {len : Nat} {d : Option Opnd} {wide : Bool} {f : Ctx → Except Nat Result}
    {r : Ctx → Result} (hrun : CanRun s h len) (hd : ∀ c, Member s len c → ∀ o, d = some o → c.destOk wide o = true)
    (hf : ∀ c, Member s len c → f c = .ok (r c)) :
    Leaves s (runWord h len (shortWord d wide f) s) h len Ctx.onward (fun c => c.th.putResult d wide (r c)) := by
  refine runWord_own (upd := fun c t => t.putResult d wide (r c)) hrun (fun c hc a _ => ?_) (fun c _ => ?_)
  · cases d with
    | none => simp [shortWord, hf c hc]
    | some o => simp [shortWord, hf c hc, hd c hc o rfl]
  · obtain ⟨val, flags, a⟩ := r c
    cases d with
    | none => cases val <;> cases flags <;> cases a <;> rfl
    | some o => cases val <;> cases flags <;> cases a <;> cases wide <;> cases o <;> rfl

end Sys2Proof.Machine
end

