-- ==== Sys2Proof/Tests/Slice0.lean ====
section
/-! SUPPORT. Tests: ill-formed terms refused, words of the spec decoded, its worked examples run, and for each statement of the
certificate a concrete state and operands that meet its hypotheses. -/

namespace Sys2Proof.Tests

open Sys2Proof.Machine Sys2Proof.Claims

set_option Elab.async false

/-! ## Headers and MODs of the tests -/

def hN : Hdr := ⟨true, false, false⟩
def hSw : Hdr := ⟨true, false, true⟩
def hCh : Hdr := ⟨true, true, false⟩
def hOld : Hdr := ⟨false, false, false⟩
def hBad : Hdr := ⟨true, true, true⟩
def plainMod (ty : Ty) : Mod := ⟨.v 0, false, .rne, false, false, 0, ty⟩
def ccMod (ty : Ty) : Mod := { plainMod ty with cc := true }

/-! ## WellFormed refuses an ill-formed term for each of its checks -/

theorem test_wf_chain_and_sw : WellFormed (.add hBad (.v 0) (.v 1) (.v 2) none) = false := by decide
theorem test_wf_chain_on_pipe_c : WellFormed (.bra hCh 4) = false := by decide
theorem test_wf_budget : WellFormed (.nop hN 20) = false := by decide
theorem test_wf_budget_high : WellFormed (.nop hN 264) = false := by decide
theorem test_wf_int_rounding : WellFormed (.add hN (.v 0) (.v 1) (.v 2) (some { plainMod .b32 with rm := .rtz })) = false := by decide
theorem test_wf_int_condition : WellFormed (.add hN (.v 0) (.v 1) (.v 2) (some { plainMod .b32 with cond := 3 })) = false := by decide
theorem test_wf_int_c_without_cuse : WellFormed (.mad hN (.v 0) (.v 1) (.v 2) (some { plainMod .b32 with c := .v 4 })) = false := by decide
theorem test_wf_sel_cuse : WellFormed (.sel hN (.v 0) (.v 1) (.v 2) { plainMod .b32 with cuse := true }) = false := by decide
theorem test_wf_float_mode : WellFormed (.fmin hN (.v 0) (.v 1) (.v 2) (some { plainMod .f32 with rm := .rtz })) = false := by decide
theorem test_wf_float_third : WellFormed (.fadd hN (.v 0) (.v 1) (.v 2) (some { plainMod .f32 with c := .v 4 })) = false := by decide
theorem test_wf_float_condition : WellFormed (.hadd2 hN (.v 0) (.v 1) (.v 2) (some { plainMod .f16 with cond := 2 })) = false := by decide
theorem test_wf_dot_type : WellFormed (.dot4 hN (.v 0) (.v 1) (.v 2) (some (plainMod .f16))) = false := by decide
theorem test_wf_fcvt_source : WellFormed (.fcvt hN (.v 0) (.v 1) .f32 .e8m0 none) = false := by decide
theorem test_wf_i2f_destination : WellFormed (.i2f hN (.v 0) (.v 1) .e8m0 .s32 none) = false := by decide
theorem test_wf_f2i_source : WellFormed (.f2i hN (.v 0) (.v 1) .s32 .e8m0 none) = false := by decide
theorem test_wf_pack_version : WellFormed (.padd4 hOld (.v 0) (.v 1) (.v 2) none) = false := by decide
theorem test_wf_dot8_version : WellFormed (.dot8 hOld (.v 0) (.v 1) (.v 2) none) = false := by decide
theorem test_wf_phase_version : WellFormed (.phase hOld 1) = false := by decide
theorem test_wf_red_type : WellFormed (.red hN (.v 0) (.v 1) .and .f32) = false := by decide
theorem test_wf_scan_maxi : WellFormed (.scan hN (.v 0) (.v 1) .maxi false .s32) = false := by decide
theorem test_wf_ldlod_version : WellFormed (.ldlod hOld (.v 0) 0 (.v 1) .b32 none) = false := by decide
theorem test_wf_trinit_immediate : WellFormed (.trinit hN (.v 0) (.v 1) (some 5)) = false := by decide
theorem test_wf_wpwait_immediate : WellFormed (.wpwait hN (.v 0) (.v 1) (some 5)) = false := by decide
theorem test_wf_shadow_version : WellFormed (.shbegin hN (.v 0)) = false := by decide
theorem test_wf_device_step : WellFormed .coldStart = false := by decide

/-! ## Decoding: words of the spec, at least one of each family -/

/-- R160's example: ADD.cc v8, v4, v6 and ADDC v9, v5, v7 !. -/
theorem test_decode_add : decodeWords [0x70004000, 0x40220206] = .ok (.add hN (.v 8) (.v 4) (.v 6) (some (ccMod .b32))) := by decide +kernel
theorem test_decode_addc : decodeWords [0x50624287] = .ok (.addc hSw (.v 9) (.v 5) (.v 7) none) := by decide +kernel
/-- The example of R167 and R170. -/
theorem test_decode_cmp : decodeWords [0x42C400D8] = .ok (.cmp hN .z32 (.v 1) (.c 0)) := by decide +kernel
theorem test_decode_sel : decodeWords [0x70000000, 0x42A10103] = .ok (.sel hN (.v 4) (.v 2) (.v 3) (plainMod .b32)) := by decide +kernel
theorem test_decode_movi : decodeWords [0x780048D1, 0x44019678] = .ok (.moviImm hN (.v 6) 0x1678 0x48D1) := by decide +kernel
theorem test_decode_xset : decodeWords [0x44484140] = .ok (.xset hN 1 16 80) := by decide +kernel
theorem test_decode_sread : decodeWords [0x44C00002] = .ok (.sread hN (.v 0) .tid) := by decide +kernel
theorem test_decode_and : decodeWords [0x41A04059] = .ok (.and hN (.v 1) (.v 0) (.c 1) none) := by decide +kernel
theorem test_decode_nop : decodeWords [0x40000018] = .ok (.nop hN 24) := by decide +kernel
theorem test_decode_calli : decodeWords [0x45600200] = .ok (.calli hN (.v 4) none) := by decide +kernel
theorem test_decode_ret : decodeWords [0x55800000] = .ok (.ret hSw) := by decide +kernel
theorem test_decode_exit : decodeWords [0x55A00000] = .ok (.exit hSw) := by decide +kernel
theorem test_decode_trail : decodeWords [0x55C07FFF] = .ok (.trail hSw (.v 1) .none .none) := by decide +kernel
/-- R202's example: FCVT.f32.e4m3 into sub-element 2. -/
theorem test_decode_fcvt : decodeWords [0x70000500, 0x49014198] =
    .ok (.fcvt hN (.v 5) (.v 3) .e4m3 .f32 (some { plainMod .f32 with cond := 2 })) := by decide +kernel
theorem test_decode_match : decodeWords [0x4B618080] = .ok (.matchLanes hN (.v 6) (.v 1)) := by decide +kernel
theorem test_decode_red : decodeWords [0x5B008080] = .ok (.red hSw (.v 2) (.v 1) .add .s32) := by decide +kernel
theorem test_decode_ld : decodeWords [0x4C004002] = .ok (.ld hN (.v 1) 0 (.v 0) .b32 none) := by decide +kernel
theorem test_decode_st : decodeWords [0x4C208402] = .ok (.st hN (.v 2) 1 (.v 0) .b32 none) := by decide +kernel
theorem test_decode_sts : decodeWords [0x4C608182] = .ok (.sts hN (.v 2) (.v 3) .b32 none) := by decide +kernel
theorem test_decode_lds : decodeWords [0x4C42C502] = .ok (.lds hN (.v 11) (.v 10) .b32 none) := by decide +kernel
theorem test_decode_bar : decodeWords [0x5D200000] = .ok (.bar hSw 0 false .sync) := by decide +kernel
theorem test_decode_trinit : decodeWords [0x4D400205] = .ok (.trinit hN (.v 4) (.v 5) none) := by decide +kernel
theorem test_decode_kick : decodeWords [0x4D802C59] = .ok (.kick hN (.c 0) (.c 1)) := by decide +kernel
theorem test_decode_wpwait : decodeWords [0x5DA02C88] = .ok (.wpwait hSw (.c 1) (.v 8) none) := by decide +kernel
theorem test_decode_trwait : decodeWords [0x5D600200] = .ok (.trwait hSw (.v 4)) := by decide +kernel
theorem test_decode_fence : decodeWords [0x4CE00006] = .ok (.fence hN .rel .dev) := by decide +kernel
theorem test_decode_fence_sc : decodeWords [0x4CE0000E] = .ok (.fence hN .sc .dev) := by decide +kernel
theorem test_decode_fence_oob : decodeWords [0x4CE0C040] = .ok (.fenceOob hN (.v 3)) := by decide +kernel
/-- FORK v0, v2: op 0x72, d 0, a 2 (Table 7.9, format F1 without b). -/
theorem test_decode_fork : decodeWords [0x4E400100] = .ok (.fork hN (.v 0) (.v 2)) := by decide +kernel
/-- LAUNCH v4, v2, v3: op 0x76. -/
theorem test_decode_launch : decodeWords [0x4EC10103] = .ok (.launch hN (.v 4) (.v 2) (.v 3)) := by decide +kernel
/-- MTASK v4, v6: op 0x70. -/
theorem test_decode_mtask : decodeWords [0x4E010300] = .ok (.mtask hN (.v 4) (.v 6)) := by decide +kernel
/-- An EXT before a word that takes none, a chained word at the end of its packet, and opcode 0x7F are refused, each by its own cause. -/
theorem test_decode_ext_refused : decodeWords [0x70000000, 0x55A00000] = .error .ext := by decide +kernel
theorem test_decode_chain_refused : decodeAt 2 1 0x60220206 none = .error .chain := by decide +kernel
theorem test_decode_undefined : decodeWords [0x4FE00000] = .error .undefined := by decide +kernel
theorem test_decode_bytes : decodeBytes [0x18, 0, 0, 0x40] = .ok (.nop hN 24) := by decide +kernel
theorem test_table_word : decodeTableWord 64 (0x70004000 + 2 ^ 32 * 0x40220206) =
    some (.add hN (.v 8) (.v 4) (.v 6) (some (ccMod .b32))) := by decide +kernel

/-! ## States of one thread -/

/-- The loader's state with its one thread issuing; `t`, `w` and `e` change the thread, the workgroup and the rest. -/
def one (t : Thread → Thread) (w : Wg → Wg) (e : State → State) : State :=
  e { (State.reset.loaded.modThread 0 0 t).modWg 0 w with group := [(0, 0)] }

/-- A thread with registers. -/
def vs (l : List (Nat × Word)) (t : Thread) : Thread := { t with v := l }

/-- What a word of `len` words sees of that thread. -/
def sees (s : State) (len : Nat) : Ctx :=
  match s.wgs.find? 0 with
  | some w => ⟨s, 0, 0, w, (w.threads.find? 0).getD (Thread.start 0 0 0), len⟩
  | none => ⟨s, 0, 0, loaderWg 0, Thread.start 0 0 0, len⟩

/-- The state's issue group is its one thread, with room for `len` words in its run and no pending terminal cause. -/
def isOne (s : State) (len : Nat) : Bool :=
  s.group == [(0, 0)] && (match s.wgs.find? 0 with
    | some w => (match w.threads.find? 0 with
      | some t => decide (t.runw + len ≤ 24) && t.term == none
      | none => false)
    | none => false)

theorem sees_member {s : State} {len : Nat} (h : isOne s len = true) : Member s len (sees s len) := by
  unfold isOne at h
  cases hw : s.wgs.find? 0 with
  | none => simp [hw] at h
  | some w =>
    cases ht : w.threads.find? 0 with
    | none => simp [hw, ht] at h
    | some t =>
      simp only [hw, ht, Bool.and_eq_true, beq_iff_eq] at h
      constructor <;> simp [sees, hw, ht, h.1]

theorem member_sees {s : State} {len : Nat} (h : isOne s len = true) {c : Ctx} (hc : Member s len c) : c = sees s len := by
  have g : s.group = [(0, 0)] := by
    unfold isOne at h
    simp only [Bool.and_eq_true, beq_iff_eq] at h
    exact h.1
  refine hc.unique (sees_member h) ?_
  have a := hc.mem
  have b := (sees_member h).mem
  simp only [g, List.mem_singleton] at a b
  exact a.trans b.symm

/-- What holds of the one thread holds of every thread of the group. -/
theorem one_all {s : State} {len : Nat} {P : Ctx → Prop} (h : isOne s len = true) (p : P (sees s len)) : ∀ c, Member s len c → P c :=
  fun _ hc => member_sees h hc ▸ p

theorem isOne_facts {s : State} {len : Nat} (h : isOne s len = true) :
    s.group = [(0, 0)] ∧ (sees s len).th.runw + len ≤ 24 ∧ (sees s len).th.term = none := by
  unfold isOne at h
  cases hw : s.wgs.find? 0 with
  | none => simp [hw] at h
  | some w =>
    cases ht : w.threads.find? 0 with
    | none => simp [hw, ht] at h
    | some t =>
      simp only [hw, ht, Bool.and_eq_true, beq_iff_eq, decide_eq_true_eq] at h
      exact ⟨h.1, by simp [sees, hw, ht, h.2]⟩

theorem one_canRun {s : State} {hd : Hdr} {len : Nat} (h : isOne s len = true) : CanRun s hd len := by
  have f := isOne_facts h
  refine ⟨by simp [f.1], fun id hid => ⟨sees s len, sees_member h, ?_⟩, fun c hc => ?_, fun c hc _ => ?_⟩
  · have b := (sees_member h).mem
    simp only [f.1, List.mem_singleton] at hid b
    exact b.trans hid.symm
  · rw [member_sees h hc]; exact f.2.1
  · rw [member_sees h hc]; exact f.2.2

theorem one_alone {s : State} {len : Nat} (h : isOne s len = true) : Alone s len (sees s len) := by
  have f := isOne_facts h
  have b := (sees_member h).mem
  simp only [f.1, List.mem_singleton] at b
  exact ⟨by rw [f.1, b], sees_member h, f.2.1⟩

theorem one_solo {s : State} {hd : Hdr} {len : Nat} (h : isOne s len = true) : Solo s hd len (sees s len) :=
  ⟨one_alone h, fun _ => (isOne_facts h).2.2⟩

/-- The hypotheses of a statement about every thread of the group. -/
theorem group_and {s : State} {hd : Hdr} {len : Nat} {P : Ctx → Prop} (h : isOne s len = true ∧ P (sees s len)) :
    CanRun s hd len ∧ ∀ c, Member s len c → P c := ⟨one_canRun h.1, one_all h.1 h.2⟩

/-- The hypotheses of a statement about the one thread of a group. -/
theorem solo_and {s : State} {hd : Hdr} {len : Nat} {P : Prop} (h : isOne s len = true ∧ P) : Solo s hd len (sees s len) ∧ P :=
  ⟨one_solo h.1, h.2⟩
theorem alone_and {s : State} {len : Nat} {P : Prop} (h : isOne s len = true ∧ P) : Alone s len (sees s len) ∧ P :=
  ⟨one_alone h.1, h.2⟩

/-! ## States of a group of two threads -/

/-- What a word of `len` words sees of thread `i` of workgroup 0. -/
def seesAt (s : State) (len i : Nat) : Ctx :=
  match s.wgs.find? 0 with
  | some w => ⟨s, 0, i, w, (w.threads.find? i).getD (Thread.start 0 0 0), len⟩
  | none => ⟨s, 0, i, loaderWg 0, Thread.start 0 0 0, len⟩

/-- The state's issue group is threads 0 and 1 of workgroup 0, with room for `len` words and no pending terminal cause. -/
def isTwo (s : State) (len : Nat) : Bool :=
  s.group == [(0, 0), (0, 1)] && (match s.wgs.find? 0 with
    | some w => [0, 1].all (fun i => match w.threads.find? i with
      | some t => decide (t.runw + len ≤ 24) && t.term == none
      | none => false)
    | none => false)

theorem isTwo_facts {s : State} {len : Nat} (h : isTwo s len = true) :
    s.group = [(0, 0), (0, 1)] ∧ ∀ i, i = 0 ∨ i = 1 → Member s len (seesAt s len i) ∧ (seesAt s len i).idx = i ∧ (seesAt s len i).wk = 0 ∧
      (seesAt s len i).th.runw + len ≤ 24 ∧ (seesAt s len i).th.term = none := by
  unfold isTwo at h
  cases hw : s.wgs.find? 0 with
  | none => simp [hw] at h
  | some w =>
    simp only [hw, Bool.and_eq_true, beq_iff_eq, List.all_cons, List.all_nil, Bool.and_true] at h
    refine ⟨h.1, fun i hi => ?_⟩
    have g : (match w.threads.find? i with
      | some t => decide (t.runw + len ≤ 24) && t.term == none
      | none => false) = true := by rcases hi with rfl | rfl <;> [exact h.2.1; exact h.2.2]
    cases ht : w.threads.find? i with
    | none => simp [ht] at g
    | some t =>
      simp only [ht, Bool.and_eq_true, decide_eq_true_eq, beq_iff_eq] at g
      refine ⟨?_, by simp [seesAt, hw], by simp [seesAt, hw], by simpa [seesAt, hw, ht] using g.1, by simpa [seesAt, hw, ht] using g.2⟩
      constructor <;> simp [seesAt, hw, ht, h.1, hi]

/-- The hypotheses of a statement about every thread of a group of two. -/
theorem two_and {s : State} {hd : Hdr} {len : Nat} {P : Ctx → Prop} (h : isTwo s len = true ∧ P (seesAt s len 0) ∧ P (seesAt s len 1)) :
    (CanRun s hd len ∧ InLaneOrder s) ∧ ∀ c, Member s len c → P c := by
  obtain ⟨g, f⟩ := isTwo_facts h.1
  have all : ∀ c, Member s len c → c = seesAt s len 0 ∨ c = seesAt s len 1 := fun c hc => by
    have b := hc.mem
    simp only [g, List.mem_cons, List.not_mem_nil, or_false] at b
    rcases b with b | b
    · exact .inl (hc.unique (f 0 (.inl rfl)).1 (by rw [(f 0 (.inl rfl)).2.1, (f 0 (.inl rfl)).2.2.1, b]))
    · exact .inr (hc.unique (f 1 (.inr rfl)).1 (by rw [(f 1 (.inr rfl)).2.1, (f 1 (.inr rfl)).2.2.1, b]))
  refine ⟨⟨⟨by rw [g]; decide, fun id hid => ?_, fun c hc => ?_, fun c hc _ => ?_⟩, by unfold InLaneOrder; rw [g]; decide⟩, fun c hc => ?_⟩
  · simp only [g, List.mem_cons, List.not_mem_nil, or_false] at hid
    rcases hid with rfl | rfl
    · exact ⟨_, (f 0 (.inl rfl)).1, by rw [(f 0 (.inl rfl)).2.1, (f 0 (.inl rfl)).2.2.1]⟩
    · exact ⟨_, (f 1 (.inr rfl)).1, by rw [(f 1 (.inr rfl)).2.1, (f 1 (.inr rfl)).2.2.1]⟩
  · rcases all c hc with rfl | rfl <;> [exact (f 0 (.inl rfl)).2.2.2.1; exact (f 1 (.inr rfl)).2.2.2.1]
  · rcases all c hc with rfl | rfl <;> [exact (f 0 (.inl rfl)).2.2.2.2; exact (f 1 (.inr rfl)).2.2.2.2]
  · rcases all c hc with rfl | rfl <;> [exact h.2.1; exact h.2.2]

/-- The loader's state with its thread and a second one, both issuing. -/
def two (t0 t1 : Thread → Thread) (w : Wg → Wg) (e : State → State) : State :=
  { one t0 (fun x => w { x with threads := x.threads ++ [(1, t1 (Thread.start 0 0 0))] }) e with group := [(0, 0), (0, 1)] }

/-- A hypothesis about whatever an option holds. -/
theorem of_option {α : Type} {o : Option α} {P : α → Prop} [DecidablePred P] (h : o.all (fun x => decide (P x)) = true) :
    ∀ x, o = some x → P x := fun x e => by simpa [e] using h

/-- The thread of the word witnesses. -/
def regs : List (Nat × Word) :=
  [(0, 0x7FFFFFFF), (1, 1), (2, 0x80000000), (3, 0x3F800000), (4, 0x20), (5, 4), (6, 0xFFFFFFFF), (7, 3)]

def s0 : State := one (vs regs) id id

/-! ## The spec's worked examples, one word each -/

/-- What a word leaves of the one thread. -/
def leaves (i : Instr) (s : State) (f : Thread → Bool) : Bool := match exec i s with
  | .next u => (u.thread? 0 0).any f
  | _ => false
def holds (r : Nat) (x : Word) (t : Thread) : Bool := FMap.get 0 t.v r == x
def flagsAre (c z n v : Bool) (t : Thread) : Bool := t.cc.c == c && t.cc.z == z && t.cc.n == n && t.cc.v == v

/-- R160: the low words of a 64-bit sum, then the high words with the carry. -/
theorem test_add : leaves (.add hN (.v 8) (.v 4) (.v 6) (some (ccMod .b32))) (one (vs [(4, 0xFFFFFFF0), (6, 0x20)]) id id)
    (fun t => holds 8 0x10 t && flagsAre true false false false t) = true := by decide +kernel
theorem test_addc : leaves (.addc hN (.v 9) (.v 5) (.v 7) none)
    (one (fun t => { vs [(5, 1), (7, 2)] t with cc := ⟨true, false, false, false, false⟩ }) id id) (holds 9 4) = true := by decide +kernel
/-- R167: CMP.z32 of 5 with 0. -/
theorem test_cmp : leaves (.cmp hN .z32 (.v 1) (.c 0)) (one (vs [(1, 5)]) id id) (flagsAre true false false false) = true := by decide +kernel
/-- R171: a field of 8 bits at bit 20, and one of 4 left of 16 at bit 28. -/
theorem test_bfx_unsigned : leaves (.bfx hN (.v 3) (.v 0) (.v 1) (some (plainMod .z32))) (one (vs [(0, 0xABCD1234), (1, 0x814)]) id id)
    (holds 3 0xBC) = true := by decide +kernel
theorem test_bfx_signed : leaves (.bfx hN (.v 3) (.v 0) (.v 1) (some (plainMod .s32))) (one (vs [(0, 0xABCD1234), (1, 0x814)]) id id)
    (holds 3 0xFFFFFFBC) = true := by decide +kernel
theorem test_bfx_clipped : leaves (.bfx hN (.v 3) (.v 0) (.v 1) (some (plainMod .z32))) (one (vs [(0, 0xABCD1234), (1, 0x101C)]) id id)
    (holds 3 0xA) = true := by decide +kernel
theorem test_bfi : leaves (.bfi hN (.v 3) (.v 0) (.v 1) none) (one (vs [(0, 0xABCD1234), (1, 0x814)]) id id) (holds 3 0x03400000) = true := by
  decide +kernel
/-- R172. -/
theorem test_movi : leaves (.moviImm hN (.v 6) 0x1678 0x48D1) s0 (holds 6 0x12345678) = true := by decide +kernel
/-- R124: HADD2 .cc of (0x7BFF, 0x7E00) and (0x7BFF, 0x3C00). -/
theorem test_hadd2 : leaves (.hadd2 hN (.v 3) (.v 0) (.v 1) (some (ccMod .f16))) (one (vs [(0, 0x7E007BFF), (1, 0x3C007BFF)]) id id)
    (fun t => holds 3 0x7E007C00 t && flagsAre true false false true t) = true := by decide +kernel
/-- R125: DOT4 .sat. -/
theorem test_dot4_sat : leaves (.dot4 hN (.v 8) (.v 2) (.v 3) (some { plainMod .b32 with sat := true }))
    (one (vs [(2, 0x05807F64), (3, 0x00010201), (8, 0x7FFFFF9C)]) id id) (holds 8 0x7FFFFF7F) = true := by decide +kernel
/-- R125: DOT4, wrapping. -/
theorem test_dot4_wrap : leaves (.dot4 hN (.v 8) (.v 2) (.v 3) (some (ccMod .b32)))
    (one (vs [(2, 0x05807F64), (3, 0x00010201), (8, 0x7FFFFF9C)]) id id)
    (fun t => holds 8 (BitVec.ofInt 32 (-2147483522)) t && t.cc.v) = true := by decide +kernel
/-- R202 and Table 6.6: 0.3 into e4m3, sub-element 2. -/
theorem test_fcvt : leaves (.fcvt hN (.v 5) (.v 3) .e4m3 .f32 (some { plainMod .f32 with cond := 2 }))
    (one (vs [(3, 0x3E99999A), (5, 0x11111111)]) id id) (holds 5 0x112A1111) = true := by decide +kernel
/-- Table 6.6: 470 into e4m3 is NaN, and 448 under .sat; -5.3 into e3m2; 7 into e2m1. -/
theorem test_table_6_6 : (roundTo .e4m3 .rne false 0 0 (.ofInt 470)).enc = 0x7F ∧ (roundTo .e4m3 .rne true 0 0 (.ofInt 470)).enc = 0x7E ∧
    (roundTo .e3m2 .rne false 0 0 (.fin true 53 10)).enc = 0x35 ∧ (roundTo .e2m1 .rne false 0 0 (.ofInt 7)).enc = 7 ∧
    (roundTo .e5m2 .rne false 0 0 (.ofInt 1000)).enc = 0x64 ∧ (roundTo .e2m1 .rne false 0 0 (.ofInt 5)).enc = 6 := by decide +kernel
/-- R120: 0x3F8CCCCD into bf16 by random bits 0x3332 and 0x3333. -/
theorem test_stochastic : (roundTo .bf16 .sr false 0x3332 16 (fmtValue .f32 0x3F8CCCCD)).enc = 0x3F8C ∧
    (roundTo .bf16 .sr false 0x3333 16 (fmtValue .f32 0x3F8CCCCD)).enc = 0x3F8D := by decide +kernel
/-- R37: element 4 of a window of base 70 and length 10; element 10 traps. -/
theorem test_xld : leaves (.xld hN (.v 1) 2 (.v 9)) (one (fun t => { vs [(9, 4), (74, 0x11)] t with x := [(2, 70 + 10 * 2 ^ 8)] })
    (fun w => { w with quota := [96], ceil := 96, pool := 96 }) id) (holds 1 0x11) = true := by decide +kernel
theorem test_xld_trap : leaves (.xld hN (.v 1) 2 (.v 9)) (one (fun t => { vs [(9, 10), (74, 0x11)] t with x := [(2, 70 + 10 * 2 ^ 8)] })
    (fun w => { w with quota := [96], ceil := 96, pool := 96 }) id) (fun t => decide (t.st = .trapped)) = true := by decide +kernel
/-- A step fetches the word at the PC and runs it: EXIT ends the workgroup's one thread. -/
theorem test_step : (match step (State.reset.withFetchWord 32 0x55A00000) with
    | .next u => (u.thread? 0 0).all (fun t => decide (t.st = .exited))
    | _ => false) = true := by decide +kernel


/-- R40: after a KSET by thread 0 alone, thread 1 may still read the old value and thread 0 may not. -/
theorem test_kset_leaves_the_old_value_to_others :
    (({ loaderWg 0 with threads := [(0, Thread.start 0 0 0), (1, Thread.start 0 0 0)] } : Wg).setK [0] 0 3 7 9).kold
      = [⟨1, 3, 7, 0, [], []⟩] := by decide

/-- R40: the old value is gone once writer and reader have crossed a common barrier. -/
theorem test_kset_old_value_ends_at_a_barrier :
    (((((({ loaderWg 0 with threads := [(0, Thread.start 0 0 0), (1, Thread.start 0 0 0)] } : Wg).setK [0] 0 3 7 9).armK 0 2)).kold.map
      (KOld.complete 2)).map (fun e => (e.reader, e.done)) = [(1, [2])]) := by decide

/-! ## Witnesses: integer and control words -/

theorem witness_IntegerAddSub : (tyOf none .b32 ∈ [Ty.b32, Ty.s32, Ty.z32, Ty.b64] ∧ (satOf none = true → tyOf none .b32 ∈ [Ty.s32, Ty.z32])) ∧
    CanRun s0 hN (lenOf (none : Option Mod)) ∧ ∀ c, Member s0 (lenOf (none : Option Mod)) c →
      c.destOk (tyOf none .b32 == .b64) (.v 63) = true ∧
      c.read2 (.int (tyBits (tyOf none .b32))) (tyOf none .b32 == .b64) (.v 0) (.v 1) = .ok (0x7FFFFFFF, 1, none) :=
  ⟨by decide, group_and (by decide +kernel)⟩

/-- A pair with .cc, and a pattern read of a lane that is not there. -/
theorem witness_IntegerAddSub_pair : (tyOf (some (ccMod .b64)) .b32 ∈ [Ty.b32, Ty.s32, Ty.z32, Ty.b64]) ∧
    CanRun s0 hN (lenOf (some (ccMod .b64))) ∧ ∀ c, Member s0 (lenOf (some (ccMod .b64))) c →
      c.destOk (tyOf (some (ccMod .b64)) .b32 == .b64) (.v 62) = true ∧
      c.read2 (.int (tyBits (tyOf (some (ccMod .b64)) .b32))) (tyOf (some (ccMod .b64)) .b32 == .b64) (.v 0) (.pat ⟨2, 0⟩) =
        .ok (0x17FFFFFFF, 0, some true) :=
  ⟨by decide, group_and (by decide +kernel)⟩

theorem witness_IntegerMultiply : (tyOf none .b32 ∈ [Ty.b32, Ty.s32, Ty.z32] ∧ (satOf none = true → tyOf none .b32 ∈ [Ty.s32, Ty.z32])) ∧
    CanRun s0 hN 1 ∧ ∀ c, Member s0 1 c → c.destOk false (.v 8) = true ∧
      c.read2 (.int 32) false (.v 0) (.v 2) = .ok (0x7FFFFFFF, 0x80000000, none) ∧ c.src (.int 32) (.v 8) = .ok 0 :=
  ⟨by decide, group_and (by decide +kernel)⟩

theorem witness_Shifts : (tyOf none .b32 ∈ [Ty.b32, Ty.b64] ∧ satOf none = false) ∧
    CanRun s0 hN 1 ∧ ∀ c, Member s0 1 c → c.destOk false (.v 8) = true ∧ c.srcW (.int 32) false (.v 0) = .ok 0x7FFFFFFF ∧
      c.src (.int 32) (.v 4) = .ok 0x20 ∧ (none : Option Bool) = none :=
  ⟨by decide, group_and (by decide +kernel)⟩

theorem witness_LogicMinMax : tyOf none .b32 ∈ [Ty.b32] ∧
    CanRun s0 hN 1 ∧ ∀ c, Member s0 1 c → c.destOk false (.v 8) = true ∧
      c.read2 (.int 32) false (.v 0) (.v 2) = .ok (0x7FFFFFFF, 0x80000000, none) :=
  ⟨by decide, group_and (by decide +kernel)⟩

/-- ABS and NEG of the least number, CLZ, POPC and BREV of it. -/
theorem witness_BitWords_one : (tyOf none .s32 ∈ [Ty.s32] ∧ tyOf none .b32 ∈ [Ty.b32, Ty.b64]) ∧
    CanRun s0 hN 1 ∧ ∀ c, Member s0 1 c → c.destOk false (.v 8) = true ∧
      c.read1 (.int 32) false (.v 2) none = .ok ⟨0x80000000, none⟩ :=
  ⟨by decide, group_and (by decide +kernel)⟩

/-- BFX and BFI of a field of 8 bits at bit 4. -/
theorem witness_BitWords_field : (tyOf none .z32 ∈ [Ty.z32, Ty.s32] ∧ tyOf none .b32 ∈ [Ty.b32]) ∧
    CanRun (one (vs [(0, 0x12345678), (1, 0x804)]) id id) hN 1 ∧ ∀ c, Member (one (vs [(0, 0x12345678), (1, 0x804)]) id id) 1 c →
      c.destOk false (.v 8) = true ∧ c.read2 (.int 32) false (.v 0) (.v 1) = .ok (0x12345678, 0x804, none) ∧
      c.src (.int 32) (.v 8) = .ok 0 :=
  ⟨by decide, group_and (by decide +kernel)⟩

theorem witness_CompareTestSelect_flags : Ty.z32 ∈ [Ty.b32, Ty.s32, Ty.z32, Ty.b64] ∧ CanRun s0 hN 1 ∧ ∀ c, Member s0 1 c →
    c.read2 (.int 32) false (.v 0) (.v 0) = .ok (0x7FFFFFFF, 0x7FFFFFFF, none) :=
  ⟨by decide, group_and (by decide +kernel)⟩

theorem witness_CompareTestSelect_sel : ((plainMod .b32).ty ∈ [Ty.b32, Ty.b64] ∧ (plainMod .b32).sat = false) ∧
    CanRun s0 hN 2 ∧ ∀ c, Member s0 2 c → c.destOk false (.v 8) = true ∧
      c.read2 (.int 32) false (.v 0) (.v 1) = .ok (0x7FFFFFFF, 1, none) :=
  ⟨by decide, group_and (by decide +kernel)⟩

theorem witness_Moves_mov : tyOf (some (plainMod .b64)) .b32 ∈ [Ty.b32, Ty.s32, Ty.z32, Ty.b64] ∧
    CanRun s0 hN 2 ∧ ∀ c, Member s0 2 c → c.destOk true (.v 8) = true ∧
      c.read1 (.int 64) true (.v 0) none = .ok ⟨0x17FFFFFFF, none⟩ :=
  ⟨by decide, group_and (by decide +kernel)⟩

theorem witness_Moves_set : CanRun s0 hN 1 ∧ ∀ c, Member s0 1 c → c.destOk false (.v 63) = true ∧ (31 : Fin 32).val < c.wg.budget c.idx :=
  group_and (by decide +kernel)

/-- A thread with index register 1 of base 240 and length 16, and 15 in v1. -/
def s0x : State := one (fun t => { vs [(1, 15)] t with x := [(1, 16 * 256 + 240), (2, 16 * 256 + 16)] }) id id

theorem witness_IndexStatusUniform_xset : CanRun s0x hN 1 ∧ (255 : BitVec 8).toNat + (1 : BitVec 9).toNat ≤ 256 :=
  ⟨one_canRun (by decide +kernel), by decide⟩
theorem witness_IndexStatusUniform_xld : CanRun s0x hN 1 ∧ ∀ c, Member s0x 1 c → c.destOk false (.v 8) = true ∧
    c.src (.int 32) (.v 1) = .ok 15 ∧ 15 < xLen (FMap.get 0 c.view.x (2 : Fin 4).val) ∧
    xBase (FMap.get 0 c.view.x (2 : Fin 4).val) + 15 < c.wg.budget c.idx :=
  group_and (by decide +kernel)
theorem witness_IndexStatusUniform_xst : CanRun s0x hN 1 ∧ ∀ c, Member s0x 1 c →
    ((∃ n, Opnd.v 1 = .v n) ∨ ∃ n, Opnd.v 1 = .t n) ∧ c.src (.int 32) (.v 1) = .ok 15 ∧ c.src (.int 32) (.v 1) = .ok 15 ∧
    15 < xLen (FMap.get 0 c.view.x (2 : Fin 4).val) ∧ xBase (FMap.get 0 c.view.x (2 : Fin 4).val) + 15 < c.wg.budget c.idx :=
  group_and ⟨by decide +kernel, .inl ⟨1, rfl⟩, by decide +kernel⟩
theorem witness_IndexStatusUniform_kset : Solo s0 hN 1 (sees s0 1) ∧
    (sees s0 1).read1 (.int 32) false (.v 0) none = .ok ⟨0x7FFFFFFF, none⟩ := solo_and (by decide +kernel)

/-- Both lanes of a group write k3. -/
def sTwo : State := two (vs [(0, 5)]) (vs [(0, 6)]) id id
theorem witness_IndexStatusUniform_kset_group : (CanRun sTwo hN 1 ∧ InLaneOrder sTwo) ∧ ∀ c, Member sTwo 1 c →
    c.read1 (.int 32) false (.v 0) none = .ok ⟨if c.idx = 0 then 5 else 6, none⟩ := two_and (by decide +kernel)

theorem witness_Branches : CanRun s0 hN 1 := one_canRun (by decide +kernel)

/-- An entry NOP of 16 registers at 0x100, and v0 names it. -/
def sCall : State := one (fun t => { vs [(0, 0x100)] t with calls := [⟨0, 0x40⟩] }) id (fun s => s.wrList 0x20100 (bytesOfWord 0x40000010))

theorem sCall_nop : EntryNop 0x40000010 16 := ⟨hN, 16, by decide, by decide, by decide, by decide⟩
theorem witness_Calls_call : CanRun sCall hN 1 ∧ ∀ c, Member sCall 1 c → Callable c sCall (branchTarget c 21 64) :=
  group_and ⟨by decide +kernel, ⟨0x40000010, 16, by decide +kernel, sCall_nop, by decide +kernel⟩, by decide +kernel⟩
theorem witness_Calls_calli : CanRun sCall hN 1 ∧ ∀ c, Member sCall 1 c →
    c.read1 (.int 32) false (.v 0) none = .ok ⟨0x100, none⟩ ∧ 0x100 % 4 = 0 ∧ Callable c sCall 0x100 :=
  group_and ⟨by decide +kernel, by decide +kernel, by decide, ⟨0x40000010, 16, by decide +kernel, sCall_nop, by decide +kernel⟩, by decide +kernel⟩
theorem witness_Calls_ret : CanRun sCall hN 1 ∧ ∀ c, Member sCall 1 c → c.th.calls = [⟨0, 0x40⟩] := group_and (by decide +kernel)

/-- The thread awaits one outstanding write. -/
def sPend : State := one (fun t => { vs regs t with pend := [pendOf 1 false [10] [5]] }) id id

theorem witness_ExitTrail_waits : Alone sPend 1 (sees sPend 1) ∧ (sees sPend 1).th.pend ≠ [] ∧ (sees sPend 1).th.term = none :=
  alone_and (by decide +kernel)
theorem witness_ExitTrail_exits : Alone s0 1 (sees s0 1) ∧ Quiet (sees s0 1) :=
  ⟨one_alone (by decide +kernel), by unfold Quiet; decide +kernel⟩
theorem witness_ExitTrail_trail : (CanRun s0 hSw 1 ∧ ∀ c, Member s0 1 c → ∀ n, TrailName.v n ∈ [TrailName.v 63, .cc, .none] →
    n.val < c.wg.budget c.idx) ∧ ∀ n, TrailName.bad n ∉ [TrailName.v 63, .cc, .none] := by
  refine ⟨group_and ⟨by decide +kernel, fun n hn => ?_⟩, by simp⟩
  simp only [List.mem_cons, TrailName.v.injEq, reduceCtorEq, List.not_mem_nil, or_false] at hn
  subst hn
  decide +kernel

/-- A launch of one variant with bound 0 and phase 1 at word 16, its size word at 0x100. -/
def phaseLaunch (l : Launch) : Launch := { l with rcd := 8 * 2 ^ 192 + 0x100 * 2 ^ 448, vtab := [16 * 2 ^ 64] }
def sPhase : State := one id id (fun s => s.modLaunch 0 0 phaseLaunch)
def sPhase2 : State := one id (fun w => { w with threads := w.threads ++ [(1, Thread.start 0 0 0)] }) (fun s => s.modLaunch 0 0 phaseLaunch)

theorem witness_Collectives_waits : Alone sPhase2 1 (sees sPhase2 1) ∧ Quiet (sees sPhase2 1) ∧ (1 : BitVec 4) ≠ 0 ∧
    (sPhase2.launch? (sees sPhase2 1).wg.part (sees sPhase2 1).wg.ltab = some (phaseLaunch loaderLaunch) ∧
      (phaseLaunch loaderLaunch).vtab ≠ [] ∧ 1 ≠ (sees sPhase2 1).idx ∧
      (sees sPhase2 1).wg.threads.find? 1 = some (Thread.start 0 0 0) ∧ (Thread.start 0 0 0).st ≠ .exited ∧ (Thread.start 0 0 0).st ≠ .phase) :=
  ⟨one_alone (by decide +kernel), by unfold Quiet; decide +kernel, by decide, by decide +kernel⟩
/-- The others of the workgroup: one stands at PHASE with a value already, one has exited. -/
def sPhase3 (n : Nat) : State := one id (fun w => { w with
  threads := w.threads ++ [(1, { Thread.start 0 0 0 with st := .phase, parg := n }), (2, { Thread.start 0 0 0 with st := .exited })] })
  (fun s => s.modLaunch 0 0 phaseLaunch)
theorem witness_Collectives_phase : Alone (sPhase3 1) 1 (sees (sPhase3 1) 1) ∧ Quiet (sees (sPhase3 1) 1) ∧ (1 : BitVec 4) ≠ 0 ∧
    OthersParked (sees (sPhase3 1) 1) .phase (fun _ => True) ∧
    ((sPhase3 1).launch? (sees (sPhase3 1) 1).wg.part (sees (sPhase3 1) 1).wg.ltab = some (phaseLaunch loaderLaunch) ∧
      (∀ p ∈ (sees (sPhase3 1) 1).wg.threads, p.1 ≠ (sees (sPhase3 1) 1).idx → p.2.st = .phase → p.2.parg = (1 : BitVec 4).toNat) ∧
      (sees (sPhase3 1) 1).wg.staging = [] ∧ (sees (sPhase3 1) 1).wg.tag < 64 ∧ 0x20100 + 4 ≤ 2 ^ 52 ∧
      (sPhase3 1).xlateAt (sees (sPhase3 1) 1).wg (bits (phaseLaunch loaderLaunch).rcd 504 448) 4 true false = .ok 0x20100 false ∧
      (sPhase3 1).poisonedFor (some (sees (sPhase3 1) 1).wg.unit) (sees (sPhase3 1) 1).wg.tag 0x20100 4 = false ∧
      pickVariant (phaseLaunch loaderLaunch).vtab (leNat (fun j => (sPhase3 1).readHome 0 (0x20100 + j)) 4) = some 0 ∧
      bits ((phaseLaunch loaderLaunch).vtab.getD 0 0) (64 + 16 * 0 + 15) (64 + 16 * 0) ≠ 0xFFFF) ∧
    NoLines (sPhase3 1) (sees (sPhase3 1) 1).wg.unit :=
  ⟨one_alone (by decide +kernel), by unfold Quiet; decide +kernel, by decide, by unfold OthersParked; beta_reduce; decide +kernel,
   by decide +kernel, by unfold NoLines; decide +kernel⟩
theorem witness_Collectives_mixed : Alone (sPhase3 2) 1 (sees (sPhase3 2) 1) ∧ Quiet (sees (sPhase3 2) 1) ∧
    OthersParked (sees (sPhase3 2) 1) .phase (fun _ => True) ∧
    (∃ p ∈ (sees (sPhase3 2) 1).wg.threads, p.1 ≠ (sees (sPhase3 2) 1).idx ∧ p.2.st = .phase ∧ p.2.parg ≠ (1 : BitVec 4).toNat) :=
  ⟨one_alone (by decide +kernel), by unfold Quiet; decide +kernel, by unfold OthersParked; beta_reduce; decide +kernel, by decide +kernel⟩
/-- PHASE and REQUOTA await a write first. -/
def sPendPhase : State := one (fun t => { t with pend := [pendOf 1 false [10] [5]] }) id (fun s => s.modLaunch 0 0 phaseLaunch)
theorem witness_Collectives_ends : Alone sPendPhase 1 (sees sPendPhase 1) ∧ (sees sPendPhase 1).th.pend ≠ [] ∧ (sees sPendPhase 1).th.term = none ∧
    sPendPhase.launch? (sees sPendPhase 1).wg.part (sees sPendPhase 1).wg.ltab = some (phaseLaunch loaderLaunch) ∧
    (phaseLaunch loaderLaunch).vtab ≠ [] ∧ (64 : BitVec 9).toNat % 8 = 0 ∧ 16 ≤ (64 : BitVec 9).toNat ∧ (64 : BitVec 9).toNat ≤ (sees sPendPhase 1).wg.ceil :=
  alone_and (by decide +kernel)

/-- A quota of 16 that may rise to 64 with the pool's last register. -/
def sQuota : State := one (vs regs) (fun w => { w with quota := [16] }) id

/-- The others of the stage: one asks for `q` already, one has exited. -/
def sQuota3 (q pool : Nat) : State := one (vs regs) (fun w => { w with quota := [16], pool := pool, threads := w.threads ++
  [(1, { Thread.start 0 0 0 with st := .requota, parg := q }), (2, { Thread.start 0 0 0 with st := .exited })] }) id
theorem witness_Collectives_requota : Alone (sQuota3 64 64) 1 (sees (sQuota3 64 64) 1) ∧ Quiet (sees (sQuota3 64 64) 1) ∧
    OthersParked (sees (sQuota3 64 64) 1) .requota (fun j => (sees (sQuota3 64 64) 1).wg.stageOf j =
      (sees (sQuota3 64 64) 1).wg.stageOf (sees (sQuota3 64 64) 1).idx) ∧
    ((64 : BitVec 9).toNat % 8 = 0 ∧ 16 ≤ (64 : BitVec 9).toNat ∧ (64 : BitVec 9).toNat ≤ (sees (sQuota3 64 64) 1).wg.ceil ∧
      (∀ p ∈ (sees (sQuota3 64 64) 1).wg.threads, p.1 ≠ (sees (sQuota3 64 64) 1).idx → p.2.st = .requota → p.2.parg = (64 : BitVec 9).toNat) ∧
      (sees (sQuota3 64 64) 1).wg.budget (sees (sQuota3 64 64) 1).idx < (64 : BitVec 9).toNat ∧
      (sees (sQuota3 64 64) 1).wg.used + ((64 : BitVec 9).toNat - (sees (sQuota3 64 64) 1).wg.budget 0) *
        (sees (sQuota3 64 64) 1).wg.teamsIn ((sees (sQuota3 64 64) 1).wg.stageOf 0) ≤ (sees (sQuota3 64 64) 1).wg.pool) :=
  ⟨one_alone (by decide +kernel), by unfold Quiet; decide +kernel, by unfold OthersParked; beta_reduce; decide +kernel, by decide +kernel⟩

/-- Another thread of the stage that is elsewhere; one that asks for another quota; a pool without room. -/
def sQuota2 (st : Stand) (q : Nat) : State := one (vs regs) (fun w =>
  { w with quota := [16], threads := w.threads ++ [(1, { Thread.start 0 0 0 with st := st, parg := q })] }) id
theorem witness_Collectives_requota_waits : Alone (sQuota2 .ready 0) 1 (sees (sQuota2 .ready 0) 1) ∧ Quiet (sees (sQuota2 .ready 0) 1) ∧
    (1 ≠ (sees (sQuota2 .ready 0) 1).idx ∧ (sees (sQuota2 .ready 0) 1).wg.threads.find? 1 = some { Thread.start 0 0 0 with st := .ready, parg := 0 } ∧
      (sees (sQuota2 .ready 0) 1).wg.stageOf 1 = (sees (sQuota2 .ready 0) 1).wg.stageOf (sees (sQuota2 .ready 0) 1).idx) :=
  ⟨one_alone (by decide +kernel), by unfold Quiet; decide +kernel, by decide +kernel⟩
theorem witness_Collectives_requota_mixed : Alone (sQuota3 32 64) 1 (sees (sQuota3 32 64) 1) ∧ Quiet (sees (sQuota3 32 64) 1) ∧
    OthersParked (sees (sQuota3 32 64) 1) .requota (fun j => (sees (sQuota3 32 64) 1).wg.stageOf j =
      (sees (sQuota3 32 64) 1).wg.stageOf (sees (sQuota3 32 64) 1).idx) ∧
    (∃ p ∈ (sees (sQuota3 32 64) 1).wg.threads, p.1 ≠ (sees (sQuota3 32 64) 1).idx ∧
      (sees (sQuota3 32 64) 1).wg.stageOf p.1 = (sees (sQuota3 32 64) 1).wg.stageOf (sees (sQuota3 32 64) 1).idx ∧ p.2.st = .requota ∧
      p.2.parg ≠ (64 : BitVec 9).toNat) :=
  ⟨one_alone (by decide +kernel), by unfold Quiet; decide +kernel, by unfold OthersParked; beta_reduce; decide +kernel, by decide +kernel⟩
theorem witness_Collectives_requota_pool : Alone (sQuota3 64 63) 1 (sees (sQuota3 64 63) 1) ∧ Quiet (sees (sQuota3 64 63) 1) ∧
    OthersParked (sees (sQuota3 64 63) 1) .requota (fun j => (sees (sQuota3 64 63) 1).wg.stageOf j =
      (sees (sQuota3 64 63) 1).wg.stageOf (sees (sQuota3 64 63) 1).idx) ∧
    ((∀ p ∈ (sees (sQuota3 64 63) 1).wg.threads, p.1 ≠ (sees (sQuota3 64 63) 1).idx → p.2.st = .requota → p.2.parg = (64 : BitVec 9).toNat) ∧
      (sees (sQuota3 64 63) 1).wg.budget (sees (sQuota3 64 63) 1).idx < (64 : BitVec 9).toNat ∧
      (sees (sQuota3 64 63) 1).wg.pool < (sees (sQuota3 64 63) 1).wg.used + ((64 : BitVec 9).toNat - (sees (sQuota3 64 63) 1).wg.budget 0) *
        (sees (sQuota3 64 63) 1).wg.teamsIn ((sees (sQuota3 64 63) 1).wg.stageOf 0)) :=
  ⟨one_alone (by decide +kernel), by unfold Quiet; decide +kernel, by unfold OthersParked; beta_reduce; decide +kernel, by decide +kernel⟩

def sDebug : State := one (vs regs) id (fun s => s.modPart 0 (fun p => { p with cfg := 2 ^ 37 + 2 ^ 34 + 1 }))

theorem witness_TrapWords_trap : Alone s0 1 (sees s0 1) := one_alone (by decide +kernel)
theorem witness_TrapWords_debug : Alone sDebug 1 (sees sDebug 1) ∧ (sDebug.part (sees sDebug 1).wg.part).cfg.testBit 37 = true :=
  alone_and (by decide +kernel)
theorem witness_TrapWords_plain : CanRun s0 hN 1 ∧ ∀ c, Member s0 1 c → (s0.part c.wg.part).cfg.testBit 37 = false :=
  group_and (by decide +kernel)

theorem witness_OperandAndRunTraps_kind : Alone s0 (lenOf (none : Option Mod)) (sees s0 (lenOf (none : Option Mod))) ∧
    ((∀ n, Opnd.k 0 ≠ .v n) ∧ (∀ n, Opnd.k 0 ≠ .t n)) := ⟨one_alone (by decide +kernel), by simp⟩
/-- The first register at the budget. -/
theorem witness_OperandAndRunTraps_budget : Alone sQuota 1 (sees sQuota 1) ∧
    ∃ n, Opnd.v 16 = .v n ∧ (sees sQuota 1).wg.budget (sees sQuota 1).idx ≤ n.val :=
  ⟨one_alone (by decide +kernel), 16, rfl, by decide +kernel⟩
/-- The run's twenty-fifth word. -/
theorem witness_OperandAndRunTraps_run : let s := one (fun t => { t with runw := 24 }) id id
    s.group = [((sees s 1).wk, (sees s 1).idx)] ∧ Member s 1 (sees s 1) ∧ 24 < (sees s 1).th.runw + lenOf (none : Option Mod) :=
  ⟨by decide +kernel, ⟨rfl, rfl, by decide +kernel, by decide +kernel, by decide +kernel⟩, by decide +kernel⟩

/-! ## Witnesses: memory and synchronisation words -/

/-- A buffer of 16 words at 0x1000 in slot 1, and one in slot 2 that discards what lies out of bounds; 4 KiB of scratchpad. v0 holds
15, v1 16, v2 the offset of the scratchpad's last word, v3 64. -/
def record : Nat := 0x1000 + 16 * 2 ^ 64 + 1 * 2 ^ 96 + 64 * 2 ^ 128 + 2 * 2 ^ 160 + 3 * 2 ^ 165
def sm : State := one (vs [(0, 15), (1, 16), (2, 4092), (3, 64), (4, 0xABCD)]) (fun w => { w with spadKiB := 4, nbar := 2, spad := [(4092, 0x5A)] })
  (fun s => s.modLaunch 0 0 (fun l => { l with q := [(1, record), (3, record + 2 ^ 168)] }))

def addAtm (o : Ord) : Atm := ⟨.add, .b32, o, .wg, 0⟩

theorem laneMay_of {c : Ctx} {l : Lane} {rs : List Nat} (h : (match l with
    | .at _ => !c.th.memFull && c.th.term == none && c.wg.stagedOps.all (fun x => x.kind == 1)
    | .skip => rs == [] || !c.th.memFull
    | .trap _ => false) = true) : LaneMay c l rs := by
  cases l <;> simp_all [LaneMay]

/-- Two lanes at one place of the scratchpad, and at element 15 and one past the buffer. -/
def sm2 : State := two (vs [(0, 15), (2, 4092), (4, 0xABCD)]) (vs [(0, 16), (2, 4092), (4, 0x1234)]) (fun w => { w with spadKiB := 4 })
  (fun s => s.modLaunch 0 0 (fun l => { l with q := [(1, record)] }))
def lane4 (c : Ctx) : Nat := if c.idx = 0 then 0xABCD else 0x1234
theorem witness_ScratchpadWords_group : (CanRun sm2 hN 1 ∧ InLaneOrder sm2) ∧ ∀ c, Member sm2 1 c →
    ordOf none = 0 ∧ c.longDest (.v 8) (mtRegs .b32) (mtRegs .b32) = .ok [8] ∧ c.src (.int 32) (.v 2) = .ok 4092 ∧
    storeData c .b32 (.v 4) = .ok (lane4 c) ∧ sm2.scratch c.wk c.wg (4092 + eoffOf none * mtWidth .b32) (mtWidth .b32) = some (0, 4092) ∧
    LaneMay c (.at 4092) [8] ∧ LaneMay c (.at 4092) [] :=
  two_and ⟨by decide +kernel,
    ⟨by decide +kernel, by decide +kernel, by decide +kernel, by decide +kernel, by decide +kernel, laneMay_of (by decide +kernel), laneMay_of (by decide +kernel)⟩,
    by decide +kernel, by decide +kernel, by decide +kernel, by decide +kernel, by decide +kernel, laneMay_of (by decide +kernel), laneMay_of (by decide +kernel)⟩
theorem witness_ScratchpadWords_atoms_group : (CanRun sm2 hN 2 ∧ InLaneOrder sm2) ∧ ∀ c, Member sm2 2 c →
    (addAtm .relaxed).ord = .relaxed ∧ c.atomForm (.v 4) (addAtm .relaxed) = .ok ⟨4, [4], lane4 c, 0⟩ ∧ c.src (.int 32) (.v 2) = .ok 4092 ∧
    sm2.scratch c.wk c.wg (4092 + (addAtm .relaxed).eoff.toNat * 4) 4 = some (0, 4092) ∧ LaneMay c (.at 4092) [4] :=
  two_and ⟨by decide +kernel,
    ⟨by decide +kernel, by decide +kernel, by decide +kernel, by decide +kernel, laneMay_of (by decide +kernel)⟩,
    by decide +kernel, by decide +kernel, by decide +kernel, by decide +kernel, laneMay_of (by decide +kernel)⟩

/-- The last element of the buffer, and one past it. -/
def laneVa (c : Ctx) : Lane := if c.idx = 0 then .at 0x103C else .skip
theorem witness_GlobalLoads_issue : (CanRun sm2 hN 1 ∧ InLaneOrder sm2) ∧ ∀ c, Member sm2 1 c →
    ordOf none ≠ 2 ∧ c.longDest (.v 8) (mtRegs .b32) (mtRegs .b32) = .ok [8] ∧ c.src (.int 32) (.v 0) = .ok (if c.idx = 0 then 15 else 16) ∧
    checkLane (sm2.slot c.wg (1 : Fin 16).val) ((if c.idx = 0 then 15 else 16) + eoffOf none) (mtWidth .b32) true false = laneVa c ∧
    LaneMay c (laneVa c) [8] :=
  two_and ⟨by decide +kernel, ⟨by decide +kernel, by decide +kernel, by decide +kernel, by decide +kernel, laneMay_of (by decide +kernel)⟩,
    by decide +kernel, by decide +kernel, by decide +kernel, by decide +kernel, laneMay_of (by decide +kernel)⟩

/-- Workgroup 0's one thread with a piece in its queue; `rs` are the registers it loads. -/
def aPiece (kind ord scope va : Nat) (rs : List Nat) : MemOp := ⟨0, 0, 1, kind, 0, 2, 0, 0, va, 4, 0xABCD, 0, ord, scope, rs, 0, 0, 0, false⟩
def aWrite (rs : List Nat) : Pend := ⟨1, true, rs, rs, false, false, false, none, none⟩
def sQ (l : List MemOp) (rs : List Nat) (e : State → State) : State := one (fun t =>
  { t with pend := if rs = [] then [] else [aWrite rs], chk := [⟨1, 0, 0, 1, decide (rs = []), 0, [], l.length, 0, 0⟩], queue := l }) id e
def wgQ (s : State) : Wg := (s.wgs.find? 0).getD (loaderWg 0)
def thQ (s : State) : Thread := (s.thread? 0 0).getD (Thread.start 0 0 0)
/-- The piece is the one of the queue, and may be performed. -/
def isReady (s : State) (m : MemOp) : Bool :=
  s.wgs.find? m.wk == some (wgQ s) && (wgQ s).threads.find? m.idx == some (thQ s) && (s.readyOps m.wk m.idx == [m])
theorem ready_of {s : State} {m : MemOp} (h : isReady s m = true) : Ready s m (wgQ s) (thQ s) := by
  simp only [isReady, Bool.and_eq_true, beq_iff_eq] at h
  exact ⟨h.1.1, h.1.2, by simp [h.2], fun x hx _ => by simpa [h.2] using hx⟩

def ldQ (ord scope : Nat) : MemOp := aPiece 0 ord scope 0x103C [8]
def sLd (ord scope : Nat) : State := sQ [ldQ ord scope] [8] id
theorem witness_GlobalLoads_relaxed : Ready (sLd 0 0) (ldQ 0 0) (wgQ (sLd 0 0)) (thQ (sLd 0 0)) ∧
    Awaits (thQ (sLd 0 0)) (ldQ 0 0) [] [] (aWrite [8]) ∧ (ldQ 0 0).typ = MemTy.b32.code ∧ (ldQ 0 0).width = mtWidth .b32 ∧
    (sLd 0 0).xlateAt (wgQ (sLd 0 0)) (ldQ 0 0).va (ldQ 0 0).width true false = .ok 0x2103C false ∧
    (sLd 0 0).poisonedFor (some (wgQ (sLd 0 0)).unit) (wgQ (sLd 0 0)).tag 0x2103C (ldQ 0 0).width = false ∧
    (wgQ (sLd 0 0)).staging = [] ∧ (sLd 0 0).snoops = [] ∧ (sLd 0 0).linkHeld 0x2103C = false :=
  ⟨ready_of (by decide +kernel), by unfold Awaits; decide +kernel, by decide +kernel⟩
/-- An acquire at plot scope, which the L1 serves. -/
theorem witness_GlobalLoads_plot : Ready (sLd 1 1) (ldQ 1 1) (wgQ (sLd 1 1)) (thQ (sLd 1 1)) ∧
    Awaits (thQ (sLd 1 1)) (ldQ 1 1) [] [] (aWrite [8]) ∧ (ldQ 1 1).ord = 1 ∧ (ldQ 1 1).scope < 2 ∧
    (sLd 1 1).xlateAt (wgQ (sLd 1 1)) (ldQ 1 1).va (ldQ 1 1).width true false = .ok 0x2103C false ∧
    (sLd 1 1).poisonedFor (some (wgQ (sLd 1 1)).unit) (wgQ (sLd 1 1)).tag 0x2103C (ldQ 1 1).width = false ∧
    (wgQ (sLd 1 1)).staging = [] ∧ (sLd 1 1).snoops = [] ∧ (sLd 1 1).linkHeld 0x2103C = false :=
  ⟨ready_of (by decide +kernel), by unfold Awaits; decide +kernel, by decide +kernel⟩
theorem witness_GlobalLoads_ordered : Ready (sLd 3 2) (ldQ 3 2) (wgQ (sLd 3 2)) (thQ (sLd 3 2)) ∧
    Awaits (thQ (sLd 3 2)) (ldQ 3 2) [] [] (aWrite [8]) ∧ (ldQ 3 2).ord = 3 ∧ 2 ≤ (ldQ 3 2).scope ∧
    ((sLd 3 2).xlateAt (wgQ (sLd 3 2)) (ldQ 3 2).va (ldQ 3 2).width true false = .ok 0x2103C false ∧
    (sLd 3 2).poisonedFor (some (wgQ (sLd 3 2)).unit) (wgQ (sLd 3 2)).tag 0x2103C (ldQ 3 2).width = false ∧
    (wgQ (sLd 3 2)).staging = [] ∧ (sLd 3 2).snoops = [] ∧ (sLd 3 2).linkHeld 0x2103C = false ∧ (ldQ 3 2).tag < 64 ∧ 0x2103C + (ldQ 3 2).width ≤ 2 ^ 52) ∧
    NoLines (sLd 3 2) (wgQ (sLd 3 2)).unit :=
  ⟨ready_of (by decide +kernel), by unfold Awaits; decide +kernel, by decide, by decide, by decide +kernel, by unfold NoLines; decide +kernel⟩
/-- A page with no entry. -/
def ldFar : MemOp := aPiece 0 0 0 0x100000 [8]
/-- A piece of the scratchpad's last word. -/
def spadPiece (kind : Nat) (rs : List Nat) : MemOp := { aPiece kind 0 0 4092 rs with spad := 1 }
def sSpad (kind : Nat) (rs : List Nat) : State := { sQ [spadPiece kind rs] rs id with
  wgs := (sQ [spadPiece kind rs] rs id).wgs.map (fun p => (p.1, { p.2 with spadKiB := 4 })) }
theorem witness_ScratchpadWords_load : Ready (sSpad 0 [8]) (spadPiece 0 [8]) (wgQ (sSpad 0 [8])) (thQ (sSpad 0 [8])) ∧
    Awaits (thQ (sSpad 0 [8])) (spadPiece 0 [8]) [] [] (aWrite [8]) ∧ ((spadPiece 0 [8]).spad = 0 + 1 ∧ (spadPiece 0 [8]).kind = 0 ∧
      (spadPiece 0 [8]).typ = MemTy.b32.code ∧ (spadPiece 0 [8]).width = mtWidth .b32) :=
  ⟨ready_of (by decide +kernel), by unfold Awaits; decide +kernel, by decide +kernel⟩
theorem witness_ScratchpadWords_store : Ready (sSpad 1 []) (spadPiece 1 []) (wgQ (sSpad 1 [])) (thQ (sSpad 1 [])) ∧
    ((∀ e ∈ (thQ (sSpad 1 [])).pend, e.id ≠ (spadPiece 1 []).id) ∧ (spadPiece 1 []).kind = 1) ∧ (∃ x, (sSpad 1 []).wgs.find? 0 = some x) :=
  ⟨ready_of (by decide +kernel), by decide +kernel, wgQ (sSpad 1 []), by decide +kernel⟩
theorem witness_ScratchpadWords_atom : Ready (sSpad 2 [8]) (spadPiece 2 [8]) (wgQ (sSpad 2 [8])) (thQ (sSpad 2 [8])) ∧
    Awaits (thQ (sSpad 2 [8])) (spadPiece 2 [8]) [] [] (aWrite [8]) ∧ (atomWidth (spadPiece 2 [8]).aop (spadPiece 2 [8]).typ = some 4 ∧
      (spadPiece 2 [8]).data < 256 ^ 4 ∧ (spadPiece 2 [8]).data2 < 256 ^ 4) ∧ (∃ x, (sSpad 2 [8]).wgs.find? 0 = some x) :=
  ⟨ready_of (by decide +kernel), by unfold Awaits; decide +kernel, by decide +kernel, wgQ (sSpad 2 [8]), by decide +kernel⟩
/-- Lane 0 of a word has a store of the same byte still queued; lane 1's waits. -/
def laneSt (i : Nat) : MemOp := { spadPiece 1 [] with idx := i, word := 5 }
def sLanes : State := two (fun t => { t with queue := [laneSt 0], chk := [⟨1, 0, 0, 1, true, 0, [], 1, 0, 0⟩] })
  (fun t => { t with queue := [laneSt 1], chk := [⟨1, 0, 0, 1, true, 0, [], 1, 0, 0⟩] }) (fun w => { w with spadKiB := 4 }) id
theorem witness_ScratchpadWords_lower : ∃ t t' w, (sLanes.thread? 0 1 = some t ∧ (laneSt 1).kind = 1 ∧ (∀ y ∈ t.queue, y.id = (laneSt 1).id → y = laneSt 1) ∧
    (∀ c ∈ t.chk, c.id = (laneSt 1).id → c.parked ≠ 0) ∧ (0, w) ∈ sLanes.wgs ∧ w.tag = (laneSt 1).tag ∧ (0, t') ∈ w.threads ∧ 0 % 64 < (laneSt 1).idx % 64 ∧
    laneSt 0 ∈ t'.queue ∧ (laneSt 0).word = (laneSt 1).word ∧ (laneSt 0).spad = (laneSt 1).spad ∧ (laneSt 1).spad ≠ 0 ∧
    (laneSt 0).va < (laneSt 1).va + (laneSt 1).width ∧ (laneSt 1).va < (laneSt 0).va + (laneSt 0).width) :=
  ⟨(sLanes.thread? 0 1).getD (Thread.start 0 0 0), thQ sLanes, wgQ sLanes, by decide +kernel⟩
theorem witness_GlobalLoads_fault : Ready (sQ [ldFar] [8] id) ldFar (wgQ (sQ [ldFar] [8] id)) (thQ (sQ [ldFar] [8] id)) ∧
    (∀ e ∈ (thQ (sQ [ldFar] [8] id)).pend, e.id = ldFar.id → e.vals = none) ∧
    (sQ [ldFar] [8] id).xlateAt (wgQ (sQ [ldFar] [8] id)) ldFar.va ldFar.width true false = .fault 1 :=
  ⟨ready_of (by decide +kernel), by decide +kernel, by decide +kernel⟩

theorem witness_GlobalStores_issue : (CanRun sm2 hN 1 ∧ InLaneOrder sm2) ∧ ∀ c, Member sm2 1 c →
    ordOf none ≠ 1 ∧ ordOf none ≠ 3 ∧ storeData c .b32 (.v 4) = .ok (lane4 c) ∧ c.src (.int 32) (.v 0) = .ok (if c.idx = 0 then 15 else 16) ∧
    checkLane (sm2.slot c.wg (1 : Fin 16).val) ((if c.idx = 0 then 15 else 16) + eoffOf none) (mtWidth .b32) false true = laneVa c ∧
    LaneMay c (laneVa c) [] ∧ c.wg.det = false :=
  two_and ⟨by decide +kernel,
    ⟨by decide +kernel, by decide +kernel, by decide +kernel, by decide +kernel, by decide +kernel, laneMay_of (by decide +kernel), by decide +kernel⟩,
    by decide +kernel, by decide +kernel, by decide +kernel, by decide +kernel, by decide +kernel, laneMay_of (by decide +kernel), by decide +kernel⟩
def sDet : State := one (vs [(0, 15), (4, 0xABCD)]) (fun w => { w with det := true }) (fun s => s.modLaunch 0 0 (fun l => { l with q := [(1, record)] }))
theorem witness_GlobalStores_staged : Solo sDet hN (lenOf (none : Option MemX)) (sees sDet (lenOf (none : Option MemX))) ∧
    (storeData (sees sDet 1) .b32 (.v 4) = .ok 0xABCD ∧ (sees sDet 1).src (.int 32) (.v 0) = .ok 15 ∧
      checkLane (sDet.slot (sees sDet 1).wg (1 : Fin 16).val) (15 + eoffOf none) (mtWidth .b32) false true = .at 0x103C ∧
      (sees sDet 1).wg.det = true ∧ (sees sDet 1).queueWaits (memOp (sees sDet 1) 1 0 2 4 0xABCD 0 0 (scopeOf none) [] 1 0x103C) = false ∧
      (sees sDet 1).issueGate true (ordOf none == 2) (some 0x103C) (mtWidth .b32) = .go ∧
      (sees sDet 1).wg.stagedBytes + mtWidth .b32 ≤ 65536) := solo_and (by decide +kernel)
def stQ (ord scope va : Nat) : MemOp := aPiece 1 ord scope va []
def sSt (ord scope : Nat) : State := sQ [stQ ord scope 0x103C] [] id
theorem witness_GlobalStores_relaxed : Ready (sSt 0 0) (stQ 0 0 0x103C) (wgQ (sSt 0 0)) (thQ (sSt 0 0)) ∧
    (∀ e ∈ (thQ (sSt 0 0)).pend, e.id ≠ (stQ 0 0 0x103C).id) ∧
    (sSt 0 0).xlateAt (wgQ (sSt 0 0)) (stQ 0 0 0x103C).va (stQ 0 0 0x103C).width false true = .ok 0x2103C false ∧
    (sSt 0 0).noSpace (stQ 0 0 0x103C).tag 0x2103C = false ∧ (sSt 0 0).linkHeld 0x2103C = false ∧ isBuf (wgQ (sSt 0 0)).unit = false ∧ (stQ 0 0 0x103C).tag < 64 ∧
    0x2103C + (stQ 0 0 0x103C).width ≤ 2 ^ 52 := ⟨ready_of (by decide +kernel), by decide +kernel⟩
theorem plain_of {s : State} {core : Nat} (h : (s.l1 == [] && s.sys.rangeFmt == [] && s.parts.all (fun p => bits p.2.trk 11 0 == 0) && s.poison == []) = true) :
    Plain s core := by
  simp only [Bool.and_eq_true, beq_iff_eq, List.all_eq_true] at h
  exact ⟨by simp [NoLines, h.1.1.1], h.1.1.2, h.1.2, h.2⟩
theorem witness_GlobalStores_release : Ready (sSt 2 2) (stQ 2 2 0x103C) (wgQ (sSt 2 2)) (thQ (sSt 2 2)) ∧
    ((∀ e ∈ (thQ (sSt 2 2)).pend, e.id ≠ (stQ 2 2 0x103C).id) ∧ (stQ 2 2 0x103C).ord = 2 ∧ 2 ≤ (stQ 2 2 0x103C).scope ∧
      (sSt 2 2).xlateAt (wgQ (sSt 2 2)) (stQ 2 2 0x103C).va (stQ 2 2 0x103C).width false true = .ok 0x2103C false ∧
      (stQ 2 2 0x103C).tag = 0 ∧ (sSt 2 2).linkHeld 0x2103C = false ∧ (sSt 2 2).hostHolds false 0x2103C = false ∧ 0x2103C + (stQ 2 2 0x103C).width ≤ 2 ^ 52) ∧
    Plain (sSt 2 2) (wgQ (sSt 2 2)).unit := ⟨ready_of (by decide +kernel), by decide +kernel, plain_of (by decide +kernel)⟩
/-- A page of dup 1; a line of it that the host may hold. -/
def sDup : State := sQ [stQ 0 0 0x803C] [] (fun s => s.wrNat 0x18208 8 (0x28000 + 0x1F + 2 ^ 7))
theorem witness_GlobalStores_dup : Ready sDup (stQ 0 0 0x803C) (wgQ sDup) (thQ sDup) ∧
    ((∀ e ∈ (thQ sDup).pend, e.id ≠ (stQ 0 0 0x803C).id) ∧ sDup.xlateAt (wgQ sDup) (stQ 0 0 0x803C).va (stQ 0 0 0x803C).width false true = .ok 0x2803C true ∧
      sDup.linkHeld 0x2803C = false ∧ sDup.hostHolds true 0x2803C = false) ∧ Plain sDup (wgQ sDup).unit :=
  ⟨ready_of (by decide +kernel), by decide +kernel, plain_of (by decide +kernel)⟩
def sHeld : State := { sDup with shared := [0x2803C / 64] }
theorem witness_GlobalStores_held : Ready sHeld (stQ 0 0 0x803C) (wgQ sHeld) (thQ sHeld) ∧
    sHeld.xlateAt (wgQ sHeld) (stQ 0 0 0x803C).va (stQ 0 0 0x803C).width false true = .ok 0x2803C true ∧ 0x2803C / 64 ∈ sHeld.shared ∧
    (stQ 0 0 0x803C).tag = 0 := ⟨ready_of (by decide +kernel), by decide +kernel⟩
/-- An acquire before a store; a store before a release of the next word; a store before a load of its last byte. -/
def acq1 : MemOp := aPiece 0 1 2 0x103C [8]
def st2 : MemOp := { stQ 0 0 0x1040 with id := 2 }
def sOrd (a m : MemOp) : State := one (fun t => { t with
  pend := (if a.kind = 1 then [] else [aWrite [8]]), chk := [⟨1, 0, 0, 1, false, 0, [], 1, 0, 0⟩, ⟨2, 0, 4, 1, true, 0, [], 1, 0, 0⟩], queue := [a, m] }) id id
def isBefore (a m : MemOp) : Bool :=
  (sOrd a m).thread? m.wk m.idx == some (thQ (sOrd a m)) && (thQ (sOrd a m)).queue == [] ++ a :: [] ++ m :: [] && m != a &&
  (thQ (sOrd a m)).queue.all (fun x => decide (x.id = m.id → x = m)) && (thQ (sOrd a m)).pend.all (fun e => decide (e.id = m.id → e.vals = none)) &&
  (thQ (sOrd a m)).chk.all (fun c => decide (c.id = m.id → c.parked ≠ 0))
theorem witness_GlobalStores_waits : isBefore acq1 st2 = true ∧ (acq1.kind ≠ 1 ∧ (acq1.ord = 1 ∨ acq1.ord = 3)) ∧
    isBefore (stQ 0 0 0x103C) { st2 with ord := 2 } = true ∧ isBefore (ldQ 0 0) st2 = true ∧ ((ldQ 0 0).kind ≠ 1 ∧ st2.kind ≠ 0 ∧ (sOrd (ldQ 0 0) st2).heldOp (ldQ 0 0) = false) ∧
    isBefore (stQ 0 0 0x103C) { ldQ 0 0 with id := 2, va := 0x103F } = true ∧ (stQ 0 0 0x103C).va < 0x103F + 4 ∧ 0x103F < (stQ 0 0 0x103C).va + 4 := by
  decide +kernel

theorem witness_AtomAndLevelOfDetail_issue : (CanRun sm2 hN 2 ∧ InLaneOrder sm2) ∧ ∀ c, Member sm2 2 c →
    c.atomForm (.v 4) (addAtm .acq) = .ok ⟨4, [4], lane4 c, 0⟩ ∧ c.src (.int 32) (.v 0) = .ok (if c.idx = 0 then 15 else 16) ∧
    checkLane (sm2.slot c.wg (1 : Fin 16).val) ((if c.idx = 0 then 15 else 16) + (addAtm .acq).eoff.toNat) 4 true true = laneVa c ∧
    LaneMay c (laneVa c) [4] ∧ c.wg.det = false :=
  two_and ⟨by decide +kernel,
    ⟨by decide +kernel, by decide +kernel, by decide +kernel, laneMay_of (by decide +kernel), by decide +kernel⟩,
    by decide +kernel, by decide +kernel, by decide +kernel, laneMay_of (by decide +kernel), by decide +kernel⟩
def atQ : MemOp := aPiece 2 1 2 0x103C [8]
def sAt : State := sQ [atQ] [8] id
theorem witness_AtomAndLevelOfDetail_atom : (Ready sAt atQ (wgQ sAt) (thQ sAt) ∧ Awaits (thQ sAt) atQ [] [] (aWrite [8])) ∧
    (atQ.kind = 2 ∧ atomWidth atQ.aop atQ.typ = some atQ.width ∧ atQ.data < 256 ^ atQ.width ∧ atQ.data2 < 256 ^ atQ.width ∧
      sAt.xlateAt (wgQ sAt) atQ.va atQ.width true true = .ok 0x2103C false ∧ atQ.tag = 0 ∧ sAt.inOrderedMode 0 0x2103C = false ∧
      sAt.linkHeld 0x2103C = false ∧ sAt.hostHolds false 0x2103C = false ∧ 0x2103C + atQ.width ≤ 2 ^ 52) ∧ Plain sAt (wgQ sAt).unit :=
  ⟨⟨ready_of (by decide +kernel), by unfold Awaits; decide +kernel⟩, by decide +kernel, plain_of (by decide +kernel)⟩
/-- An index pair in v0, v1: element 16, one past the buffer. -/
def smOut : State := { sm with wgs := sm.wgs.map (fun p => (p.1, { p.2 with threads := p.2.threads.map (fun t => (t.1, { t.2 with v := [(0, 16)] })) })) }
theorem witness_AtomAndLevelOfDetail_lod : Solo smOut hN (lenOf (none : Option MemX)) (sees smOut (lenOf (none : Option MemX))) ∧
    (ordOf none = 0 ∧ recLod (smOut.slot (sees smOut 1).wg (3 : Fin 16).val) = true ∧ lodDest (sees smOut 1) (.v 8) .b32 = .ok [8, 9] ∧
      lodIndex (sees smOut 1) (.v 0) = .ok 16 ∧
      checkLane (smOut.slot (sees smOut 1).wg (3 : Fin 16).val) (16 % 2 ^ 32 + eoffOf none) (mtWidth .b32) true false = .skip ∧
      (sees smOut 1).th.memFull = false ∧ (sees smOut 1).th.term = none) := solo_and (by decide +kernel)
/-- Element 15, the buffer's last. -/
def smIn : State := { sm with wgs := sm.wgs.map (fun p => (p.1, { p.2 with threads := p.2.threads.map (fun t => (t.1, { t.2 with v := [(0, 15)] })) })) }
theorem witness_AtomAndLevelOfDetail_lod_in : Solo smIn hN (lenOf (none : Option MemX)) (sees smIn (lenOf (none : Option MemX))) ∧
    (ordOf none = 0 ∧ recLod (smIn.slot (sees smIn 1).wg (3 : Fin 16).val) = true ∧ lodDest (sees smIn 1) (.v 8) .b32 = .ok [8, 9] ∧
      lodIndex (sees smIn 1) (.v 0) = .ok 15 ∧
      checkLane (smIn.slot (sees smIn 1).wg (3 : Fin 16).val) (15 % 2 ^ 32 + eoffOf none) (mtWidth .b32) true false = .at 0x103C ∧
      (let m := memOp (sees smIn 1) 0 0 MemTy.b32.code (mtWidth .b32) 0 0 0 0 [] 0 0
       let k := (smIn.lodLookup (sees smIn 1).wg m (smIn.slot (sees smIn 1).wg (3 : Fin 16).val)
         (15 % recCountx (smIn.slot (sees smIn 1).wg (3 : Fin 16).val)) (15 / recCountx (smIn.slot (sees smIn 1).wg (3 : Fin 16).val)) (bits 15 35 32)).2.1
       (sees smIn 1).gate { m with va := k.va } (if k.none then none else some k.va) = .go) ∧
      (smIn.core (sees smIn 1).wg.core).filter.length < 32) ∧ Clean smIn :=
  ⟨one_solo (by decide +kernel), by decide +kernel, by unfold Clean; decide +kernel⟩

/-- A graft not yet complete; a load queued before FENCE.acq; a write without its value. -/
theorem witness_Fences_waits : let s := one (fun t => { t with hold := [7] }) id id
    Alone s 1 (sees s 1) ∧ (sees s 1).th.hold ≠ [] := alone_and (by decide +kernel)
theorem witness_Fences_queue : Alone (sLd 0 0) 1 (sees (sLd 0 0) 1) ∧ (ldQ 0 0 ∈ (sees (sLd 0 0) 1).th.queue ∧ (ldQ 0 0).kind ≠ 1 ∧
    (∃ e ∈ (sees (sLd 0 0) 1).th.pend, e.mem = true ∧ e.vals = none)) := alone_and (by decide +kernel)
theorem witness_Fences_fence : Solo sm hN 1 (sees sm 1) ∧ ((sees sm 1).th.hold = [] ∧ (sees sm 1).th.queue = [] ∧ (sees sm 1).th.unbound = false ∧
    isBuf (sees sm 1).wg.unit = false ∧ FMap.sorted sm.l1 = true) := solo_and (by decide +kernel)
theorem witness_Fences_oob : CanRun sm hN 1 ∧ ∀ c, Member sm 1 c → c.longDest (.v 63) 1 1 = .ok [63] ∧ c.th.longCount < 8 :=
  group_and (by decide +kernel)
theorem sm_release : CanRelease (sees sm 1) := by unfold CanRelease; decide +kernel
/-- Every resource, and the last one of a table of one. -/
def sRes : State := one (vs [(0, 0xFFFFFFFF), (1, 0)]) id (fun s => s.modPart 0 (fun p => { p with lod := 1 }))
theorem witness_Fences_resfence : (Solo sRes hN 1 (sees sRes 1) ∧ CanRelease (sees sRes 1)) ∧
    ((sees sRes 1).src (.int 32) (.v 0) = .ok (2 ^ 32 - 1) ∧ (sees sRes 1).src (.int 32) (.v 1) = .ok 0 ∧
      0 < bits (sRes.part (sees sRes 1).wg.part).lod 11 0 ∧ (sees sRes 1).th.unbound = false) :=
  ⟨⟨one_solo (by decide +kernel), by unfold CanRelease; decide +kernel⟩, by decide +kernel⟩

/-- A second thread that has arrived nowhere; a thread that waits for a write. -/
def sBar2 : State := one id (fun w => { w with nbar := 2, threads := w.threads ++ [(1, Thread.start 0 0 0)] }) id
def sBarP : State := one (fun t => { t with pend := [pendOf 1 false [10] [5]] }) (fun w => { w with nbar := 2 }) id
theorem witness_Barriers_waits : Alone sBarP 1 (sees sBarP 1) ∧ ((1 : Fin 32).val < (sees sBarP 1).wg.nbar ∧ (sees sBarP 1).th.pend ≠ [] ∧
    (sees sBarP 1).th.term = none) := alone_and (by decide +kernel)
theorem witness_Barriers_arrives : (Alone sBar2 1 (sees sBar2 1) ∧ Quiet (sees sBar2 1)) ∧
    ((1 : Fin 32).val < (sees sBar2 1).wg.nbar ∧ (sees sBar2 1).th.runEnded = false ∧ BarKind.sync ≠ .wait ∧
      barId 1 false ∉ (sees sBar2 1).th.arrived) ∧
    ∃ k w j t, k ∈ sBar2.barrierGroups (sees sBar2 1).wk (barId 1 false) ∧ sBar2.wgs.find? k = some w ∧ w.threads.find? j = some t ∧
      (k, j) ≠ ((sees sBar2 1).wk, (sees sBar2 1).idx) ∧ t.st ≠ .exited ∧ barId 1 false ∉ t.arrived :=
  ⟨⟨one_alone (by decide +kernel), by unfold Quiet; decide +kernel⟩, by decide +kernel,
   0, (sees sBar2 1).wg, 1, Thread.start 0 0 0, by decide +kernel⟩
/-- Another thread waits at the workgroup's last barrier and at the plot's last, and a third has exited. -/
def sBar3 (b : Nat) : State := one id (fun w => { w with nbar := 2, threads := w.threads ++
  [(1, { Thread.start 0 0 0 with arrived := [b], st := .wait, op := some (.bar b .wait) }), (2, { Thread.start 0 0 0 with st := .exited })] }) id
theorem witness_Barriers_last : ((Alone (sBar3 (barId 1 false)) 1 (sees (sBar3 (barId 1 false)) 1) ∧ Quiet (sees (sBar3 (barId 1 false)) 1)) ∧
    ((1 : Fin 32).val < (sees (sBar3 (barId 1 false)) 1).wg.nbar ∧ (sees (sBar3 (barId 1 false)) 1).th.runEnded = false ∧
      barId 1 false ∉ (sees (sBar3 (barId 1 false)) 1).th.arrived ∧ (sBar3 (barId 1 false)).barrierGroups 0 (barId 1 false) = [0] ∧
      (wgQ (sBar3 (barId 1 false))).threads.map (·.1) = [0, 1, 2] ∧
      ∀ p ∈ (wgQ (sBar3 (barId 1 false))).threads, (0, p.1) ≠ ((sees (sBar3 (barId 1 false)) 1).wk, (sees (sBar3 (barId 1 false)) 1).idx) →
        p.2.st = .exited ∨ barId 1 false ∈ p.2.arrived)) ∧
    (Alone (sBar3 (barId 3 true)) 1 (sees (sBar3 (barId 3 true)) 1) ∧ Quiet (sees (sBar3 (barId 3 true)) 1)) ∧
    ((3 : Fin 32).val < 4 ∧ barId 3 true ∉ (sees (sBar3 (barId 3 true)) 1).th.arrived ∧ (sBar3 (barId 3 true)).barrierGroups 0 (barId 3 true) = [0] ∧
      ∀ p ∈ (wgQ (sBar3 (barId 3 true))).threads, (0, p.1) ≠ ((sees (sBar3 (barId 3 true)) 1).wk, (sees (sBar3 (barId 3 true)) 1).idx) →
        p.2.st = .exited ∨ barId 3 true ∈ p.2.arrived) :=
  ⟨⟨⟨one_alone (by decide +kernel), by unfold Quiet; decide +kernel⟩, by decide +kernel⟩,
   ⟨one_alone (by decide +kernel), by unfold Quiet; decide +kernel⟩, by decide +kernel⟩
/-- A thread that has arrived comes again. -/
def sBarA : State := one (fun t => { t with arrived := [barId 1 false] }) (fun w => { w with nbar := 2 }) id
theorem witness_Barriers_again : Alone sBarA 1 (sees sBarA 1) ∧ Quiet (sees sBarA 1) ∧ ((1 : Fin 32).val < (sees sBarA 1).wg.nbar ∧
    (sees sBarA 1).th.runEnded = false ∧ barId 1 false ∈ (sees sBarA 1).th.arrived) :=
  ⟨one_alone (by decide +kernel), by unfold Quiet; decide +kernel, by decide +kernel⟩
theorem witness_Barriers_wait : Alone sm 1 (sees sm 1) ∧ ((sees sm 1).th.pend = [] ∧ (sees sm 1).th.term = none ∧ (1 : Fin 32).val < (sees sm 1).wg.nbar) :=
  alone_and (by decide +kernel)

/-- The last trellis of the scratchpad lies at 4080. -/
def sTr : State := one (vs [(0, 4080), (1, 3), (2, 0), (3, 0), (4, 0x80000005)]) (fun w => { w with spadKiB := 4 }) id
def sTrP : State := one (fun t => { vs [(0, 4080), (1, 3), (2, 0), (3, 0), (4, 0x80000005)] t with pend := [pendOf 1 false [10] [5]] })
  (fun w => { w with spadKiB := 4 }) id
theorem witness_TrellisesAndCounters_init : Solo sTr hN (lenOf (none : Option (BitVec 26))) (sees sTr (lenOf (none : Option (BitVec 26)))) ∧
    ((sees sTr 1).src (.int 32) (.v 0) = .ok 4080 ∧ (sees sTr 1).src (.int 32) (.v 1) = .ok 3 ∧ 4080 < 2 ^ 18 ∧ 4080 % 16 = 0 ∧
      4080 + 16 ≤ (sees sTr 1).wg.spadKiB * 1024 ∧ (sees sTr 1).gate { memOp (sees sTr 1) 1 0 0 16 0 0 0 0 [] 0 4080 with spad := (sees sTr 1).wk + 1 }
        (some ({ memOp (sees sTr 1) 1 0 0 16 0 0 0 0 [] 0 4080 with spad := (sees sTr 1).wk + 1 } : MemOp).place) = .go) := solo_and (by decide +kernel)
theorem witness_TrellisesAndCounters_trwait : (Alone sTrP 1 (sees sTrP 1) ∧ Alone sTr 1 (sees sTr 1)) ∧
    (sees sTrP 1).src (.int 32) (.v 0) = .ok 4080 ∧ (sees sTr 1).src (.int 32) (.v 0) = .ok 4080 ∧ 4080 < 2 ^ 18 ∧ 4080 % 16 = 0 ∧
    4080 + 16 ≤ (sees sTr 1).wg.spadKiB * 1024 ∧ (sees sTrP 1).th.pend ≠ [] ∧ (sees sTr 1).th.pend = [] ∧ (sees sTr 1).th.term = none ∧
    (sees sTrP 1).th.term = none ∧ (sees sTrP 1).wg.spadKiB = 4 ∧ (∀ m ∈ (sees sTr 1).th.queue, m.spad = 0) :=
  ⟨⟨one_alone (by decide +kernel), one_alone (by decide +kernel)⟩, by decide +kernel⟩
theorem witness_TrellisesAndCounters_wpwait : (Alone sTrP 1 (sees sTrP 1) ∧ Alone sTr 1 (sees sTr 1)) ∧
    (sees sTrP 1).src (.int 32) (.v 1) = .ok 3 ∧ (sees sTr 1).src (.int 32) (.v 1) = .ok 3 ∧ 3 ≤ 3 ∧ (sees sTr 1).target (.v 2) none = .ok 0 ∧
    (sees sTrP 1).target (.v 2) none = .ok 0 ∧ (sees sTrP 1).th.pend ≠ [] ∧ (sees sTr 1).th.pend = [] ∧ (sees sTr 1).th.term = none ∧
    (sees sTrP 1).th.term = none :=
  ⟨⟨one_alone (by decide +kernel), one_alone (by decide +kernel)⟩, by decide +kernel⟩
/-- Counter 5 of the engine context, and stream 63. -/
theorem witness_TrellisesAndCounters_tlwait : (Alone sTrP 1 (sees sTrP 1) ∧ Alone sTr 1 (sees sTr 1)) ∧
    (sees sTrP 1).src (.int 32) (.v 4) = .ok 0x80000005 ∧ (sees sTr 1).src (.int 32) (.v 4) = .ok 0x80000005 ∧
    selectorOk 0x80000005 = true ∧ selectorOk 63 = true ∧ bits 0x80000005 31 30 ≠ 1 ∧ (sees sTr 1).target (.v 2) none = .ok 0 ∧
    (sees sTrP 1).target (.v 2) none = .ok 0 ∧ (sees sTrP 1).th.pend ≠ [] ∧ (sees sTr 1).th.pend = [] ∧ (sees sTr 1).th.term = none ∧
    (sees sTrP 1).th.term = none :=
  ⟨⟨one_alone (by decide +kernel), one_alone (by decide +kernel)⟩, by decide +kernel⟩
theorem witness_TrellisesAndCounters_tlread : CanRun sTr hN 1 ∧ ∀ c, Member sTr 1 c → c.longDest (.v 62) 2 2 = .ok [62, 63] ∧
    c.src (.int 32) (.v 4) = .ok 0x80000005 ∧ selectorOk 0x80000005 = true ∧ c.th.longCount < 8 := group_and (by decide +kernel)

/-! ## Witnesses: engine, version, display and push words -/

/-- Registers of the engine words: v0 a scratchpad offset, v1 a count, v16 to v23 a ray from the origin along z with extent [0, 1]. -/
def engineRegs : List (Nat × Word) := [(0, 4032), (1, 1), (2, 2), (3, 0x500), (4, 15), (5, 255), (6, 3968), (21, 0x3F800000), (23, 0x3F800000)]
def sEng : State := one (vs engineRegs) (fun w => { w with spadKiB := 4 })
  (fun s => (s.modLaunch 0 0 (fun l => { l with q := [(1, record)] })).modCol 0 (fun c => { c with cfg := c.cfg + 2 ^ 17 }))
theorem sEng_release : CanRelease (sees sEng 1) := by unfold CanRelease; decide +kernel

/-- The scratchpad's last two requests; the core's 256th and 255th slots. -/
theorem witness_EngineWords_kick : (Solo sEng hN 1 (sees sEng 1) ∧ CanRelease (sees sEng 1)) ∧
    ((sees sEng 1).src (.int 32) (.v 0) = .ok 4032 ∧ (sees sEng 1).src (.int 32) (.v 2) = .ok 2 ∧ 1 ≤ 2 ∧ 2 ≤ 64 ∧ 4032 < 2 ^ 18 ∧
      4032 % 32 = 0 ∧ 4032 + 32 * 2 ≤ (sees sEng 1).wg.spadKiB * 1024 ∧ (sEng.core (sees sEng 1).wg.core).requests + 2 ≤ 256) :=
  ⟨⟨one_solo (by decide +kernel), sEng_release⟩, by decide +kernel⟩
theorem witness_EngineWords_mtask : (Solo sEng hN 1 (sees sEng 1) ∧ CanRelease (sees sEng 1)) ∧
    ((sees sEng 1).longDest (.v 62) 2 2 = .ok [62, 63] ∧ (sees sEng 1).src (.int 32) (.v 0) = .ok 4032 ∧ 4032 < 2 ^ 18 ∧ 4032 % 64 = 0 ∧
      4032 + 64 ≤ (sees sEng 1).wg.spadKiB * 1024 ∧ (sees sEng 1).th.longCount < 8 ∧ (sEng.col ((sees sEng 1).wg.core / 8)).tasks.length < 256) :=
  ⟨⟨one_solo (by decide +kernel), sEng_release⟩, by decide +kernel⟩
def rayBlock : List Nat := [0, 0, 0, 0, 0, 0x3F800000, 0, 0x3F800000]
theorem witness_EngineWords_trace : Solo sEng hN 1 (sees sEng 1) ∧
    ((sees sEng 1).longDest (.v 60) 4 4 = .ok [60, 61, 62, 63] ∧ (sees sEng 1).longDest (.v 16) 8 1 = .ok [16, 17, 18, 19, 20, 21, 22, 23] ∧
      [16, 17, 18, 19, 20, 21, 22, 23].mapM (sees sEng 1).readV = .ok (rayBlock.map (BitVec.ofNat 32)) ∧ (∀ v ∈ rayBlock, v < 2 ^ 32) ∧
      (sees sEng 1).src (.int 32) (.v 1) = .ok 1 ∧ 1 < 2 ^ 16 ∧ (recRights (sEng.slot (sees sEng 1).wg (1 % 16))).testBit 0 = true ∧
      (sees sEng 1).th.longCount < 8 ∧ (sees sEng 1).engineGate = .go ∧ rayMisses rayBlock = false ∧
      (sEng.col ((sees sEng 1).wg.core / 8)).cfg.testBit 17 = true) := solo_and (by decide +kernel)
/-- While the instruction store is unlocked. -/
def sUnlocked : State := one (vs engineRegs) id (fun s => s.modLaunch 0 0 (fun l => { l with q := [(1, record)] }))
theorem witness_EngineWords_unlocked : Solo sUnlocked hN 1 (sees sUnlocked 1) ∧
    ((sees sUnlocked 1).longDest (.v 60) 4 4 = .ok [60, 61, 62, 63] ∧
      [16, 17, 18, 19, 20, 21, 22, 23].mapM (sees sUnlocked 1).readV = .ok (rayBlock.map (BitVec.ofNat 32)) ∧
      (recRights (sUnlocked.slot (sees sUnlocked 1).wg (1 % 16))).testBit 0 = true ∧ (sees sUnlocked 1).engineGate = .go ∧
      (sUnlocked.col ((sees sUnlocked 1).wg.core / 8)).cfg.testBit 17 = false) := solo_and (by decide +kernel)
/-- The same ray from tmin 2 misses. -/
def sMiss : State := one (vs [(1, 1), (21, 0x3F800000), (22, 0x40000000), (23, 0x3F800000)]) id
  (fun s => s.modLaunch 0 0 (fun l => { l with q := [(1, record)] }))
theorem witness_EngineWords_miss : Solo sMiss hN 1 (sees sMiss 1) ∧
    ((sees sMiss 1).longDest (.v 60) 4 4 = .ok [60, 61, 62, 63] ∧ (sees sMiss 1).longDest (.v 16) 8 1 = .ok [16, 17, 18, 19, 20, 21, 22, 23] ∧
      [16, 17, 18, 19, 20, 21, 22, 23].mapM (sees sMiss 1).readV =
        .ok (([0, 0, 0, 0, 0, 0x3F800000, 0x40000000, 0x3F800000] : List Nat).map (BitVec.ofNat 32)) ∧
      (sees sMiss 1).src (.int 32) (.v 1) = .ok 1 ∧ (recRights (sMiss.slot (sees sMiss 1).wg (1 % 16))).testBit 0 = true ∧
      (sees sMiss 1).th.longCount < 8 ∧ (sees sMiss 1).engineGate = .go ∧
      rayMisses [0, 0, 0, 0, 0, 0x3F800000, 0x40000000, 0x3F800000] = true) := solo_and (by decide +kernel)

/-- A partition that may hold one fork set and two tags. -/
def sFork : State := one (vs engineRegs) (fun w => { w with spadKiB := 4 })
  (fun s => s.modPart 0 (fun p => { p with vers := 1 * 2 ^ 13 + 2 * 2 ^ 7 + 1 }))
theorem witness_ForkGraftPrune_fork : (Solo sFork hN 1 (sees sFork 1) ∧ CanRelease (sees sFork 1)) ∧
    ((sees sFork 1).longDest (.v 62) 2 2 = .ok [62, 63] ∧ (sees sFork 1).src (.int 32) (.v 2) = .ok 2 ∧ (sees sFork 1).wg.tag = 0 ∧ 2 ≤ 2 ∧ 2 ≤ 8 ∧
      (sees sFork 1).th.longCount < 8 ∧ sFork.forkFails (sees sFork 1).wg.part 2 = none) :=
  ⟨⟨one_solo (by decide +kernel), by unfold CanRelease; decide +kernel⟩, by decide +kernel⟩
theorem witness_ForkGraftPrune_fails : (Solo sEng hN 1 (sees sEng 1) ∧ CanRelease (sees sEng 1)) ∧
    ((sees sEng 1).longDest (.v 62) 2 2 = .ok [62, 63] ∧ (sees sEng 1).src (.int 32) (.v 2) = .ok 2 ∧ (sees sEng 1).wg.tag = 0 ∧
      (sees sEng 1).th.longCount < 8 ∧ sEng.forkFails (sees sEng 1).wg.part 2 = some 4) :=
  ⟨⟨one_solo (by decide +kernel), sEng_release⟩, by decide +kernel⟩
/-- Fork set 0 of tags 5 and 6; v3 names it and winner 5, v7 the set alone. -/
def forkRegs : List (Nat × Word) := [(3, 0x500), (4, 4080)]
def sSet : State := one (vs forkRegs) (fun w => { w with spadKiB := 4 })
  (fun s => { (s.setTag 5 ⟨1, 0, 0⟩).setTag 6 ⟨1, 0, 0⟩ with sets := [(0, ⟨0, [5, 6], false, []⟩)] })
def sNoSet : State := one (vs forkRegs) (fun w => { w with spadKiB := 4 }) id
theorem witness_ForkGraftPrune_graft : (Solo sSet hN 1 (sees sSet 1) ∧ CanRelease (sees sSet 1)) ∧
    ((sees sSet 1).versionArgs (.v 8) (.v 3) (.v 4) 0x3F07 = .ok ([8], 0, 5, 4080) ∧ (sees sSet 1).th.longCount < 8 ∧
      (sees sSet 1).th.unbound = false ∧ sSet.graftRefused (sees sSet 1).wg.part 0 5 = none) :=
  ⟨⟨one_solo (by decide +kernel), by unfold CanRelease; decide +kernel⟩, by decide +kernel⟩
theorem witness_ForkGraftPrune_refused : (Solo sNoSet hN 1 (sees sNoSet 1) ∧ CanRelease (sees sNoSet 1)) ∧
    ((sees sNoSet 1).versionArgs (.v 8) (.v 3) (.v 4) 0x3F07 = .ok ([8], 0, 5, 4080) ∧ (sees sNoSet 1).th.longCount < 8 ∧
      (sees sNoSet 1).th.unbound = false ∧ sNoSet.graftRefused (sees sNoSet 1).wg.part 0 5 = some 1 ∧
      (sees sNoSet 1).versionArgs (.v 8) (.v 5) (.v 4) 7 = .ok ([8], 0, 0, 4080) ∧ sNoSet.setRefused (sees sNoSet 1).wg.part 0 = some 1) :=
  ⟨⟨one_solo (by decide +kernel), by unfold CanRelease; decide +kernel⟩, by decide +kernel⟩
theorem witness_ForkGraftPrune_prune : (Solo sSet hN 1 (sees sSet 1) ∧ CanRelease (sees sSet 1)) ∧
    ((sees sSet 1).versionArgs (.v 8) (.v 5) (.v 4) 7 = .ok ([8], 0, 0, 4080) ∧ (sees sSet 1).th.longCount < 8 ∧
      (sees sSet 1).th.unbound = false ∧ sSet.setRefused (sees sSet 1).wg.part 0 = none ∧ sSet.sets.find? 0 = some ⟨0, [5, 6], false, []⟩ ∧
      ∀ p ∈ sSet.wgs, p.2.tag ∉ (⟨0, [5, 6], false, []⟩ : ForkSet).tags) :=
  ⟨⟨one_solo (by decide +kernel), by unfold CanRelease; decide +kernel⟩, by decide +kernel⟩

/-- Display 15, owned by partition 0, with surface 255 in its table at 0x40000. -/
def sDisp (tag : Nat) : State := one (vs engineRegs) (fun w => { w with tag := tag })
  (fun s => ((s.setDisp 15 { Disp.zero with cfg := 0x40 * 2 ^ 12 + 16 }).wrNat (0x40000 + 16 * 255) 16 1).setTag 5 ⟨1, 0, 0⟩)
theorem witness_PresentsAndPushes_off : (Solo sEng hN 1 (sees sEng 1) ∧ CanRelease (sees sEng 1)) ∧
    ((sees sEng 1).longDest (.v 63) 1 1 = .ok [63] ∧ (sees sEng 1).src (.int 32) (.v 4) = .ok 15 ∧ (sees sEng 1).src (.int 32) (.v 5) = .ok 255 ∧
      15 ≤ 15 ∧ 255 ≤ 255 ∧ (sees sEng 1).th.longCount < 8 ∧ (sees sEng 1).wg.det = false ∧ (∀ e ∈ sEng.l1, lineUnit e.1 = (sees sEng 1).wg.unit ∨ lineUnit e.1 = bufOf (sees sEng 1).wg.unit → e.2.dirty = []) ∧
      (sees sEng 1).wg.tag = 0 ∧ (sEng.disp 15).cfg.testBit 4 = false) := ⟨⟨one_solo (by decide +kernel), sEng_release⟩, by decide +kernel⟩
theorem witness_PresentsAndPushes_flip : (Solo (sDisp 0) hN 1 (sees (sDisp 0) 1) ∧ CanRelease (sees (sDisp 0) 1)) ∧
    ((sees (sDisp 0) 1).longDest (.v 63) 1 1 = .ok [63] ∧ (sees (sDisp 0) 1).src (.int 32) (.v 4) = .ok 15 ∧
      (sees (sDisp 0) 1).src (.int 32) (.v 5) = .ok 255 ∧ (sees (sDisp 0) 1).th.longCount < 8 ∧ (sees (sDisp 0) 1).wg.det = false ∧
      (∀ e ∈ (sDisp 0).l1, lineUnit e.1 = (sees (sDisp 0) 1).wg.unit ∨ lineUnit e.1 = bufOf (sees (sDisp 0) 1).wg.unit → e.2.dirty = []) ∧ (sees (sDisp 0) 1).wg.tag = 0 ∧
      ((sDisp 0).disp 15).cfg.testBit 4 = true ∧ bits ((sDisp 0).disp 15).cfg 7 5 = (sees (sDisp 0) 1).wg.part ∧
      ((sDisp 0).surface 15 255).testBit 0 = true ∧ bits ((sDisp 0).surface 15 255) 103 96 ≤ 2 ∧ ((sDisp 0).disp 15).queue.length < 4) :=
  ⟨⟨one_solo (by decide +kernel), by unfold CanRelease; decide +kernel⟩, by decide +kernel⟩
theorem witness_PresentsAndPushes_held : (Solo (sDisp 5) hN 1 (sees (sDisp 5) 1) ∧ CanRelease (sees (sDisp 5) 1)) ∧
    ((sees (sDisp 5) 1).longDest (.v 63) 1 1 = .ok [63] ∧ (sees (sDisp 5) 1).src (.int 32) (.v 4) = .ok 15 ∧
      (sees (sDisp 5) 1).src (.int 32) (.v 5) = .ok 255 ∧ (sees (sDisp 5) 1).th.longCount < 8 ∧ (sees (sDisp 5) 1).wg.det = false ∧
      (∀ e ∈ (sDisp 5).l1, lineUnit e.1 = (sees (sDisp 5) 1).wg.unit ∨ lineUnit e.1 = bufOf (sees (sDisp 5) 1).wg.unit → e.2.dirty = []) ∧ (sees (sDisp 5) 1).wg.tag ≠ 0 ∧
      ((sDisp 5).tag (sees (sDisp 5) 1).wg.tag).state = 1 ∧
      ((sDisp 5).held.filter (fun x => x.tag == (sees (sDisp 5) 1).wg.tag && x.flip)).length < 4) :=
  ⟨⟨one_solo (by decide +kernel), by unfold CanRelease; decide +kernel⟩, by decide +kernel⟩

/-- A device ring of 16 entries at 0x4000, its descriptor at 0x30000 with the given wr; v6 names a record in the scratchpad, v1 ring 1,
v7 ring 0. -/
def ringDesc (wr : Nat) : Nat := 0x4000 + 4 * 2 ^ 64 + 2 ^ 71 + 2 ^ 78 + wr * 2 ^ 128
def sRing (wr : Nat) : State := one (vs engineRegs) (fun w => { w with spadKiB := 4 })
  (fun s => (s.modPart 0 (fun p => { p with ringTable := 0x30 * 2 ^ 12 + 1 })).wrNat 0x30000 32 (ringDesc wr))
theorem sRing_plain : Plain (sRing 15) (sees (sRing 15) 1).wg.unit ∧ Plain (sRing 16) (sees (sRing 16) 1).wg.unit := ⟨plain_of (by decide +kernel), plain_of (by decide +kernel)⟩
/-- The last free entry; v7 (zero) names ring 0. -/
theorem witness_PresentsAndPushes_push : (Solo (sRing 15) hN 1 (sees (sRing 15) 1) ∧ CanRelease (sees (sRing 15) 1) ∧
      Plain (sRing 15) (sees (sRing 15) 1).wg.unit) ∧
    ((sees (sRing 15) 1).longDest (.v 63) 1 1 = .ok [63] ∧ (sees (sRing 15) 1).src (.int 32) (.v 6) = .ok 3968 ∧
      (sees (sRing 15) 1).src (.int 32) (.v 7) = .ok 0 ∧ 0 ≤ 4095 ∧ 3968 < 2 ^ 18 ∧ 3968 % 16 = 0 ∧ 3968 + 128 ≤ (sees (sRing 15) 1).wg.spadKiB * 1024 ∧
      (sees (sRing 15) 1).th.longCount < 8 ∧ (sees (sRing 15) 1).wg.det = false ∧ (sees (sRing 15) 1).wg.tag = 0 ∧
      (sRing 15).pushRing? (sees (sRing 15) 1).wg.part 0 false = some ⟨0, 0, 0x30000, ringDesc 15⟩ ∧
      (sRing 15).pushRing? (sees (sRing 15) 1).wg.part 0 true = some ⟨0, 0, 0x30000, ringDesc 15⟩ ∧
      (⟨0, 0, 0x30000, ringDesc 15⟩ : Ring).full = false ∧
      (sRing 15).xlate 0 ((⟨0, 0, 0x30000, ringDesc 15⟩ : Ring).entry 15) false true false = .ok 0x24780 false ∧
      (sRing 15).hostHolds false 0x24780 = false ∧ (sRing 15).linkHeld 0x24780 = false ∧ 0x24780 + 128 ≤ 0x30000) :=
  ⟨⟨one_solo (by decide +kernel), by unfold CanRelease; decide +kernel, sRing_plain.1⟩, by decide +kernel⟩
/-- A full ring, and ring 1, which the partition has not. -/
theorem witness_PresentsAndPushes_full : (Solo (sRing 16) hN 1 (sees (sRing 16) 1) ∧ CanRelease (sees (sRing 16) 1) ∧
      Plain (sRing 16) (sees (sRing 16) 1).wg.unit) ∧
    ((sees (sRing 16) 1).longDest (.v 63) 1 1 = .ok [63] ∧ (sees (sRing 16) 1).src (.int 32) (.v 6) = .ok 3968 ∧
      (sees (sRing 16) 1).src (.int 32) (.v 7) = .ok 0 ∧ (sees (sRing 16) 1).src (.int 32) (.v 1) = .ok 1 ∧
      3968 + 128 ≤ (sees (sRing 16) 1).wg.spadKiB * 1024 ∧ (sees (sRing 16) 1).th.longCount < 8 ∧ (sees (sRing 16) 1).wg.det = false ∧
      (sees (sRing 16) 1).wg.tag = 0 ∧ (sRing 16).pushRing? (sees (sRing 16) 1).wg.part 1 false = none ∧
      (sRing 16).pushRing? (sees (sRing 16) 1).wg.part 1 true = none ∧
      (sRing 16).pushRing? (sees (sRing 16) 1).wg.part 0 false = some ⟨0, 0, 0x30000, ringDesc 16⟩ ∧
      (⟨0, 0, 0x30000, ringDesc 16⟩ : Ring).full = true) :=
  ⟨⟨one_solo (by decide +kernel), by unfold CanRelease; decide +kernel, sRing_plain.2⟩, by decide +kernel⟩

/-- Stream 63, with a region open. -/
def sShadow : State := one (vs [(0, 63)]) id (fun s => s.modPart 0 (fun p => { p with streams := [(63, { Stream.zero with shadow := true })] }))
def sStream : State := one (vs [(0, 63)]) id id
theorem witness_ShadowWords_begin : Solo sStream hOld 1 (sees sStream 1) ∧ ((sees sStream 1).src (.int 32) (.v 0) = .ok 63 ∧ 63 ≤ 63 ∧
    (sStream.stream (sees sStream 1).wg.part 63).shadow = false) := solo_and (by decide +kernel)
theorem witness_ShadowWords_end : (Solo sShadow hOld 1 (sees sShadow 1) ∧ CanRelease (sees sShadow 1)) ∧
    ((sees sShadow 1).src (.int 32) (.v 0) = .ok 63 ∧ (∀ e ∈ sShadow.l1, lineUnit e.1 = (sees sShadow 1).wg.unit ∨ lineUnit e.1 = bufOf (sees sShadow 1).wg.unit → e.2.dirty = []) ∧
      sShadow.shadowWaiting (sees sShadow 1).wg.part 63 = [] ∧ sShadow.shadowHeld (sShadow.stream (sees sShadow 1).wg.part 63) = none ∧ (∀ t ∈ (sShadow.stream (sees sShadow 1).wg.part 63).ran, t.tag = 0) ∧
      (sShadow.stream (sees sShadow 1).wg.part 63).shadow = true) :=
  ⟨⟨one_solo (by decide +kernel), by unfold CanRelease; decide +kernel⟩, by decide +kernel⟩

/-! ## Witnesses: float, packed and lane words -/

/-- v0 holds 1, v1 the greatest finite f32, v2 a NaN, v3 random bits. -/
def sF : State := one (vs [(0, 0x3F800000), (1, 0x7F7FFFFF), (2, 0x7FC00000), (3, 0x12345678)]) id id
def srMod (ty : Ty) : Mod := { plainMod ty with c := .v 3, cuse := true, rm := .sr }

theorem witness_FloatArithmetic : (∀ k, (none : Option Mod) = some k → FloatRow.arith.tyOk k = true) ∧
    CanRun sF hN 1 ∧ ∀ c, Member sF 1 c → FloatOperands c (.flt .f32) true (.v 0) (.v 0) (.v 1) none 0x3F800000 0x7F7FFFFF 0x3F800000 0 none :=
  ⟨by simp, group_and ⟨by decide +kernel, by decide +kernel, by decide +kernel, by decide +kernel, by simp [rmOf], by simp⟩⟩
theorem witness_FloatArithmetic_sr : (∀ k, some (srMod .f32) = some k → FloatRow.arith.tyOk k = true) ∧
    CanRun sF hN 2 ∧ ∀ c, Member sF 2 c →
      FloatOperands c (.flt .f32) false (.v 8) (.v 0) (.v 1) (some (srMod .f32)) 0x3F800000 0x7F7FFFFF 0 0x12345678 none :=
  ⟨by simp only [Option.some.injEq, forall_eq']; decide,
   group_and ⟨by decide +kernel, by decide +kernel, by decide +kernel, by simp, fun _ => ⟨_, rfl, by decide +kernel⟩, by decide⟩⟩
theorem witness_FloatCompareRound : (∀ k, (none : Option Mod) = some k → FloatRow.plain.tyOk k = true) ∧ Ty.bf16 ∈ [Ty.f32, Ty.f16, Ty.bf16] ∧
    CanRun sF hN 1 ∧ ∀ c, Member sF 1 c → c.destOk false (.v 8) = true ∧
      c.read2 (.flt .f32) false (.v 0) (.v 2) = .ok (0x3F800000, 0x7FC00000, none) ∧
      c.read1 (.flt .f32) false (.v 2) none = .ok ⟨0x7FC00000, none⟩ ∧
      c.read2 (.flt .bf16) false (.v 0) (.c 1) = .ok (0x3F800000, 0x3F80, none) :=
  ⟨by simp, by decide, group_and (by decide +kernel)⟩
theorem witness_SpecialFunctions : (∀ k, (none : Option Mod) = some k → FloatRow.plain.tyOk k = true) ∧
    CanRun sF hN 1 ∧ ∀ c, Member sF 1 c → c.longDest (.v 63) 1 1 = .ok [63] ∧ c.th.longCount < 8 ∧
      c.read1 (.flt .f32) false (.v 2) none = .ok ⟨0x7FC00000, none⟩ :=
  ⟨by simp, group_and (by decide +kernel)⟩
/-- The special operands of Table 9.4 in bf16: a NaN, both infinities, −0, −1, the least subnormal, 1, 4 and 2. -/
theorem witness_SpecialFunctions_table : (FFmt.bf16, 0x7FC0, 0x7F80) ∈ [(FFmt.f32, 0x7FC00000, 0x7F800000), (.f16, 0x7E00, 0x7C00), (.bf16, 0x7FC0, 0x7F80)] ∧
    fmtValue .bf16 0x7FC0 = .nan ∧ fmtValue .bf16 0x7F80 = .inf false ∧ fmtValue .bf16 0xFF80 = .inf true ∧
    fmtValue .bf16 0x8000 = .fin true 0 (2 ^ 133) ∧ ratOf (fmtValue .bf16 0xBF80) < 0 ∧
    (0 < |ratOf (fmtValue .bf16 1)| ∧ |ratOf (fmtValue .bf16 1)| < (2 : ℚ) ^ (-128 : ℤ)) ∧ ratOf (fmtValue .bf16 0x3F80) = 1 ∧
    |ratOf (fmtValue .bf16 0x4080)| = (2 : ℚ) ^ (2 : ℤ) ∧ ratOf (fmtValue .bf16 0x4080) = (4 : ℚ) ^ (1 : ℤ) ∧
    ratOf (fmtValue .bf16 0x4080) = 2 * 2 ∧ ratOf (fmtValue .bf16 0x4080) = (4 : ℤ) := by
  have a : fmtValue .bf16 0xBF80 = .fin true 128 128 := by decide +kernel
  have b : fmtValue .bf16 1 = .fin false 1 (2 ^ 133) := by decide +kernel
  have c : fmtValue .bf16 0x3F80 = .fin false 128 128 := by decide +kernel
  have d : fmtValue .bf16 0x4080 = .fin false 128 32 := by decide +kernel
  refine ⟨by decide, by decide +kernel, by decide +kernel, by decide +kernel, by decide +kernel, ?_⟩
  rw [a, b, c, d]
  norm_num [ratOf]
/-- FCVT.f32 to e4m3 into the last sub-element, and F2I of it. -/
theorem witness_Conversions_fcvt : ((∀ k, some { plainMod .f32 with cond := 3 } = some k → k.ty = .f32) ∧
      (slotWidth .e4m3 < 32 → indexOf (some { plainMod .f32 with cond := 3 }) < 32 / slotWidth .e4m3)) ∧
    CanRun sF hN 2 ∧ ∀ c, Member sF 2 c → c.destOk false (.v 3) = true ∧ c.src (.flt .f32) (.v 0) = .ok 0x3F800000 ∧
      (slotWidth .e4m3 < 32 → c.src (.int 32) (.v 3) = .ok 0x12345678) ∧
      convFloat false .e4m3 .rne false 0 (fmtValue .f32 0x3F800000) = .ok ⟨0x38, false⟩ :=
  ⟨⟨by simp only [Option.some.injEq, forall_eq']; decide, by decide⟩, group_and (by decide +kernel)⟩
theorem witness_Conversions_integer : (∀ k, (none : Option Mod) = some k → k.ty = .f32) ∧
    CanRun sF hN 1 ∧ ∀ c, Member sF 1 c → c.destOk false (.v 8) = true ∧ c.src (.int 32) (.v 0) = .ok 0x3F800000 ∧
      convFloat false .f32 .rne false 0 (.ofInt (intValue .s32 0x3F800000)) = .ok ⟨0x4E7E0000, false⟩ ∧
      c.src (.flt .f32) (.v 0) = .ok 0x3F800000 ∧ toInteger .s32 .rne 0 (fmtValue .f32 0x3F800000) = ⟨1, false⟩ :=
  ⟨by simp, group_and (by decide +kernel)⟩
/-- HFMA2's three sources and PADD4 with random bits; FDOT2; DOT4. -/
theorem witness_PackedAndDotWords_half : (∀ k, (none : Option Mod) = some k → FloatRow.halfAdd.tyOk k = true) ∧
    CanRun sF hN 1 ∧ ∀ c, Member sF 1 c →
      FloatOperands c (.packFlt (fmtOf (tyOf none .f16))) true (.v 0) (.v 0) (.v 1) none 0x3F800000 0x7F7FFFFF 0x3F800000 0 none ∧
      c.third (.flt .f32) (.v 0) none = .ok 0x3F800000 :=
  ⟨by simp, group_and ⟨by decide +kernel, ⟨by decide +kernel, by decide +kernel, by decide +kernel, by simp [rmOf], by simp⟩, by decide +kernel⟩⟩
theorem witness_PackedAndDotWords_pack : (∀ k, some (srMod .e5m2) = some k → FloatRow.pack.tyOk k = true) ∧
    CanRun sF hN 2 ∧ ∀ c, Member sF 2 c →
      FloatOperands c (el4 (tyOf (some (srMod .e5m2)) .e4m3)) false (.v 8) (.v 0) (.v 1) (some (srMod .e5m2)) 0x3F800000 0x7F7FFFFF 0 0x12345678 none :=
  ⟨by simp only [Option.some.injEq, forall_eq']; decide,
   group_and ⟨by decide +kernel, by decide +kernel, by decide +kernel, by simp, fun _ => ⟨_, rfl, by decide +kernel⟩, by decide⟩⟩
theorem witness_PackedAndDotWords_dot : ModKind.okOpt .dot none = true ∧ CanRun sF hN 1 ∧ ∀ c, Member sF 1 c → c.destOk false (.v 3) = true ∧
    c.read2 (.packInt 4) false (.v 0) (.v 1) = .ok (0x3F800000, 0x7F7FFFFF, none) ∧ c.src (.int 32) (.v 3) = .ok 0x12345678 :=
  ⟨by decide, group_and (by decide +kernel)⟩

/-- Lanes 0 and 1 live, lane 1 with v0 = 2; the group is lane 0. -/
def sLane : State := one (vs [(0, 1)]) (fun w => { w with threads := w.threads ++ [(1, vs [(0, 2)] (Thread.start 0 0 0))] }) id
def laneVals (_ : Ctx) (l : Nat) : Nat := if l = 0 then 1 else if l = 1 then 2 else 0
theorem lanes_of {o : Ctx → Nat → Option Ctx} {read : Ctx → Except Nat Nat} {x : Nat → Nat} {c : Ctx}
    (h : ∀ l, l < 64 → (match o c l with
      | some q => read q = .ok (x l)
      | none => x l = 0)) : ∀ l, l < 64 → (∀ q, o c l = some q → read q = .ok (x l)) ∧ (o c l = none → x l = 0) := by
  intro l hl
  have := h l hl
  cases e : o c l <;> simp_all
theorem witness_LaneWords_red : (CanRun sLane hSw 1 ∧ ∀ c, Member sLane 1 c →
      c.longDest (.v 63) (if RedFn.add = .maxi then 2 else 1) (if RedFn.add = .maxi then 2 else 1) = .ok [63] ∧ c.th.longCount < 8) ∧
    LaneValues sLane laneVals (fun q => if RedFn.add = .maxi then q.src64 (.v 0) else q.src (.int 32) (.v 0)) :=
  ⟨group_and (by decide +kernel), one_all (by decide +kernel) (lanes_of (o := fun c l => c.partnerCtx l) (by
    intro l hl
    have : ∀ l, l < 64 → (match (sees sLane 1).partnerCtx l with
      | some q => decide (q.src (.int 32) (.v 0) = .ok (laneVals (sees sLane 1) l))
      | none => decide (laneVals (sees sLane 1) l = 0)) = true := by decide +kernel
    have := this l hl
    split at this <;> simpa using this))⟩
theorem witness_LaneWords_mask : (CanRun sLane hSw 1 ∧ ∀ c, Member sLane 1 c → c.longDest (.v 62) 2 2 = .ok [62, 63] ∧ c.th.longCount < 8) ∧
    ∀ c, Member sLane 1 c → c.src (.int 32) (.v 0) = .ok 1 ∧
      ∀ l q, l < 64 → Live c l q → ∃ x, q.src (.int 32) (.v 0) = .ok x := by
  refine ⟨group_and (by decide +kernel), one_all (by decide +kernel) ⟨by decide +kernel, fun l q hl hq => ?_⟩⟩
  have : ∀ l, l < 64 → ((sees sLane 1).partnerCtx l).all (fun q => (q.src (.int 32) (.v 0)).isOk) = true := by decide +kernel
  have := this l hl
  unfold Live at hq
  rw [hq] at this
  cases e : q.src (.int 32) (.v 0) with
  | ok x => exact ⟨x, rfl⟩
  | error => simp [e, Except.isOk, Except.toBool] at this

/-! ## Witnesses: results, write-backs, the front end and the dispatcher -/

/-- What holds of every entry of a map holds of whatever is found in it. -/
theorem found {α : Type} {m : FMap α} {P : Nat → α → Prop} (h : ∀ p ∈ m, P p.1 p.2) : ∀ k x, m.find? k = some x → P k x := by
  induction m with
  | nil => intro k x e; simp at e
  | cons q m ih =>
    intro k x e
    obtain ⟨a, v⟩ := q
    simp only [FMap.find?] at e
    split at e
    · next hk => subst hk; simp only [Option.some.injEq] at e; subst e; exact h (k, v) (by simp)
    · exact ih (fun p hp => h p (by simp [hp])) k x e

/-- The loader's state: partition 0 with launch 0, and workgroup 0 of one thread. -/
def sL : State := State.reset.loaded

/-- Outstanding writes 1 of v6, 2 of v5 and 3 of v6; flags alone under 4. -/
def sOut : State := sL.modThread 0 0 (fun t => { t with pend := [pendOf 1 true [6] [7], pendOf 2 true [5] [8], pendOf 3 true [6] [9]] })
theorem witness_ResultsAndResponses_land : ∃ t : Thread, sOut.thread? 0 0 = some t ∧
    t.pend = [pendOf 1 true [6] [7]] ++ pendOf 2 true [5] [8] :: [pendOf 3 true [6] [9]] ∧
    (∀ x ∈ [pendOf 1 true [6] [7]] ++ [pendOf 3 true [6] [9]], x.id ≠ (pendOf 2 true [5] [8]).id) ∧
    (pendOf 2 true [5] [8]).vals = some [(5, 8)] ∧ (∀ n ∈ (pendOf 2 true [5] [8]).names, ∃ p ∈ [(5, (8 : Word))], p.1 = n) ∧
    (∀ m ∈ t.queue, m.id ≠ (pendOf 2 true [5] [8]).id) ∧ t.seen = [] ∧ (∀ x ∈ [pendOf 1 true [6] [7]], ¬ Meets x (pendOf 2 true [5] [8])) :=
  ⟨_, rfl, by decide +kernel, by decide +kernel, by decide +kernel, by decide +kernel, by decide +kernel, by decide +kernel,
   by unfold Meets; decide +kernel⟩
theorem witness_ResultsAndResponses_held : ∃ t : Thread, sOut.thread? 0 0 = some t ∧
    t.pend = [pendOf 1 true [6] [7], pendOf 2 true [5] [8]] ++ pendOf 3 true [6] [9] :: [] ∧
    (∀ x ∈ [pendOf 1 true [6] [7], pendOf 2 true [5] [8]] ++ [], x.id ≠ (pendOf 3 true [6] [9]).id) ∧
    (pendOf 3 true [6] [9]).vals = some [(6, 9)] ∧ (∃ x ∈ [pendOf 1 true [6] [7], pendOf 2 true [5] [8]], Meets x (pendOf 3 true [6] [9])) :=
  ⟨_, rfl, by decide +kernel, by decide +kernel, by decide +kernel, by unfold Meets; decide +kernel⟩

/-- A load of workgroup 0's thread that waits for a fault. -/
def aLoad : MemOp := aPiece 0 0 0 0x8000 [5]
def sWaits : State := { sL.modThread 0 0 (fun t =>
    { t with pend := [aWrite [5]], chk := [⟨1, 0, 0, 1, false, 0, [], 1, 0, 0⟩], queue := [aLoad] }) with
  parked := [(0, ⟨0, 1, 0, 1, 0, 1, 0, .op aLoad, 0, some 0, 0x8000⟩)] }
theorem witness_ResultsAndResponses_terminal : ∃ t : Thread, sWaits.outstandingOps 0 0 1 = [aLoad] ∧ aLoad.wk = 0 ∧ aLoad.idx = 0 ∧
    1 ≤ 5 ∧ 5 ≤ 5 ∧ aLoad.spad = 0 ∧ sWaits.thread? 0 0 = some t ∧ t.st = .ready ∧ sWaits.outstandingOps 0 0 2 = [] ∧ t.st ≠ .exited :=
  ⟨_, by decide +kernel, rfl, rfl, by decide, by decide, rfl, rfl, by decide +kernel⟩

def aWord : MemWord := ⟨1, 0, 0, 1, true, 3, [lineKey 0 0 0x21000], 0, 0, 0⟩
def aLine : Line := ⟨3, [(0, 0x5A), (63, 0xA5)], [0, 63]⟩
def sDirty : State := { sL.modThread 0 0 (fun t => { t with chk := [aWord] }) with l1 := [(lineKey 0 0 0x21000, aLine)] }
theorem witness_WriteBacks_word : ∃ t : Thread, sDirty.thread? 0 0 = some t ∧ aWord ∈ t.chk ∧ (∀ x ∈ t.chk, x.id = aWord.id → x = aWord) ∧
    aWord.parked = 0 ∧ (∀ m ∈ t.queue, m.id ≠ aWord.id) ∧ FMap.sorted sDirty.l1 = true := ⟨_, rfl, by decide +kernel⟩
theorem bare_sDirty : Bare sDirty := ⟨by decide +kernel, by decide +kernel⟩
/-- A line of a core, with its first and last byte dirty. -/
theorem witness_WriteBacks_line : (sDirty.l1.find? (lineKey 0 0 (64 * 0x840)) = some aLine ∧ 0 < 64 ∧ 0x840 < 2 ^ 46 ∧
    sDirty.l1.find? (lineKey (bufOf 0) 0 (64 * 0x840)) = none ∧ (∀ o ∈ aLine.dirty, o < 64) ∧ sDirty.deltas = []) ∧ Bare sDirty :=
  ⟨by decide +kernel, bare_sDirty⟩
theorem sDirty_holder : sDirty.lineHolder 0 0 (64 * 0x840) = 0 := by
  have h : (sDirty.l1.filter (fun e => lineTag e.1 == 0 && lineAddr e.1 / 64 == 64 * 0x840 / 64 && unitCore (lineUnit e.1) == 0 &&
    !isBuf (lineUnit e.1))).map (fun e => lineUnit e.1) = [0] := by decide +kernel
  simp only [State.lineHolder, h, List.length_singleton, Nat.max_self, Nat.mod_one]
  rfl
/-- The line under the number of its core, and spoiled by an error. -/
theorem witness_WriteBacks_core : 0 < 2 ^ 16 ∧ (∃ e ∈ sDirty.l1, lineTag e.1 = 0 ∧ lineAddr e.1 / 64 = 0x840 ∧ unitCore (lineUnit e.1) = 0 ∧
    isBuf (lineUnit e.1) = false) ∧ sDirty.l1.find? (lineKey (sDirty.lineHolder 0 0 (64 * 0x840)) 0 (64 * 0x840)) = some aLine ∧
    aLine.dirty ≠ [] ∧ (64 * 0x840).testBit 51 = false := by rw [sDirty_holder]; decide +kernel
/-- A line that no L1 holds, at the end of memory. -/
theorem witness_WriteBacks_early : 63 < 64 ∧ 2 ^ 46 - 1 < 2 ^ 46 ∧ sDirty.l1.find? (lineKey 0 63 (64 * (2 ^ 46 - 1))) = none := by decide +kernel
/-- A window of controller 0 over the two megabytes at 0x200000, stored as e4m3 at 0x600000 in blocks of 32 with e8m0 scales at 0x700000;
its first byte is expanded. -/
def aWindow : Nat := 1 + 2 ^ 31 + 1 * 2 ^ 32 + 0x6000 * 2 ^ 64 + 0 * 2 ^ 108 + 1 * 2 ^ 112 + 0x7000 * 2 ^ 128 + 0x8000 * 2 ^ 192
def sWin : State := { sL.wrNat 0x700000 1 0x7F with sys := { sL.sys with rangeFmt := [(15, aWindow)] }, expanded := [(0x200000, 0x3C)] }
theorem witness_WriteBacks_block : 15 < 16 ∧ rfEnabled aWindow = true ∧ FMap.get 0 sWin.sys.rangeFmt (16 * 0 + 15) = aWindow ∧
    ctlOf (rfBase aWindow + 0 * rfBlock aWindow * rfExpBytes aWindow) = 0 ∧
    rfBase aWindow + 0 * rfBlock aWindow * rfExpBytes aWindow < rfLimit aWindow ∧
    sWin.window? (rfBase aWindow + 0 * rfBlock aWindow * rfExpBytes aWindow) = some (15, aWindow) ∧
    (∃ p ∈ sWin.expanded, rfBase aWindow + 0 * rfBlock aWindow * rfExpBytes aWindow ≤ p.1 ∧
      p.1 < rfBase aWindow + 0 * rfBlock aWindow * rfExpBytes aWindow + rfBlock aWindow * rfExpBytes aWindow) ∧
    sWin.blockFails aWindow 0 = none ∧ (∀ i ∈ rfElems aWindow 0, sWin.outlierOf aWindow 0 i = none ∧
      stOverflows (rfStFmt aWindow) (stQuo (fmtValue (rfExp aWindow) (sWin.baseNat (rfBase aWindow + i * rfExpBytes aWindow) (rfExpBytes aWindow)))
        (rfScale aWindow (sWin.rdNat (rfDesc aWindow 0) 1))) = false ∧
      (rfDesc aWindow 0 < rfStBase aWindow + i * stWidth (rfStFmt aWindow) / 8 ∨
        rfStBase aWindow + i * stWidth (rfStFmt aWindow) / 8 + 2 ≤ rfDesc aWindow 0) ∧
      ∀ k ∈ probeWindow aWindow 0, rfOutBase aWindow + 16 * k + 16 ≤ rfStBase aWindow + i * stWidth (rfStFmt aWindow) / 8 ∨
        rfStBase aWindow + i * stWidth (rfStFmt aWindow) / 8 + 2 ≤ rfOutBase aWindow + 16 * k) := by decide +kernel

/-- A host ring of 16 entries at 0x4000 that serves queue 63: its descriptor at 0x30000 with wr 1 and a kind; its record at the ring's
head; `f` adds what the record names. -/
def frontDesc (kind : Nat) : Nat := 0x4000 + 4 * 2 ^ 64 + kind * 2 ^ 69 + 63 * 2 ^ 72 + 2 ^ 78 + 1 * 2 ^ 128
def sFront (kind rcd : Nat) (f : State → State) : State :=
  f (((sL.modPart 0 (fun p => { p with ringTable := 0x30 * 2 ^ 12 + 1, observed := [(0, 1)], queues := [(63, 1)] })).wrNat 0x30000 32
    (frontDesc kind)).wrNat 0x24000 128 rcd)
def frontRing (kind : Nat) : Ring := ⟨0, 0, 0x30000, frontDesc kind⟩
/-- A launch record: one workgroup of one thread, ceiling 64; and one of ceiling 0, which R297 rejects. -/
def aRecord : Nat := 8 * 2 ^ 192
def badRecord : Nat := 0

theorem witness_FrontEndAccepts_observe : (sFront 0 aRecord id).ring? 0 0 = some (frontRing 0) ∧ (frontRing 0).valid = true ∧
    (frontRing 0).dev = false ∧ ((sFront 0 aRecord id).part 0).cfg.testBit 34 = true := by decide +kernel
theorem witness_FrontEndAccepts_launch : (sFront 0 aRecord id).nextQueue 0 = some 63 ∧
    (sFront 0 aRecord id).queueHead 0 63 = some (frontRing 0) ∧ (frontRing 0).kind = 0 ∧
    ((sFront 0 aRecord id).vGet 0 0 ((frontRing 0).entry (frontRing 0).rd) 128).toOption = some aRecord ∧
    ((((sFront 0 aRecord id).takeEntry 0 63 (frontRing 0)).judge 0 aRecord).toOption.any (fun v => match v with
      | .yes q vtab kblk variant imgs owner => q == [] && vtab == [] && kblk == 0 && variant == none && imgs == [] && owner == none
      | .no _ _ => false)) = true ∧ ((sFront 0 aRecord id).part 0).freeEntry = some 1 ∧ aRecord.testBit 776 = false ∧
    aRecord.testBit 225 = false ∧ aRecord.testBit 227 = false ∧ aRecord.testBit 226 = false ∧ bits aRecord 911 896 = 0 := by
  decide +kernel
theorem witness_FrontEndAccepts_rejected : (sFront 0 badRecord id).nextQueue 0 = some 63 ∧
    (sFront 0 badRecord id).queueHead 0 63 = some (frontRing 0) ∧ (frontRing 0).kind = 0 ∧
    ((sFront 0 badRecord id).vGet 0 0 ((frontRing 0).entry (frontRing 0).rd) 128).toOption = some badRecord ∧ badRecord.testBit 776 = false ∧
    bits badRecord 760 704 = 0 ∧ bits badRecord 911 896 = 0 ∧ lcDetail badRecord false = some 4 := by decide +kernel

/-- A raster pass of one bin, whose one buffer record at 0x5000 is the visibility buffer. -/
def passRecord : Nat := 1 * 2 ^ 608 + 0x5000 * 2 ^ 512
def visRecord : Nat := 0x6000 + 4096 * 2 ^ 64 + 8 * 2 ^ 96 + 512 * 2 ^ 128 + 3 * 2 ^ 160 + 3 * 2 ^ 165
def sPass : State := sFront 1 passRecord (fun s => s.wrNat 0x25000 32 visRecord)
theorem witness_FrontEndAccepts_pass : sPass.nextQueue 0 = some 63 ∧ sPass.queueHead 0 63 = some (frontRing 1) ∧ (frontRing 1).kind = 1 ∧
    (sPass.vGet 0 0 ((frontRing 1).entry (frontRing 1).rd) 128).toOption = some passRecord ∧ (sPass.part 0).freeEntry = some 1 ∧
    rpRsvd passRecord = false ∧ bits passRecord 824 768 % 64 = 0 ∧ bits passRecord 696 640 % 32 = 0 ∧ bits passRecord 568 512 % 32 = 0 ∧
    bits passRecord 612 608 ≤ 16 ∧ rpTag passRecord = 0 ∧
    (((List.range (bits passRecord 612 608)).mapM (fun i => (((sPass.takeEntry 0 63 (frontRing 1)).numberDone 0 (bits passRecord 455 448) true).1).vGet
      0 (rpTag passRecord) (bits passRecord 568 512 + 32 * i) 32)).toOption = some [visRecord]) ∧
    (((sPass.takeEntry 0 63 (frontRing 1)).numberDone 0 (bits passRecord 455 448) true).1).bindOk 0 visRecord = true ∧
    bits visRecord 162 160 = 3 ∧ recRights visRecord = 3 := by decide +kernel

/-- A frame graph of one node, its header at 0x6000. -/
def graphRecord : Nat := 0x6000
def graphHeader : Nat := 1
def graphNode : Nat := 0xFFFFFFFF * 2 ^ 224
def sGraph : State := sFront 2 graphRecord (fun s => (s.wrNat 0x26000 64 graphHeader).wrNat 0x26040 64 graphNode)
theorem witness_FrontEndAccepts_graph : sGraph.nextQueue 0 = some 63 ∧ sGraph.queueHead 0 63 = some (frontRing 2) ∧ (frontRing 2).kind = 2 ∧
    (sGraph.vGet 0 0 ((frontRing 2).entry (frontRing 2).rd) 128).toOption = some graphRecord ∧ (sGraph.part 0).freeEntry = some 1 ∧
    graphRecord.testBit 136 = false ∧ gsRsvd graphRecord = false ∧ gsHeader graphRecord % 64 = 0 ∧ bits graphRecord 120 64 % 16 = 0 ∧
    lcTag graphRecord = 0 ∧
    ((sGraph.takeEntry 0 63 (frontRing 2)).vGet 0 (lcTag graphRecord) (gsHeader graphRecord) 64).toOption = some graphHeader ∧
    ((List.range (min (ghNodes graphHeader) 256)).mapM (fun i => (sGraph.takeEntry 0 63 (frontRing 2)).vGet 0 (lcTag graphRecord) (gsNode graphRecord i) 64)).toOption
      = some [graphNode] ∧ graphOk graphHeader [graphNode] = true := by decide +kernel

/-- Bind slot 15 of column 0 holds launch 0 of partition 0, which runs on no core yet. -/
def slot15 : Nat := 2 ^ 63 + 0xFF * 2 ^ 49
def sPlot : State := { (sL.modCol 0 (fun c => { c with slots := [(15, slot15)] })).modLaunch 0 0 (fun l => { l with ticket := 0 }) with wgs := [] }
theorem witness_DispatchAndFree_dispatch : ∃ l : Launch, (sPlot.col 0).fresh = [] ∧ (sPlot.col 0).slots = [(15, slot15)] ∧
    slot15.testBit 63 = true ∧ slPart slot15 = 0 ∧ slLtab slot15 = 0 ∧ sPlot.launch? 0 0 = some l ∧ l.claim = some (.fresh 0) ∧
    sPlot.slotKept 0 15 = false ∧ ((sPlot.part 0).swapCtl.testBit 60 = false ∧ (sPlot.part 0).swapCtl.testBit 62 = true) ∧ slMax slot15 = 0 ∧ l.membersOf 0 = [0] ∧
    sPlot.placement 0 slot15 l (.fresh 0) = some [0] ∧ ∃ c, c < 32 ∧ sPlot.wgs.find? (32 * 0 + c) = none :=
  ⟨_, by decide +kernel, by decide +kernel, by decide +kernel, by decide +kernel, by decide +kernel, rfl, by decide +kernel,
    by decide +kernel, by decide +kernel, by decide +kernel, by decide +kernel, by decide +kernel, 31, by decide, by decide +kernel⟩

/-- The slot's partition is swapped out, or on its way. -/
theorem witness_DispatchAndFree_swapped : ∀ c ∈ ([2 ^ 60 + 2 ^ 62, 0] : List Nat),
    let s := sPlot.modPart 0 (fun p => { p with swapCtl := c })
    (s.col 0).fresh = [] ∧ ∀ x ∈ (s.col 0).slots, x.2.testBit 63 = true →
      (s.part (slPart x.2)).swapCtl.testBit 60 = true ∨ s.swappingOut (slPart x.2) = true := by decide +kernel

/-- Workgroup 0 drains, in a launch of two plots and in one of one plot that names a completion record at 0x5000. -/
def sDrain (rcd : Nat) : State := (sL.modWg 0 (fun w => { w with draining := true })).modLaunch 0 0 (fun l => { l with rcd := rcd })
theorem witness_DispatchAndFree_free : ∃ (w : Wg) (l : Launch), (sDrain (8 * 2 ^ 192 + 1 * 2 ^ 80)).wgs.find? 0 = some w ∧ w.draining = true ∧
    (sDrain (8 * 2 ^ 192 + 1 * 2 ^ 80)).settledWg 0 w = true ∧ w.traced = false ∧ w.det = false ∧ w.stopped = none ∧
    (sDrain (8 * 2 ^ 192 + 1 * 2 ^ 80)).launch? w.part w.ltab = some l ∧ l.kind = 0 ∧ l.ready = true ∧ l.status = none ∧
    l.membersOf w.plot = [w.wgid] ∧ (∀ p ∈ l.members, p.1 ≠ w.plot) ∧ l.plotsFree + 1 < l.plots ∧
    (∀ e ∈ ((sDrain (8 * 2 ^ 192 + 1 * 2 ^ 80)).part w.part).ltab, e.2.resumeOf = none) :=
  ⟨_, _, rfl, by decide +kernel, by decide +kernel, by decide +kernel, by decide +kernel, by decide +kernel, rfl, by decide +kernel,
    by decide +kernel, by decide +kernel, by decide +kernel, by decide +kernel, by decide +kernel, by decide +kernel⟩
def lastRcd : Nat := 8 * 2 ^ 192 + 0x5000 * 2 ^ 704
theorem bare_sDrain : Bare (sDrain lastRcd) := ⟨by decide +kernel, by decide +kernel⟩
theorem witness_DispatchAndFree_last : ∃ (w : Wg) (l : Launch), (sDrain lastRcd).wgs.find? 0 = some w ∧ w.draining = true ∧
    (sDrain lastRcd).settledWg 0 w = true ∧ w.traced = false ∧ w.det = false ∧ w.stopped = none ∧ (sDrain lastRcd).launch? w.part w.ltab = some l ∧
    l.kind = 0 ∧ l.ready = true ∧ l.status = none ∧ l.membersOf w.plot = [w.wgid] ∧ (∀ p ∈ l.members, p.1 ≠ w.plot) ∧ l.plots = l.plotsFree + 1 ∧
    (∀ e ∈ ((sDrain lastRcd).part w.part).ltab, e.2.resumeOf = none) ∧ (∀ j x, j ≠ 0 → (sDrain lastRcd).wgs.find? j = some x → x.ltab ≠ w.ltab ∨ x.part ≠ w.part) ∧
    (∀ p q, p ∈ (sDrain lastRcd).wgs → q ∈ (sDrain lastRcd).wgs → p.1 = q.1 → p = q) ∧ lcRelaunch l.rcd = false ∧ l.regions = [] ∧ l.node = none ∧
    Bare (sDrain lastRcd) ∧ bits l.rcd 760 704 ≠ 0 ∧ bits l.rcd 760 704 % 16 = 0 ∧
    (sDrain lastRcd).xlate w.part (bits l.rcd 760 704) false true false = .ok 0x25000 false ∧ (sDrain lastRcd).linkHeld 0x25000 = false :=
  ⟨_, _, rfl, by decide +kernel, by decide +kernel, by decide +kernel, by decide +kernel, by decide +kernel, rfl, by decide +kernel,
    by decide +kernel, by decide +kernel, by decide +kernel, by decide +kernel, by decide +kernel, by decide +kernel,
    fun j x hj hx => absurd (found (P := fun k _ => k = 0) (by decide +kernel) j x hx) hj,
    fun p q hp hq => (show ∀ p ∈ (sDrain lastRcd).wgs, ∀ q ∈ (sDrain lastRcd).wgs, p.1 = q.1 → p = q by decide +kernel) p hp q hq,
    by decide +kernel, by decide +kernel, by decide +kernel, bare_sDrain, by decide +kernel, by decide +kernel, by decide +kernel, by decide +kernel⟩

/-- Launch 1, bound in slot 1 of column 0 at prio 1, asks for room within `bound` microseconds of a column that its threshold calls full;
workgroup 0 of launch 0, placed by slot 0, is its only candidate. -/
def slot1 : Nat := 2 ^ 63 + 1 * 2 ^ 57 + 0xFF * 2 ^ 49 + 1 * 2 ^ 22
def sAsk (bound : Nat) (w : Wg → Wg) (avg : Option Nat) : State :=
  (((sL.modCol 0 (fun c => { c with slots := [(1, slot1)], cfg := 0 })).modWg 0 w).modPart 0 (fun p =>
    { p with queues := [(63, 2 ^ 6 + 1)],
             ltab := [(0, { loaderLaunch with avg := avg }), (1, { loaderLaunch with num := 2, rcd := 8 * 2 ^ 192 + bound * 2 ^ 800, ticket := 0, queue := 63 })] }))
def aVictim : Victim := ⟨0, 0, 0, 0, 0, 0, [0], true⟩
def Asked (s : State) (bound : Nat) (y : Way) (missed : Bool) : Prop :=
  s.requests 0 1 = true ∧ s.leaving 0 1 = false ∧ ((s.launch? 0 1).map (fun l => bits l.rcd 831 800)) = some bound ∧
  s.chooseVictim (requestCandidates s 0 1) bound = some (aVictim, y, missed)
theorem witness_Preemption_drain : Asked (sAsk 1 id (some 10)) 1 .drain false := by unfold Asked; decide +kernel
theorem witness_Preemption_flush : Asked (sAsk 0xFFFFFFFF id none) 0xFFFFFFFF .flush false ∧
    ∀ k ∈ aVictim.keys, (sAsk 0xFFFFFFFF id none).quietWg k = true := by unfold Asked; decide +kernel
theorem witness_Preemption_missed : Asked (sAsk 1 (fun w => { w with flush := false }) none) 1 .save true ∧
    bits ((sAsk 1 (fun w => { w with flush := false }) none).part 0).schedLog 47 32 = 0 := by unfold Asked; decide +kernel

def sSave : State := sL.modWg 0 (fun w => { w with saving := true })
theorem witness_Preemption_save : ∃ (w : Wg) (l : Launch), sSave.wgs.find? 0 = some w ∧ w.saving = true ∧ w.flushing = false ∧
    w.draining = false ∧ (sSave.part w.part).swapCtl.testBit 62 = true ∧ sSave.plotWgs w.part w.ltab w.plot = [(0, w)] ∧
    sSave.savable 0 w = true ∧ (∀ t ∈ w.threads, ¬ (t.2.st = .ended ∧ t.2.op = some .exit)) ∧ w.staging = [] ∧ w.wgid < 8 ∧
    sSave.launch? w.part w.ltab = some l :=
  ⟨_, _, rfl, by decide +kernel, by decide +kernel, by decide +kernel, by decide +kernel, by decide +kernel, by decide +kernel,
    by decide +kernel, by decide +kernel, by decide +kernel, rfl⟩
def sNp : State := sL.modWg 0 (fun w => { w with np := true, nptime := 0 })
theorem witness_Preemption_overrun : ∃ (w : Wg) (t : Thread), sNp.wgs.find? 0 = some w ∧ w.np = true ∧ w.draining = false ∧ w.saving = false ∧
    (sNp.part w.part).cfg.testBit 35 = false ∧ w.threads = [(0, t)] ∧ t.st ≠ .exited ∧ t.st ≠ .trapped :=
  ⟨_, _, rfl, by decide +kernel, by decide +kernel, by decide +kernel, by decide +kernel, rfl, by decide +kernel, by decide +kernel⟩
def sHot : State := sL.modCol 0 (fun c => { c with stretch := [3] })
theorem witness_Preemption_hot : 3 ∈ (sHot.col 0).stretch ∧ (∀ p ∈ sHot.wgs, p.2.core / 8 = 0 → p.2.saving = false) ∧
    (sHot.candidates 0 16).filter (fun x => x.whole) = [aVictim] := by decide +kernel

/-- Launch 0's plot 0 has been saved, and column 0 has had it taken by thermal control. -/
def sOusted : State := (sPlot.modLaunch 0 0 (fun l => { l with returned := [.saved 0 []] })).modCol 0 (fun c => { c with ousted := [(0, 1, 0)] })
theorem witness_Preemption_ousted : ∃ l : Launch, (sOusted.col 0).fresh = [] ∧ (sOusted.col 0).slots = [(15, slot15)] ∧
    sOusted.launch? (slPart slot15) (slLtab slot15) = some l ∧ l.claim = some (.back (.saved 0 [])) ∧
    sOusted.launch? (slPart slot15) (l.home (slLtab slot15)) = some l ∧ (slPart slot15, l.num, 0) ∈ (sOusted.col 0).ousted :=
  ⟨_, by decide +kernel, by decide +kernel, rfl, by decide +kernel, rfl, by decide +kernel⟩

def sWant : State := sL.modCol 33 (fun c => { c with want := some (650, 1350) })
theorem witness_ClockAndSupply : (sWant.col 33).want = some (650, 1350) := by decide +kernel

/-! ## Witnesses: engines and graphics -/

/-- A plan that exists and meets a test. -/
def okAll {α ε : Type} (x : Except ε α) (p : α → Bool) : Bool := match x with
  | .ok a => p a
  | .error _ => false
theorem of_ok {α ε : Type} {x : Except ε α} {p : α → Bool} (h : okAll x p = true) : ∃ a, x = .ok a ∧ p a = true := by
  cases x with
  | ok a => exact ⟨a, rfl, h⟩
  | error _ => simp [okAll] at h

/-- A copy of `bytes` bytes from the scratchpad's start to a place of it, counted by the trellis at 256. -/
def aCopyRcd (bytes dst : Nat) : Nat := (bytes - 1) * 2 ^ 24 + 16 * 2 ^ 10 + 2 ^ 9 + (dst * 4) * 2 ^ 160
def aCopy (bytes dst : Nat) : Copy :=
  { rcd := aCopyRcd bytes dst, wk := 0, idx := 0, tag := 0, part := 0, launch := 1, ltab := 0, gen := 0, det := false, recs := [],
    started := false, done := 0, parked := false, pruned := false }
def sCopy (r : Copy) : State := { (sL.modWg 0 (fun w => { w with spadKiB := 1, spad := [(0, 0x11), (15, 0x22), (256, 16)] })) with
  cores := [(0, { Core.zero with chans := [(3, ⟨2 ^ 64 - 8, [r]⟩)] })] }
theorem witness_CopyChannels_start : (chanOf (sCopy (aCopy 16 1008)) 0 3).reqs = aCopy 16 1008 :: [] ∧ (aCopy 16 1008).started = false ∧
    (sCopy (aCopy 16 1008)).startable 0 = true ∧
    ∃ p, (sCopy (aCopy 16 1008)).copyPlan 0 (aCopy 16 1008)
      [(sCopy (aCopy 16 1008)).descRec ((sCopy (aCopy 16 1008)).copyReq (aCopy 16 1008) 0) (cpSrc (aCopy 16 1008).rcd),
       (sCopy (aCopy 16 1008)).descRec ((sCopy (aCopy 16 1008)).copyReq (aCopy 16 1008) 0) (cpDst (aCopy 16 1008).rcd)] = .ok p :=
  ⟨by decide +kernel, by decide +kernel, by decide +kernel, (of_ok (p := fun _ => true) (by decide +kernel)).imp (fun _ h => h.1)⟩
/-- One byte further is out of the scratchpad. -/
def badCopy : Copy := { aCopy 16 1009 with rcd := (aCopyRcd 16 1009) - 2 ^ 9 }
theorem witness_CopyChannels_refused : (chanOf (sCopy badCopy) 0 3).reqs = badCopy :: [] ∧ badCopy.started = false ∧
    (sCopy badCopy).startable 0 = true ∧
    ((sCopy badCopy).copyPlan 0 badCopy [(sCopy badCopy).descRec ((sCopy badCopy).copyReq badCopy 0) (cpSrc badCopy.rcd),
      (sCopy badCopy).descRec ((sCopy badCopy).copyReq badCopy 0) (cpDst badCopy.rcd)] matches .error ⟨3, 1009, 0⟩) = true ∧
    (sCopy badCopy).arrivalDropped badCopy = false ∧ cpTuse badCopy.rcd = false ∧ bits ((sCopy badCopy).core 0).err 63 60 = 0 ∧ 3 < 16 := by
  decide +kernel
/-- Of a started request the last byte is left: an arrival brings it, whatever place its free number gives. -/
def goCopy : Copy := { aCopy 16 1008 with started := true, recs := [0, 0], done := 15 }
theorem goCopy_arriving (clock : Nat) : goCopy.arriving 1 (max 16 1) clock = [15] := by
  have h : (goCopy.total - goCopy.done) / 1 = 1 := by decide +kernel
  simp only [Copy.arriving, h, Nat.max_self, Nat.mod_one]
  decide
theorem witness_CopyChannels_arrival : ((chanOf (sCopy goCopy) 0 3).reqs = goCopy :: [] ∧ goCopy.started = true ∧ goCopy.parked = false ∧
    (sCopy goCopy).arrivalDropped goCopy = false ∧ cpRed goCopy.rcd = 0 ∧ cpTuse goCopy.rcd = true ∧ goCopy.wk + 3 < 2 ^ 20 ∧
    ((sCopy goCopy).wgs.find? goCopy.wk).isSome = true ∧ 1 ≤ leNat (fun j => spadByte (sCopy goCopy) goCopy.wk (cpTrel goCopy.rcd + j)) 4) ∧
    (∀ w, (sCopy goCopy).wgs.find? goCopy.wk = some w → w.traced = false) ∧ goCopy.arriving 1 (max 16 1) (sCopy goCopy).clock = [15] ∧
    ∃ p, (sCopy goCopy).copyPlan 0 goCopy goCopy.recs = .ok p ∧ let x := copyPair p (cpBytes goCopy.rcd) 15
      decide ((3 ≤ x.2.space ∧ x.2.space < 2 ^ 20 ∧ ((sCopy goCopy).wgs.find? (x.2.space - 3)).isSome = true) ∧
        (sCopy goCopy).engineHeld ((sCopy goCopy).copyReq goCopy 0) [x.1] [x.2] false = none ∧
        (x.2.addr < cpTrel goCopy.rcd ∨ cpTrel goCopy.rcd + 16 ≤ x.2.addr)) = true :=
  ⟨by decide +kernel, of_option (by decide +kernel), goCopy_arriving _, of_ok (by decide +kernel)⟩

/-- A multiply of 16 × 16 × 1 in e4m3 on stream 63: A and the destination in the scratchpad, B in the weight buffer; and a JOIN. -/
def taskRcd (op : Nat) : Nat := if op = 2 then 2 + 63 * 2 ^ 44
  else 2 * 2 ^ 4 + 2 * 2 ^ 9 + 3 * 2 ^ 14 + 63 * 2 ^ 44 + 16 * 2 ^ 24 * 2 ^ 64 + 3 * 2 ^ 160 + (768 * 4 + 16 * 2 ^ 24) * 2 ^ 256
def aTask (op : Nat) (eng : Option Nat) (recs : List Nat) : Task :=
  { rcd := taskRcd op, num := 1, part := 0, tag := 0, wk := 0, core := 7, launch := 1, ltab := 0, status := none, eng := eng, block := 0,
    recs := recs, parked := false, since := 0, pruned := false, shadowed := false, out := [] }
def sTask (t : Task) : State := { ((sL.modWg 0 (fun w => { w with spadKiB := 1, spad := [(0, 0x38)] })).modCol 0 (fun c =>
  { c with tasks := [t], weight := [(0, 0x40)] })) with clock := 4096 }
def Starts (s : State) (col eng : Nat) (t : Task) : Prop := eng < 4 ∧ (∀ x ∈ (s.col col).tasks, x.eng ≠ some eng) ∧ s.nextTask col = some t ∧
  OneTask s col t ∧ t.recs = [] ∧ t.status = none ∧ t.pruned = false ∧ t.shadowed = false ∧ (s.taskCheck t (s.taskRecs t)).isNone = true
theorem witness_MatrixTasks_start : Starts (sTask (aTask 0 none [])) 0 3 (aTask 0 none []) ∧ tkOp (aTask 0 none []).rcd ≠ 2 := by
  unfold Starts OneTask; decide +kernel
theorem witness_MatrixTasks_join : Starts (sTask (aTask 2 none [])) 0 3 (aTask 2 none []) ∧ tkOp (aTask 2 none []).rcd = 2 ∧
    tkStat (aTask 2 none []).rcd = 0 ∧ ((sTask (aTask 2 none [])).stream 0 63).counter + 1 = 1 := by unfold Starts OneTask; decide +kernel
def onTask : Task := aTask 0 (some 3) [0, 0, 0]
def taskPlan : Plan := ⟨mfPlain (.flt .e4m3) 48 false, mfPlain (.flt .e4m3) 48 false, mfPlain (.flt .e4m3) 48 false, 16, 1⟩
theorem witness_MatrixTasks_block : (OnEngine (sTask onTask) 0 3 onTask ∧ onTask.parked = false ∧ onTask.pruned = false ∧ onTask.shadowed = false ∧
      ((sTask onTask).part onTask.part).cfg.testBit 36 = false ∧ onTask.todo = [] ∧ tkOp onTask.rcd = 0 ∧ planOf onTask.rcd = some taskPlan) ∧
    (∀ w, (sTask onTask).wgs.find? onTask.wk = some w → w.traced = false) ∧
    ∃ rs, (sTask onTask).mmaRows onTask taskPlan onTask.recs = .ok rs ∧
      decide ((sTask onTask).engineHeld onTask.req (blockReads onTask taskPlan rs)
          (((blockRows onTask).flatMap (fun i => (blockCols onTask).map (fun j => (i, j)))).flatMap (fun c => dstLocs rs taskPlan.fd c.1 c.2)) false
          = none) = true :=
  ⟨by unfold OnEngine OneTask; decide +kernel, of_option (by decide +kernel), of_ok (by decide +kernel)⟩
/-- Two pieces of a block are still to be written. -/
def todoTask : Task := { onTask with todo := [(3, 768, 0x11), (3, 1023, 0x22)] }
theorem witness_MatrixTasks_pieces : OnEngine (sTask todoTask) 0 3 todoTask ∧ (todoTask.parked = false ∧ todoTask.pruned = false ∧
    ((sTask todoTask).part todoTask.part).cfg.testBit 36 = false ∧ todoTask.shadowed = false ∧ todoTask.todo ≠ [] ∧ tkOp todoTask.rcd = 0 ∧
    tkStat todoTask.rcd = 0 ∧ (todoTask.todo.map (fun e => (e.1, e.2.1))).Nodup) ∧ ∀ e ∈ todoTask.todo, InSpad (sTask todoTask) ⟨e.1, e.2.1⟩ := by
  refine ⟨by unfold OnEngine OneTask; decide +kernel, by decide +kernel, fun e he => ?_⟩
  have : e.1 = 3 := by
    simp only [todoTask, List.mem_cons, List.not_mem_nil, or_false] at he
    rcases he with rfl | rfl <;> rfl
  exact ⟨by simp [this], by simp [this], by simp only [this]; exact ⟨_, rfl⟩⟩
def parkedTask : Task := { onTask with parked := true }
theorem witness_MatrixTasks_spill : OnEngine (sTask parkedTask) 0 3 parkedTask ∧ parkedTask.parked = true ∧
    parkedTask.ask + 4096 ≤ (sTask parkedTask).clock := by unfold OnEngine OneTask; decide +kernel
/-- Its partition is halted and not on its way out. -/
def sHalted : State := (sTask onTask).modPart 0 (fun p => { p with cfg := p.cfg + 2 ^ 36 })
theorem witness_MatrixTasks_halted : OnEngine sHalted 0 3 onTask ∧ (sHalted.part onTask.part).cfg.testBit 36 = true ∧
    sHalted.swappingOut onTask.part = false := by unfold OnEngine OneTask; decide +kernel

/-- A hierarchy at 0x21000, in a page of 64 MiB: a box node of bounds at the origin. Its first child, at unit 2, is a triangle with a vertex
at the origin, or it has no child. A ray of the thread leaves the origin along z within [0, 1]. -/
def rayRecord : Nat := 0x21000 + 48 * 2 ^ 64 + 1 * 2 ^ 96 + 192 * 2 ^ 128 + 2 * 2 ^ 160 + 1 * 2 ^ 165
def aRay0 : Ray := ⟨0, 0, 1, 0, 0, rayRecord, [0, 0, 0, 0, 0, 0x3F800000, 0, 0x3F800000], 16, false, 0, 0, 0⟩
def rayPend : Pend := { pendOf 1 false [60, 61, 62, 63] [] with vals := none }
def rayMem (hit : Bool) : List Host.Cell :=
  [(0x10000, 1), (0x10001, 0x40), (0x10002, 1), (0x14000, 1), (0x14001, 0x60), (0x14002, 1), (0x16000, 0x1F)] ++
  (if hit then [(0x21000, 2), (0x21003, 0x40), (0x21007, 0xC0), (0x2100B, 0xC0), (0x2100F, 0xC0), (0x2108E, 0x80), (0x2108F, 0x3F),
     (0x2109E, 0x80), (0x2109F, 0x3F), (0x210A8, 7)]
   else [(0x21003, 0xC0), (0x21007, 0xC0), (0x2100B, 0xC0), (0x2100F, 0xC0)])
def sRay (hit : Bool) : State := { State.reset with
  mem := rayMem hit
  parts := [(0, { Part.zero with cfg := 2 ^ 34 + 1, xroot := 0x10000 + 1, ltab := [(0, loaderLaunch)] })]
  wgs := [(0, { loaderWg 0 with threads := [(0, { Thread.start 0 0 0 with pend := [pendOf 2 false [59] [1], rayPend] })] })]
  cols := [(0, { Col.start 0 with rays := [(3, aRay0)] })] }
def Rays (s : State) (y : Ray) (w : Wg) (t : Thread) : Prop :=
  (s.col 0).rays.find? 3 = some y ∧ y.parked = false ∧ s.wgs.find? y.wk = some w ∧ s.thread? y.wk y.idx = some t ∧
  t.pend = [pendOf 2 false [59] [1]] ++ rayPend :: [] ∧ rayPend.id = y.id ∧ (∀ x ∈ [pendOf 2 false [59] [1]] ++ ([] : List Pend), x.id ≠ y.id) ∧
  (∀ x ∈ [pendOf 2 false [59] [1]], ¬ Meets x rayPend) ∧ rayPend.names = [60, 61, 62, 63] ∧ rayPend.live = [60, 61, 62, 63] ∧
  rayPend.ccF = false ∧ rayPend.ccA = false
theorem witness_GraphicsSteps_hit : ∃ (w : Wg) (t : Thread), Rays (sRay true) aRay0 w t ∧
    ∃ a, (sRay true).rayWalk { w.reqOf 0 with part := 0, tag := 0 } aRay0 0 (sRay true).fresh (rayExtent rayRecord / 64 + 2) 0 (none, false)
      = .ok a ∧ decide (a.1.map (fun h => (h.t, h.geo, h.prim)) = some (0, 0, 7)) = true :=
  ⟨_, _, ⟨by decide +kernel, by decide, rfl, rfl, by decide +kernel, by decide, by decide, by unfold Meets; decide +kernel, rfl, rfl, rfl, rfl⟩,
    of_ok (by decide +kernel)⟩
theorem witness_GraphicsSteps_miss : ∃ (w : Wg) (t : Thread), Rays (sRay false) aRay0 w t ∧
    ∃ a, (sRay false).rayWalk { w.reqOf 0 with part := 0, tag := 0 } aRay0 0 (sRay false).fresh (rayExtent rayRecord / 64 + 2) 0 (none, false)
      = .ok a ∧ decide (a.1 = none) = true :=
  ⟨_, _, ⟨by decide +kernel, by decide, rfl, rfl, by decide +kernel, by decide, by decide, by unfold Meets; decide +kernel, rfl, rfl, rfl, rfl⟩,
    of_ok (by decide +kernel)⟩

/-- A clockwise triangle of area 4 and one across its long edge, with a point inside the first and one on the edge. -/
def tri1 : Tri := ⟨⟨0, 0, 0⟩, ⟨4, 0, 0⟩, ⟨0, 4, 0⟩⟩
theorem witness_GraphicsSteps_covers : 0 < tri1.area ∧ (0 < edgeFn tri1.a tri1.b 1 1 ∧ 0 < edgeFn tri1.b tri1.c 1 1 ∧ 0 < edgeFn tri1.c tri1.a 1 1) ∧
    edgeFn tri1.a tri1.b 1 (-1) < 0 ∧ 0 < (Tri.mk tri1.c tri1.b ⟨4, 4, 0⟩).area ∧ edgeFn tri1.b tri1.c 2 2 = 0 ∧ 0 < edgeFn tri1.c tri1.a 2 2 ∧
    0 < edgeFn tri1.a tri1.b 2 2 ∧ 0 < edgeFn tri1.b ⟨4, 4, 0⟩ 2 2 ∧ 0 < edgeFn ⟨4, 4, 0⟩ tri1.c 2 2 := by decide

/-- A pass of one pixel and two bins: of its two draw records at 0x5000 one is accepted and one is refused; its one sample lies at 0x6000. -/
def binRcd : Nat := 0x5000 * 2 ^ 640 + 2 ^ 496 + 0x7000 * 2 ^ 768
def binTri1 : Binned := ⟨0, 0, [0, 0x40000000, 0x40000000 * 2 ^ 32], [0]⟩
def aPass (started : Bool) (bins : List Nat) (tris : List Binned) : Pass := ⟨0, 0, 1, bins, [0, 0, 0, 0, 0, 0], false, started, [], tris, none⟩
def sBins (p : Pass) : State := ({ sL.modLaunch 0 0 (fun l => { l with kind := 1, rcd := binRcd, q := [(0, visRecord)] }) with
  passes := [(9, p)] }).wrNat 0x25020 32 (2 ^ 256 - 1)
def lBins : Launch := { loaderLaunch with kind := 1, rcd := binRcd, q := [(0, visRecord)] }
theorem witness_GraphicsSteps_start : ((sBins (aPass false [0, 1] [])).passes.find? 9 = some (aPass false [0, 1] []) ∧
      (sBins (aPass false [0, 1] [])).launch? 0 0 = some lBins ∧ lBins.status ≠ some 4 ∧ (sBins (aPass false [0, 1] [])).startable 0 = true ∧
      (aPass false [0, 1] []).held = none ∧ rpHz lBins.rcd = 0) ∧
    ∃ ds, (sBins (aPass false [0, 1] [])).draws (aPass false [0, 1] []) lBins = .ok ds ∧
      (ds.map drRefused == [false, true] && ds.all (fun d => drRefused d || (List.range (drPrims d)).all (fun n =>
        okAll ((sBins (aPass false [0, 1] [])).vertices (aPass false [0, 1] []) lBins d n) (fun _ => true)))) = true :=
  ⟨by decide +kernel, of_ok (by decide +kernel)⟩
theorem bare_sBins (p : Pass) : Bare (sBins p) := ⟨rfl, by
  have h : (sBins p).parts = (sBins (aPass true [] [])).parts := rfl
  rw [h]; decide +kernel⟩

/-- The table entries that a walk reads. -/
def walkReads (s : State) (va : Nat) : List Level → Nat → List Nat
  | [], _ => []
  | l :: ls, table =>
    let a := table + 8 * (va / 2 ^ l.shift % 2 ^ l.bits)
    a :: walkReads s va ls (bits (s.baseNat a 8) 51 8 * 256)
theorem walk_congr {s t : State} (hp : t.poison = s.poison) (hw : t.sys = s.sys) (va : Nat) : ∀ (ls : List Level) (table : Nat),
    (∀ a ∈ walkReads s va ls table, t.baseNat a 8 = s.baseNat a 8) → t.walk va ls table = s.walk va ls table
  | [], _, _ => rfl
  | l :: ls, table, h => by
    simp only [walkReads, List.mem_cons, forall_eq_or_imp] at h
    have hh : ∀ a r w, t.hostAllowed a r w = s.hostAllowed a r w := fun a r w => by simp only [State.hostAllowed, hw]
    simp only [State.walk, h.1, hp, hh, walk_congr hp hw va ls _ h.2]
/-- Bytes that the tables do not hold do not count in a translation. -/
theorem xlate_mem {s : State} {mem : List Host.Cell} {part va : Nat} {r w : Bool} (hb : s.sys.rangeFmt = [])
    (h : ∀ a ∈ walkReads s (va % 2 ^ 57) levels (bits (s.part part).xroot 51 14 * 2 ^ 14), ∀ i, i < 8 →
      ({ s with mem := mem } : State).rd (a + i) = s.rd (a + i)) :
    ({ s with mem := mem } : State).xlate part va r w false = s.xlate part va r w false := by
  have base : ∀ (u : State), u.sys.rangeFmt = [] → ∀ a, u.base a = u.rd a := fun u hu a => by
    simp [State.base, State.window?, hu]
  have hl : ({ s with mem := mem } : State).leaf part (va % 2 ^ 57) = s.leaf part (va % 2 ^ 57) := by
    have hp : (({ s with mem := mem } : State).part part) = s.part part := rfl
    have e := walk_congr (s := s) (t := { s with mem := mem }) rfl rfl (va % 2 ^ 57) levels (bits (s.part part).xroot 51 14 * 2 ^ 14)
      (fun a ha => by
        simp only [State.baseNat]
        congr 1
        refine List.map_congr_left (fun i hi => ?_)
        exact ((base { s with mem := mem } hb (a + i)).trans (h a ha i (List.mem_range.mp hi))).trans (base s hb (a + i)).symm)
    simp only [State.leaf, hp, e]
  unfold State.xlate
  rw [hl]
  rfl
theorem witness_GraphicsSteps_bin : ((sBins (aPass true [0, 1] [binTri1])).passes.find? 9 = some (aPass true [0, 1] [binTri1]) ∧
      (sBins (aPass true [0, 1] [binTri1])).launch? 0 0 = some lBins ∧ 0 ∈ (aPass true [0, 1] [binTri1]).bins ∧ rpTag lBins.rcd = 0 ∧
      (∃ x ∈ (aPass true [0, 1] [binTri1]).bins, x ≠ 0) ∧ (sBins (aPass true [0, 1] [binTri1])).poison = [] ∧
      (sBins (aPass true [0, 1] [binTri1])).sets = [] ∧ (∀ b ∈ (aPass true [0, 1] [binTri1]).tris, b.prim < 2 ^ 24) ∧
      sampleWords lBins.rcd [binTri1] 0 0 0 = [0]) ∧ Bare (sBins (aPass true [0, 1] [binTri1])) ∧
    InBin lBins.rcd 0 0 0 0 ∧ SamplesAt (sBins (aPass true [0, 1] [binTri1])) (aPass true [0, 1] [binTri1]) lBins 0 (fun _ _ _ => 0x26000) := by
  have one : ∀ x y i, InBin lBins.rcd 0 x y i → (x, y, i) = (0, 0, 0) := fun x y i h => by
    have hw : rpWidth lBins.rcd = 1 := by decide +kernel
    have hh : rpHeight lBins.rcd = 1 := by decide +kernel
    have hs : rpSamples lBins.rcd = 1 := by decide +kernel
    obtain ⟨-, -, hx, hy, hi⟩ := h
    rw [hw] at hx; rw [hh] at hy; rw [hs] at hi
    simp only [Nat.lt_one_iff] at hx hy hi
    rw [hx, hy, hi]
  refine ⟨by decide +kernel, bare_sBins _, by unfold InBin; decide +kernel, fun x y i x' y' i' h h' ne => absurd ((one x y i h).trans (one x' y' i' h').symm) ne,
    fun _ _ _ _ => (by decide +kernel : (sBins (aPass true [0, 1] [binTri1])).linkHeld 0x26000 = false), fun mem ht x y i h => ?_⟩
  obtain ⟨rfl, rfl, rfl⟩ : x = 0 ∧ y = 0 ∧ i = 0 := by simpa using one x y i h
  refine ⟨0x6000, by decide +kernel, by decide, ?_⟩
  show ({ sBins (aPass true [0, 1] [binTri1]) with mem := mem } : State).xlate 0 0x6000 true true false = _
  rw [xlate_mem (s := sBins (aPass true [0, 1] [binTri1])) rfl]
  · decide +kernel
  · intro a ha j hj
    refine ht _ (fun x y i _ => .inl ?_)
    have : ∀ b ∈ walkReads (sBins (aPass true [0, 1] [binTri1])) (0x6000 % 2 ^ 57) levels
        (bits ((sBins (aPass true [0, 1] [binTri1])).part 0).xroot 51 14 * 2 ^ 14), b + 8 ≤ 0x26000 := by decide +kernel
    have := this a ha
    show a + j < 0x26000
    omega
theorem witness_GraphicsSteps_last : ((sBins (aPass true [0] [])).passes.find? 9 = some (aPass true [0] []) ∧ (sBins (aPass true [0] [])).launch? 0 0 = some lBins ∧
      (sBins (aPass true [0] [])).linkHeld 0x27000 = false ∧ (aPass true [0] []).held = none ∧ (aPass true [0] []).stats = (List.finRange 6).map (fun _ => 0) ∧ lBins.regions = [] ∧ bits lBins.rcd 824 768 % 64 = 0 ∧
      (sBins (aPass true [0] [])).xlate 0 (bits lBins.rcd 824 768) false true false = .ok 0x27000 false) ∧ Bare (sBins (aPass true [0] [])) :=
  ⟨by decide +kernel, bare_sBins _⟩

/-- A graph of three nodes with its header at 0x6000: node 1 is late and dropped, or runs the record at 0x7000. -/
def sNode (va : Nat) : State := ((({ sL.modLaunch 0 0 (fun l => { l with kind := 2, rcd := graphRecord, queue := 63 }) with
  graphs := [(4, ⟨0, 0, [2, 0, 0], [(1, 10)], [0xFFFFFFFF, 0xFFFFFF00, 0xFFFFFFFF], none⟩)], clock := 10 }.wrNat 0x26000 64 3).wrNat 0x26080 64 (2 ^ 4 + 1 * 2 ^ 5 + va * 2 ^ 256 + 0xFFFFFF00 * 2 ^ 224))
    ).wrNat 0x27000 128 aRecord
def lateHeader : Nat := 3 + 1 * 2 ^ 50
def sLate : State := (sNode 0x7000).wrNat 0x26000 64 lateHeader
def NodeAt (s : State) (h x : Nat) (g : Graph) (l : Launch) : Prop := s.graphs.find? 4 = some g ∧ g.part = 0 ∧ s.launch? g.part g.ltab = some l ∧
  1 < g.nodes.length ∧ g.nodes.getD 1 2 = 0 ∧ (s.part 0).freeEntry ≠ none ∧ s.parked = [] ∧ s.snoops = [] ∧
  (s.vGet 0 (lcTag l.rcd) (gsNode l.rcd 1) 64).toOption = some x ∧ (s.vGet 0 (lcTag l.rcd) (gsHeader l.rcd) 64).toOption = some h ∧
  ∀ i, i < 4 → bits (g.deps.getD 1 0) (8 * i + 7) (8 * i) = 255 ∨ g.nodes.getD (bits (g.deps.getD 1 0) (8 * i + 7) (8 * i)) 0 = 2
def nodeWord : Nat := 2 ^ 4 + 1 * 2 ^ 5 + 0x7000 * 2 ^ 256 + 0xFFFFFF00 * 2 ^ 224
theorem bare_sLate : Bare sLate := ⟨by decide +kernel, by decide +kernel⟩
theorem witness_GraphicsSteps_dropped : ∃ (g : Graph) (l : Launch), NodeAt sLate lateHeader nodeWord g l ∧
    nodeAction lateHeader nodeWord (sLate.nodeLate lateHeader nodeWord ((g.readyAt.find? 1).getD sLate.clock)) = (2, 0) ∧ 0x26080 < 2 ^ 51 ∧ Bare sLate ∧ lcTag l.rcd = 0 ∧
    gsNode l.rcd 1 % 64 = 0 ∧ sLate.xlate 0 (gsNode l.rcd 1) true false false = .ok 0x26080 false ∧
    sLate.xlate 0 (gsNode l.rcd 1) false true false = .ok 0x26080 false ∧ (∃ j, j ≠ 1 ∧ j < g.nodes.length ∧ g.nodes.getD j 2 ≠ 2) ∧
    (∀ q ∈ sLate.graphs, q.2.ltab = g.ltab → q.2.part = 0 → q = (4, g)) :=
  ⟨_, _, by unfold NodeAt; exact ⟨rfl, by decide +kernel, rfl, by decide +kernel, by decide +kernel, by decide +kernel, by decide +kernel, by decide +kernel, by decide +kernel, by decide +kernel, by decide +kernel⟩, by decide +kernel, by decide, bare_sLate, by decide +kernel, by decide +kernel, by decide +kernel,
    by decide +kernel, ⟨2, by decide +kernel⟩, by decide +kernel⟩
def runWord : Nat := 0x7000 * 2 ^ 256 + 0xFFFFFF00 * 2 ^ 224
def sRun : State := (sNode 0x7000).wrNat 0x26080 64 runWord
theorem witness_GraphicsSteps_run : ∃ (g : Graph) (l : Launch), NodeAt sRun 3 runWord g l ∧
    nodeAction 3 runWord (sRun.nodeLate 3 runWord ((g.readyAt.find? 1).getD sRun.clock)) = (1, 0x7000) ∧ (sRun.vGet 0 (lcTag l.rcd) 0x7000 128).toOption = some aRecord ∧
    ∃ t, (sRun.setNode 4 1 5).accept 0 l.queue (setBits aRecord 62 57 (lcTag l.rcd)) (some (g.ltab, 1)) false = .ok t :=
  ⟨_, _, by unfold NodeAt; exact ⟨rfl, by decide +kernel, rfl, by decide +kernel, by decide +kernel, by decide +kernel, by decide +kernel, by decide +kernel, by decide +kernel, by decide +kernel, by decide +kernel⟩, by decide +kernel, by decide +kernel, (of_ok (p := fun _ => true) (by decide +kernel)).imp (fun _ h => h.1)⟩

def sShow (time : Nat) : State := State.reset.setDisp 15 { Disp.zero with cfg := 16, time := time, queue := [(0, 1), (255, 2)] }
theorem witness_PresentationEvents : 15 < 16 ∧ (((sShow (2 ^ 33 + 1)).disp 15).time.testBit 32 = false ∧ bits ((sShow (2 ^ 33 + 1)).disp 15).time 31 0 ≠ 0 ∧
    ((sShow (2 ^ 33 + 1)).disp 15).cfg.testBit 4 = true) ∧ ((sShow (2 ^ 32)).disp 15).time.testBit 32 = true := by decide +kernel

/-! ## Witnesses: versions, the host and outside accesses -/

/-- A graft of set 0's winner 5, whose one version byte lies at the top of device memory. -/
def aGraft : Grafting := ⟨0, 0, 1, 0, 5, 4080, false⟩
def aSet : ForkSet := ⟨0, [5, 6], false, []⟩
def sGrafting : State := { ((sL.modWg 0 (fun w => { w with spadKiB := 4 })).modThread 0 0 (fun t =>
    { t with hold := [1], pend := [{ pendOf 1 false [8] [] with vals := none }] })).setTag 5 ⟨1, 0, 0⟩ |>.setTag 6 ⟨1, 0, 0⟩ with
  sets := [(0, aSet)], grafts := [aGraft], vers := [(2 ^ 52 * 5 + 0xBFFFFFFFF, 0x5A)] }
theorem bare_sGrafting : Bare sGrafting := ⟨by decide +kernel, by decide +kernel⟩
theorem witness_VersionSteps_graft : ∃ (w : Wg) (t : Thread), List.find? (fun x => x.set == 0) sGrafting.grafts = some aGraft ∧
    sGrafting.wgs.find? aGraft.wk = some w ∧ sGrafting.thread? aGraft.wk aGraft.idx = some t ∧
    sGrafting.graftRefused w.part 0 aGraft.winner = none ∧ sGrafting.sets.find? 0 = some aSet ∧ sGrafting.parked = [] ∧ sGrafting.snoops = [] ∧
    sGrafting.shared = [] ∧ Bare sGrafting ∧ sGrafting.deltas = [] ∧ sGrafting.l1 = [] ∧ sGrafting.held = [] ∧ aSet.post = [] ∧ aSet.tags.Nodup ∧
    0 < aGraft.winner ∧ aGraft.winner < 64 ∧ FMap.sorted sGrafting.vers = true ∧
    (∀ p ∈ sGrafting.vers, p.1 / 2 ^ 52 = aGraft.winner → p.1 % 2 ^ 52 < 2 ^ 51) :=
  ⟨_, _, by decide +kernel, rfl, rfl, by decide +kernel, by decide +kernel, by decide +kernel, by decide +kernel, by decide +kernel,
    bare_sGrafting, by decide +kernel, by decide +kernel, by decide +kernel, by decide +kernel, by decide +kernel, by decide +kernel,
    by decide +kernel, by decide +kernel, by decide +kernel⟩
theorem witness_VersionSteps_scrub : ((sL.setTag 63 ⟨2, 0, 0⟩).tag 63).state = 2 := by decide +kernel
/-- A deterministic workgroup whose turn it is, with a staged store, and one with a staged flip to display 15. -/
def aStore : MemOp := stQ 0 0 0x1FFC
/-- The same at the last tag. -/
def tagStore : MemOp := { aStore with tag := 63 }
def sTicket (x : Staged) : State := ((sL.modWg 0 (fun w => { w with det := true, staging := [x] })).setDisp 15
  { Disp.zero with cfg := 0x40 * 2 ^ 12 + 16 }).wrNat (0x40000 + 16 * 255) 16 1
theorem bare_sTicket (x : Staged) : Bare (sTicket x) := ⟨rfl, by
  have h : (sTicket x).parts = (sTicket (.mem aStore none)).parts := rfl
  rw [h]; decide +kernel⟩
theorem witness_VersionSteps_store : ∀ m ∈ [aStore, tagStore], ∃ w : Wg, (sTicket (.mem m none)).ticketTurn 0 0 = some (0, w) ∧
    (sTicket (.mem m none)).wgs.find? 0 = some w ∧ w.staging = .mem m none :: [] ∧ m.wk = 0 ∧ m.spad = 0 ∧ m.kind = 1 ∧ m.ord = 0 ∧
    w.traced = false ∧ (sTicket (.mem m none)).parked = [] ∧ (sTicket (.mem m none)).snoops = [] ∧
    (sTicket (.mem m none)).xlateAt w m.va m.width false true = .ok 0x21FFC false ∧
    (sTicket (.mem m none)).noSpace m.tag 0x21FFC = false ∧ Bare (sTicket (.mem m none)) ∧ m.tag < 64 ∧
    0x21FFC + m.width ≤ 2 ^ 52 ∧ (sTicket (.mem m none)).linkHeld 0x21FFC = false ∧ (sTicket (.mem m none)).deltas = [] ∧
    (sTicket (.mem m none)).l1.find? (lineKey w.unit m.tag 0x21FFC) = none ∧
    (sTicket (.mem m none)).l1.find? (lineKey (bufOf w.unit) m.tag 0x21FFC) = none := by
  intro m hm
  simp only [List.mem_cons, List.not_mem_nil, or_false] at hm
  rcases hm with rfl | rfl <;>
  exact ⟨_, rfl, by decide +kernel, by decide +kernel, rfl, rfl, rfl, rfl, by decide +kernel, by decide +kernel, by decide +kernel, by decide +kernel,
    by decide +kernel, bare_sTicket _, by decide, by decide, by decide +kernel, by decide +kernel, by decide +kernel, by decide +kernel⟩
theorem witness_VersionSteps_flip : ∃ w : Wg, (sTicket (.flip 0 1 15 255)).ticketTurn 0 0 = some (0, w) ∧
    (sTicket (.flip 0 1 15 255)).wgs.find? 0 = some w ∧ w.staging = .flip 0 1 15 255 :: [] ∧ w.tag = 0 ∧
    ((sTicket (.flip 0 1 15 255)).disp 15).cfg.testBit 4 = true ∧ bits ((sTicket (.flip 0 1 15 255)).disp 15).cfg 7 5 = 0 ∧
    ((sTicket (.flip 0 1 15 255)).surface 15 255).testBit 0 = true ∧ bits ((sTicket (.flip 0 1 15 255)).surface 15 255) 103 96 ≤ 2 ∧
    ((sTicket (.flip 0 1 15 255)).disp 15).queue.length < 4 :=
  ⟨_, rfl, by decide +kernel, by decide +kernel, by decide +kernel, by decide +kernel, by decide +kernel, by decide +kernel, by decide +kernel,
    by decide +kernel⟩
/-- A filter entry 1,024 clocks old, whose ring of 16 entries lies at 0x5000. -/
def aFeedback : Feedback := ⟨0, 7, 3, 0x5000, 0x1000, 2, 1, false, false, 0, 1, 0⟩
def sFeed : State := { sL.wrNat 0x25000 16 4 with clock := 1024, cores := [(271, { Core.zero with filter := [aFeedback] })] }
theorem witness_VersionSteps_feedback : (sFeed.core 271).filter[0]? = some aFeedback ∧ aFeedback.born + 1024 ≤ sFeed.clock ∧
    sFeed.vRead aFeedback.part 0 aFeedback.ring 16 = some 4 ∧ 4 ≤ bits 4 4 0 ∧ bits 4 4 0 ≤ 20 ∧
    (bits 4 63 32 + 2 ^ 32 - bits 4 95 64) % 2 ^ 32 ≠ 2 ^ bits 4 4 0 ∧
    ((sFeed.vWrite aFeedback.part 0 (aFeedback.ring + 64 + 16 * (bits 4 63 32 % 2 ^ bits 4 4 0)) (leBytes 16 (aFeedback.entry (sFeed.coreNum 271)))).any
      (fun t => (t.vWrite aFeedback.part 0 (aFeedback.ring + 4) (leBytes 4 ((bits 4 63 32 + 1) % 2 ^ 32))).isSome)) = true := by decide +kernel

/-- A store of workgroup 0 to a page of dup 1 waits for the host, and so does an atomic. -/
def hostStore : MemOp := stQ 0 0 0x803C
def hostAtomic : MemOp := aPiece 2 0 2 0x8038 [8]
def sHost : State := { (sL.modThread 0 0 (fun t => { t with queue := [hostStore, hostAtomic] })).wrNat 0x18208 8 (0x28000 + 0x1F + 2 ^ 7) with
  snoops := [(0, ⟨.op hostStore, 0, 0x803C, 0x2803C, false⟩), (1, ⟨.op hostAtomic, 0, 0x8038, 0x28038, false⟩)], shared := [0x2803C / 64] }
theorem bare_sHost : Bare sHost := ⟨by decide +kernel, by decide +kernel⟩
theorem witness_HostCoherence_response : ∃ (w : Wg) (t : Thread), (sHost.snoops.find? 0 = some ⟨.op hostStore, 0, 0x803C, 0x2803C, false⟩ ∧
    sHost.wgs.find? hostStore.wk = some w ∧ sHost.thread? hostStore.wk hostStore.idx = some t ∧ hostStore ∈ t.queue ∧ w.traced = false ∧
    hostStore.kind = 1 ∧ hostStore.ord = 0 ∧ hostStore.tag = 0 ∧ (0x2803C).testBit 51 = false ∧
    sHost.l1.find? (lineKey w.unit 0 0x2803C) = none ∧ sHost.l1.find? (lineKey (bufOf w.unit) 0 0x2803C) = none) ∧ Bare sHost :=
  ⟨_, _, ⟨by decide +kernel, rfl, rfl, by decide +kernel, by decide +kernel, rfl, rfl, rfl, by decide +kernel, by decide +kernel, by decide +kernel⟩, bare_sHost⟩
theorem witness_HostCoherence_timeout : (sHost.snoops.find? 0 = some ⟨.op hostStore, 0, 0x803C, 0x2803C, false⟩ ∧
    (0x2803C).testBit 51 = false ∧ (∀ p ∈ sHost.parked, p.2.who ≠ .op hostStore) ∧ hostStore.kind = 1) ∧
    sHost.snoops.find? 1 = some ⟨.op hostAtomic, 0, 0x8038, 0x28038, false⟩ ∧ (∀ p ∈ sHost.parked, p.2.who ≠ .op hostAtomic) ∧
    hostAtomic.kind = 2 := by decide +kernel
/-- An L1 holds the last line of host memory, with a dirty byte; where no port runs CXL no snoop arrives. -/
def hostLine : Nat := 2 ^ 46 - 1
def sHostLine : State := { State.reset with l1 := [(lineKey 271 0 (64 * hostLine), ⟨4, [(63, 0xA5)], [63]⟩)] }
theorem bare_sHostLine : Bare sHostLine := ⟨by decide +kernel, by decide +kernel⟩
theorem witness_HostCoherence_snoop : (64 * hostLine).testBit 51 = true ∧ (lineKey 271 0 (64 * hostLine), ⟨4, [(63, 0xA5)], [63]⟩) ∈ sHostLine.l1 ∧
    lineTag (lineKey 271 0 (64 * hostLine)) = 0 ∧ lineAddr (lineKey 271 0 (64 * hostLine)) = 64 * hostLine ∧
    (∀ e ∈ sHostLine.l1, lineTag e.1 = 0 → lineAddr e.1 = 64 * hostLine → e = (lineKey 271 0 (64 * hostLine), ⟨4, [(63, 0xA5)], [63]⟩)) ∧
    Bare sHostLine ∧ ∀ o ∈ (⟨4, [(63, 0xA5)], [63]⟩ : Line).dirty, o < 64 :=
  ⟨by decide +kernel, by decide +kernel, by decide +kernel, by decide +kernel, by decide +kernel, bare_sHostLine, by decide +kernel⟩
theorem bare_reset : Bare State.reset := ⟨by decide +kernel, by decide +kernel⟩
/-- A machine with the given ports up, the given ones running CXL, and a degrade of port 0 under way where `deg` is set. -/
def sPorts (up cxl : List Bool) (deg : Bool) : State :=
  (State.reset.modSys (fun y => if deg then { y with svc := 0, svcRun := 4 * 2 ^ 52 } else y)).modSys (fun y => { y with portUp := up, portCxl := cxl })
theorem witness_HostCoherence_ports : HostReaches sHostLine ∧ ¬ HostReaches (sPorts [true, false] [false, true] false) := by
  unfold HostReaches; decide +kernel
/-- The last bytes below dtop, by either port; the first beyond it. -/
theorem witness_OutsideAccesses : (∀ s ∈ [State.reset, sPorts [true, true] [true, true] true], HostReaches s ∧ s.poison = []) ∧
    0xBFFFFFFFE + [(1 : Byte), 2].length ≤ 0xC00000000 ∧ Bare State.reset ∧ Bare (sPorts [true, true] [true, true] true) :=
  ⟨by unfold HostReaches; decide +kernel, by decide +kernel, bare_reset, ⟨by decide +kernel, by decide +kernel⟩⟩
theorem witness_OutsideAccesses_beyond : HostReaches State.reset ∧ 0xBFFFFFFFF < 2 ^ 51 ∧ 0xC00000000 < 0xBFFFFFFFF + [(1 : Byte), 2].length ∧
    0xBFFFFFFFF + [(1 : Byte), 2].length ≤ 2 ^ 51 ∧ [(1 : Byte), 2] ≠ [] := by unfold HostReaches; decide +kernel
/-- No port up, and the one port that is up runs no CXL. -/
theorem witness_OutsideAccesses_down : ∀ s ∈ [sPorts [false, false] [true, true] false, sPorts [false, true] [true, false] false],
    2 ^ 52 - 1 < 2 ^ 52 ∧ ∀ p, p < 2 → s.sys.portUp.getD p false = true → s.sys.portCxl.getD p false = false := by decide +kernel
/-- Port 0 retrains, and port 1 is down or runs no CXL. -/
theorem witness_OutsideAccesses_waits : ∀ s ∈ [sPorts [true, false] [true, true] true, sPorts [true, true] [true, false] true],
    2 ^ 52 - 1 < 2 ^ 52 ∧ 0 < 2 ∧ s.retraining = some 0 ∧ s.sys.portUp.getD 0 false = true ∧ s.sys.portCxl.getD 0 false = true ∧
    (s.sys.portUp.getD (1 - 0) false = true → s.sys.portCxl.getD (1 - 0) false = false) := by decide +kernel
/-- The last byte of the management core's SRAM, and the last entry of the last tensor table. -/
theorem witness_OutsideAccesses_sram : 0xF7FFF + [(1 : Byte)].length ≤ 0xF8000 ∧ 7 < 8 ∧ 4095 < 4096 ∧ (List.replicate 32 (1 : Byte)).length = 32 ∧
    2 ^ 32 - 1 < 2 ^ 32 ∧ (List.replicate 8 (1 : Byte)).length = 8 := by
  decide

/-! ## Witnesses: start-up, services and registers -/

theorem witness_Starts_warm : (State.reset.boot.verify.accepted = .empty ∨ State.reset.boot.verify.accepted.sameDigest State.reset.boot.keysFor = true) ∧
    State.reset.l1 = [] ∧ State.reset.expanded = [] := by decide +kernel
/-- Two dirty lines of tag 0 and one of a version. -/
def sWarm : State := { State.reset with l1 := [(lineKey 0 0 0x21000, aLine), (lineKey 32 0 0x21040, aLine), (lineKey 32 5 0x21000, aLine)] }
theorem witness_Starts_warm_lines : ((sWarm.boot.verify.accepted = .empty ∨ sWarm.boot.verify.accepted.sameDigest sWarm.boot.keysFor = true) ∧
    sWarm.expanded = [] ∧ (∀ e ∈ sWarm.l1, ∀ f ∈ sWarm.l1, lineTag e.1 = 0 → lineTag f.1 = 0 → lineAddr e.1 = lineAddr f.1 → e = f) ∧
    ∀ e ∈ sWarm.l1, ∀ o ∈ e.2.dirty, o < 64) ∧ Bare sWarm := ⟨by decide +kernel, ⟨by decide +kernel, by decide +kernel⟩⟩
theorem witness_Starts_watchdog : ({ State.reset with sys := { State.reset.sys with kicked := true } } : State).sys.kicked = true ∧
    State.reset.sys.kicked = false := by decide +kernel
/-- Keys derived for another image: whichever digest the image of manufacture has, one of two images has not. -/
def sKeys (img : List Byte) : State := { State.reset with boot := { State.reset.boot with keysFor := .image img } }
theorem witness_Starts_other : ∃ s : State, s.boot.verify.accepted ≠ .empty ∧ s.boot.verify.accepted.sameDigest s.boot.keysFor = false := by
  have e0 : ∀ i, (sKeys i).boot.verify.accepted = .factory := fun _ => rfl
  have d0 : (ImageSlot.image []).digest = 0 := by decide +kernel
  have d1 : (ImageSlot.image (List.replicate 63 0 ++ [1])).digest = 1 := by decide +kernel
  by_cases h : Config.factoryDigest = 0
  · refine ⟨sKeys (List.replicate 63 0 ++ [1]), by rw [e0]; decide, ?_⟩
    rw [e0]
    show (decide (ImageSlot.factory = .image _) || Config.factoryDigest == (ImageSlot.image (List.replicate 63 0 ++ [1])).digest) = false
    rw [d1, h]; decide
  · refine ⟨sKeys [], by rw [e0]; decide, ?_⟩
    rw [e0]
    show (decide (ImageSlot.factory = .image _) || Config.factoryDigest == (ImageSlot.image []).digest) = false
    rw [d0]; simpa using h

theorem witness_FirmwareServices_busy : ({ State.reset with sys := { State.reset.sys with mboxCmd := 0 } } : State).sys.mboxCmd.testBit 62 = false := by
  decide +kernel
theorem witness_FirmwareServices_none : State.reset.sys.mboxCmd.testBit 62 = true ∧ State.reset.boot.accepted ≠ .empty ∧
    (∀ n, n < 8 → (State.reset.part n).cfg.testBit 36 = false) := by decide +kernel
/-- A window of all host memory, to read and write. -/
def openWindow : List (Nat × Nat) := [(0, 7 + 0xFFFFFFFFFF * 2 ^ 64)]
/-- Partition 7 halted and swapped out, with a counter of stream 63 and one of engine context 255. -/
def sEvac (win : List (Nat × Nat)) : State := (State.reset.modPart 7 (fun p => { p with
  cfg := 2 ^ 36 + 2 ^ 35 + 2 ^ 34, swapCtl := 2 ^ 62 + 2 ^ 60, streams := [(63, ⟨5, 5, [], false, []⟩)], ectr := [(255, 7)] })).modSys
    (fun y => { y with hostWin := win })
theorem bare_sEvac (win : List (Nat × Nat)) : Bare (sEvac win) := by
  have h : (sEvac win).parts = (sEvac []).parts := rfl
  exact ⟨rfl, by rw [h]; decide +kernel⟩
theorem witness_FirmwareServices_evacuate : ((sEvac openWindow).sys.mboxCmd.testBit 62 = true ∧ (sEvac openWindow).boot.accepted ≠ .empty ∧
      (sEvac openWindow).evacuee = some 7 ∧ ((sEvac openWindow).part 7).counters = [(63, 5), (319, 7)]) ∧ Bare (sEvac openWindow) ∧
    WindowsGrant (sEvac openWindow) (2 ^ 51) ((sEvac openWindow).evacuation 7).length 2 := by
  refine ⟨by decide +kernel, bare_sEvac _, ?_⟩
  have e : ((sEvac openWindow).evacuation 7).length = 64 := by
    simp only [State.evacuation, masked, List.length_map, List.length_zip, List.length_range, Nat.min_self]
    decide +kernel
  rw [e]
  unfold WindowsGrant
  decide +kernel
theorem witness_FirmwareServices_evacuate_refused : ((sEvac []).sys.mboxCmd.testBit 62 = true ∧ (sEvac []).boot.accepted ≠ .empty ∧
      (sEvac []).evacuee = some 7) ∧ 2 ^ 51 + ((sEvac []).evacuation 7).length ≤ 2 ^ 52 ∧
    ¬ WindowsGrant (sEvac []) (2 ^ 51) ((sEvac []).evacuation 7).length 2 := by
  have e : ((sEvac []).evacuation 7).length = 64 := by
    simp only [State.evacuation, masked, List.length_map, List.length_zip, List.length_range, Nat.min_self]
    decide +kernel
  rw [e]
  unfold WindowsGrant
  decide +kernel

/-- Partition 7 enabled, halted and unused; host memory holds a record's fields at its first byte, as the firmware lays them out. -/
def sRestore (win : List (Nat × Nat)) : State := (State.reset.modPart 7 (fun p => { p with cfg := 2 ^ 36 + 2 ^ 35 + 2 ^ 34 })).modSys
  (fun y => { y with hostWin := win })
def sRecord (fields : List Nat) : State := (sRestore openWindow).wrList (2 ^ 51) (masked 0 (fields.flatMap (leBytes 8)))
theorem masked_length (i : Nat) (l : List Byte) : (masked i l).length = l.length := by simp [masked]
theorem masked_get (l : List Byte) (i : Nat) (h : i < (masked 0 l).length) :
    (masked 0 l)[i] = l[i]'(masked_length 0 l ▸ h) ^^^ Config.evacuationMask i := by simp [masked]
theorem masked_masked (l : List Byte) (n : Nat) : masked 0 ((masked 0 l).take n) = l.take n := by
  apply List.ext_getElem
  · simp [masked_length]
  · intro i h1 h2
    rw [masked_get, List.getElem_take, masked_get, List.getElem_take, BitVec.xor_assoc, BitVec.xor_self, BitVec.xor_zero]
/-- The bytes of a record as they are read from host memory. -/
theorem record_bytes (fields : List Nat) (n : Nat) (h : n ≤ (fields.flatMap (leBytes 8)).length)
    (hp : (sRestore openWindow).portRefusal (2 ^ 51) n false = none) :
    (sRecord fields).hostBytes (2 ^ 51) n = .ok ((masked 0 (fields.flatMap (leBytes 8))).take n) := by
  have e : (sRecord fields).portRefusal (2 ^ 51) n false = none := by
    unfold sRecord
    rw [State.wrList_rest]
    exact hp
  simp only [State.hostBytes, e, Except.ok.injEq]
  apply List.ext_getElem
  · rw [List.length_map, List.length_range, List.length_take, masked_length, Nat.min_eq_left h]
  · intro i h1 h2
    simp only [List.length_map, List.length_range] at h1
    have hb : (sRecord fields).base (2 ^ 51 + i) = (sRecord fields).rd (2 ^ 51 + i) := by
      have : (sRecord fields).sys.rangeFmt = [] := by unfold sRecord; rw [State.wrList_rest]; rfl
      simp [State.base, State.window?, this]
    simp only [List.getElem_map, List.getElem_range, hb, List.getElem_take]
    unfold sRecord
    rw [State.rd_wrList, if_pos (by rw [masked_length]; omega), Nat.add_sub_cancel_left]
    rw [List.getD_eq_getElem?_getD, List.getElem?_eq_getElem (by rw [masked_length]; omega), Option.getD_some]
theorem record_field (fields : List Nat) (n i : Nat) :
    recordField ((masked 0 (fields.flatMap (leBytes 8))).take n) i = ofLe ((((fields.flatMap (leBytes 8)).take n).drop (8 * i)).take 8) := by
  rw [recordField, masked_masked]
theorem record_rest (fields : List Nat) : (sRecord fields).sys = (sRestore openWindow).sys ∧ (sRecord fields).boot = State.reset.boot ∧
    (sRecord fields).restoree = some 7 := by
  unfold sRecord
  rw [State.wrList_rest]
  have h : (sRestore openWindow).restoree = some 7 := by decide +kernel
  exact ⟨rfl, rfl, h⟩
/-- A record of two counters, one of a stream and one of an engine context, and of one image of 8 bytes. -/
def goodRecord : List Nat := [6, 1, 2, 63, 2 ^ 64 - 1, 319, 5, 1, 8, 0x1122334455667788]
theorem witness_FirmwareServices_restore : (sRecord goodRecord).sys.mboxCmd.testBit 62 = true ∧ (sRecord goodRecord).boot.accepted ≠ .empty ∧
    (sRecord goodRecord).restoree = some 7 ∧ (∃ hd, (sRecord goodRecord).hostBytes (2 ^ 51) 24 = .ok hd ∧ recordField hd 0 = Config.lwlog ∧
      recordField hd 1 = 1 ∧ recordField hd 2 = 2) ∧
    (∃ h2, (sRecord goodRecord).hostBytes (2 ^ 51) (32 + 16 * 2) = .ok h2 ∧ recordField h2 (3 + 2 * 2) = 1) ∧
    (∃ h3, (sRecord goodRecord).hostBytes (2 ^ 51) (32 + 16 * 2 + 8 * 1) = .ok h3 ∧
      (List.range 1).map (fun i => recordField h3 (4 + 2 * 2 + i)) = [8]) ∧
    ∃ l, (sRecord goodRecord).hostBytes (2 ^ 51) (32 + 16 * 2 + 8 * 1 + [8].sum) = .ok l ∧ (∀ j, j < 2 → recordField l (3 + 2 * j) < 320) ∧
      ∀ j, j < 2 → ∀ i, j < i → i < 2 → recordField l (3 + 2 * i) ≠ recordField l (3 + 2 * j) := by
  refine ⟨by rw [(record_rest _).1]; decide +kernel, by rw [(record_rest _).2.1]; decide +kernel, (record_rest _).2.2,
    ⟨_, record_bytes _ _ (by decide) (by decide +kernel), ?_⟩, ⟨_, record_bytes _ _ (by decide) (by decide +kernel), ?_⟩,
    ⟨_, record_bytes _ _ (by decide) (by decide +kernel), ?_⟩, ⟨_, record_bytes _ _ (by decide) (by decide +kernel), ?_⟩⟩ <;>
  simp only [record_field]
  · decide +kernel
  · decide +kernel
  · decide +kernel
  · refine ⟨by decide +kernel, fun j hj i h hi => ?_⟩
    obtain ⟨rfl, rfl⟩ : j = 0 ∧ i = 1 := by omega
    decide +kernel
/-- A record of another width, one of another level, and one of more counters than there are. -/
theorem witness_FirmwareServices_restore_refused : ∀ r ∈ ([[7, 1, 2], [6, 2, 2], [6, 1, 321]] : List (List Nat)),
    (sRecord r).sys.mboxCmd.testBit 62 = true ∧ (sRecord r).boot.accepted ≠ .empty ∧ (sRecord r).restoree = some 7 ∧
    ∃ hd, (sRecord r).hostBytes (2 ^ 51) 24 = .ok hd ∧
      (recordField hd 0 ≠ Config.lwlog ∨ recordField hd 1 ≠ 1 ∨ 320 < recordField hd 2) := by
  intro r hr
  have hl : 24 ≤ (r.flatMap (leBytes 8)).length := (by decide : ∀ r ∈ ([[7, 1, 2], [6, 2, 2], [6, 1, 321]] : List (List Nat)),
    24 ≤ (r.flatMap (leBytes 8)).length) r hr
  refine ⟨by rw [(record_rest _).1]; decide +kernel, by rw [(record_rest _).2.1]; decide +kernel, (record_rest _).2.2,
    ⟨_, record_bytes _ _ hl (by decide +kernel), ?_⟩⟩
  simp only [record_field]
  exact (by decide +kernel : ∀ r ∈ ([[7, 1, 2], [6, 2, 2], [6, 1, 321]] : List (List Nat)),
    ofLe ((((r.flatMap (leBytes 8)).take 24).drop (8 * 0)).take 8) ≠ Config.lwlog ∨
      ofLe ((((r.flatMap (leBytes 8)).take 24).drop (8 * 1)).take 8) ≠ 1 ∨
      320 < ofLe ((((r.flatMap (leBytes 8)).take 24).drop (8 * 2)).take 8)) r hr
/-- A record of more images than it may name, and one of an image that is too long. -/
theorem witness_FirmwareServices_restore_images : (∃ hd h2, (sRecord [6, 1, 0, 65537]).hostBytes (2 ^ 51) 24 = .ok hd ∧
      recordField hd 0 = Config.lwlog ∧ recordField hd 1 = 1 ∧ recordField hd 2 = 0 ∧
      (sRecord [6, 1, 0, 65537]).hostBytes (2 ^ 51) (32 + 16 * 0) = .ok h2 ∧ 2 ^ 16 < recordField h2 (3 + 2 * 0)) ∧
    ∃ h2 h3, (sRecord [6, 1, 0, 1, 2 ^ 21 + 1]).hostBytes (2 ^ 51) (32 + 16 * 0) = .ok h2 ∧ recordField h2 (3 + 2 * 0) = 1 ∧
      (sRecord [6, 1, 0, 1, 2 ^ 21 + 1]).hostBytes (2 ^ 51) (32 + 16 * 0 + 8 * 1) = .ok h3 ∧
      ∃ z ∈ (List.range 1).map (fun i => recordField h3 (4 + 2 * 0 + i)), 2 ^ 21 < z := by
  refine ⟨⟨_, _, record_bytes _ _ (by decide) (by decide +kernel), ?_, ?_, ?_, record_bytes _ _ (by decide) (by decide +kernel), ?_⟩,
    ⟨_, _, record_bytes _ _ (by decide) (by decide +kernel), ?_, record_bytes _ _ (by decide) (by decide +kernel), ?_⟩⟩ <;>
  simp only [record_field] <;> decide +kernel
/-- No window, and one of the first page alone, in which a record of 320 counters, one of 65,536 images and one of an image of 2 MiB do not end. -/
theorem witness_FirmwareServices_restore_unread : (sRestore []).restoree = some 7 ∧ 2 ^ 51 + 24 ≤ 2 ^ 52 ∧ ¬ WindowsGrant (sRestore []) (2 ^ 51) 24 1 ∧
    (∀ n ∈ [32 + 16 * 320, 32 + 8 * 2 ^ 16, 40 + 2 ^ 21], ¬ WindowsGrant (sRestore [(0, 3)]) (2 ^ 51) n 1) ∧
    WindowsGrant (sRestore [(0, 3)]) (2 ^ 51) 24 1 := by
  unfold WindowsGrant
  refine ⟨by decide +kernel, by decide, by decide +kernel, fun n hn h => ?_, by decide +kernel⟩
  have big : 4096 < n := (by decide : ∀ n ∈ [32 + 16 * 320, 32 + 8 * 2 ^ 16, 40 + 2 ^ 21], 4096 < n) n hn
  obtain ⟨w, hw, -, -, -, hb⟩ := h.2 4096 big
  have : w = (0, 3) := by simpa [sRestore, State.modSys] using hw
  subst this
  revert hb
  decide +kernel
theorem witness_FirmwareServices_load : (sRestore openWindow).sys.mboxCmd.testBit 62 = true ∧
    (sRestore openWindow).hostBytes (2 ^ 51 + 1 / 2 * 2 % 2 ^ 51) 832 = .ok (List.replicate 832 0) ∧
    (sRestore openWindow).hostBytes (2 ^ 51 + 1 / 2 * 2 % 2 ^ 51) (832 + min (fwSize (List.replicate 832 0)) (960 * 1024)) =
      .ok (List.replicate 832 0) ∧ 2 ^ 51 + 832 ≤ 2 ^ 52 ∧ ¬ WindowsGrant (sRestore []) (2 ^ 51) 832 1 := by
  unfold WindowsGrant
  decide +kernel

theorem witness_RegistersAndLogs : 7 < 8 ∧ 63 < 64 ∧ ((sL.part 0).cfg.testBit 34 = true ∧ (sL.part 0).cfg.testBit 36 = false) ∧
    (State.reset.part 7).cfg.testBit 34 = false ∧ 15 < 16 ∧ State.reset.physCore 255 = some 263 ∧ State.reset.physCore 256 = none ∧
    (∃ p, p < 2 ∧ State.reset.sys.portUp.getD p false = true ∧ State.reset.retraining ≠ some p) ∧ State.reset.sys.fltHead = bits 0 63 32 ∧ State.reset.sys.fltHead ≠ bits (2 ^ 63) 63 32 := by decide +kernel

/-- The only port that is up retrains. -/
theorem witness_RegistersAndLogs_waits : 0 < 2 ∧ (sPorts [true, false] [true, true] true).sys.portUp.getD 0 false = true ∧
    (sPorts [true, false] [true, true] true).retraining = some 0 ∧ (sPorts [true, false] [true, true] true).sys.portUp.getD (1 - 0) false = false ∧
    2 ^ 52 - 1 < 2 ^ 52 := by decide +kernel

/-- Partition 0 owns column 0; partition 7 is free to take the others. -/
theorem witness_PartitionsAndBinds_held : ((sL.part 0).cfg.testBit 34 = true ∧ (sL.part 0).cfg.testBit 36 = false ∧
      bits (0 : BitVec 64).toNat 33 0 ≠ bits (sL.part 0).cfg 33 0) ∧ 7 < 8 ∧
    (∃ c m, c < 34 ∧ (1 : BitVec 64).toNat.testBit c = true ∧ m < 8 ∧ m ≠ 7 ∧ (sL.part m).cfg.testBit 34 = true ∧ (sL.part m).cfg.testBit c = true) ∧
    bits (1 : BitVec 64).toNat 33 0 ≠ bits (sL.part 7).cfg 33 0 := ⟨by decide +kernel, by decide, ⟨0, 0, by decide +kernel⟩, by decide +kernel⟩
theorem witness_PartitionsAndBinds_taken : (sL.part 7).cfg.testBit 34 = false ∧ (∀ c, c < 34 → (0x400000002 : BitVec 64).toNat.testBit c = true →
    (sL.col c).enabled = true ∧ (sL.col c).retired = false ∧
      ∀ m, m < 8 → m ≠ 7 → (sL.part m).cfg.testBit 34 = true → (sL.part m).cfg.testBit c = false) :=
  ⟨by decide +kernel, fun c hc hb =>
    ⟨(by decide +kernel : ∀ c, c < 34 → (0x400000002 : BitVec 64).toNat.testBit c = true → (sL.col c).enabled = true) c hc hb,
     (by decide +kernel : ∀ c, c < 34 → (0x400000002 : BitVec 64).toNat.testBit c = true → (sL.col c).retired = false) c hc hb,
     fun m hm _ he => (by decide +kernel : ∀ m, m < 8 → (sL.part m).cfg.testBit 34 = true → m = 0) m hm he ▸
       (by decide +kernel : ∀ c, c < 34 → (0x400000002 : BitVec 64).toNat.testBit c = true → (sL.part 0).cfg.testBit c = false) c hc hb⟩⟩
def sHalt : State := State.reset.modPart 7 (fun p => { p with cfg := 2 ^ 35 + 2 ^ 34 })
theorem witness_PartitionsAndBinds_halt : (sHalt.part 7).cfg < 2 ^ 38 ∧ (sHalt.part 7).cfg.testBit 35 = true ∧ sHalt.group = [] ∧ sHalt.passes = [] ∧
    (∀ c, (sHalt.col c).rays = [] ∧ (sHalt.col c).tasks = [] ∧ (sHalt.core c).chans = []) ∧ (State.reset.part 7).cfg.testBit 35 = false :=
  ⟨by decide +kernel, by decide +kernel, by decide +kernel, by decide +kernel, fun _ => ⟨rfl, rfl, rfl⟩, by decide +kernel⟩
/-- A rebind of slot 15 of launch 1: the record at 0x21000 may be bound, or holds a format code that R51 gives none. -/
def sRebind (r : Nat) : State := { sL.wrNat 0x21000 32 r with sys := { sL.sys with rebindAddr := 0x21000 } }
def rebindWord : BitVec 64 := BitVec.ofNat 64 (1 * 16 + 15)
theorem bare_sRebind : Bare (sRebind record) ∧ Bare (sRebind (7 * 2 ^ 160)) := ⟨⟨by decide +kernel, by decide +kernel⟩, ⟨by decide +kernel, by decide +kernel⟩⟩
theorem witness_PartitionsAndBinds_rebind : ∃ e l, (sRebind record).sys.rebindCtl.testBit 62 = true ∧ Bare (sRebind record) ∧ (sRebind record).poison = [] ∧
    bits (sRebind record).sys.rebindAddr 51 5 * 32 + 32 ≤ 0xC00000000 ∧
    leNat (fun j => (sRebind record).rd (bits (sRebind record).sys.rebindAddr 51 5 * 32 + j)) 32 = record ∧
    List.find? (fun x => x.2.num == bits rebindWord.toNat 35 4 && x.2.kind == 0) ((sRebind record).part (bits rebindWord.toNat 38 36)).ltab = some (e, l) ∧
    (sRebind record).bindOk 0 record = true :=
  ⟨_, _, by decide +kernel, bare_sRebind.1, by decide +kernel, by decide +kernel, by decide +kernel, rfl, by decide +kernel⟩
theorem witness_PartitionsAndBinds_unbindable : ∃ e l, (sRebind (7 * 2 ^ 160)).sys.rebindCtl.testBit 62 = true ∧ Bare (sRebind (7 * 2 ^ 160)) ∧
    (sRebind (7 * 2 ^ 160)).poison = [] ∧ bits (sRebind (7 * 2 ^ 160)).sys.rebindAddr 51 5 * 32 + 32 ≤ 0xC00000000 ∧
    leNat (fun j => (sRebind (7 * 2 ^ 160)).rd (bits (sRebind (7 * 2 ^ 160)).sys.rebindAddr 51 5 * 32 + j)) 32 = 7 * 2 ^ 160 ∧
    List.find? (fun x => x.2.num == bits rebindWord.toNat 35 4 && x.2.kind == 0) ((sRebind (7 * 2 ^ 160)).part (bits rebindWord.toNat 38 36)).ltab
      = some (e, l) ∧ (sRebind (7 * 2 ^ 160)).bindOk 0 (7 * 2 ^ 160) = false :=
  ⟨_, _, by decide +kernel, bare_sRebind.2, by decide +kernel, by decide +kernel, by decide +kernel, rfl, by decide +kernel⟩
def sRebound : State := { sL with sys := { sL.sys with rebindCtl := 0, rebindPend := some (0, 1, 15, record) } }
theorem witness_PartitionsAndBinds_done : ∃ e l, sRebound.sys.rebindCtl.testBit 62 = false ∧ sRebound.sys.rebindPend = some (0, 1, 15, record) ∧
    List.find? (fun x => x.2.num == 1 && x.2.kind == 0) (sRebound.part 0).ltab = some (e, l) ∧ sRebound.launch? 0 e = some l :=
  ⟨_, _, by decide +kernel, by decide +kernel, rfl, rfl⟩
/-- Column 0's slot 15, free and taken. -/
def sTaken : State := sL.modCol 0 (fun c => { c with slots := [(15, slot15)] })
theorem witness_PartitionsAndBinds_slot : 0 < 34 ∧ 15 < 16 ∧ (0 : BitVec 64).toNat.testBit 63 = false ∧ (BitVec.ofNat 64 slot15).toNat.testBit 63 = true ∧
    (FMap.get 0 (sTaken.col 0).slots 15).testBit 63 = true ∧ (FMap.get 0 (sL.col 0).slots 15).testBit 63 = false ∧
    (∃ l, sL.launch? (slPart (BitVec.ofNat 64 slot15).toNat) (slLtab (BitVec.ofNat 64 slot15).toNat) = some l ∧ l.kind = 0) ∧
    (sL.part (slPart (BitVec.ofNat 64 slot15).toNat)).cfg.testBit 0 = true ∧ (sL.part (slPart (BitVec.ofNat 64 slot15).toNat)).cfg.testBit 34 = true :=
  ⟨by decide, by decide, by decide +kernel, by decide +kernel, by decide +kernel, by decide +kernel, ⟨_, rfl, rfl⟩, by decide +kernel, by decide +kernel⟩

/-! ## Witnesses: swaps, translation control, answers and service -/

def sSwap (n ctl : Nat) (cfg : Nat) : State := State.reset.modPart n (fun p => { p with swapCtl := ctl, cfg := cfg, swapRun := ctl % 2 })
theorem witness_PartitionSwaps_words : 7 < 8 ∧ ((sSwap 7 0 0).part 7).swapCtl.testBit 62 = false ∧
    (((sSwap 7 (2 ^ 62) 0).part 7).swapCtl.testBit 62 = true ∧ ((sSwap 7 (2 ^ 62) 0).part 7).swapCtl.testBit 60 = false ∧
      ((sSwap 7 (2 ^ 62) 0).part 7).cfg.testBit 36 = false) ∧ ((sSwap 7 (2 ^ 62) (2 ^ 36)).part 7).cfg.testBit 36 = true := by decide +kernel
def sOutGo : State := (sL.modWg 0 (fun w => { w with saving := true })).modPart 0 (fun p => { p with swapCtl := 0, cfg := 2 ^ 36 + 2 ^ 35 + p.cfg })
theorem witness_PartitionSwaps_out : ∃ w : Wg, 0 < 8 ∧ ((sOutGo.part 0).swapCtl.testBit 62 = false ∧ (sOutGo.part 0).swapRun = 0) ∧ sOutGo.wgs = [(0, w)] ∧ w.part = 0 ∧
    w.draining = false ∧ w.flushing = false ∧ w.staging = [] ∧ sOutGo.savable 0 w = true ∧
    (∀ t ∈ w.threads, ¬ (t.2.st = .ended ∧ t.2.op = some .exit)) ∧ sOutGo.enginesEmpty 0 = true ∧ sOutGo.l1 = [] :=
  ⟨_, by decide, by decide +kernel, rfl, by decide +kernel, by decide +kernel, by decide +kernel, by decide +kernel, by decide +kernel,
    by decide +kernel, by decide +kernel, by decide +kernel⟩
/-- Partition 7, out since it held column 33, now named on column 17. -/
def sIn (ctl : Nat) : State := { sSwap 7 ctl (2 ^ 36 + 2 ^ 35 + 2 ^ 34 + 2 ^ 17) with
  sys := { State.reset.sys with savedCols := [(7, [(33, { Col.start 33 with slots := [(15, slot15)] })])] } }
theorem witness_PartitionSwaps_in : ∃ x : Col, ((sIn (2 ^ 62 + 2 ^ 60)).part 7).swapCtl = 2 ^ 62 + 2 ^ 60 ∧
    (sIn (2 ^ 62 + 2 ^ 60)).savedOf 7 = [(33, x)] ∧
    (onDie 0 ((sIn (2 ^ 62 + 2 ^ 60)).partCols 7)).length = (onDie 0 [33]).length ∧
    (onDie 1 ((sIn (2 ^ 62 + 2 ^ 60)).partCols 7)).length = (onDie 1 [33]).length :=
  ⟨_, by decide +kernel, rfl, by decide +kernel, by decide +kernel⟩
theorem witness_PartitionSwaps_end : ∃ x : Col, (((sIn (2 ^ 60 + 1)).part 7).swapCtl.testBit 62 = false ∧ ((sIn (2 ^ 60 + 1)).part 7).swapRun = 1) ∧ (sIn (2 ^ 60 + 1)).savedOf 7 = [(33, x)] ∧
    (sIn (2 ^ 60 + 1)).sys.images.get [] 7 = [] ∧ 33 / 17 < 2 ∧ onDie (33 / 17) ((sIn (2 ^ 60 + 1)).partCols 7) = [17] :=
  ⟨_, by decide +kernel, rfl, by decide +kernel, by decide, by decide +kernel⟩

/-- Launch 0 holds page 5 alone; a write that names pages 5 to 6 of partition 0. -/
def sLease : State := sL.modLaunch 0 0 (fun l => { l with lease := [(5, 1)] })
def pagesWord : BitVec 128 := BitVec.ofNat 128 (2 * 2 ^ 64 + 5 * 2 ^ 15)
theorem witness_TranslationControl_busy : ({ State.reset with sys := { State.reset.sys with xlatCtl := 0 } } : State).sys.xlatCtl.testBit 126 = false ∧
    State.reset.wgs = [] ∧ State.reset.sys.xlatCtl.testBit 126 = true ∧ (∀ e ∈ (sL.part (bits pagesWord.toNat 98 96)).ltab, e.2.lease = []) ∧
    ({ State.reset with sys := { State.reset.sys with pageMove := 0 } } : State).sys.pageMove.testBit 126 = false := by decide +kernel
theorem witness_TranslationControl_lease : ∃ l : Launch, sLease.sys.xlatCtl.testBit 126 = true ∧
    (0, l) ∈ (sLease.part (bits pagesWord.toNat 98 96)).ltab ∧ sLease.launch? (bits pagesWord.toNat 98 96) 0 = some l ∧ l.lease = [(5, 1)] ∧
    bits pagesWord.toNat 56 15 ≤ 5 ∧ 5 < bits pagesWord.toNat 56 15 + bits pagesWord.toNat 95 64 ∧ 5 ∉ l.revoked ∧ sLease.parked = [] :=
  ⟨{ loaderLaunch with lease := [(5, 1)] }, by decide +kernel, by decide +kernel, by decide +kernel, by decide +kernel, by decide +kernel, by decide +kernel, by decide +kernel, by decide +kernel⟩
/-- An invalidation of pages 5 to 6 that is not done, while writes to the given pages wait for the host. -/
def sInval (pages : List Nat) : State := { State.reset.modSys (fun y => { y with xlatCtl := pagesWord.toNat, pageMove := 0 }) with
  snoops := pages.map (fun p => (p, ⟨.op hostStore, 0, p * 2 ^ 15, 0x2803C, false⟩)) }
theorem witness_TranslationControl_done : ((sInval [4, 6]).sys.xlatCtl.testBit 126 = false ∧ (sInval [4, 6]).wgs = [] ∧
    ∃ x ∈ (sInval [4, 6]).snoops, x.2.part = bits (sInval [4, 6]).sys.xlatCtl 98 96 ∧
      bits (sInval [4, 6]).sys.xlatCtl 56 15 ≤ x.2.va % 2 ^ 57 / 2 ^ 15 ∧
      x.2.va % 2 ^ 57 / 2 ^ 15 < bits (sInval [4, 6]).sys.xlatCtl 56 15 + bits (sInval [4, 6]).sys.xlatCtl 95 64) ∧
    (∀ x ∈ (sInval [4, 7]).snoops, ¬ (x.2.part = bits (sInval [4, 7]).sys.xlatCtl 98 96 ∧
      bits (sInval [4, 7]).sys.xlatCtl 56 15 ≤ x.2.va % 2 ^ 57 / 2 ^ 15 ∧
      x.2.va % 2 ^ 57 / 2 ^ 15 < bits (sInval [4, 7]).sys.xlatCtl 56 15 + bits (sInval [4, 7]).sys.xlatCtl 95 64)) ∧
    (2 ^ 63).testBit 63 = true ∧ (sInval []).sys.pageMove.testBit 126 = false := by decide +kernel
/-- The last frame below dtop moves to frame 0; a frame moves onto itself; a large frame from an address that is not a multiple of its size. -/
def moveWord (src dst size : Nat) : BitVec 128 := BitVec.ofNat 128 (src + dst * 2 ^ 78 + size * 2 ^ 120)
theorem witness_TranslationControl_move : (State.reset.sys.pageMove.testBit 126 = true ∧ ∀ e ∈ State.reset.l1, ∀ o ∈ e.2.dirty, o < 64) ∧ Bare State.reset ∧
    (let v := (moveWord 0x17FFFF 0 0).toNat
     [2 ^ 15, 2 ^ 21, 2 ^ 26][bits v 121 120]? = some (2 ^ 15) ∧ bits v 36 0 * 2 ^ 15 % 2 ^ 15 = 0 ∧ bits v 114 78 * 2 ^ 15 % 2 ^ 15 = 0 ∧
       bits v 114 78 * 2 ^ 15 + 2 ^ 15 ≤ bits v 36 0 * 2 ^ 15 ∧ bits v 36 0 * 2 ^ 15 + 2 ^ 15 ≤ 0xC00000000 ∧
       bits v 114 78 * 2 ^ 15 + 2 ^ 15 ≤ 0xC00000000) ∧
    (let v := (moveWord 5 5 0).toNat
     [2 ^ 15, 2 ^ 21, 2 ^ 26][bits v 121 120]? = some (2 ^ 15) ∧ bits v 36 0 * 2 ^ 15 < bits v 114 78 * 2 ^ 15 + 2 ^ 15 ∧
       bits v 114 78 * 2 ^ 15 < bits v 36 0 * 2 ^ 15 + 2 ^ 15) ∧
    (let v := (moveWord 1 2048 2).toNat
     [2 ^ 15, 2 ^ 21, 2 ^ 26][bits v 121 120]? = some (2 ^ 26) ∧ bits v 36 0 * 2 ^ 15 % 2 ^ 26 ≠ 0) :=
  ⟨by decide +kernel, bare_reset, by decide +kernel, by decide +kernel, by decide +kernel⟩

/-- The thread waits at a fetch of page 1. -/
def fetchWait : Parked := ⟨0, 1, 1, 4, 1, 1, 0, .fetch 0 [0], 0, some 0, 0x8000⟩
def sFetch : State := { sL.modThread 0 0 (fun t => { t with st := .wait }) with parked := [(9, fetchWait)] }
theorem witness_AnswersToTraps_fetch : ∃ (w : Wg) (t : Thread), OneFetch sFetch 0 0 fetchWait w t ∧
    fetchWait.part = bits (BitVec.ofNat 64 1).toNat 44 42 ∧ fetchWait.page = bits (BitVec.ofNat 64 1).toNat 41 0 ∧ w.part < 8 :=
  ⟨_, _, ⟨⟨9, rfl⟩, by decide +kernel, rfl, rfl, rfl, rfl, by decide +kernel, by decide +kernel⟩, by decide +kernel, by decide +kernel, by decide +kernel⟩
/-- The thread is trapped under record 1. -/
def aTrap : TrapRec := ⟨13, 0, [0], 1, false⟩
def sTrapped : State := (sL.modThread 0 0 (fun t => { t with st := .trapped, trap := 1 })).modPart 0 (fun p => { p with traps := [(1, aTrap)], nextTrap := 2 })
theorem witness_AnswersToTraps_trap : ∃ (w : Wg) (t : Thread), HeldTrap sTrapped 0 1 0 0 aTrap w t ∧ bits (BitVec.ofNat 64 1).toNat 34 32 = 0 ∧
    bits (BitVec.ofNat 64 1).toNat 31 0 = 1 ∧ w.part = 0 :=
  ⟨_, _, ⟨rfl, rfl, rfl, by decide, rfl, rfl, rfl, by decide +kernel, by decide +kernel⟩, by decide +kernel, by decide +kernel, by decide +kernel⟩
theorem witness_AnswersToTraps_none : (State.reset.part (bits (BitVec.ofNat 64 1).toNat 34 32)).traps.find? (bits (BitVec.ofNat 64 1).toNat 31 0) = none := by
  decide +kernel

theorem witness_ServiceOperations : ({ State.reset with sys := { State.reset.sys with svc := 0 } } : State).sys.svc.testBit 62 = false ∧
    State.reset.sys.svc.testBit 62 = true ∧ (bits (33 : BitVec 52).toNat 5 0 < 34 ∧
      (∀ n, n < 8 → (State.reset.part n).cfg.testBit (bits (33 : BitVec 52).toNat 5 0) = false) ∧
      (∀ p ∈ State.reset.wgs, p.2.core / 8 ≠ bits (33 : BitVec 52).toNat 5 0) ∧ (State.reset.col (bits (33 : BitVec 52).toNat 5 0)).tasks = [] ∧
      (State.reset.col (bits (33 : BitVec 52).toNat 5 0)).rays = []) ∧ 34 ≤ bits (34 : BitVec 52).toNat 5 0 ∧
    (0 < bits (2 : BitVec 52).toNat 2 1 ∧ bits (2 : BitVec 52).toNat 2 1 < portWidth State.reset.boot.captab (bits (2 : BitVec 52).toNat 0 0)) ∧
    portWidth State.reset.boot.captab (bits (6 : BitVec 52).toNat 0 0) ≤ bits (6 : BitVec 52).toNat 2 1 := by decide +kernel
theorem witness_ServiceOperations_owned : ∃ n, n < 8 ∧ (sL.part n).cfg.testBit (bits (0 : BitVec 52).toNat 5 0) = true := ⟨0, by decide +kernel⟩
/-- Column 32 is retired; die 1's spare takes its place. -/
def sRetired : State := State.reset.modCol 32 Col.retire
theorem witness_ServiceOperations_spare : sRetired.sys.svc.testBit 62 = true ∧ (1 : BitVec 52).toNat.testBit 0 = true ∧
    (sRetired.col 33).enabled = false ∧ (sRetired.col 33).retired = false ∧ sRetired.replaced (bits (1 : BitVec 52).toNat 0 0) = some 32 := by
  decide +kernel
theorem witness_ServiceOperations_reset : (∀ p ∈ State.reset.wgs, p.2.core / 8 ≠ 33) ∧ (State.reset.col 33).tasks = [] ∧ (State.reset.col 33).rays = [] := by
  decide +kernel
/-- A row repair goes or not, as the free value says. -/
theorem witness_ServiceOperations_row : ∀ x : BitVec 52, State.reset.sys.svc.testBit 62 = true ∧
    (Config.rowLeft State.reset.boot.repairs x.toNat = true ∨ Config.rowLeft State.reset.boot.repairs x.toNat = false) :=
  fun _ => ⟨by decide +kernel, Bool.eq_false_or_eq_true _⟩
/-- A host write waited while port 1 retrained. -/
def sWaited : State := State.reset.modSys (fun y => { y with svc := 0, svcRun := 4 * 2 ^ 52 + 3, hostWaits := [(true, 0xBFFFFFFFE, [1, 2])] })
theorem witness_ServiceOperations_waited : (sWaited.sys.svc.testBit 62 = false ∧ sWaited.sys.hostWaits = [(true, 0xBFFFFFFFE, [1, 2])] ∧ 1 < 2 ∧
    sWaited.sys.portUp.getD 1 false = true ∧ sWaited.sys.portCxl.getD 1 false = true ∧ 0xBFFFFFFFE + [(1 : Byte), 2].length ≤ 0xC00000000 ∧
    bits sWaited.sys.svcRun 55 52 = 4 ∧ ∀ x ∈ sWaited.snoops, x.2.pa.testBit 51 = false) ∧ Bare sWaited ∧ State.reset.sys.hostWaits = [] :=
  ⟨by decide +kernel, ⟨by decide +kernel, by decide +kernel⟩, by decide +kernel⟩

/-! ## Witnesses: encodings, steps and invariants -/

theorem witness_EncodeDecodeRoundTrip : WellFormed (.add hN (.v 63) (.t 7) (.k 15) (some (ccMod .b32))) = true := by decide +kernel
theorem witness_DecodedBytesAreEncodings : decodeBytes [0x18, 0, 0, 0x40, 0xFF] = .ok (.nop hN 24) := by decide +kernel
/-- The loader's thread is the next to issue; its first words are EXIT. -/
def sStep : State := sL.placeWords [0x55A00000]
theorem of_next {s : State} {p : State → Wg → Cand → Bool} (h : s.nextKey.any (fun q => q.1 == 0 &&
    (q.2.find? (fun x => !x.waits)).any (fun c => (s.wgs.find? c.wk).any (fun w => p s w c))) = true) :
    ∃ (l : List Cand) (c : Cand) (w : Wg), s.nextKey = some (0, l) ∧ l.find? (fun x => !x.waits) = some c ∧ s.wgs.find? c.wk = some w ∧
      p s w c = true := by
  cases hk : s.nextKey with
  | none => simp [hk] at h
  | some q =>
    obtain ⟨core, l⟩ := q
    cases hc : l.find? (fun x => !x.waits) with
    | none => simp [hk, hc] at h
    | some c =>
      cases hw : s.wgs.find? c.wk with
      | none => simp [hk, hc, hw] at h
      | some w =>
        simp only [hk, hc, hw, Option.any_some, Bool.and_eq_true, beq_iff_eq] at h
        exact ⟨l, c, w, by rw [h.1], hc, hw, h.2⟩
theorem witness_StepRunsDecodedInstruction : sStep.agenda = [] ∧ sStep.wordNext = true ∧
    ∃ (l : List Cand) (c : Cand) (w : Wg), sStep.nextKey = some (0, l) ∧ l.find? (fun x => !x.waits) = some c ∧ sStep.wgs.find? c.wk = some w ∧
    ((sStep.decodeFrom w c.obj c.off matches .ok (.ok (.exit ⟨true, false, true⟩))) && partnersOf (.exit hSw) (laneOf c.idx) == none) = true :=
  ⟨by decide +kernel, by decide +kernel, of_next (p := fun s w c => (s.decodeFrom w c.obj c.off matches .ok (.ok (.exit ⟨true, false, true⟩))) &&
    partnersOf (.exit hSw) (laneOf c.idx) == none) (by decide +kernel)⟩
theorem witness_StepRunsDecodedInstruction_reject : ∃ (l : List Cand) (c : Cand) (w : Wg), (sL.placeWords [0x4FE00000]).nextKey = some (0, l) ∧
    l.find? (fun x => !x.waits) = some c ∧ (sL.placeWords [0x4FE00000]).wgs.find? c.wk = some w ∧
    ((sL.placeWords [0x4FE00000]).decodeFrom w c.obj c.off matches .ok (.error .undefined)) = true :=
  of_next (p := fun s w c => s.decodeFrom w c.obj c.off matches .ok (.error .undefined)) (by decide +kernel)
theorem witness_StepRunsDecodedInstruction_thread : ∃ (w : Wg) (t : Thread), sL.group = [] ∧ sL.wgs = [(0, w)] ∧ w.threads = [(0, t)] ∧ t.st = .ready ∧
    t.waits = false ∧ sL.issues w = true := ⟨_, _, by decide +kernel, rfl, rfl, by decide +kernel, by decide +kernel, by decide +kernel⟩
/-- No thread of it uses a loaded value. -/
theorem witness_StepRunsDecodedInstruction_loaded : ∀ k j t, sStep.thread? k j = some t → t.loaded = [] := by
  intro k j t h
  have hk : ∀ p ∈ sStep.wgs, ∀ q ∈ p.2.threads, q.2.loaded = [] := by decide +kernel
  unfold State.thread? at h
  cases e : sStep.wgs.find? k with
  | none => simp [e] at h
  | some w =>
    simp only [e] at h
    exact found (P := fun _ t => t.loaded = []) (found (P := fun _ w => ∀ q ∈ w.threads, q.2.loaded = []) hk k w e) j t h
/-- An event of the agenda answers a next state. -/
theorem witness_StepRunsDecodedInstruction_event : ({ sStep with agenda := [.wdogKick] } : State).agenda = .wdogKick :: [] ∧
    ∃ t, exec .wdogKick { ({ sStep with agenda := [.wdogKick] } : State) with agenda := [] } = .next t := ⟨rfl, _, rfl⟩
theorem witness_StepRunsDecodedInstruction_words : 0 / 4 % 3 = 0 ∧ Bare sL ∧ sL.poison = [] ∧
    (∀ l, sL.launch? 0 0 = some l → bits l.rcd 911 896 = 0) ∧ sL.xlate 0 (0 + 0) false false true = .ok 0x20000 false ∧
    sL.xlate 0 (0 + 0 + 4) false false true = .ok 0x20004 false :=
  ⟨by decide, ⟨by decide +kernel, by decide +kernel⟩, by decide +kernel, of_option (by decide +kernel), by decide +kernel, by decide +kernel⟩
theorem of_answer {o : Host.Outcome State Fault Refusal} (h : (o matches .next _) = true) : ∃ u, o = .next u := by
  cases o <;> simp_all
theorem witness_MemoryStaysCanonical : Memory.wf sStep.mem = true ∧ ∃ u, step sStep = .next u := ⟨by decide +kernel, of_answer (by decide +kernel)⟩
theorem witness_WordsKeepPrivilegedState : WellFormed (.exit hSw) = true ∧ ∃ u, exec (.exit hSw) sStep = .next u := ⟨by decide, _, rfl⟩

end Sys2Proof.Tests
end

section
/-! PROOFS. Integer words: how wide a source is, and what each form of word leaves once its arithmetic unit agrees with a
specification of it. -/

namespace Sys2Proof.Machine

open Sys2Proof.Claims

/-! ## How wide a source is -/

theorem wrapInt_lt (w : Nat) (i : Int) : wrapInt w i < 2 ^ w := by
  have hw : ((2 ^ w : Nat) : Int) > 0 := by positivity
  have h := Int.emod_lt_of_pos i hw
  have h' := Int.emod_nonneg i hw.ne'
  unfold wrapInt
  omega

theorem pair_toNat_lt (lo hi : Word) : lo.toNat + hi.toNat * 2 ^ 32 < 2 ^ 64 := by
  have := lo.isLt
  have := hi.isLt
  omega

theorem Ctx.src_lt {c : Ctx} {o : Opnd} {x : Nat} (h : c.src (.int 32) o = .ok x) : x < 2 ^ 32 := by
  cases o with
  | v n =>
    simp only [src, readV] at h
    split at h <;> cases h
    exact BitVec.isLt _
  | t n => cases h; exact BitVec.isLt _
  | k n => cases h; exact BitVec.isLt _
  | c n => cases h; exact wrapInt_lt _ _
  | pat q => cases h

theorem Ctx.src64_lt {c : Ctx} {o : Opnd} {x : Nat} (h : c.src64 o = .ok x) : x < 2 ^ 64 := by
  cases o with
  | v n =>
    simp only [src64, readV] at h
    repeat' split at h
    all_goals cases h
    exact pair_toNat_lt _ _
  | t n => simp only [src64] at h; split at h <;> cases h; exact pair_toNat_lt _ _
  | k n => simp only [src64] at h; split at h <;> cases h; exact pair_toNat_lt _ _
  | c n => cases h; exact wrapInt_lt _ _
  | pat q => cases h

/-- A source read at a type has the width of the type. -/
theorem Ctx.srcW_lt {c : Ctx} {t : Ty} {o : Opnd} {x : Nat} (h : c.srcW (.int (tyBits t)) (t == .b64) o = .ok x) :
    x < 2 ^ tyBits t := by
  by_cases ht : t = .b64
  · subst ht; exact Ctx.src64_lt h
  · simp only [tyBits, ht, if_false, srcW, beq_iff_eq] at h ⊢
    exact Ctx.src_lt h

theorem Ctx.pattern_lt {c : Ctx} {t : Ty} {a : Opnd} {q : Pat} {y : Nat × Bool} (h : c.pattern a q (t == .b64) = .ok y) :
    y.1 < 2 ^ tyBits t := by
  cases a with
  | v n =>
    simp only [pattern] at h
    repeat' split at h
    all_goals cases h
    · positivity
    · simp_all only [beq_iff_eq, tyBits, if_true]
      exact pair_toNat_lt _ _
    · simp_all only [beq_iff_eq, tyBits, if_false, Nat.add_zero]
      exact BitVec.isLt _
  | _ => cases h

/-- A computation that succeeds has a first part that succeeds. -/
theorem ok_of_bind {α β : Type} {e : Except Nat α} {k : α → Except Nat β} {y : β} (h : (e >>= k) = .ok y) :
    ∃ x, e = .ok x ∧ k x = .ok y := by
  cases e with
  | error => cases h
  | ok x => exact ⟨x, rfl, h⟩

theorem Ctx.read2_lt {c : Ctx} {t : Ty} {a b : Opnd} {x y : Nat} {p : Option Bool}
    (h : c.read2 (.int (tyBits t)) (t == .b64) a b = .ok (x, y, p)) : x < 2 ^ tyBits t ∧ y < 2 ^ tyBits t := by
  cases b with
  | pat q =>
    obtain ⟨y', hy, h⟩ := ok_of_bind h
    obtain ⟨x', hx, h⟩ := ok_of_bind h
    cases h
    exact ⟨Ctx.srcW_lt hx, Ctx.pattern_lt hy⟩
  | _ =>
    obtain ⟨x', hx, h⟩ := ok_of_bind h
    obtain ⟨y', hy, h⟩ := ok_of_bind h
    cases h
    exact ⟨Ctx.srcW_lt hx, Ctx.srcW_lt hy⟩

theorem Ctx.read1_lt {c : Ctx} {t : Ty} {a : Opnd} {b : Option Pat} {x : Read}
    (h : c.read1 (.int (tyBits t)) (t == .b64) a b = .ok x) : x.x < 2 ^ tyBits t := by
  cases b with
  | some q =>
    obtain ⟨y, hy, h⟩ := ok_of_bind h
    cases h
    exact Ctx.pattern_lt hy
  | none =>
    obtain ⟨y, hy, h⟩ := ok_of_bind h
    cases h
    exact Ctx.srcW_lt hy

theorem Ctx.third_lt {c : Ctx} {d : Opnd} {m : Option Mod} {z : Nat} (h : c.third (.int 32) d m = .ok z) : z < 2 ^ 32 := by
  cases m with
  | none => exact Ctx.src_lt h
  | some e => simp only [third] at h; split at h <;> exact Ctx.src_lt h

/-- A pattern read names a v register that the word could read itself. -/
theorem Ctx.src_of_pattern {c : Ctx} {e : Elem} {a : Opnd} {q : Pat} {wide : Bool} {y : Nat × Bool} (h : c.pattern a q wide = .ok y) :
    ∃ x, c.src e a = .ok x := by
  cases a with
  | v n =>
    have hn : n.val < c.wg.budget c.idx := by
      by_contra hn
      simp [pattern, Nat.not_lt.mp hn] at h
    exact ⟨_, by rw [src, readV, if_pos hn]; rfl⟩
  | _ => cases h

theorem Ctx.read2_pat {c : Ctx} {e : Elem} {a : Opnd} {q : Pat} {x : Nat} {y : Nat × Bool}
    (hx : c.src e a = .ok x) (hy : c.pattern a q false = .ok y) : c.read2 e false a (.pat q) = .ok (x, y.1, some y.2) := by
  simp only [read2, srcW, Bool.false_eq_true, if_false, hx, hy]; rfl

theorem Ctx.read2_src {c : Ctx} {e : Elem} {a b : Opnd} {x y : Nat} (hb : ∀ q, b ≠ .pat q)
    (hx : c.src e a = .ok x) (hy : c.src e b = .ok y) : c.read2 e false a b = .ok (x, y, none) := by
  cases b with
  | pat q => exact absurd rfl (hb q)
  | _ => simp only [read2, srcW, Bool.false_eq_true, if_false, hx, hy]; rfl

/-! ## What a form of word leaves -/

theorem modCheck_ok {types sats : List Ty} {t : Ty} {sat : Bool} (ht : t ∈ types) (hs : sat = true → t ∈ sats) :
    modCheck types sats t sat = .ok () := by
  cases sat <;> simp_all [modCheck]

/-- A result, C and V as the statements write them, as the outcome of the arithmetic unit. -/
def aluOf (r : Nat × Bool × Bool) : Alu := ⟨r.1, r.2.1, r.2.2⟩

theorem Alu.result_of_eq {u : Alu} {r : Nat × Bool × Bool} (h : u = aluOf r) (w : Nat) (cc : Bool) (a : Option Bool) :
    u.result w cc a = ⟨some r.1, flagsIf cc w r.1 r.2.1 r.2.2, a⟩ := by
  subst h; cases cc <;> rfl

/-- Form F3 with two sources: it is enough that the unit agrees with `g` on operands of the type's width. -/
theorem int3_of_agree {mk : Hdr → Opnd → Opnd → Opnd → Option Mod → Instr} {types sats : List Ty} {dflt : Ty}
    {f : Bool → Ty → Bool → Nat → Nat → Nat → Alu} {g : Bool → Ty → Bool → Nat → Nat → Nat → Nat × Bool × Bool}
    (hexec : ∀ h d a b m s, exec (mk h d a b m) s = .next (int3 types sats dflt f h d a b m s))
    (hfg : ∀ cin t sat x y, t ∈ types → x < 2 ^ tyBits t → y < 2 ^ tyBits t →
      f cin t sat (tyBits t) x y = aluOf (g cin t sat (tyBits t) x y)) :
    Int3 mk types sats dflt g := by
  intro s h d a b m x y p ht hs hrun hread
  refine ⟨_, hexec h d a b m s, runWord_short hrun (fun c hc o ho => ?_) (fun c hc => ?_)⟩
  · cases ho; exact (hread c hc).1
  · obtain ⟨-, hr⟩ := hread c hc
    obtain ⟨hx, hy⟩ := Ctx.read2_lt hr
    rw [modCheck_ok ht hs, hr]
    exact congrArg Except.ok (Alu.result_of_eq (hfg _ _ _ _ _ ht hx hy) _ _ _)

/-- The same of the words with a third source. -/
theorem int4_of_agree {mk : Hdr → Opnd → Opnd → Opnd → Option Mod → Instr} {types sats : List Ty}
    {f : Ty → Bool → Nat → Nat → Nat → Alu} {g : Ty → Bool → Nat → Nat → Nat → Nat × Bool × Bool}
    (hexec : ∀ h d a b m s, exec (mk h d a b m) s = .next (int4 types sats f h d a b m s))
    (hfg : ∀ t sat x y z, x < 2 ^ 32 → y < 2 ^ 32 → z < 2 ^ 32 → f t sat x y z = aluOf (g t sat x y z)) :
    Int4 mk types sats g := by
  intro s h d a b m x y z p ht hs hrun hread
  refine ⟨_, hexec h d a b m s, runWord_short hrun (fun c hc o ho => ?_) (fun c hc => ?_)⟩
  · cases ho; exact (hread c hc).1
  · obtain ⟨-, hr, hthird⟩ := hread c hc
    obtain ⟨hx, hy⟩ := Ctx.read2_lt (t := .b32) hr
    have hz : c.third (.int 32) d m = .ok (z c) := by
      cases m with
      | none => exact hthird
      | some e => simp only [Ctx.third]; split <;> simp_all
    have hzlt : z c < 2 ^ 32 := Ctx.third_lt hz
    simp only [modCheck_ok ht hs, hr, hz]
    exact congrArg Except.ok (Alu.result_of_eq (hfg _ _ _ _ _ hx hy hzlt) _ _ _)

/-- Form F1: it is enough that the unit gives C = 0 and meets `spec` on a source of the type's width. -/
theorem int1_of_meets {mk : Hdr → Opnd → Opnd → Option Pat → Option Mod → Instr} {types sats : List Ty} {dflt : Ty} {pair : Bool}
    {f : Bool → Nat → Nat → Alu} {spec : Bool → Nat → Nat → Nat × Bool → Prop}
    (hexec : ∀ h d a b m s, exec (mk h d a b m) s = .next (int1 types sats dflt pair f h d a b m s))
    (hspec : ∀ t sat x, t ∈ types → x < 2 ^ tyBits t →
      (f sat (tyBits t) x).c = false ∧ spec sat (tyBits t) x ((f sat (tyBits t) x).res, (f sat (tyBits t) x).v)) :
    Int1 mk types sats dflt pair spec := by
  intro s h d a b m x ht hs hrun hread
  let u (c : Ctx) : Alu := f (satOf m) (tyBits (tyOf m dflt)) (x c).x
  have hu (c) (hc : Member s (lenOf m) c) := hspec (tyOf m dflt) (satOf m) (x c).x ht (Ctx.read1_lt (hread c hc).2)
  refine ⟨fun c => ((u c).res, (u c).v), fun c hc => (hu c hc).2, _, hexec h d a b m s,
    runWord_short hrun (fun c hc o ho => ?_) (fun c hc => ?_)⟩
  · cases ho; exact (hread c hc).1
  · have hform : u c = aluOf ((u c).res, false, (u c).v) := by rw [← (hu c hc).1]; rfl
    simp only [modCheck_ok ht hs, (hread c hc).2]
    exact congrArg Except.ok (Alu.result_of_eq hform _ _ _)

/-- A shift reads its amount from one register, of its own thread or of a partner. -/
theorem shift_of_agree {mk : Hdr → Opnd → Opnd → Opnd → Option Mod → Instr} {f : Nat → Nat → Nat → Alu} {g : Nat → Nat → Nat → Nat × Bool}
    (hexec : ∀ h d a b m s, exec (mk h d a b m) s = .next (shiftWord f h d a b m s))
    (hfg : ∀ w x y, x < 2 ^ w → f w x y = aluOf ((g w x (y % 256)).1, (g w x (y % 256)).2, false)) :
    Shift mk g := by
  intro s h d a b m x y p ht hs hrun hread
  refine ⟨_, hexec h d a b m s, runWord_short hrun (fun c hc o ho => ?_) (fun c hc => ?_)⟩
  · cases ho; exact (hread c hc).1
  · obtain ⟨-, hx, hy⟩ := hread c hc
    have hres := congrArg (Except.ok (ε := Nat)) (Alu.result_of_eq (hfg _ _ (y c) (Ctx.srcW_lt hx)) (tyBits (tyOf m .b32)) (ccOf m) (p c))
    have hcheck : modCheck tyBit [] (tyOf m .b32) (satOf m) = .ok () := modCheck_ok ht (by simp [hs])
    cases b with
    | pat q =>
      obtain ⟨e, hq, he⟩ := hy
      obtain ⟨x', hx'⟩ := Ctx.src_of_pattern (e := .int 32) hq
      rw [hcheck, hx, Ctx.read2_pat hx' hq, ← he]
      exact hres
    | _ =>
      obtain ⟨hy, hp⟩ := hy
      rw [hcheck, hx, Ctx.read2_src (fun _ => Opnd.noConfusion) hy hy, ← hp]
      exact hres

theorem flagWord_of_agree {mk : Hdr → Ty → Opnd → Opnd → Instr} {f g : Ty → Nat → Nat → Nat → Flags4}
    (hexec : ∀ h t a b s, exec (mk h t a b) s = .next (flagWord f h t a b s)) (hfg : ∀ t w x y, f t w x y = g t w x y) :
    FlagWord mk g := by
  intro s h t a b x y p ht hrun hread
  refine ⟨_, hexec h t a b s, runWord_short hrun (fun c _ o ho => by cases ho) (fun c hc => ?_)⟩
  rw [modCheck_ok (types := tyRaw) ht (by simp), hread c hc, ← hfg]
  rfl

theorem setWord_of_agree {mk : Hdr → Opnd → Instr} {len : Nat} {f g : Ctx → Nat}
    (hexec : ∀ h d s, exec (mk h d) s = .next (setWord h len d f s)) (hfg : ∀ c, f c = g c) : SetWord mk len g := by
  intro s h d hrun hd
  refine ⟨_, hexec h d s, runWord_short hrun (fun c hc o ho => ?_) (fun c _ => by rw [hfg])⟩
  cases ho; exact hd c hc

/-- SEL judges its condition on the CC the thread had before the word, or before its chained group (R132, R168). -/
theorem sel_completes {s : State} {h : Hdr} {d a b : Opnd} {m : Mod} {x y : Ctx → Nat} {p : Ctx → Option Bool}
    (ht : m.ty ∈ [Ty.b32, Ty.b64]) (hs : m.sat = false) (hrun : CanRun s h 2)
    (hread : ∀ c, Member s 2 c → c.destOk (m.ty == .b64) d = true ∧
      c.read2 (.int (tyBits m.ty)) (m.ty == .b64) a b = .ok (x c, y c, p c)) :
    Completes (.sel h d a b m) s h 2 (fun c =>
      let r := if condHolds (Cond.ofCode m.cond.val) c.view.cc then x c else y c
      c.th.putResult (some d) (m.ty == .b64) ⟨some r, flagsIf m.cc (tyBits m.ty) r false false, p c⟩) := by
  refine ⟨_, rfl, runWord_short hrun (fun c hc o ho => ?_) (fun c hc => ?_)⟩
  · cases ho; exact (hread c hc).1
  · rw [modCheck_ok (types := tyBit) ht (by simp [hs]), (hread c hc).2]
    exact congrArg Except.ok (Alu.result_of_eq (r := (_, false, false)) rfl _ _ _)

end Sys2Proof.Machine
end

section
/-! PROOFS. Integer words: what each arithmetic unit of the model computes, in the terms of the statements. -/

namespace Sys2Proof.Machine

open Sys2Proof.Claims

/-! ## Two's complement -/

theorem wrapInt_eq (w : Nat) (i : Int) : wrapInt w i = (i % 2 ^ w).toNat := by
  simp [wrapInt]

theorem tyBits_pos (t : Ty) : 0 < tyBits t := by
  unfold tyBits; split <;> decide

/-- The bits of a two's complement number are inverted by −1 − x. -/
theorem sInt_not {w b : Nat} (hw : 0 < w) (hb : b < 2 ^ w) : sInt w (2 ^ w - 1 - b) = -1 - sInt w b := by
  have h2 : 2 ^ (w - 1) * 2 = 2 ^ w := Nat.two_pow_pred_mul_two hw
  unfold sInt
  split <;> split <;> omega

/-- Sign extension of an `n`-bit value to `w` bits. -/
theorem wrapInt_sInt {n w x : Nat} (hn : n ≤ w) (hx : x < 2 ^ n) :
    wrapInt w (sInt n x) = if 2 ^ (n - 1) ≤ x then x + (2 ^ w - 2 ^ n) else x := by
  have hle : 2 ^ n ≤ 2 ^ w := Nat.pow_le_pow_right (by decide) hn
  unfold wrapInt sInt
  split
  · rw [if_neg (by omega), Int.emod_eq_of_lt (by omega) (by omega)]; omega
  · rw [if_pos (by omega), ← Int.add_emod_right, Int.emod_eq_of_lt (by omega) (by omega)]; omega

/-! ## Add and subtract (R160) -/

theorem outside_eq (w : Nat) (e : Int) : outside w e = decide (e < -(2 ^ (w - 1)) ∨ 2 ^ (w - 1) - 1 < e) := by
  simp only [outside, Int.sub_one_lt_iff]

theorem addFamily_add (carry cin : Bool) (t : Ty) (sat : Bool) (w a b : Nat) :
    addFamily false carry cin t sat w a b = aluOf (addSpec (carry && cin) t sat w a b) := by
  have hc : (if carry then cin else false) = (carry && cin) := by cases carry <;> rfl
  simp only [addFamily, addSpec, aluOf, outside_eq, hc, Bool.false_eq_true, if_false]

/-- A subtract adds the inverted operand, and the borrow is the inverse of the carry. -/
theorem addFamily_sub (carry cin : Bool) (t : Ty) (sat : Bool) {w a b : Nat} (hw : 0 < w) (hb : b < 2 ^ w) :
    addFamily true carry cin t sat w a b = aluOf (subSpec (carry && !cin) t sat w a b) := by
  have hc : bnat (if carry then cin else true) = 1 - bnat (carry && !cin) := by cases carry <;> cases cin <;> rfl
  have hle : bnat (carry && !cin) ≤ 1 := by cases carry && !cin <;> decide
  have hfull : a + (2 ^ w - 1 - b) + (1 - bnat (carry && !cin)) = 2 ^ w + a - b - bnat (carry && !cin) := by omega
  have hbor : 2 ^ w ≤ 2 ^ w + a - b - bnat (carry && !cin) ↔ b + bnat (carry && !cin) ≤ a := by omega
  have hexact : sInt w a + sInt w (2 ^ w - 1 - b) + ((1 - bnat (carry && !cin) : Nat) : Int) =
      sInt w a - sInt w b - bnat (carry && !cin) := by rw [sInt_not hw hb]; omega
  simp only [addFamily, subSpec, aluOf, outside_eq, if_true, hc, hfull, hbor, hexact]

/-! ## Multiply (R161) -/

theorem fitInt_eq (t : Ty) (sat : Bool) (e : Int) : fitInt t sat e = aluOf (fitSpec t sat e) := by
  have hle : loOf t ≤ hiOf t := by unfold loOf hiOf; split <;> decide
  have hclamp : clampInt (loOf t) (hiOf t) e = max (loOf t) (min (hiOf t) e) := by
    unfold clampInt; split <;> [skip; split] <;> omega
  have hv : max (loOf t) (min (hiOf t) e) ≠ e ↔ e < loOf t ∨ hiOf t < e := by omega
  simp only [fitInt, hclamp, hv, wrapInt_eq]
  rfl

theorem wrapInt_high (p : Int) : wrapInt 64 p / 2 ^ 32 = (p / 2 ^ 32 % 2 ^ 32).toNat := by
  unfold wrapInt; omega

/-! ## Shifts and rotate (R163) -/

theorem shlAlu_eq (w a b : Nat) : shlAlu w a b =
    ⟨if w ≤ b % 256 then 0 else a * 2 ^ (b % 256) % 2 ^ w, decide (1 ≤ b % 256 ∧ b % 256 ≤ w) && a.testBit (w - b % 256), false⟩ := by
  unfold shlAlu
  split
  next h => simp [Nat.mod_eq_zero_of_dvd (Dvd.dvd.mul_left (pow_dvd_pow 2 h) a), bit]
  next => rfl

theorem shrAlu_eq {w a : Nat} (b : Nat) (ha : a < 2 ^ w) : shrAlu w a b =
    ⟨if w ≤ b % 256 then 0 else a / 2 ^ (b % 256), decide (1 ≤ b % 256 ∧ b % 256 ≤ w) && a.testBit (b % 256 - 1), false⟩ := by
  unfold shrAlu
  split
  next h => simp [Nat.div_eq_of_lt (ha.trans_le (Nat.pow_le_pow_right (by decide) h)), bit]
  next => rfl

theorem sarAlu_eq (w a b : Nat) : sarAlu w a b =
    ⟨(sInt w a / 2 ^ min (b % 256) (w - 1) % 2 ^ w).toNat, if b % 256 = 0 then false else a.testBit (min (b % 256) w - 1), false⟩ := by
  have hc : (if b % 256 ≤ w then bit a (b % 256 - 1) else bit a (w - 1)) = a.testBit (min (b % 256) w - 1) := by
    split
    next h => rw [Nat.min_eq_left h]; rfl
    next h => rw [Nat.min_eq_right (by omega)]; rfl
  simp only [sarAlu, hc, wrapInt_eq]

theorem rotAlu_eq (w a b : Nat) : rotAlu w a b =
    ⟨a * 2 ^ (b % 256 % w) % 2 ^ w + a / 2 ^ (w - b % 256 % w),
      decide (b % 256 % w ≠ 0) && (a * 2 ^ (b % 256 % w) % 2 ^ w + a / 2 ^ (w - b % 256 % w)).testBit 0, false⟩ := by
  simp only [rotAlu, bit, bne, beq_eq_decide, decide_not]

/-! ## Logic, minimum, maximum and compare (R164, R165, R167) -/

theorem sub_eq_xor_allOnes {w y : Nat} (hy : y < 2 ^ w) : 2 ^ w - 1 - y = y ^^^ (2 ^ w - 1) := by
  refine Nat.eq_of_testBit_eq fun i => ?_
  rw [Nat.sub_sub, Nat.add_comm 1, Nat.testBit_two_pow_sub_succ hy, Nat.testBit_xor, Nat.testBit_two_pow_sub_one]
  by_cases hi : i < w
  · simp [hi]
  · simp [hi, Nat.testBit_lt_two_pow (hy.trans_le (Nat.pow_le_pow_right (by decide) (by omega : w ≤ i)))]

theorem pickAlu_eq (q : Prop) [Decidable q] (x y : Nat) : pickAlu (decide q) x y = aluOf (if q then y else x, decide q, false) := by
  simp only [pickAlu, decide_eq_true_eq, aluOf]

theorem pickAlu_min (x y : Nat) : pickAlu (decide (y < x)) x y = aluOf (min x y, decide (y < x), false) := by
  have hmin : min x y = if y < x then y else x := by split <;> omega
  rw [hmin, pickAlu_eq]

theorem pickAlu_max (x y : Nat) : pickAlu (decide (x < y)) x y = aluOf (max x y, decide (x < y), false) := by
  have hmax : max x y = if x < y then y else x := by split <;> omega
  rw [hmax, pickAlu_eq]

theorem cmpFlags_eq (t : Ty) (w a b : Nat) : cmpFlags w (t != .z32) a b =
    ⟨decide (b ≤ a), decide (a = b), if t = .z32 then decide (a < b) else decide (sInt w a < sInt w b), false⟩ := by
  by_cases ht : t = .z32 <;> simp [cmpFlags, ht, beq_eq_decide]

/-! ## Bit counts and bit fields (R170, R171) -/

theorem clz_spec {w x : Nat} (hx : x < 2 ^ w) :
    (x = 0 → clz w x = w) ∧ (x ≠ 0 → clz w x < w ∧ 2 ^ (w - 1 - clz w x) ≤ x ∧ x < 2 ^ (w - clz w x)) := by
  refine ⟨fun h0 => if_pos h0, fun h0 => ?_⟩
  have hlog : x.log2 < w := (Nat.log2_lt h0).mpr hx
  have hlead : w - 1 - (w - 1 - x.log2) = x.log2 := by omega
  have hwidth : w - (w - 1 - x.log2) = x.log2 + 1 := by omega
  rw [clz, if_neg h0, hlead, hwidth]
  exact ⟨by omega, Nat.log2_self_le h0, Nat.lt_log2_self⟩

theorem popCount_eq (w x : Nat) : popCount w x = (List.range w).countP (fun i => x.testBit i) :=
  List.countP_eq_length_filter.symm

theorem testBit_maskOf (l : List Nat) (i : Nat) : (maskOf l).testBit i = decide (i ∈ l) := by
  have acc : ∀ (l : List Nat) (m : Nat),
      (l.foldl (fun m i => m ||| (1 <<< i)) m).testBit i = (m.testBit i || decide (i ∈ l)) := by
    intro l
    induction l with
    | nil => simp
    | cons j l ih =>
      intro m
      rw [List.foldl_cons, ih, Nat.testBit_or, Nat.one_shiftLeft, Nat.testBit_two_pow]
      simp [Bool.or_assoc, eq_comm]
  simp [maskOf, acc]

theorem testBit_brev (w x i : Nat) : (brev w x).testBit i = (decide (i < w) && x.testBit (w - 1 - i)) := by
  rw [brev, testBit_maskOf, Bool.eq_iff_iff, decide_eq_true_iff]
  simp only [ones, bit, List.mem_map, List.mem_filter, List.mem_range, Bool.and_eq_true, decide_eq_true_eq]
  constructor
  · rintro ⟨j, ⟨hj, hb⟩, rfl⟩
    exact ⟨by omega, by rwa [show w - 1 - (w - 1 - j) = j by omega]⟩
  · rintro ⟨hi, hb⟩
    exact ⟨w - 1 - i, ⟨by omega, hb⟩, by omega⟩

theorem testBit_brev_mirror {w i : Nat} (x : Nat) (hi : i < w) : (brev w x).testBit (w - 1 - i) = x.testBit i := by
  have hmirror : w - 1 - (w - 1 - i) = i := by omega
  have hlt : w - 1 - i < w := by omega
  simp only [testBit_brev, hmirror, hlt, decide_true, Bool.true_and]

theorem brev_lt (w x : Nat) : brev w x < 2 ^ w :=
  Nat.lt_pow_two_of_testBit _ fun i hi => by simp [testBit_brev, Nat.not_lt.mpr hi]

theorem lenPrime_le (b : Nat) : lenPrime b ≤ 32 := by unfold lenPrime; omega

theorem posOf_add_lenPrime_le (b : Nat) : posOf b + lenPrime b ≤ 32 := by
  unfold lenPrime posOf; omega

theorem bfx_eq (signed : Bool) (a b : Nat) : bfx signed a b =
    if lenPrime b = 0 then 0
    else if signed ∧ 2 ^ (lenPrime b - 1) ≤ fieldOf a (posOf b) (lenPrime b) then
      fieldOf a (posOf b) (lenPrime b) + (2 ^ 32 - 2 ^ lenPrime b)
    else fieldOf a (posOf b) (lenPrime b) := by
  have hf : fieldOf a (posOf b) (lenPrime b) < 2 ^ lenPrime b := Nat.mod_lt _ (by positivity)
  have hs := wrapInt_sInt (lenPrime_le b) hf
  change (if lenPrime b = 0 then 0
    else if signed then wrapInt 32 (sInt (lenPrime b) (fieldOf a (posOf b) (lenPrime b))) else fieldOf a (posOf b) (lenPrime b)) = _
  cases signed <;> simp [hs]

/-- A field of `n` bits at `p` put into a word, as masks and as arithmetic. -/
theorem insert_field {a base p n : Nat} (hbase : base < 2 ^ 32) (hpn : p + n ≤ 32) :
    (base &&& (2 ^ 32 - 1 - (2 ^ n - 1) * 2 ^ p)) ||| (a * 2 ^ p &&& (2 ^ n - 1) * 2 ^ p) =
      base % 2 ^ p + a % 2 ^ n * 2 ^ p + base / 2 ^ (p + n) * 2 ^ (p + n) := by
  have hmask : (2 ^ n - 1) * 2 ^ p < 2 ^ 32 :=
    calc (2 ^ n - 1) * 2 ^ p < 2 ^ n * 2 ^ p := Nat.mul_lt_mul_of_pos_right (Nat.sub_lt (by positivity) one_pos) (by positivity)
      _ = 2 ^ (p + n) := by rw [← pow_add, Nat.add_comm]
      _ ≤ 2 ^ 32 := Nat.pow_le_pow_right (by decide) hpn
  have hsum : base % 2 ^ p + a % 2 ^ n * 2 ^ p + base / 2 ^ (p + n) * 2 ^ (p + n) =
      2 ^ p * (2 ^ n * (base / 2 ^ (p + n)) + a % 2 ^ n) + base % 2 ^ p := by ring
  refine Nat.eq_of_testBit_eq fun i => ?_
  rw [hsum, Nat.testBit_two_pow_mul_add _ (Nat.mod_lt _ (by positivity)), Nat.testBit_two_pow_mul_add _ (Nat.mod_lt _ (by positivity)),
    Nat.sub_sub, Nat.add_comm 1]
  simp only [Nat.testBit_or, Nat.testBit_and, Nat.testBit_two_pow_sub_succ hmask, Nat.testBit_mul_two_pow, Nat.testBit_two_pow_sub_one,
    Nat.testBit_mod_two_pow, Nat.testBit_div_two_pow]
  by_cases below : i < p
  · simp [below, show i < 32 by omega, show ¬ p ≤ i by omega]
  have hp : p ≤ i := by omega
  by_cases inside : i - p < n
  · simp [below, hp, inside]
  have hi : i - p - n + (p + n) = i := by omega
  by_cases word : i < 32
  · simp [below, hp, inside, hi, word]
  · simp [below, hp, inside, hi, Nat.testBit_lt_two_pow (hbase.trans_le (Nat.pow_le_pow_right (by decide) (by omega : 32 ≤ i)))]

theorem bfi_eq (a b : Nat) {base : Nat} (hbase : base < 2 ^ 32) : bfi a b base =
    base % 2 ^ posOf b + a % 2 ^ lenPrime b * 2 ^ posOf b
      + base / 2 ^ (posOf b + lenPrime b) * 2 ^ (posOf b + lenPrime b) :=
  insert_field hbase (posOf_add_lenPrime_le b)

/-! ## Absolute value and negation (R166) -/

theorem natAbs_sInt {x : Nat} (hx : x < 2 ^ 32) :
    (sInt 32 x).natAbs = if decide (2 ^ 31 ≤ x) = true then (2 ^ 32 - x) % 2 ^ 32 else x := by
  unfold sInt
  split
  next h => rw [if_neg (by simpa using h)]; rfl
  next h => rw [if_pos (by simpa using h)]; omega

/-- Only −2^31 has no negation. -/
theorem negAlu_spec (neg sat : Bool) (x : Nat) : (negAlu neg sat x).c = false ∧ ((negAlu neg sat x).res, (negAlu neg sat x).v) =
    if x = 2 ^ 31 then (if sat then 2 ^ 31 - 1 else 2 ^ 31, true) else (if neg then (2 ^ 32 - x) % 2 ^ 32 else x, false) := by
  unfold negAlu; split <;> exact ⟨rfl, rfl⟩

/-! ## Immediates (R172 to R174) -/

theorem sext32_eq (imm : BitVec 14) : sext32 14 imm.toNat = (imm.signExtend 32).toNat := by
  rw [sext32, Nat.mod_eq_of_lt imm.isLt, wrapInt_sInt (by decide) imm.isLt, BitVec.toNat_signExtend, BitVec.msb_eq_decide,
    BitVec.toNat_setWidth_of_le (by decide)]
  split <;> simp_all

theorem toNat_append_eq {m n : Nat} (hi : BitVec m) (lo : BitVec n) : (hi ++ lo).toNat = hi.toNat * 2 ^ n + lo.toNat := by
  rw [BitVec.toNat_append, ← Nat.shiftLeft_add_eq_or_of_lt lo.isLt, Nat.shiftLeft_eq]

/-- MOVHI keeps the low half of its own destination (R174). -/
theorem movhi_completes {s : State} {h : Hdr} {d : Fin 32} (imm : BitVec 16) (hrun : CanRun s h 1)
    (hd : ∀ c, Member s 1 c → d.val < c.wg.budget c.idx) :
    Completes (.movhi h d imm) s h 1 (fun c => c.th.putV d.val (imm ++ (FMap.get 0 c.view.v d.val).setWidth 16)) := by
  have hput : ∀ c : Ctx, c.th.putV d.val (imm ++ (FMap.get 0 c.view.v d.val).setWidth 16) =
      c.th.putResult (some (.v ⟨d.val, by omega⟩)) false
        ⟨some (imm ++ (FMap.get 0 c.view.v d.val).setWidth 16).toNat, none, none⟩ := fun c => by
    simp [Thread.putResult, Thread.putD]
  simp only [hput]
  refine ⟨_, rfl, runWord_short hrun (fun c hc o ho => ?_) (fun c hc => ?_)⟩
  · cases ho; simp [Ctx.destOk, bnat, hd c hc]
  · simp only [Ctx.src, Ctx.readV, if_pos (hd c hc), toNat_append_eq, BitVec.toNat_setWidth]
    rfl

end Sys2Proof.Machine
end

section
/-! PROOFS. The statements about the integer and move words. -/

namespace Sys2Proof.Proofs

open Sys2Proof.Machine Sys2Proof.Claims

/-- Settles O1: a subtract adds the inverted operand with the inverted borrow. -/
theorem integerAddSub : Obligations.IntegerAddSub :=
  ⟨int3_of_agree (fun _ _ _ _ _ _ => rfl) (fun cin t sat _ _ _ _ _ => addFamily_add false cin t sat _ _ _),
    int3_of_agree (fun _ _ _ _ _ _ => rfl) (fun cin t sat _ _ _ _ hy => addFamily_sub false cin t sat (tyBits_pos t) hy),
    int3_of_agree (fun _ _ _ _ _ _ => rfl) (fun cin t sat _ _ _ _ _ => addFamily_add true cin t sat _ _ _),
    int3_of_agree (fun _ _ _ _ _ _ => rfl) (fun cin t sat _ _ _ _ hy => addFamily_sub true cin t sat (tyBits_pos t) hy)⟩

/-- Settles O2: V of a product is that the clamp moves it. -/
theorem integerMultiply : Obligations.IntegerMultiply :=
  ⟨int3_of_agree (fun _ _ _ _ _ _ => rfl) (fun _ t sat _ _ _ _ _ => fitInt_eq t sat _),
    int3_of_agree (fun _ _ _ _ _ _ => rfl) (fun _ _ _ _ _ _ _ _ => by rw [wrapInt_high]; rfl),
    int3_of_agree (fun _ _ _ _ _ _ => rfl) (fun _ _ _ _ _ _ _ _ => rfl),
    int4_of_agree (fun _ _ _ _ _ _ => rfl) (fun t sat _ _ _ _ _ _ => fitInt_eq t sat _)⟩

/-- Settles O3: an amount of the width or more leaves 0, or the sign of SAR. -/
theorem shifts : Obligations.Shifts :=
  ⟨shift_of_agree (fun _ _ _ _ _ _ => rfl) (fun w x y _ => shlAlu_eq w x y),
    shift_of_agree (fun _ _ _ _ _ _ => rfl) (fun _ _ y hx => shrAlu_eq y hx),
    shift_of_agree (fun _ _ _ _ _ _ => rfl) (fun w x y _ => sarAlu_eq w x y),
    shift_of_agree (fun _ _ _ _ _ _ => rfl) (fun w x y _ => rotAlu_eq w x y)⟩

/-- Settles O4: NOT y of `w` bits is both 2^w − 1 − y and y XOR 2^w − 1. -/
theorem logicMinMax : Obligations.LogicMinMax :=
  ⟨int3_of_agree (fun _ _ _ _ _ _ => rfl) (fun _ _ _ _ _ _ _ _ => rfl),
    int3_of_agree (fun _ _ _ _ _ _ => rfl) (fun _ _ _ _ _ _ _ _ => rfl),
    int3_of_agree (fun _ _ _ _ _ _ => rfl) (fun _ _ _ _ _ _ _ _ => rfl),
    int3_of_agree (fun _ _ _ _ _ _ => rfl) (fun _ _ _ _ _ _ _ hy => by rw [sub_eq_xor_allOnes hy]; rfl),
    int3_of_agree (fun _ _ _ _ _ _ => rfl) (fun _ _ _ x y _ _ _ => pickAlu_eq (sInt 32 y < sInt 32 x) x y),
    int3_of_agree (fun _ _ _ _ _ _ => rfl) (fun _ _ _ x y _ _ _ => pickAlu_min x y),
    int3_of_agree (fun _ _ _ _ _ _ => rfl) (fun _ _ _ x y _ _ _ => pickAlu_eq (sInt 32 x < sInt 32 y) x y),
    int3_of_agree (fun _ _ _ _ _ _ => rfl) (fun _ _ _ x y _ _ _ => pickAlu_max x y)⟩

/-- Settles O5: CLZ is the width less the binary length, BREV is read bit by bit, and a BFI mask is a sum of three fields. -/
theorem bitWords : Obligations.BitWords :=
  ⟨int1_of_meets (fun _ _ _ _ _ _ => rfl) (fun t sat x ht hx => by
      obtain rfl := List.mem_singleton.mp ht
      rw [natAbs_sInt hx]
      exact negAlu_spec _ sat x),
    int1_of_meets (fun _ _ _ _ _ _ => rfl) (fun _ sat x _ _ => negAlu_spec true sat x),
    int1_of_meets (fun _ _ _ _ _ _ => rfl) (fun _ _ _ _ hx => ⟨rfl, rfl, clz_spec hx⟩),
    int1_of_meets (fun _ _ _ _ _ _ => rfl) (fun t _ x _ _ => ⟨rfl, by rw [popCount_eq]⟩),
    int1_of_meets (fun _ _ _ _ _ _ => rfl) (fun t _ x _ _ => ⟨rfl, rfl, brev_lt (tyBits t) x, fun _ => testBit_brev_mirror x⟩),
    int3_of_agree (fun _ _ _ _ _ _ => rfl) (fun _ t _ x y _ _ _ => by rw [bfx_eq]; simp [aluOf]),
    int4_of_agree (fun _ _ _ _ _ _ => rfl) (fun _ _ x y z _ _ hz => by rw [bfi_eq x y hz]; rfl)⟩

/-- Settles O6: CMP orders its operands by the type, TST is the AND's flags, and SEL writes by the condition. -/
theorem compareTestSelect : Obligations.CompareTestSelect :=
  ⟨flagWord_of_agree (fun _ _ _ _ _ => rfl) cmpFlags_eq, flagWord_of_agree (fun _ _ _ _ _ => rfl) (fun _ _ _ _ => rfl),
    fun _ _ _ _ _ _ _ _ _ ht hs hrun hread => sel_completes ht hs hrun hread⟩

/-- Settles O7: MOVI sign-extends its 14 bits, its extension puts 18 above them, and MOVHI puts 16 above the register's own low half. -/
theorem moves : Obligations.Moves :=
  ⟨int1_of_meets (fun _ _ _ _ _ _ => rfl) (fun _ _ _ _ _ => ⟨rfl, rfl⟩),
    fun imm => setWord_of_agree (fun _ _ _ => rfl) (fun _ => sext32_eq imm),
    fun imm hi => setWord_of_agree (fun _ _ _ => rfl) (fun _ => (toNat_append_eq hi imm).symm),
    fun _ _ _ imm hrun hd => movhi_completes imm hrun hd⟩

end Sys2Proof.Proofs
end

section
/-! PROOFS. Float words with no arithmetic: the order of exact values, sign bits, and the integers that a format holds exactly. -/

namespace Sys2Proof.Machine

open Sys2Proof.Claims

/-! ## The order of exact values (R129, R196) -/

theorem XR.lt_asymm {a b : XR} (h : lt a b = true) : lt b a = false := by
  cases a <;> cases b <;> simp_all [lt]
  omega

theorem XR.lt_of_isZero {a b : XR} (ha : a.isZero = true) (hb : b.isZero = true) : lt a b = false := by
  cases a <;> cases b <;> simp_all [lt, isZero]

/-- −0 is below +0, so zeros keep the order strict. -/
theorem XR.ltZ_asymm {a b : XR} (h : ltZ a b = true) : ltZ b a = false := by
  by_cases hz : a.isZero = true ∧ b.isZero = true
  · obtain ⟨ha, hb⟩ := hz
    simp_all [ltZ, lt_of_isZero ha hb, lt_of_isZero hb ha]
  · have hlt : lt a b = true := by
      simp only [ltZ, Bool.or_eq_true, Bool.and_eq_true] at h
      rcases h with h | ⟨⟨h, -⟩, -⟩
      · exact h
      · exact absurd h hz
    have hz' : (b.isZero && a.isZero) = false := by
      rw [Bool.and_comm]; simpa using hz
    rw [ltZ, lt_asymm hlt, hz']; rfl

/-! ## The scalar formats -/

/-- The formats that the types of the scalar float words name (Table 9.1). -/
def scalarFmts : List FFmt := [.f32, .f16, .bf16]

theorem fmtOf_mem_scalarFmts {t : Ty} (h : t ∈ Ty.floats) : fmtOf t ∈ scalarFmts := by
  simp only [Ty.floats, List.mem_cons, List.not_mem_nil, or_false] at h
  rcases h with rfl | rfl | rfl <;> decide

theorem fmtOf_tyOf_mem_scalarFmts {row : FloatRow} {m : Option Mod} (hrow : row.types = Ty.floats)
    (h : ∀ k, m = some k → row.tyOk k = true) : fmtOf (tyOf m .f32) ∈ scalarFmts := by
  cases m with
  | none => decide
  | some k =>
    have hk := h k rfl
    simp only [FloatRow.tyOk, hrow, Bool.and_eq_true, List.contains_iff_mem] at hk
    exact fmtOf_mem_scalarFmts hk.1

theorem floatCheck_ok {row : FloatRow} {m : Option Mod} (h : ∀ k, m = some k → row.tyOk k = true) : floatCheck row m = .ok () := by
  cases m with
  | none => rfl
  | some k => exact if_pos (h k rfl)

theorem some_fmtNan_getD {f : FFmt} (hf : f ∈ scalarFmts) : some ((fmtNan f).getD 0) = fmtNan f := by
  revert f; decide

theorem fmtWidth_pos (f : FFmt) : 0 < fmtWidth f := by cases f <;> decide

theorem fmtBias_pos (f : FFmt) : 0 < fmtBias f := by cases f <;> decide

/-- The encoding of 2^(m + 1), where `m` is the width of the mantissa field, is at most the largest finite one. -/
theorem fmtMax_ge {f : FFmt} (hf : f ∈ scalarFmts) : (fmtMant f + fmtBias f + 1) * 2 ^ fmtMant f ≤ fmtMax f := by
  revert f; decide

theorem fmtMax_lt {f : FFmt} (hf : f ∈ scalarFmts) : fmtMax f < 2 ^ (fmtWidth f - 1) := by
  revert f; decide

theorem ne_e8m0_of_mem_scalarFmts {f : FFmt} (hf : f ∈ scalarFmts) : f ≠ .e8m0 := by
  rintro rfl; revert hf; decide

/-! ## Sign bits (R197) -/

theorem xor_two_pow {n x : Nat} (hx : x < 2 ^ (n + 1)) : x ^^^ 2 ^ n = (x + 2 ^ n) % 2 ^ (n + 1) := by
  refine Nat.eq_of_testBit_eq fun i => ?_
  rw [Nat.testBit_xor, Nat.testBit_two_pow, Nat.testBit_mod_two_pow, Nat.add_comm x]
  rcases Nat.lt_trichotomy i n with below | rfl | above
  · simp [Nat.testBit_two_pow_add_gt below, below.ne', Nat.lt_succ_of_lt below]
  · simp [Nat.testBit_two_pow_add_eq]
  · have hxi : x.testBit i = false := Nat.testBit_lt_two_pow (hx.trans_le (Nat.pow_le_pow_right (by decide) above))
    have hi : ¬ i < n + 1 := by omega
    simp [hxi, above.ne, hi]

theorem xor_signBit (f : FFmt) {x : Nat} (hx : x < 2 ^ fmtWidth f) :
    x ^^^ 2 ^ (fmtWidth f - 1) = (x + 2 ^ (fmtWidth f - 1)) % 2 ^ fmtWidth f := by
  have hw : fmtWidth f - 1 + 1 = fmtWidth f := Nat.sub_add_cancel (fmtWidth_pos f)
  have h := xor_two_pow (n := fmtWidth f - 1) (hw.symm ▸ hx)
  rwa [hw] at h

theorem bit_fmtSign_add {f : FFmt} (g : Bool) {mag : Nat} (h : mag < 2 ^ (fmtWidth f - 1)) :
    bit (fmtSign f g + mag) (fmtWidth f - 1) = g := by
  cases g
  · simp [fmtSign, bit, Nat.testBit_lt_two_pow h]
  · simp [fmtSign, bit, Nat.testBit_two_pow_add_eq, Nat.testBit_lt_two_pow h]

theorem fmtSign_add_mod {f : FFmt} (g : Bool) {mag : Nat} (h : mag < 2 ^ (fmtWidth f - 1)) :
    (fmtSign f g + mag) % 2 ^ (fmtWidth f - 1) = mag := by
  cases g <;> simp [fmtSign, Nat.mod_eq_of_lt h]

/-! ## The value of an encoding put together from its fields (R112) -/

theorem fmtValue_zero {f : FFmt} (hf : f ∈ scalarFmts) (g : Bool) :
    fmtValue f (fmtSign f g) = .ofDyadic g 0 (1 - (fmtBias f : Int) - fmtMant f) := by
  have hbit := bit_fmtSign_add (f := f) g (mag := 0) (by positivity)
  have hmod := fmtSign_add_mod (f := f) g (mag := 0) (by positivity)
  rw [Nat.add_zero] at hbit hmod
  simp only [fmtValue, if_neg (ne_e8m0_of_mem_scalarFmts hf), hbit, hmod, Nat.not_lt_zero, if_false, Nat.zero_div, Nat.zero_mod, if_true]

theorem fmtValue_normal {f : FFmt} (hf : f ∈ scalarFmts) (g : Bool) {e fr : Nat} (he : e ≠ 0) (hfr : fr < 2 ^ fmtMant f)
    (hmax : e * 2 ^ fmtMant f + fr ≤ fmtMax f) :
    fmtValue f (fmtSign f g + (e * 2 ^ fmtMant f + fr)) = .ofDyadic g (2 ^ fmtMant f + fr) ((e : Int) - fmtBias f - fmtMant f) := by
  have hlt := hmax.trans_lt (fmtMax_lt hf)
  have hdiv : (e * 2 ^ fmtMant f + fr) / 2 ^ fmtMant f = e := by
    rw [Nat.add_comm, Nat.add_mul_div_right _ _ (by positivity), Nat.div_eq_of_lt hfr, Nat.zero_add]
  have hmod : (e * 2 ^ fmtMant f + fr) % 2 ^ fmtMant f = fr := by
    rw [Nat.add_comm, Nat.add_mul_mod_self_right, Nat.mod_eq_of_lt hfr]
  simp only [fmtValue, if_neg (ne_e8m0_of_mem_scalarFmts hf), bit_fmtSign_add g hlt, fmtSign_add_mod g hlt, if_neg (Nat.not_lt.mpr hmax),
    hdiv, hmod, if_neg he]

@[simp] theorem XR.neg?_ofDyadic (g : Bool) (m : Nat) (e : Int) : (ofDyadic g m e).neg? = g := by
  unfold ofDyadic; split <;> rfl

theorem ratOf_ofDyadic (g : Bool) (m : Nat) (e : Int) :
    ratOf (.ofDyadic g m e) = if g then -((m : ℚ) * 2 ^ e) else (m : ℚ) * 2 ^ e := by
  have hval : ((m : ℚ) * 2 ^ e) = if e < 0 then (m : ℚ) / (2 ^ (-e).toNat : Nat) else ((m * 2 ^ e.toNat : Nat) : ℚ) / (1 : Nat) := by
    split
    next h =>
      obtain ⟨k, rfl⟩ : ∃ k : Nat, e = -k := ⟨(-e).toNat, by omega⟩
      simp [div_eq_mul_inv]
    next h =>
      obtain ⟨k, rfl⟩ : ∃ k : Nat, e = k := ⟨e.toNat, by omega⟩
      simp
  rw [hval, XR.ofDyadic]
  split <;> rfl

/-! ## Small integers are exact in a format (R118) -/

theorem ilog2_one {i : Nat} (hi : i ≠ 0) : ilog2 i 1 = i.log2 := by
  have hlog : Nat.log2 1 = 0 := by decide
  have hneg : ¬ (i.log2 : Int) - (0 : Nat) < 0 := by omega
  have hle : ¬ i < 1 * 2 ^ ((i.log2 : Int) - (0 : Nat)).toNat := by simpa using Nat.log2_self_le hi
  simp only [ilog2, hlog, if_neg hneg, if_neg hle]
  omega

theorem log2_le_of_le_two_pow {i m : Nat} (h0 : i ≠ 0) (hi : i ≤ 2 ^ m) : i.log2 ≤ m :=
  (Nat.pow_le_pow_iff_right (by decide)).mp ((Nat.log2_self_le h0).trans hi)

/-- Shifted up until its leading bit is bit `m`, a number of at most `m + 1` bits is 2^m and a fraction below it. -/
theorem exists_fraction {i m : Nat} (h0 : i ≠ 0) (hlog : i.log2 ≤ m) : ∃ fr, fr < 2 ^ m ∧ i * 2 ^ (m - i.log2) = 2 ^ m + fr := by
  have hpow : 2 ^ i.log2 * 2 ^ (m - i.log2) = 2 ^ m := by rw [← pow_add, Nat.add_sub_cancel' hlog]
  have hlow := Nat.mul_le_mul_right (2 ^ (m - i.log2)) (Nat.log2_self_le h0)
  have hhigh := Nat.mul_lt_mul_of_pos_right (Nat.lt_log2_self (n := i)) (Nat.two_pow_pos (m - i.log2))
  rw [pow_succ, mul_right_comm] at hhigh
  exact ⟨i * 2 ^ (m - i.log2) - 2 ^ m, by omega, by omega⟩

/-- An integer of at most `m + 1` bits, `m` the width of the mantissa field, rounds without a remainder: its exponent field follows its
leading bit, and its bits are shifted up to the top of the mantissa. -/
theorem roundMag_int {f : FFmt} {i : Nat} (g : Bool) (h0 : i ≠ 0) (hlog : i.log2 ≤ fmtMant f) :
    roundMag f .rne g i 1 0 0 = (i.log2 + fmtBias f - 1) * 2 ^ fmtMant f + i * 2 ^ (fmtMant f - i.log2) := by
  have hbias := fmtBias_pos f
  have hmax : max (i.log2 : Int) (1 - (fmtBias f : Int)) = i.log2 := by omega
  have hexp : ((i.log2 : Int) - (1 - (fmtBias f : Int))).toNat = i.log2 + fmtBias f - 1 := by omega
  have hup : (-((i.log2 : Int) - fmtMant f)).toNat = fmtMant f - i.log2 := by omega
  have hdown : ((i.log2 : Int) - fmtMant f).toNat = 0 := by omega
  have hnum : (if (i.log2 : Int) - fmtMant f < 0 then i * 2 ^ (fmtMant f - i.log2) else i) = i * 2 ^ (fmtMant f - i.log2) := by
    split
    next => rfl
    next h => rw [show fmtMant f - i.log2 = 0 by omega, pow_zero, Nat.mul_one]
  simp only [roundMag, ilog2_one h0, hmax, hexp, hup, hdown, hnum, pow_zero, Nat.mul_one, ite_self, Nat.div_one, Nat.mod_one]
  simp [roundsUp, bnat]

theorem fmtValue_roundRne_int {f : FFmt} (hf : f ∈ scalarFmts) (g : Bool) {i : Nat} (h0 : i ≠ 0) (hi : i ≤ 2 ^ fmtMant f) :
    fmtValue f (roundRne f (.fin g i 1)) = .ofDyadic g (i * 2 ^ (fmtMant f - i.log2)) ((i.log2 : Int) - fmtMant f) := by
  have hlog := log2_le_of_le_two_pow h0 hi
  have hbias := fmtBias_pos f
  obtain ⟨fr, hfr, hshift⟩ := exists_fraction h0 hlog
  have hmag : roundMag f .rne g i 1 0 0 = (i.log2 + fmtBias f) * 2 ^ fmtMant f + fr :=
    calc roundMag f .rne g i 1 0 0 = (i.log2 + fmtBias f - 1) * 2 ^ fmtMant f + (2 ^ fmtMant f + fr) := by
          rw [roundMag_int g h0 hlog, hshift]
      _ = (i.log2 + fmtBias f - 1 + 1) * 2 ^ fmtMant f + fr := by ring
      _ = (i.log2 + fmtBias f) * 2 ^ fmtMant f + fr := by rw [Nat.sub_add_cancel (by omega)]
  have hmax : (i.log2 + fmtBias f) * 2 ^ fmtMant f + fr ≤ fmtMax f :=
    calc (i.log2 + fmtBias f) * 2 ^ fmtMant f + fr ≤ (i.log2 + fmtBias f + 1) * 2 ^ fmtMant f := by rw [Nat.succ_mul]; omega
      _ ≤ (fmtMant f + fmtBias f + 1) * 2 ^ fmtMant f := Nat.mul_le_mul_right _ (by omega)
      _ ≤ fmtMax f := fmtMax_ge hf
  have henc : roundRne f (.fin g i 1) = fmtSign f g + ((i.log2 + fmtBias f) * 2 ^ fmtMant f + fr) := by
    simp only [roundRne, roundTo, if_neg h0, hmag, if_neg (Nat.not_lt.mpr hmax)]
  rw [henc, fmtValue_normal hf g (by omega) hfr hmax, hshift]
  congr 1; omega

theorem ratOf_roundRne_int {f : FFmt} (hf : f ∈ scalarFmts) (g : Bool) {i : Nat} (h0 : i ≠ 0) (hi : i ≤ 2 ^ fmtMant f) :
    ratOf (fmtValue f (roundRne f (.fin g i 1))) = if g then -(i : ℚ) else i := by
  have hscale : ((i * 2 ^ (fmtMant f - i.log2) : Nat) : ℚ) * 2 ^ ((i.log2 : Int) - fmtMant f) = i := by
    have hexp : (i.log2 : Int) - fmtMant f = -((fmtMant f - i.log2 : Nat) : Int) := by
      have := log2_le_of_le_two_pow h0 hi
      omega
    rw [hexp]
    simp
  rw [fmtValue_roundRne_int hf g h0 hi, ratOf_ofDyadic, hscale]

/-! ## FRND (R203) -/

/-- A value below 2^m rounds to an integer of its own sign and of a magnitude of at most 2^m. -/
theorem roundInt_signed (rm : Rm) (g : Bool) {n d m : Nat} (h : n < d * 2 ^ m) :
    ∃ i : Nat, i ≤ 2 ^ m ∧ roundInt rm 0 0 (.fin g n d) = if g then -(i : Int) else i := by
  have hquot : n / d < 2 ^ m := Nat.div_lt_of_lt_mul h
  have hcarry : ∀ b, bnat b ≤ 1 := by decide
  have hup := hcarry (roundsUp rm g (n / d) (n % d) d 0 0)
  exact ⟨n / d + bnat (roundsUp rm g (n / d) (n % d) d 0 0), by omega, rfl⟩

/-- FRND: from 2^m up a value is integral already; below, its integer has at most 2^m and is exact, and a zero keeps the source's sign. -/
theorem frnd_spec {f : FFmt} (hf : f ∈ scalarFmts) (rm : Rm) (x : Nat) :
    ((fmtValue f x).isNan = true → some (frnd f rm x) = fmtNan f) ∧ ((fmtValue f x).isInf = true → frnd f rm x = x) ∧
    (∀ g n e, fmtValue f x = .fin g n e → (e * 2 ^ fmtMant f ≤ n → frnd f rm x = x) ∧
      (n < e * 2 ^ fmtMant f → ratOf (fmtValue f (frnd f rm x)) = (roundInt rm 0 0 (.fin g n e) : ℚ) ∧
        (fmtValue f (frnd f rm x)).neg? = g)) := by
  cases hx : fmtValue f x with
  | nan => simp [frnd, hx, XR.isNan, XR.isInf, some_fmtNan_getD hf]
  | inf g => simp [frnd, hx, XR.isNan, XR.isInf]
  | fin g n e =>
    refine ⟨nofun, nofun, ?_⟩
    rintro _ _ _ ⟨⟩
    refine ⟨fun hle => by simp [frnd, hx, hle], fun hlt => ?_⟩
    obtain ⟨i, hi, hround⟩ := roundInt_signed rm g hlt
    have habs : (roundInt rm 0 0 (.fin g n e)).natAbs = i := by rw [hround]; cases g <;> simp
    by_cases h0 : i = 0
    · have hr : frnd f rm x = fmtSign f g := by simp only [frnd, hx, habs, ge_iff_le, if_neg (Nat.not_le.mpr hlt), if_pos h0]
      rw [hr, fmtValue_zero hf, ratOf_ofDyadic, hround, h0]
      simp
    · have hr : frnd f rm x = roundRne f (.fin g i 1) := by simp only [frnd, hx, habs, ge_iff_le, if_neg (Nat.not_le.mpr hlt), if_neg h0]
      rw [hr, ratOf_roundRne_int hf g h0 hi, fmtValue_roundRne_int hf g h0 hi, hround]
      exact ⟨by push_cast; rfl, XR.neg?_ofDyadic ..⟩

/-! ## FMIN, FMAX and FCMP (R196, R198) -/

/-- Of two numbers, that which a strict order `below` puts last is below neither. -/
theorem pick_last {below : Nat → Nat → Bool} (hasymm : ∀ a b, below a b = true → below b a = false) (x y : Nat) :
    let r := if below x y = true then y else x
    (r = x ∨ r = y) ∧ ∀ z, z = x ∨ z = y → below r z = false := by
  have hirrefl (a : Nat) : below a a = false := by
    by_contra h
    exact h (hasymm a a (by simpa using h))
  intro r
  by_cases h : below x y = true
  · have hr : r = y := if_pos h
    rw [hr]
    exact ⟨.inr rfl, by rintro z (rfl | rfl); exacts [hasymm _ _ h, hirrefl _]⟩
  · have hr : r = x := if_neg h
    rw [hr]
    exact ⟨.inl rfl, by rintro z (rfl | rfl); exacts [hirrefl _, by simpa using h]⟩

theorem fminmax_spec {f : FFmt} (hf : f ∈ scalarFmts) (isMax : Bool) (x y : Nat) : MinMax f isMax x y (fminmax f isMax x y) := by
  by_cases hx : (fmtValue f x).isNan = true
  · by_cases hy : (fmtValue f y).isNan = true <;> simp [MinMax, fminmax, hx, hy, some_fmtNan_getD hf]
  by_cases hy : (fmtValue f y).isNan = true
  · simp [MinMax, fminmax, hx, hy]
  simp only [MinMax, fminmax, if_neg hx, if_neg hy]
  cases isMax
  case false => exact pick_last (below := fun a b => (fmtValue f b).ltZ (fmtValue f a)) (fun _ _ => XR.ltZ_asymm) x y
  case true => exact pick_last (below := fun a b => (fmtValue f a).ltZ (fmtValue f b)) (fun _ _ => XR.ltZ_asymm) x y

theorem fcmpFlags_eq (u v : XR) : fcmpFlags u v =
    let o := u.isNan || v.isNan
    ⟨o || !XR.lt u v, !o && !XR.lt u v && !XR.lt v u, !o && XR.lt u v, o⟩ := by
  unfold fcmpFlags
  generalize (u.isNan || v.isNan) = o
  split
  next unordered => simp [unordered]
  next ordered =>
  split
  next less => simp [ordered, less]
  next notLess =>
  split
  next greater => simp [ordered, notLess, greater]
  next equal => simp [ordered, notLess, equal]

end Sys2Proof.Machine
end

section
/-! PROOFS. Float words with no arithmetic: what each form of word leaves once its unit meets a specification. -/

namespace Sys2Proof.Machine

open Sys2Proof.Claims

theorem floatPick_of_meets {mk : Hdr → Opnd → Opnd → Opnd → Option Mod → Instr} {isMax : Bool} {spec : FFmt → Nat → Nat → Nat → Prop}
    (hexec : ∀ h d a b m s, exec (mk h d a b m) s = .next (minmaxWord isMax h d a b m s))
    (hspec : ∀ f x y, f ∈ scalarFmts → spec f x y (fminmax f isMax x y)) : FloatPick mk spec := by
  intro s h d a b m x y p hty hrun hread
  refine ⟨_, fun c _ => hspec _ _ _ (fmtOf_tyOf_mem_scalarFmts rfl hty), _, hexec h d a b m s,
    runWord_short hrun (fun c hc o ho => ?_) (fun c hc => ?_)⟩
  · cases ho; exact (hread c hc).1
  · rw [floatCheck_ok hty, (hread c hc).2]
    rfl

theorem floatOne_of_meets {mk : Hdr → Opnd → Opnd → Option Pat → Option Mod → Instr} {row : FloatRow} {g : FFmt → Rm → Nat → Nat}
    {spec : FFmt → Rm → Nat → Nat → Prop} (hrow : row.types = Ty.floats)
    (hexec : ∀ h d a b m s, exec (mk h d a b m) s = .next (floatOne row g h d a b m s))
    (hspec : ∀ f rm x, f ∈ scalarFmts → x < 2 ^ fmtWidth f → spec f rm x (g f rm x)) : FloatOne mk row spec := by
  intro s h d a b m x hty hrun hread
  refine ⟨_, fun c _ => hspec _ _ _ (fmtOf_tyOf_mem_scalarFmts hrow hty) (Nat.mod_lt _ (by positivity)), _, hexec h d a b m s,
    runWord_short hrun (fun c hc o ho => ?_) (fun c hc => ?_)⟩
  · cases ho; exact (hread c hc).1
  · rw [floatCheck_ok hty, (hread c hc).2]
    rfl

theorem fcmp_completes {s : State} {h : Hdr} {t : Ty} {a b : Opnd} {x y : Ctx → Nat} {p : Ctx → Option Bool}
    (ht : t ∈ Ty.floats) (hrun : CanRun s h 1)
    (hread : ∀ c, Member s 1 c → c.read2 (.flt (fmtOf t)) false a b = .ok (x c, y c, p c)) :
    Completes (.fcmp h t a b) s h 1 (fun c =>
      c.th.putResult none false ⟨none, some (fcmpFlags (fmtValue (fmtOf t) (x c)) (fmtValue (fmtOf t) (y c))), p c⟩) := by
  refine ⟨_, rfl, runWord_short hrun (fun c _ o ho => by cases ho) (fun c hc => ?_)⟩
  rw [modCheck_ok ht (by simp), hread c hc]
  rfl

end Sys2Proof.Machine
end

section
/-! PROOFS. The statement about FMIN, FMAX, FABS, FNEG, FRND and FCMP. -/

namespace Sys2Proof.Proofs

open Sys2Proof.Machine Sys2Proof.Claims

/-- Settles O27: −0 below +0 makes the order of FMIN and FMAX strict, and an integral value of at most 2^m, `m` the width of the mantissa
field, is exact in its format. -/
theorem floatCompareRound : Obligations.FloatCompareRound :=
  ⟨floatPick_of_meets (fun _ _ _ _ _ _ => rfl) (fun _ x y hf => fminmax_spec hf false x y),
    floatPick_of_meets (fun _ _ _ _ _ _ => rfl) (fun _ x y hf => fminmax_spec hf true x y),
    floatOne_of_meets rfl (fun _ _ _ _ _ _ => rfl) (fun _ _ _ _ _ => rfl),
    floatOne_of_meets rfl (fun _ _ _ _ _ _ => rfl) (fun f _ _ _ hx => xor_signBit f hx),
    floatOne_of_meets rfl (fun _ _ _ _ _ _ => rfl) (fun _ rm x hf _ => frnd_spec hf rm x),
    fun s h t a b x y p ht hrun hread => by
      have hword := fcmp_completes (t := t) ht hrun hread
      simp only [fcmpFlags_eq] at hword
      exact hword⟩

end Sys2Proof.Proofs
end
